-- ==== Sys2Proof/Word.lean ====
section
/-! DEFINITION. The word types of the Dyrax V770 and their plainest arithmetic (spec/00 R3, spec/01 R30). -/

namespace Sys2Proof

/-- One byte of memory. -/
abbrev Byte := BitVec 8
/-- One lane of a vector register (R30). -/
abbrev Word := BitVec 32
/-- A scalar or group register, an instruction word, an address (R30, R73). -/
abbrev DWord := BitVec 64
/-- A set of lanes of one wave: bit l is lane l (R14). -/
abbrev Mask := BitVec 32
/-- The 32 lanes of a vector register, lane 0 first (R30). -/
abbrev Lanes := List Word

/-- Every lane number of a wave (R14). -/
def laneIds : List Nat := List.range 32

/-- The value of lane `l`; a list of lanes always has 32 of them. -/
def laneOf (v : Lanes) (l : Nat) : Word := v.getD l 0

/-- The register whose lane `l` is `f l`. -/
def mkLanes (f : Nat → Word) : Lanes := laneIds.map f

/-- All 32 lanes. -/
def allLanes : Mask := 0xFFFFFFFF#32

/-- The lanes for which `p` holds. -/
def maskOf (p : Nat → Bool) : Mask :=
  BitVec.ofNat 32 ((laneIds.filter p).foldl (fun a l => a + 2 ^ l) 0)

/-- The lanes of a mask, lowest first. -/
def lanesIn (m : Mask) : List Nat := laneIds.filter fun l => m.getLsbD l

/-- The lowest lane of a mask, 0 for the empty mask. -/
def lowestLane (m : Mask) : Nat := (lanesIn m).headD 0

/-- The number of 1 bits among the low `n` bits of a natural number. -/
def popCountNat : Nat → Nat → Nat
  | 0, _ => 0
  | n + 1, x => x % 2 + popCountNat n (x / 2)

/-- The number of lanes of a mask. -/
def popCount (m : Mask) : Nat := popCountNat 32 m.toNat

/-- Bits [lo + n - 1 : lo] of a natural number. -/
def bitsOf (x lo n : Nat) : Nat := (x / 2 ^ lo) % 2 ^ n

/-- Bit `k` of a natural number. -/
def bitOf (x k : Nat) : Bool := (x / 2 ^ k) % 2 == 1

/-- 1 for true, 0 for false. -/
def bit1 (b : Bool) : Nat := if b then 1 else 0

/-- A value rounded up to a multiple of `n`. -/
def alignUp (x n : Nat) : Nat := (x + n - 1) / n * n

/-- The signed value of the low `n` bits of `x`. -/
def signedOf (n x : Nat) : Int :=
  let y := x % 2 ^ n
  if y < 2 ^ (n - 1) then (y : Int) else (y : Int) - (2 ^ n : Nat)

/-- An exact integer reduced modulo 2^n. -/
def wrapInt (n : Nat) (x : Int) : Nat := (x % ((2 ^ n : Nat) : Int)).toNat

end Sys2Proof
end

