-- ==== Sys2Proof/Syntax.lean ====
section
/-! DEFINITION. The syntax of every row of spec/opcode_table.json: the 145 Traex instructions with the fields of their
formats (spec/03 R78 to R85), and the 101 events of the device with what tells one event from another. -/

namespace Sys2Proof

/-- The guard of an instruction: predicate `p`, negated when `neg` (R27, R78). -/
structure Guard where
  neg : Bool
  p : BitVec 3
  deriving DecidableEq, Repr

/-- The kinds of a source field (R85). -/
inductive SrcKind where
  | vec | scl | grp | con
  deriving DecidableEq, Repr

/-- An 11-bit source field: kind, last-use bit and number (R85). -/
structure Src where
  kind : SrcKind
  last : Bool
  num : BitVec 8
  deriving DecidableEq, Repr

/-- The kinds of a VR destination (R79). -/
inductive DstKind where
  | vec | scl | grp | pred
  deriving DecidableEq, Repr

/-- The type codes 0 to 15 in order (R87). -/
inductive Ty where
  | i32 | n32 | i64 | n64 | i16 | n16 | f32 | f16 | bf16 | f16x2 | bf16x2 | e4m3 | e5m2 | e2m1 | q4e | b1
  deriving DecidableEq, Repr

/-- The rounding codes 0 to 3 in order (R88, R114). -/
inductive Rnd where
  | rne | rtz | rdn | rup
  deriving DecidableEq, Repr

/-- VR format (R79). -/
structure VR where
  g : Guard
  dk : DstKind
  dst : BitVec 8
  a : Src
  b : Src
  c : Src
  ty : Ty
  rnd : Rnd
  sat : Bool
  sub : BitVec 2
  deriving DecidableEq, Repr

/-- VI format (R81); `a` and `r` are reserved. -/
structure VI where
  g : Guard
  dst : BitVec 8
  a : BitVec 11
  r : BitVec 1
  imm : BitVec 32
  deriving DecidableEq, Repr

/-- M format (R82). -/
structure M where
  g : Guard
  data : BitVec 8
  last : Bool
  base : Src
  index : Src
  width : BitVec 4
  scope : BitVec 3
  order : BitVec 2
  cache : BitVec 2
  off : BitVec 10
  deriving DecidableEq, Repr

/-- E format (R84). -/
structure E where
  g : Guard
  blk : BitVec 6
  last : Bool
  tl : BitVec 3
  cls : BitVec 12
  aux : BitVec 14
  imm : BitVec 16
  deriving DecidableEq, Repr

/-- B format (R84); `mid` is bits [42:32], reserved but for MCALL and MDEF. -/
structure B where
  g : Guard
  link : BitVec 8
  last : Bool
  mid : BitVec 11
  off : BitVec 32
  deriving DecidableEq, Repr

/-- S format (R84). -/
structure S where
  g : Guard
  dst : BitVec 8
  a : Src
  sr : BitVec 13
  imm : BitVec 20
  deriving DecidableEq, Repr

/-- The two renamed register files and their pools (R30, R48). -/
inductive RegFile where
  | vec | scl
  deriving DecidableEq, Repr

/-- A place in a load-store domain: package, die, cluster and logical core (R338). `none` names no place at that
level: a fabric return table carries its package alone. -/
structure Place where
  pkg : Nat
  core : Option Nat
  deriving DecidableEq, Repr

/-- The engines of ENGINE_RESET (R431). -/
inductive EngineKind where
  | tile | copy | staging | port
  deriving DecidableEq, Repr

/-- The kinds of a request from another package (R416, R337). -/
inductive RemoteKind where
  | read | write | atomic | giveBack
  deriving DecidableEq, Repr

/-- A request that arrives from another package (R362, R416): its context, virtual address and bytes, or, for a return
of weight, the root, the amount and the abort mark (R337); for a write that travels as a packet the weight it carries.
An atomic names its operation and type (R213), its bytes are the operand and the value to compare with. The initiator sends
the service class (R365), and the request comes in through a port. A write or an atomic that is a release names the releaser's scope
code (R281). -/
structure RemoteReq where
  kind : RemoteKind
  pkg : Nat
  port : Nat
  cls : Nat
  op : Nat
  ty : Ty
  ctx : Nat
  va : DWord
  /-- the address is a physical one: a page of the initiator names this package's memory (R410) -/
  phys : Bool
  size : Nat
  bytes : List Byte
  root : Option Nat
  homePkg : Nat
  weight : Nat
  abort : Bool
  rel : Option Nat
  deriving DecidableEq, Repr

/-- What the host does over YCL (R413). -/
inductive HostKind where
  | load | store | atomic | fence
  deriving DecidableEq, Repr

/-- A host load, store or atomic over YCL at a host address, or a fence (R413): the bytes that it writes or the operands of an atomic
with its operation and type (R213), and whether it is a release. An acquire has no further effect in the device (R280). -/
structure HostAcc where
  kind : HostKind
  addr : Nat
  bytes : List Byte
  size : Nat
  op : Nat
  ty : Ty
  release : Bool
  deriving DecidableEq, Repr

/-- What the firmware update service hands over (R429): the fields of the image's header, its body, and its four signatures. -/
structure FwImage where
  magic : DWord
  format : BitVec 32
  svn : BitVec 32
  bodyLen : Nat
  bodyDigest : Nat
  /-- the 56 bytes at 0x0048 -/
  reserved : Nat
  body : List Nat
  sigs : List Nat
  deriving DecidableEq, Repr

/-- One constructor per row of the opcode table. -/
inductive Instr where
  -- Control instructions (R178)
  | nop (f : B)
  | bra (f : B)
  | brx (f : B)
  | call (f : B)
  | ret (f : B)
  | join (f : B)
  | exit (f : B)
  | yield (f : B)
  | trap (f : B)
  | rett (f : B)
  | mcall (f : B)
  | mdef (f : B)
  | brkpt (f : B)
  -- Integer and address instructions (R130)
  | iadd (f : VR)
  | isub (f : VR)
  | imul (f : VR)
  | imulh (f : VR)
  | imad (f : VR)
  | iaddc (f : VR)
  | isubb (f : VR)
  | iabs (f : VR)
  | ineg (f : VR)
  | imin (f : VR)
  | imax (f : VR)
  | nmin (f : VR)
  | nmax (f : VR)
  | lea (f : VR)
  | mov (f : VR)
  | movi (f : VI)
  -- Logic and bit instructions (R136)
  | and (f : VR)
  | or (f : VR)
  | xor (f : VR)
  | andn (f : VR)
  | not (f : VR)
  | bmix (f : VR)
  | shl (f : VR)
  | shr (f : VR)
  | sar (f : VR)
  | rol (f : VR)
  | bfe (f : VR)
  | bfi (f : VR)
  | popc (f : VR)
  | clz (f : VR)
  | brev (f : VR)
  | bperm (f : VR)
  -- Floating-point instructions (R140)
  | fadd (f : VR)
  | fsub (f : VR)
  | fmul (f : VR)
  | ffma (f : VR)
  | fmin (f : VR)
  | fmax (f : VR)
  | fabs (f : VR)
  | fneg (f : VR)
  | frnd (f : VR)
  | frcp (f : VR)
  | frsq (f : VR)
  | fsqrt (f : VR)
  | fexp2 (f : VR)
  | flog2 (f : VR)
  | fsincos (f : VR)
  | fclass (f : VR)
  -- Conversion and narrow-format instructions (R146 to R154)
  | cvt (f : VR)
  | cvtsr (f : VR)
  | fdot2 (f : VR)
  | qamax (f : VR)
  | qscale (f : VR)
  | qpack (f : VR)
  | qunpk (f : VR)
  -- Compare, select and predicate instructions (R155 to R158)
  | icmp (f : VR)
  | ncmp (f : VR)
  | fcmp (f : VR)
  | sel (f : VR)
  | plop (f : VR)
  | pmov (f : VR)
  -- Cross-lane instructions (R167)
  | ballot (f : VR)
  | lrank (f : VR)
  | shfl (f : VR)
  | bcast (f : VR)
  | rdlane (f : VR)
  | wrlane (f : VR)
  | reduce (f : VR)
  | scan (f : VR)
  | compress (f : VR)
  | expand (f : VR)
  | active (f : VR)
  -- Special-register and group-register instructions (R159), RELR (R71)
  | rdsr (f : S)
  | wrsr (f : S)
  | gwr (f : S)
  | gclaim (f : S)
  | rdclk (f : S)
  | relr (f : S)
  -- Loads (R202)
  | ldg (f : M)
  | lds (f : M)
  | ldx (f : M)
  | ldb (f : M)
  | exld (f : M)
  | pfg (f : M)
  | ldc (f : M)
  -- Stores (R206)
  | stg (f : M)
  | sts (f : M)
  | stx (f : M)
  | stb (f : M)
  | cstg (f : M)
  -- Line locks, cache maintenance and the heap (R207 to R212)
  | llock (f : M)
  | lunlk (f : M)
  | cflush (f : M)
  | cinv (f : M)
  | halloc (f : M)
  | hfree (f : M)
  -- Atomics and exact accumulators (R213 to R217)
  | atomg (f : M)
  | atoms (f : M)
  | atomx (f : M)
  | redg (f : M)
  | reds (f : M)
  | xred (f : M)
  | xrd (f : M)
  -- Synchronisation (R218 to R231)
  | bar (f : M)
  | barc (f : M)
  | fence (f : M)
  | syacq (f : M)
  | syrel (f : M)
  | sybind (f : M)
  | mwatch (f : M)
  | mwait (f : M)
  | waittl (f : M)
  | ordw (f : M)
  | orda (f : M)
  | waitq (f : M)
  | qopen (f : M)
  | qclose (f : M)
  -- Copy, spawn and fabric (R232)
  | acopy (f : E)
  | acopys (f : E)
  | afill (f : E)
  | spawn (f : E)
  | fsend (f : E)
  | fget (f : E)
  | tlrd (f : E)
  -- Tile engine (R258 to R274)
  | ores (f : E)
  | orel (f : E)
  | oload (f : E)
  | ogath (f : E)
  | mma (f : E)
  | mmab (f : E)
  | mzero (f : E)
  | mdrain (f : E)
  -- Issue, waits and register traffic of the cores
  | clauseIssue (q : Nat)
  | icacheLineArrival (cluster ctx line : Nat)
  | yieldRestrictionEnd (w : Nat)
  | spillWriteComplete (core : Nat) (file : RegFile)
  | fillComplete (core : Nat) (file : RegFile)
  | mwaitTimeout (w : Nat)
  | holdEnd (w : Nat)
  | longLatencyComplete (w k : Nat)
  -- Engine operations
  | segmentPush (op : Nat)
  | copySegmentComplete (item : Nat)
  | tileTaskComplete (core : Nat)
  | operationComplete (op : Nat)
  | packetRefuse (item hint : Nat)
  | packetResend (item : Nat)
  | packetAck (item : Nat)
  | remoteRequest (r : RemoteReq)
  | remoteAccessResend (q : Nat)
  -- The trellis
  | trellisPush (item : Nat)
  | ancestorInsert (item node : Nat)
  | topNodeRelease (node : Nat)
  | leafInsert (item : Nat)
  | enginePop (leaf : Nat)
  | leafPreempt (leaf : Nat)
  | reserveSetPreempt (node : Nat)
  | probeTokenSend (queue : Nat)
  | probeTokenArrival (token : Nat)
  | decant (item : Nat)
  | decantComplete (item : Nat)
  -- Traps, faults and weight
  | trapEntry (w : Nat)
  | faultRecordWrite (k : Nat)
  | faultRetry (ctx token : Nat)
  | faultFail (ctx token : Nat)
  | borrowRequest (k : Nat)
  | borrowGrant (k : Nat)
  | rootReturn (k : Nat)
  | fabricReturnFlush (k : Nat)
  | switchOut (wg : Nat)
  | restore (item : Nat)
  | detTurn (core : Nat)
  | dramRequestIssue (channel : Nat)
  -- The host interface
  | hostAccess (a : HostAcc)
  | hostQueueDoorbell (q : Nat) (tail : BitVec 32)
  | caskPacketRun (q : Nat)
  | launchComplete (id : Nat)
  | outputDigest (id : Nat)
  | vintageRecordWrite
  | completionEntryWrite (q : Nat)
  | eventRingWrite
  -- Management requests, kills and resets (R421, R431)
  | mgmtDoorbell (tail : BitVec 32)
  | ctxcreate (c : Nat) (prot : Bool)
  | ctxgrant (c kind unit : Nat)
  | teardown (c : Nat)
  | ctxfree (c : Nat)
  | waveKill (core slot : Nat)
  | workgroupKill (core wgid : Nat)
  | coreReset (core : Nat)
  | engineReset (kind : EngineKind) (unit : Nat)
  | trellisNodeFlush (node : Nat)
  | clusterReset (cluster : Nat)
  | dieReset (die : Nat)
  | packageWarmReset
  | coldReset
  | rootgrant (root c : Nat)
  | regwrite (off : Nat) (value mask : DWord)
  | progloadTrellisSlot (slot pa count : Nat)
  | progloadLeaf (leaf pa count : Nat)
  | progloadCaskSlot (slot pa count : Nat)
  | qdrForce (root : Nat)
  | hbmMapoutRequest (stack layer : Nat)
  | hbmMapoutAutoRequest (stack layer : Nat)
  | hbmMapoutCommit
  | hbmMapoutCancel
  | hbmMapoutDone
  | rackChunk
  -- Attestation and firmware (R425 to R430)
  | getVersion
  | getCapabilities
  | negotiateAlgorithms
  | getDigests
  | getCertificate (slot offset length : Nat)
  | challenge (nonce : Nat)
  | getMeasurements (index ctx nonce : Nat)
  | keyExchange (nonce : Nat)
  | finish
  | endSession
  | keyrelease (c : Nat)
  | firmwareImageUpdate (img : FwImage)
  | activateFirmware
  | firmwareSwitch
  | firmwareReady
  | firmwareRevert
  | claim (rsaKey slhKey sig : Nat)
  | transfer (sig : Nat)
  -- Telemetry, errors and links (R432 to R434)
  | sensorRead (id : Nat)
  | sensorUpdate (id : Nat) (value : Int)
  | errorLogRead
  | laneFailure (port : Nat)
  | widerScopePerform (k : Nat)
  | xinvComplete (k : Nat)
  | linkRetrainComplete (port : Nat)
  | yclLinkEnumeration (base : Nat)
  | i3cDynamicAddressAssign (addr : Nat)
  deriving DecidableEq, Repr

end Sys2Proof
end

