-- ==== Sys2Proof/Machine/Legal.lean ====
section
/-! DEFINITION. Steps 5 to 7 of R76 for each opcode, as far as they depend on the word alone: reserved and unused
fields, operand kinds and numbers, L bits, constants, types, rounding, SAT, sub-ops, scope and order codes. The footprint
(R56), the selectors' V bits (R233) and what a trap handler changes are checked where the state is at hand. -/

namespace Sys2Proof.Machine

/-- What an entry of the inline constant table is (R85). -/
inductive ConstClass where
  | int (v : Int)
  | pat (v : Nat)
  | flt (bits : Word)
  | lane
  deriving DecidableEq, Repr

/-- The float entries 0x80 to 0xA0 of R85 as FP32 patterns. -/
def constFloat (n : Nat) : Option Word :=
  match n with
  | 0x80 => some 0x00000000#32
  | 0x81 => some 0x80000000#32
  | 0x82 => some 0x3F000000#32
  | 0x83 => some 0xBF000000#32
  | 0x84 => some 0x3F800000#32
  | 0x85 => some 0xBF800000#32
  | 0x86 => some 0x40000000#32
  | 0x87 => some 0xC0000000#32
  | 0x88 => some 0x40800000#32
  | 0x89 => some 0xC0800000#32
  | 0x8A => some 0x3E800000#32
  | 0x8B => some 0xBE800000#32
  | 0x8C => some 0x7F800000#32
  | 0x8D => some 0xFF800000#32
  | 0x8E => some 0x7FC00000#32
  | 0x8F => some 0x7F7FFFFF#32
  | 0x90 => some 0x00800000#32
  | 0x91 => some 0x40490FDB#32
  | 0x92 => some 0x3F317218#32
  | 0x93 => some 0x3FB8AA3B#32
  | 0x94 => some 0x3E22F983#32
  | 0x96 => some 0x34000000#32
  | 0x97 => some 0x41000000#32
  | 0x98 => some 0x41800000#32
  | 0x99 => some 0x41200000#32
  | 0x9A => some 0x40400000#32
  | 0x9B => some 0x3E000000#32
  | 0x9C => some 0x3FC00000#32
  | 0x9D => some 0x42FE0000#32
  | 0x9E => some 0x43E00000#32
  | 0x9F => some 0x40C00000#32
  | 0xA0 => some 0x47600000#32
  | _ => none

/-- The class of constant entry `n`; `none` for a reserved entry and for a placeholder (R85). -/
def constClass (n : Nat) : Option ConstClass :=
  if n ≤ 0x3F then some (.int n)
  else if n ≤ 0x4F then some (.int (0x3F - (n : Int)))
  else if n ≤ 0x69 then some (.int (2 ^ (n - 0x50 + 6) : Nat))
  else if n = 0x6A then some (.pat 0xFF)
  else if n = 0x6B then some (.pat 0xFFFF)
  else if n = 0x6C then some (.pat 0x7FFFFFFF)
  else if n = 0x6D then some (.pat 0x80000000)
  else if n = 0x6E then some (.pat 0x7FFFFFFFFFFFFFFF)
  else if n = 0x6F then some (.pat 0x8000000000000000)
  else if n = 0xFC then some .lane
  else (constFloat n).map .flt

end Sys2Proof.Machine

namespace Sys2Proof

/-- Whether a type is 64 bits wide in registers (R107). -/
def Ty.is64 : Ty → Bool
  | .i64 | .n64 => true
  | _ => false

/-- The narrow types in which no constant can be presented (R86). -/
def Ty.isNarrow : Ty → Bool
  | .e4m3 | .e5m2 | .e2m1 | .q4e | .b1 => true
  | _ => false

/-- The type code of number `n`, in the order of R87. -/
def tyOfNat (n : Nat) : Ty :=
  [Ty.i32, .n32, .i64, .n64, .i16, .n16, .f32, .f16, .bf16, .f16x2, .bf16x2, .e4m3, .e5m2, .e2m1, .q4e, .b1].getD n .b1

/-- The source type S of CVT: bits [3:0] of the source C field (R146). -/
def VR.cvtS (f : VR) : Ty := tyOfNat (f.c.num.toNat % 16)

/-- The selection table of BMIX and PLOP: bits [8:1] of the word (R138, R157). -/
def VR.table (f : VR) : Nat :=
  let t : Nat := match f.ty with
    | .i32 => 0 | .n32 => 1 | .i64 => 2 | .n64 => 3 | .i16 => 4 | .n16 => 5 | .f32 => 6 | .f16 => 7 | .bf16 => 8
    | .f16x2 => 9 | .bf16x2 => 10 | .e4m3 => 11 | .e5m2 => 12 | .e2m1 => 13 | .q4e => 14 | .b1 => 15
  let r : Nat := match f.rnd with | .rne => 0 | .rtz => 1 | .rdn => 2 | .rup => 3
  t * 16 + r * 4 + bit1 f.sat * 2 + f.sub.toNat / 2

/-- The atomic operation code of bits [9:5] (R82). -/
def M.aop (f : M) : Nat := f.off.toNat / 32

/-- The type of an atomic (R82). -/
def M.ty (f : M) : Ty := tyOfNat f.width.toNat

/-- The source field that holds constant entry 0, the value of an omitted term (R192). -/
def Src.zero : Src := ⟨.con, false, 0⟩

/-- The source field whose eleven bits are 0: an unused field. -/
def Src.isUnused (x : Src) : Bool := x.kind == .vec && !x.last && x.num == 0

end Sys2Proof

namespace Sys2Proof.Machine

/-- Whether entry `n` can be presented in type `t` (R86). -/
def constOk (n : Nat) (t : Ty) : Bool :=
  match constClass n with
  | none => false
  | some (.flt _) => !(t.isNarrow || t == .i16 || t == .n16)
  | some _ => !t.isNarrow

/-- How an instruction uses a source field of the VR format (R125, R126, R167). -/
inductive SrcUse where
  /-- reserved: the whole field is 0 -/
  | unused
  /-- read in the type -/
  | as (t : Ty)
  /-- read in the type, from a scalar, group or constant source only -/
  | uniform (t : Ty)
  /-- read in the type, from a vector source only -/
  | vector (t : Ty)
  /-- a predicate number in bits [2:0] -/
  | pred
  /-- a type code in bits [3:0]: the source type of CVT -/
  | tyCode
  /-- read in the type, from any kind but group (PMOV.test) -/
  | noGroup (t : Ty)
  /-- read in the type, from any kind but vector, lane by lane (PMOV.set) -/
  | noVec (t : Ty)
  deriving DecidableEq, Repr

/-- What an opcode of the VR format accepts, and how it reads its sources. -/
structure Shape where
  a : SrcUse
  b : SrcUse
  c : SrcUse
  /-- the type in which the destination is written -/
  dst : Ty
  tys : List Ty
  rnd : Bool
  sat : Bool
  subs : List Nat
  dks : List DstKind
  /-- the fields [8:1] are a selection table and bit 0 is 0 (BMIX, PLOP) -/
  table : Bool
  /-- the kind rules of R167 hold in place of those of R80 -/
  crossKinds : Bool
  deriving DecidableEq, Repr

def tysI : List Ty := [.i16, .i32, .i64]
def tysN : List Ty := [.n16, .n32, .n64]
def tysWide : List Ty := [.i32, .n32, .i64, .n64]
def tysP : List Ty := [.f32, .f16, .bf16, .f16x2, .bf16x2]
def tysMove : List Ty := [.i32, .n32, .f32, .i64, .n64]
def tysCvt : List Ty := [.i16, .n16, .i32, .n32, .i64, .n64, .f32, .f16, .bf16, .e4m3, .e5m2, .e2m1]
def tysF3 : List Ty := [.f32, .f16, .bf16]
def dksVSG : List DstKind := [.vec, .scl, .grp]

/-- An integer-family shape with the given sources. -/
def shapeInt (a b c : SrcUse) (t : Ty) (tys : List Ty) (sat : Bool) : Shape :=
  ⟨a, b, c, t, tys, false, sat, [0], dksVSG, false, false⟩

/-- A cross-lane shape. -/
def shapeCross (a b c : SrcUse) (t : Ty) (tys : List Ty) (subs : List Nat) (dks : List DstKind) : Shape :=
  ⟨a, b, c, t, tys, false, false, subs, dks, false, true⟩

/-- The VR-format instructions with their fields. -/
def vrOf : Instr → Option VR
  | .iadd f | .isub f | .imul f | .imulh f | .imad f | .iaddc f | .isubb f | .iabs f | .ineg f | .imin f | .imax f
  | .nmin f | .nmax f | .lea f | .mov f | .and f | .or f | .xor f | .andn f | .not f | .bmix f | .shl f | .shr f
  | .sar f | .rol f | .bfe f | .bfi f | .popc f | .clz f | .brev f | .bperm f | .fadd f | .fsub f | .fmul f | .ffma f
  | .fmin f | .fmax f | .fabs f | .fneg f | .frnd f | .frcp f | .frsq f | .fsqrt f | .fexp2 f | .flog2 f | .fsincos f
  | .fclass f | .cvt f | .cvtsr f | .fdot2 f | .qamax f | .qscale f | .qpack f | .qunpk f | .icmp f | .ncmp f
  | .fcmp f | .sel f | .plop f | .pmov f | .ballot f | .lrank f | .shfl f | .bcast f | .rdlane f | .wrlane f
  | .reduce f | .scan f | .compress f | .expand f | .active f => some f
  | _ => none

/-- The shape of each VR-format instruction (R130, R136, R140, R146 to R158, R167). -/
def shapeOf : Instr → Option Shape
  | .iadd f | .isub f | .imul f => some (shapeInt (.as f.ty) (.as f.ty) .unused f.ty (tysI ++ tysN) true)
  | .imulh f => some (shapeInt (.as f.ty) (.as f.ty) .unused f.ty tysWide false)
  | .imad f => some (shapeInt (.as f.ty) (.as f.ty) (.as f.ty) f.ty (tysI ++ tysN) true)
  | .iaddc f | .isubb f => some { shapeInt (.as f.ty) (.as f.ty) (.as .n32) f.ty tysWide false with subs := [0, 1] }
  | .iabs f | .ineg f => some (shapeInt (.as f.ty) .unused .unused f.ty tysI true)
  | .imin f | .imax f => some (shapeInt (.as f.ty) (.as f.ty) .unused f.ty tysI false)
  | .nmin f | .nmax f => some (shapeInt (.as f.ty) (.as f.ty) .unused f.ty tysN false)
  | .lea f => some (shapeInt (.as .n64) (.as f.ty) (.as .n32) .n64 tysWide false)
  | .mov f => some (shapeInt (.as f.ty) .unused .unused f.ty tysMove false)
  | .and f | .or f | .xor f | .andn f => some (shapeInt (.as f.ty) (.as f.ty) .unused f.ty tysWide false)
  | .not f | .brev f => some (shapeInt (.as f.ty) .unused .unused f.ty tysWide false)
  | .bmix f =>
    let t : Ty := if f.dk == .vec then .n32 else .n64
    some { shapeInt (.as t) (.as t) (.as t) t [] false with table := true }
  | .shl f | .shr f | .sar f | .rol f => some (shapeInt (.as f.ty) (.as .n32) .unused f.ty tysWide false)
  | .bfe f => some (shapeInt (.as f.ty) (.as .n32) (.as .n32) f.ty tysWide false)
  | .bfi f => some (shapeInt (.as f.ty) (.as f.ty) (.as .n32) f.ty tysWide false)
  | .popc f | .clz f => some (shapeInt (.as f.ty) .unused .unused .n32 tysWide false)
  | .bperm f => some (shapeInt (.as f.ty) (.as f.ty) (.as f.ty) f.ty [.n32] false)
  | .fadd f | .fsub f | .fmul f =>
    some { shapeInt (.as f.ty) (.as f.ty) .unused f.ty tysP true with rnd := true }
  | .ffma f => some { shapeInt (.as f.ty) (.as f.ty) (.as f.ty) f.ty tysP true with rnd := true }
  | .fmin f | .fmax f => some { shapeInt (.as f.ty) (.as f.ty) .unused f.ty tysP false with subs := [0, 1] }
  | .fabs f | .fneg f => some (shapeInt (.as f.ty) .unused .unused f.ty tysP false)
  | .frnd f => some { shapeInt (.as f.ty) .unused .unused f.ty tysP false with rnd := true }
  | .frcp f | .frsq f | .fsqrt f | .fexp2 f | .flog2 f =>
    some { shapeInt (.as f.ty) .unused .unused f.ty [.f32] true with rnd := true }
  | .fsincos f => some { shapeInt (.as f.ty) .unused .unused f.ty [.f32] true with rnd := true, subs := [0, 1] }
  | .fclass f => some (shapeInt (.as f.ty) .unused .unused .n32 [.f32, .f16, .bf16] false)
  | .cvt f =>
    let s := f.cvtS
    some { shapeInt (.as s) (if s == .e4m3 || s == .e5m2 || s == .e2m1 then .as .n32 else .unused) .tyCode f.ty tysCvt true
      with rnd := true }
  | .cvtsr f => some (shapeInt (.as .f32) (.as .n32) .unused f.ty [.f16, .bf16, .e4m3, .e5m2, .e2m1] true)
  | .fdot2 f =>
    some { shapeInt (.as f.ty) (.as f.ty) (.as .f32) .f32 [.f16x2, .bf16x2] true with rnd := true }
  | .qamax f => some { shapeInt (.as f.ty) .unused .unused .f32 [.f32] false with subs := [0, 1], dks := [.vec] }
  | .qscale _ => some (shapeInt (.as .f32) .unused .unused .n32 [.e4m3, .e5m2, .e2m1] false)
  | .qpack f =>
    some { shapeInt (.as .f32) (if f.ty == .q4e then .unused else .as .n32) .unused .n32 [.e4m3, .e5m2, .e2m1, .q4e] false
      with dks := [.vec] }
  | .qunpk f =>
    some { shapeInt (.as f.ty) (if f.ty == .q4e then .unused else .as .n32) .unused .f32 [.e4m3, .e5m2, .e2m1, .q4e] true
      with dks := [.vec], rnd := true }
  | .icmp f =>
    some { shapeInt (.as f.ty) (.as f.ty) .unused .n32 tysI false with subs := [0, 1, 2, 3], dks := .pred :: dksVSG }
  | .ncmp f =>
    some { shapeInt (.as f.ty) (.as f.ty) .unused .n32 tysN false with subs := [0, 1, 2, 3], dks := .pred :: dksVSG }
  | .fcmp f =>
    some { shapeInt (.as f.ty) (.as f.ty) .unused .n32 [.f32, .f16, .bf16] false
      with subs := [0, 1, 2, 3], dks := .pred :: dksVSG }
  | .sel f => some (shapeInt (.as f.ty) (.as f.ty) .pred f.ty tysMove false)
  | .plop _ => some { shapeInt .pred .pred .pred .n32 [] false with dks := [.pred], table := true }
  | .pmov f =>
    match f.sub.toNat with
    | 0 => some { shapeInt (.noVec .n32) .unused .unused .n32 [.i32] false with dks := [.pred] }
    | 1 => some { shapeInt .pred .unused .unused .n32 [.i32] false with subs := [1] }
    | 2 => some { shapeInt .pred .unused .unused .n32 [.i32] false with subs := [2], dks := [.vec] }
    | _ => some { shapeInt (.noGroup .n32) .unused .unused .n32 [.i32, .n32] false with subs := [3], dks := [.pred] }
  | .ballot f =>
    some (shapeCross (if f.sub == 0 then .as .n32 else .pred) .unused .unused .n32 [.i32] [0, 1] [.pred, .scl, .vec])
  | .lrank f =>
    some { shapeCross (if f.sub == 0 then .as .n32 else .pred) (.as .n32) .unused .n32 [.i32] [0, 1] [.vec] with
      rnd := f.rnd != .rup }
  | .shfl f => some (shapeCross (.vector f.ty) (.as .n32) (.as .n32) f.ty tysMove [0, 1, 2, 3] [.vec])
  | .bcast f =>
    some (shapeCross (.vector f.ty) (if f.sub == 0 then .uniform .n32 else .unused) .unused f.ty tysMove [0, 1] [.vec])
  | .rdlane f =>
    some (shapeCross (.vector f.ty) (if f.sub == 0 then .uniform .n32 else .unused) .unused f.ty tysMove [0, 1] [.scl])
  | .wrlane f => some (shapeCross (.uniform f.ty) (.uniform .n32) .unused f.ty tysMove [0] [.vec])
  | .reduce f =>
    let flt := f.ty == .f32 || f.ty == .f16 || f.ty == .bf16
    some { shapeCross (.vector f.ty) .unused .unused f.ty (if f.sub == 3 then tysWide else tysWide ++ tysF3) [0, 1, 2, 3]
      [.vec, .scl] with rnd := flt && (f.sub == 0 || f.rnd == .rtz), sat := !flt && f.sub == 0 }
  | .scan f =>
    let flt := f.ty == .f32 || f.ty == .f16 || f.ty == .bf16
    some { shapeCross (.vector f.ty) .unused .unused f.ty (if f.sub == 3 then tysWide else tysWide ++ tysF3) [0, 1, 2, 3]
      [.vec] with rnd := flt && (f.sub == 0 || f.rnd == .rtz), sat := true }
  | .compress f | .expand f =>
    some (shapeCross (.vector f.ty) (if f.sub == 0 then .uniform .n32 else .pred) .unused f.ty tysMove [0, 1] [.vec])
  | .active _ => some (shapeCross .unused .unused .unused .n32 [.i32] [0, 1, 2] [.vec, .scl])
  | _ => none

/-- Whether a number fits a source kind, with an even first register for a pair (R85, R107, R126). -/
def srcNumOk (x : Src) (pair : Bool) : Bool :=
  match x.kind with
  | .vec => !pair || x.num.toNat % 2 == 0
  | .scl => x.num.toNat ≤ 63
  | .grp => x.num.toNat ≤ 31
  | .con => !x.last

/-- A source read in type `t`: number, pair and constant checks (R85, R86, R126). `lane` allows entry 0xFC. -/
def srcTyOk (x : Src) (t : Ty) (lane : Bool) : Bool :=
  srcNumOk x t.is64 && (x.kind != .con || (constOk x.num.toNat t && (lane || x.num != 0xFC)))

/-- A predicate number in a source field (R156 to R158, R167). -/
def srcPredOk (x : Src) : Bool := x.kind == .vec && !x.last && x.num.toNat ≤ 7

/-- Steps 5 and 6 of R76 for one source field of the VR format. `scalar` says that the operation runs on the scalar path
under the kind rules of R80. -/
def srcUseOk (u : SrcUse) (x : Src) (scalar : Bool) : Bool :=
  match u with
  | .unused => x.isUnused
  | .as t => srcTyOk x t (!scalar) && !(scalar && x.kind == .vec)
  | .uniform t => srcTyOk x t false && x.kind != .vec
  | .vector t => srcTyOk x t false && x.kind == .vec
  | .pred => srcPredOk x
  | .tyCode => x.kind == .vec && !x.last && x.num.toNat < 16 && tysCvt.contains (tyOfNat x.num.toNat)
  | .noGroup t => srcTyOk x t true && x.kind != .grp
  | .noVec t => srcTyOk x t true && x.kind != .vec

/-- The destination number of the VR format (R31, R80, R107). -/
def vrDstOk (dk : DstKind) (n : Nat) (pair : Bool) : Bool :=
  match dk with
  | .vec => !pair || n % 2 == 0
  | .scl => n ≤ 63
  | .grp => n ≤ 31
  | .pred => 1 ≤ n && n ≤ 7

/-- Steps 5 to 7 of R76 for a VR-format word of the given shape. -/
def vrLegal (sh : Shape) (f : VR) : Bool :=
  let scalar := !sh.crossKinds && (f.dk == .scl || f.dk == .grp)
  srcUseOk sh.a f.a scalar && srcUseOk sh.b f.b scalar && srcUseOk sh.c f.c scalar &&
  sh.dks.contains f.dk && vrDstOk f.dk f.dst.toNat sh.dst.is64 &&
  (if sh.table then f.sub.toNat % 2 == 0
   else sh.tys.contains f.ty && (sh.rnd || f.rnd == .rne) && (sh.sat || !f.sat) && sh.subs.contains f.sub.toNat)

/-- How an M-format instruction uses its data field (R192, R193). -/
inductive DataUse where
  /-- 0 -/
  | none
  /-- a vector group of `n` registers whose first is a multiple of `al`; `dst` and `src` say how it is used -/
  | vec (n al : Nat) (dst src : Bool)
  /-- a scalar, `n` of them; `opt` allows 0xFF for no result -/
  | scl (n : Nat) (dst src opt : Bool)
  /-- the selector of WAITTL in [46:44] -/
  | sel
  deriving DecidableEq, Repr

/-- How an M-format instruction uses its base or index field (R192, R193). -/
inductive AddrUse where
  /-- 0x600 -/
  | omitted
  /-- any kind; a vector base is a 64-bit pair -/
  | any64
  /-- any kind; one register -/
  | any32
  /-- uniform -/
  | uni
  deriving DecidableEq, Repr

/-- What an opcode of the M format accepts (R192). -/
structure MShape where
  data : DataUse
  base : AddrUse
  index : AddrUse
  /-- the width or type field is legal -/
  width : Bool
  scopes : List Nat
  orders : List Nat
  /-- the cache-policy field is legal -/
  cache : Bool
  /-- the offset field is legal -/
  off : Bool
  deriving DecidableEq, Repr

/-- Bytes of a width code (R82). -/
def widthBytes (w : Nat) : Nat := [1, 1, 2, 2, 4, 8, 16].getD w 0

/-- Registers of a width code: one, an even pair, or four from a multiple of 4 (R82). -/
def widthRegs (w : Nat) : Nat := [1, 1, 1, 1, 1, 2, 4].getD w 1

/-- The scalar registers that LDC writes: one, or the even pair of b128 (R204). -/
def ldcRegs (w : Nat) : Nat := if w = 6 then 2 else 1

/-- Whether an operation code and a type go together (R213); `ret` is false for REDG and REDS. -/
def atomicOk (op : Nat) (t : Ty) (ret : Bool) : Bool :=
  if op ≤ 5 then tysWide.contains t
  else if op = 6 then tysMove.contains t
  else if op = 7 then ret && tysMove.contains t
  else if op ≤ 9 then t == .n32
  else if op = 10 then t == .f32 || t == .f16x2 || t == .bf16x2
  else (op = 11 || op = 12) && t == .f32

/-- The data group of an atomic: the value, and behind it the compare value of `.cas` (R214). -/
def atomicRegs (op : Nat) (t : Ty) : Nat := (if t.is64 then 2 else 1) * (if op = 7 then 2 else 1)

def scopes05 : List Nat := [0, 1, 2, 3, 4, 5]
def scopes15 : List Nat := [1, 2, 3, 4, 5]

/-- The row of R192 of each M-format instruction. -/
def mShapeOf : Instr → Option (MShape × M)
  | .ldg f => some (⟨.vec (widthRegs f.width.toNat) (widthRegs f.width.toNat) true false, .any64, .any32, f.width.toNat ≤ 6,
      scopes05, [0, 1], true, true⟩, f)
  | .lds f => some (⟨.vec (widthRegs f.width.toNat) (widthRegs f.width.toNat) true false, .any32, .any32, f.width.toNat ≤ 6,
      [0, 1], [0, 1], f.cache == 0, true⟩, f)
  | .ldx f => some (⟨.vec (widthRegs f.width.toNat) (widthRegs f.width.toNat) true false, .any32, .any32, f.width.toNat ≤ 6,
      [2], [0, 1], f.cache == 0, true⟩, f)
  | .ldb f | .exld f => some (⟨.vec (widthRegs f.width.toNat) (widthRegs f.width.toNat) true false, .uni, .uni,
      f.width.toNat ≤ 6, scopes05, [0, 1], true, true⟩, f)
  | .pfg f => some (⟨.none, .any64, .any32, f.width.toNat ≤ 6, scopes05, [0], true, true⟩, f)
  | .ldc f => some (⟨.scl (ldcRegs f.width.toNat) true false false, .uni, .uni, f.width.toNat ≤ 6, scopes05, [0, 1], true,
      true⟩, f)
  | .stg f => some (⟨.vec (widthRegs f.width.toNat) (widthRegs f.width.toNat) false true, .any64, .any32, f.width.toNat ≤ 6,
      scopes05, [0, 2], true, true⟩, f)
  | .sts f => some (⟨.vec (widthRegs f.width.toNat) (widthRegs f.width.toNat) false true, .any32, .any32, f.width.toNat ≤ 6,
      [0, 1], [0, 2], f.cache == 0, true⟩, f)
  | .stx f => some (⟨.vec (widthRegs f.width.toNat) (widthRegs f.width.toNat) false true, .any32, .any32, f.width.toNat ≤ 6,
      [2], [0, 2], f.cache == 0, true⟩, f)
  | .stb f | .cstg f => some (⟨.vec (widthRegs f.width.toNat) (widthRegs f.width.toNat) false true, .uni, .uni,
      f.width.toNat ≤ 6, scopes05, [0, 2], true, true⟩, f)
  | .llock f => some (⟨.vec 1 1 true false, .any64, .any32, f.width == 0, [3], [0], f.cache == 0, true⟩, f)
  | .lunlk f => some (⟨.none, .any64, .any32, f.width == 0, [3], [0], f.cache == 0, true⟩, f)
  | .cflush f | .cinv f => some (⟨.none, .any64, .any32, f.width == 0, scopes15, [0], f.cache == 0, true⟩, f)
  | .halloc f => some (⟨.vec 2 2 true false, .uni, .any32, f.width == 5, [4], [0], f.cache == 0, true⟩, f)
  | .hfree f => some (⟨.vec 2 2 false true, .uni, .any32, f.width == 5, [4], [0], f.cache == 0, true⟩, f)
  | .atomg f => some (⟨.vec (atomicRegs f.aop f.ty) (atomicRegs f.aop f.ty) true true, .any64, .any32,
      atomicOk f.aop f.ty true, scopes05, [0, 1, 2, 3], true, true⟩, f)
  | .atoms f => some (⟨.vec (atomicRegs f.aop f.ty) (atomicRegs f.aop f.ty) true true, .any32, .any32,
      atomicOk f.aop f.ty true, [0, 1], [0, 1, 2, 3], f.cache == 0, true⟩, f)
  | .atomx f => some (⟨.vec (atomicRegs f.aop f.ty) (atomicRegs f.aop f.ty) true true, .any32, .any32,
      atomicOk f.aop f.ty true, [2], [0, 1, 2, 3], f.cache == 0, true⟩, f)
  | .redg f => some (⟨.vec (atomicRegs f.aop f.ty) (atomicRegs f.aop f.ty) false true, .any64, .any32,
      atomicOk f.aop f.ty false, scopes05, [0, 2], true, true⟩, f)
  | .reds f => some (⟨.vec (atomicRegs f.aop f.ty) (atomicRegs f.aop f.ty) false true, .any32, .any32,
      atomicOk f.aop f.ty false, [0, 1], [0, 2], f.cache == 0, true⟩, f)
  | .xred f => some (⟨.vec 1 1 false true, .any64, .any32, tysP.contains f.ty, scopes05, [0, 2], true, f.aop == 0⟩, f)
  | .xrd f => some (if f.width == 6 then ⟨.vec 1 1 true false, .any64, .any32, true, scopes05, [0, 1], true, true⟩
      else ⟨.vec 16 16 true false, .any64, .any32, f.width == 1, scopes05, [0, 1], f.cache == 0, true⟩, f)
  | .bar f => some (⟨.scl 1 true false true, .omitted, .omitted, f.width == 0, scopes15, [0], f.cache == 0, f.off == 0⟩, f)
  | .barc f => some (⟨.scl 1 true false true, .omitted, .omitted, f.width == 0, [2, 3, 4, 5], [0], f.cache == 0,
      f.off == 0⟩, f)
  | .fence f => some (⟨.none, .omitted, .omitted, f.width == 0, scopes15, [0], f.cache == 0, f.off == 0⟩, f)
  | .syacq f => some (⟨.scl 1 true false false, .uni, .uni, f.width == 5, scopes05, [0], f.cache == 0, true⟩, f)
  | .syrel f => some (⟨.scl 1 false true false, .uni, .uni, f.width == 5, scopes05, [0], f.cache == 0, true⟩, f)
  | .sybind f => some (⟨.scl 2 false true false, .uni, .uni, f.width == 5, [0], [0], f.cache == 0, f.off.toNat < 8⟩, f)
  | .mwatch f => some (⟨.scl 1 true false false, .uni, .uni, f.width == 5, scopes15, [0], f.cache == 0, true⟩, f)
  | .mwait f => some (⟨.scl 1 true true false, .omitted, .uni, f.width == 0, [0], [0], f.cache == 0, f.off == 0⟩, f)
  | .waittl f => some (⟨.sel, .uni, .omitted, f.width == 0, [0], [0], f.cache == 0, f.off == 0⟩, f)
  | .ordw f | .orda f => some (⟨.scl 1 true false true, .omitted, .omitted, f.width == 0, scopes15, [0], f.cache == 0,
      f.off == 0⟩, f)
  | .waitq f | .qclose f => some (⟨.scl 1 true false false, .uni, .omitted, f.width == 0, [0], [0], f.cache == 0,
      f.off == 0⟩, f)
  | .qopen f => some (⟨.scl 1 true false false, .uni, .uni, f.width == 0, scopes15, [0], f.cache == 0, f.off == 0⟩, f)
  | _ => none

/-- The data field of the M format: number, alignment, and the L bit, which a destination must leave clear (R49, R193). -/
def dataOk (u : DataUse) (n : Nat) (last : Bool) : Bool :=
  match u with
  | .none => n == 0 && !last
  | .vec k al dst _ => n % al == 0 && n + k ≤ 256 && !(last && dst)
  | .scl k dst _ opt =>
    !(last && dst) && ((opt && n == 255) || (n + k ≤ 64 && n % k == 0))
  | .sel => n < 8 && !last

/-- The base or index field of the M format (R83, R193). -/
def addrOk (u : AddrUse) (x : Src) : Bool :=
  match u with
  | .omitted => x == Src.zero
  | .any64 => srcTyOk x .n64 true
  | .any32 => srcTyOk x (if x.kind == .con then .n64 else .n32) true
  | .uni => srcTyOk x (if x.kind == .con then .n64 else .n32) false && x.kind != .vec

/-- Steps 5 to 7 of R76 for an M-format word. -/
def mLegal (sh : MShape) (f : M) : Bool :=
  dataOk sh.data f.data.toNat f.last && addrOk sh.base f.base && addrOk sh.index f.index && sh.width &&
  sh.scopes.contains f.scope.toNat && sh.orders.contains f.order.toNat && sh.cache && sh.off

/-- What an opcode of the E format accepts (R232): block length, and which fields are in use. -/
structure EShape where
  blk : Nat
  tl : Bool
  cls : Bool
  /-- aux[13:7] is RET or RB -/
  ret : Bool
  /-- aux[6:0] is legal -/
  aux : Bool
  imm : Bool
  /-- the block is a destination -/
  dst : Bool
  deriving DecidableEq, Repr

/-- The row of R232 of each E-format instruction, with the imm16 layouts of R243, R254, R257, R264, R265 and R271. -/
def eShapeOf : Instr → Option (EShape × E)
  | .acopy f => some (⟨5, true, true, true, f.aux.toNat % 128 == 0, bitsOf f.imm.toNat 3 1 == 0 && bitsOf f.imm.toNat 6 2 == 0,
      false⟩, f)
  | .acopys f => some (⟨7, true, true, true, f.aux.toNat % 128 == 0, bitsOf f.imm.toNat 3 1 == 0 && bitsOf f.imm.toNat 6 2 == 0,
      false⟩, f)
  | .afill f | .fsend f | .fget f => some (⟨5, true, true, true, f.aux.toNat % 128 == 0,
      bitsOf f.imm.toNat 2 2 == 0 && bitsOf f.imm.toNat 6 2 == 0, false⟩, f)
  | .spawn f => some (⟨4, true, true, true, f.aux.toNat % 128 == 0, f.imm.toNat % 256 == 0, false⟩, f)
  | .tlrd f => some (⟨1, true, false, false, f.aux.toNat < 4, f.imm.toNat == 0 || (f.imm.toNat == 1 && f.aux == 2), true⟩, f)
  | .ores f => some (⟨1, false, false, true, f.aux.toNat % 128 == 0, f.imm.toNat < 16, false⟩, f)
  | .orel f => some (⟨0, false, false, false, f.aux == 0, f.imm.toNat < 16, false⟩, f)
  | .oload f => some (⟨2, true, true, true, f.aux.toNat % 128 == 0, f.imm.toNat < 16, false⟩, f)
  | .ogath f => some (⟨3, true, true, true, f.aux.toNat % 128 == 0, f.imm.toNat < 0x2000, false⟩, f)
  | .mma f => some (⟨1, true, true, true, f.aux.toNat % 128 == 0,
      bitsOf f.imm.toNat 10 2 != 3 && bitsOf f.imm.toNat 12 2 != 3 && bitsOf f.imm.toNat 14 2 != 3, false⟩, f)
  | .mmab f => some (⟨1, true, true, true, f.aux.toNat % 128 < 2,
      bitsOf f.imm.toNat 10 2 != 3 && bitsOf f.imm.toNat 12 2 != 3 && bitsOf f.imm.toNat 14 2 != 3, false⟩, f)
  | .mzero f => some (⟨0, true, true, true, f.aux.toNat % 128 == 0, f.imm.toNat < 4, false⟩, f)
  | .mdrain f =>
    let x := f.imm.toNat
    let ofmt := bitsOf x 2 4
    let sat := bitOf x 6
    let rnd := bitsOf x 7 2
    let qb := bitOf x 9
    let amax := bitOf x 14
    let sc := bitsOf f.aux.toNat 4 3
    let combo :=
      if ofmt == 0 then !sat && rnd == 0 && !qb
      else if ofmt == 7 then !sat && rnd == 0 && !qb && !amax
      else if ofmt == 1 || ofmt == 2 then !qb
      else if ofmt ≤ 5 then !(sat && qb) && rnd == 0
      else ofmt == 6 && !sat && rnd == 0 && !qb
    some (⟨3, true, true, true, f.aux.toNat % 16 == 0 && (if amax then sc ≤ 5 else sc == 0),
      combo && bitsOf x 10 2 != 3 && bitsOf x 12 2 != 3 && x < 0x8000, false⟩, f)
  | _ => none

/-- Steps 5 to 7 of R76 for an E-format word (R232 to R234). The selector's V bit (R233) depends on the state. -/
def eLegal (sh : EShape) (f : E) : Bool :=
  (if sh.blk == 0 then f.blk == 0 && !f.last else f.blk.toNat + sh.blk ≤ 64 && !(f.last && sh.dst)) &&
  (sh.tl || f.tl == 0) && (sh.cls || f.cls == 0) &&
  (if sh.ret then f.aux.toNat / 8192 == 1 || f.aux.toNat / 128 == 0 else f.aux.toNat / 128 == 0) && sh.aux && sh.imm

/-- Steps 5 to 7 of R76 for a B-format word (R178, R84). `even` asks for an even pair in [51:44]. -/
def bLegal : Instr → Option Bool
  | .nop f | .join f | .exit f => some (f.link == 0 && !f.last && f.mid == 0 && f.off == 0)
  | .bra f | .trap f | .brkpt f => some (f.link == 0 && !f.last && f.mid == 0)
  | .brx f => some (f.link.toNat % 2 == 0 && f.mid == 0)
  | .call f => some (f.link.toNat % 2 == 0 && !f.last && f.mid == 0)
  | .ret f => some (f.link.toNat % 2 == 0 && f.mid == 0 && f.off == 0)
  | .yield f => some (f.link == 0 && !f.last && f.mid == 0 && f.off.toNat < 65536)
  | .rett f => some (f.link == 0 && !f.last && f.mid == 0 && f.off.toNat ≤ 2)
  | .mcall f => some (f.link.toNat ≤ 63 && !f.last && bitsOf f.mid.toNat 8 3 == 0 &&
      ([0, 1, 2, 3].all fun k => paramOk (bitsOf f.mid.toNat (2 * k) 2) (bitsOf f.off.toNat (8 * k) 8)))
  | .mdef f => some (f.link.toNat ≤ 63 && !f.last && bitsOf f.mid.toNat 0 6 == 0)
  | _ => none
where
  /-- A parameter descriptor of MCALL names a register or a constant entry that is no placeholder (R95). -/
  paramOk (kind num : Nat) : Bool :=
    match kind with
    | 0 => true
    | 1 => num ≤ 63
    | 2 => num ≤ 31
    | _ => (constClass num).isSome

/-- The special registers of R42 by number: per lane, writable, handler only. `none` is unassigned. -/
def srKind (n : Nat) : Option (Bool × Bool × Bool) :=
  if n = 0 || n = 8 then some (true, false, false)
  else if n ≤ 0x18 then some (false, false, false)
  else if n = 0x20 || n = 0x21 then some (false, true, false)
  else if 0x22 ≤ n && n ≤ 0x24 then some (false, false, false)
  else if 0x30 ≤ n && n ≤ 0x34 then some (false, false, false)
  else if 0x38 ≤ n && n ≤ 0x3F then some (false, true, false)
  else if 0x40 ≤ n && n ≤ 0x43 then some (false, false, false)
  else if 0x50 ≤ n && n ≤ 0x54 then some (false, false, true)
  else none

/-- Steps 5 to 7 of R76 for an S-format word (R159, R71, R42). Handler registers and the footprint depend on the state. -/
def sLegal : Instr → Option Bool
  | .rdsr f => some (f.a.isUnused && f.imm.toNat ≤ 1 && (f.imm == 0 || f.dst.toNat ≤ 63) &&
      (match srKind f.sr.toNat with | some (lane, _, _) => !(lane && f.imm == 1) | none => false))
  | .wrsr f => some (f.dst == 0 && f.imm == 0 && f.a.kind != .vec && srcTyOk f.a .n64 false &&
      (match srKind f.sr.toNat with | some (_, w, _) => w | none => false))
  | .gwr f => some (f.dst.toNat ≤ 31 && f.sr == 0 && srcTyOk f.a (if f.a.kind == .vec then .n32 else .n64) false &&
      (if f.a.kind == .vec then f.imm.toNat < 32 else f.imm == 0))
  | .gclaim f => some (f.dst.toNat ≤ 31 && f.a.isUnused && f.sr == 0 && f.imm == 0)
  | .rdclk f => some (f.dst.toNat ≤ 63 && f.a.isUnused && f.sr == 0 && f.imm == 0)
  | .relr f =>
    let file := bitsOf f.imm.toNat 18 2
    let count := bitsOf f.imm.toNat 9 9
    some (f.a.isUnused && f.sr == 0 && f.imm.toNat % 512 == 0 && file ≤ 1 && 1 ≤ count &&
      f.dst.toNat + count ≤ (if file = 0 then 256 else 64))
  | _ => none

/-- Steps 5 to 7 of R76 as far as the word alone decides them; true of every event. -/
def legal (i : Instr) : Bool :=
  match shapeOf i, vrOf i with
  | some sh, some f => vrLegal sh f
  | _, _ =>
    match mShapeOf i with
    | some (sh, f) => mLegal sh f
    | none =>
      match eShapeOf i with
      | some (sh, f) => eLegal sh f
      | none =>
        match bLegal i with
        | some b => b
        | none =>
          match sLegal i with
          | some b => b
          | none => match i with
            | .movi f => f.a == 0 && f.r == 0
            | _ => true

end Sys2Proof.Machine
end

