-- ==== Sys2Proof/Decode.lean ====
section
/-! DEFINITION. The decoder of instruction words (spec/03 R78 to R90) and, after it, the encoder, both written from the
bit tables of R79 to R85. The events of the opcode table have no word. -/

namespace Sys2Proof

/-- Why a word is no instruction. -/
inductive DecodeError where
  /-- an opcode of R90 -/
  | unassignedOpcode (op : Nat)
  /-- fewer than eight bytes -/
  | shortWord
  deriving DecidableEq, Repr

/-- Bits [lo + n - 1 : lo] of a word, as a field of `n` bits. -/
def fld (w lo n : Nat) : BitVec n := BitVec.ofNat n (w / 2 ^ lo)

/-- The guard nibble [55:52] (R78). -/
def decGuard (w : Nat) : Guard := ⟨bitOf w 55, fld w 52 3⟩

/-- A source field whose lowest bit is `lo` (R85). -/
def decSrc (w lo : Nat) : Src :=
  ⟨match bitsOf w (lo + 9) 2 with | 0 => .vec | 1 => .scl | 2 => .grp | _ => .con, bitOf w (lo + 8), fld w lo 8⟩

/-- The rounding code of number `n` (R88). -/
def rndOfNat (n : Nat) : Rnd := match n with | 0 => .rne | 1 => .rtz | 2 => .rdn | _ => .rup

def decVR (w : Nat) : VR :=
  { g := decGuard w, dk := (match bitsOf w 50 2 with | 0 => .vec | 1 => .scl | 2 => .grp | _ => .pred), dst := fld w 42 8,
    a := decSrc w 31, b := decSrc w 20, c := decSrc w 9, ty := tyOfNat (bitsOf w 5 4), rnd := rndOfNat (bitsOf w 3 2),
    sat := bitOf w 2, sub := fld w 0 2 }

def decVI (w : Nat) : VI := { g := decGuard w, dst := fld w 44 8, a := fld w 33 11, r := fld w 32 1, imm := fld w 0 32 }

def decM (w : Nat) : M :=
  { g := decGuard w, data := fld w 44 8, last := bitOf w 43, base := decSrc w 32, index := decSrc w 21, width := fld w 17 4,
    scope := fld w 14 3, order := fld w 12 2, cache := fld w 10 2, off := fld w 0 10 }

def decE (w : Nat) : E :=
  { g := decGuard w, blk := fld w 46 6, last := bitOf w 45, tl := fld w 42 3, cls := fld w 30 12, aux := fld w 16 14,
    imm := fld w 0 16 }

def decB (w : Nat) : B := { g := decGuard w, link := fld w 44 8, last := bitOf w 43, mid := fld w 32 11, off := fld w 0 32 }

def decS (w : Nat) : S := { g := decGuard w, dst := fld w 44 8, a := decSrc w 33, sr := fld w 20 13, imm := fld w 0 20 }

/-- The instruction of opcode `op` in word `w` (R89). -/
def decodeOp (op w : Nat) : Option Instr :=
  match op with
  | 0x00 => some (.nop (decB w))
  | 0x01 => some (.bra (decB w))
  | 0x02 => some (.brx (decB w))
  | 0x03 => some (.call (decB w))
  | 0x04 => some (.ret (decB w))
  | 0x05 => some (.join (decB w))
  | 0x06 => some (.exit (decB w))
  | 0x07 => some (.yield (decB w))
  | 0x08 => some (.trap (decB w))
  | 0x09 => some (.rett (decB w))
  | 0x0A => some (.mcall (decB w))
  | 0x0B => some (.mdef (decB w))
  | 0x0C => some (.brkpt (decB w))
  | 0x10 => some (.iadd (decVR w))
  | 0x11 => some (.isub (decVR w))
  | 0x12 => some (.imul (decVR w))
  | 0x13 => some (.imulh (decVR w))
  | 0x14 => some (.imad (decVR w))
  | 0x15 => some (.iaddc (decVR w))
  | 0x16 => some (.isubb (decVR w))
  | 0x17 => some (.iabs (decVR w))
  | 0x18 => some (.ineg (decVR w))
  | 0x19 => some (.imin (decVR w))
  | 0x1A => some (.imax (decVR w))
  | 0x1B => some (.nmin (decVR w))
  | 0x1C => some (.nmax (decVR w))
  | 0x1D => some (.lea (decVR w))
  | 0x1E => some (.mov (decVR w))
  | 0x1F => some (.movi (decVI w))
  | 0x20 => some (.and (decVR w))
  | 0x21 => some (.or (decVR w))
  | 0x22 => some (.xor (decVR w))
  | 0x23 => some (.andn (decVR w))
  | 0x24 => some (.not (decVR w))
  | 0x25 => some (.bmix (decVR w))
  | 0x26 => some (.shl (decVR w))
  | 0x27 => some (.shr (decVR w))
  | 0x28 => some (.sar (decVR w))
  | 0x29 => some (.rol (decVR w))
  | 0x2A => some (.bfe (decVR w))
  | 0x2B => some (.bfi (decVR w))
  | 0x2C => some (.popc (decVR w))
  | 0x2D => some (.clz (decVR w))
  | 0x2E => some (.brev (decVR w))
  | 0x2F => some (.bperm (decVR w))
  | 0x30 => some (.fadd (decVR w))
  | 0x31 => some (.fsub (decVR w))
  | 0x32 => some (.fmul (decVR w))
  | 0x33 => some (.ffma (decVR w))
  | 0x34 => some (.fmin (decVR w))
  | 0x35 => some (.fmax (decVR w))
  | 0x36 => some (.fabs (decVR w))
  | 0x37 => some (.fneg (decVR w))
  | 0x38 => some (.frnd (decVR w))
  | 0x39 => some (.frcp (decVR w))
  | 0x3A => some (.frsq (decVR w))
  | 0x3B => some (.fsqrt (decVR w))
  | 0x3C => some (.fexp2 (decVR w))
  | 0x3D => some (.flog2 (decVR w))
  | 0x3E => some (.fsincos (decVR w))
  | 0x3F => some (.fclass (decVR w))
  | 0x40 => some (.cvt (decVR w))
  | 0x41 => some (.cvtsr (decVR w))
  | 0x42 => some (.fdot2 (decVR w))
  | 0x43 => some (.qamax (decVR w))
  | 0x44 => some (.qscale (decVR w))
  | 0x45 => some (.qpack (decVR w))
  | 0x46 => some (.qunpk (decVR w))
  | 0x50 => some (.icmp (decVR w))
  | 0x51 => some (.ncmp (decVR w))
  | 0x52 => some (.fcmp (decVR w))
  | 0x53 => some (.sel (decVR w))
  | 0x54 => some (.plop (decVR w))
  | 0x55 => some (.pmov (decVR w))
  | 0x58 => some (.ballot (decVR w))
  | 0x59 => some (.lrank (decVR w))
  | 0x5A => some (.shfl (decVR w))
  | 0x5B => some (.bcast (decVR w))
  | 0x5C => some (.rdlane (decVR w))
  | 0x5D => some (.wrlane (decVR w))
  | 0x5E => some (.reduce (decVR w))
  | 0x5F => some (.scan (decVR w))
  | 0x60 => some (.compress (decVR w))
  | 0x61 => some (.expand (decVR w))
  | 0x62 => some (.active (decVR w))
  | 0x68 => some (.rdsr (decS w))
  | 0x69 => some (.wrsr (decS w))
  | 0x6A => some (.gwr (decS w))
  | 0x6B => some (.gclaim (decS w))
  | 0x6C => some (.rdclk (decS w))
  | 0x6D => some (.relr (decS w))
  | 0x80 => some (.ldg (decM w))
  | 0x81 => some (.lds (decM w))
  | 0x82 => some (.ldx (decM w))
  | 0x83 => some (.ldb (decM w))
  | 0x84 => some (.exld (decM w))
  | 0x85 => some (.pfg (decM w))
  | 0x86 => some (.ldc (decM w))
  | 0x88 => some (.stg (decM w))
  | 0x89 => some (.sts (decM w))
  | 0x8A => some (.stx (decM w))
  | 0x8B => some (.stb (decM w))
  | 0x8C => some (.cstg (decM w))
  | 0x90 => some (.llock (decM w))
  | 0x91 => some (.lunlk (decM w))
  | 0x92 => some (.cflush (decM w))
  | 0x93 => some (.cinv (decM w))
  | 0x94 => some (.halloc (decM w))
  | 0x95 => some (.hfree (decM w))
  | 0x98 => some (.atomg (decM w))
  | 0x99 => some (.atoms (decM w))
  | 0x9A => some (.atomx (decM w))
  | 0x9B => some (.redg (decM w))
  | 0x9C => some (.reds (decM w))
  | 0x9D => some (.xred (decM w))
  | 0x9E => some (.xrd (decM w))
  | 0xA0 => some (.bar (decM w))
  | 0xA1 => some (.barc (decM w))
  | 0xA2 => some (.fence (decM w))
  | 0xA3 => some (.syacq (decM w))
  | 0xA4 => some (.syrel (decM w))
  | 0xA5 => some (.sybind (decM w))
  | 0xA6 => some (.mwatch (decM w))
  | 0xA7 => some (.mwait (decM w))
  | 0xA8 => some (.waittl (decM w))
  | 0xA9 => some (.ordw (decM w))
  | 0xAA => some (.orda (decM w))
  | 0xAB => some (.waitq (decM w))
  | 0xAC => some (.qopen (decM w))
  | 0xAD => some (.qclose (decM w))
  | 0xB0 => some (.acopy (decE w))
  | 0xB1 => some (.acopys (decE w))
  | 0xB2 => some (.afill (decE w))
  | 0xB3 => some (.spawn (decE w))
  | 0xB4 => some (.fsend (decE w))
  | 0xB5 => some (.fget (decE w))
  | 0xB6 => some (.tlrd (decE w))
  | 0xC0 => some (.ores (decE w))
  | 0xC1 => some (.orel (decE w))
  | 0xC2 => some (.oload (decE w))
  | 0xC3 => some (.ogath (decE w))
  | 0xC4 => some (.mma (decE w))
  | 0xC5 => some (.mmab (decE w))
  | 0xC6 => some (.mzero (decE w))
  | 0xC7 => some (.mdrain (decE w))
  | _ => none

/-- The instruction of a 64-bit word: the opcode alone, bits [63:56], fixes the format (R78). -/
def decode (w : DWord) : Except DecodeError Instr :=
  match decodeOp (w.toNat / 2 ^ 56) w.toNat with
  | some i => .ok i
  | none => .error (.unassignedOpcode (w.toNat / 2 ^ 56))

/-- The little-endian number of a list of bytes (R3). -/
def leNat : List Byte → Nat
  | [] => 0
  | b :: bs => b.toNat + 256 * leNat bs

/-- The first `n` bytes of a number, little-endian (R3). -/
def leBytes : Nat → Nat → List Byte
  | 0, _ => []
  | n + 1, x => BitVec.ofNat 8 x :: leBytes n (x / 256)

/-- The instruction in the first eight bytes of a list, with the bytes after them. -/
def decodeBytes (bs : List Byte) : Except DecodeError (Instr × List Byte) :=
  if bs.length < 8 then .error .shortWord
  else match decode (BitVec.ofNat 64 (leNat (bs.take 8))) with
    | .ok i => .ok (i, bs.drop 8)
    | .error e => .error e

/-- The decoder's answer for `nbits` bits of a word numbered as the opcode table numbers them. -/
def decodeTableWord (nbits w : Nat) : Option Instr :=
  match decodeBytes (leBytes 8 (w % 2 ^ nbits)) with
  | .ok (i, _) => some i
  | .error _ => none

/-! The encoder. -/

def encGuard (g : Guard) : Nat := bit1 g.neg * 2 ^ 55 + g.p.toNat * 2 ^ 52

def encSrc (x : Src) (lo : Nat) : Nat :=
  (match x.kind with | .vec => 0 | .scl => 1 | .grp => 2 | .con => 3) * 2 ^ (lo + 9) + bit1 x.last * 2 ^ (lo + 8) +
    x.num.toNat * 2 ^ lo

/-- The number of a type code (R87). -/
def tyCode : Ty → Nat
  | .i32 => 0 | .n32 => 1 | .i64 => 2 | .n64 => 3 | .i16 => 4 | .n16 => 5 | .f32 => 6 | .f16 => 7 | .bf16 => 8
  | .f16x2 => 9 | .bf16x2 => 10 | .e4m3 => 11 | .e5m2 => 12 | .e2m1 => 13 | .q4e => 14 | .b1 => 15

def rndCode : Rnd → Nat
  | .rne => 0 | .rtz => 1 | .rdn => 2 | .rup => 3

def encVR (f : VR) : Nat :=
  encGuard f.g + (match f.dk with | .vec => 0 | .scl => 1 | .grp => 2 | .pred => 3) * 2 ^ 50 + f.dst.toNat * 2 ^ 42 +
    encSrc f.a 31 + encSrc f.b 20 + encSrc f.c 9 + tyCode f.ty * 2 ^ 5 + rndCode f.rnd * 2 ^ 3 + bit1 f.sat * 2 ^ 2 +
    f.sub.toNat

def encVI (f : VI) : Nat :=
  encGuard f.g + f.dst.toNat * 2 ^ 44 + f.a.toNat * 2 ^ 33 + f.r.toNat * 2 ^ 32 + f.imm.toNat

def encM (f : M) : Nat :=
  encGuard f.g + f.data.toNat * 2 ^ 44 + bit1 f.last * 2 ^ 43 + encSrc f.base 32 + encSrc f.index 21 +
    f.width.toNat * 2 ^ 17 + f.scope.toNat * 2 ^ 14 + f.order.toNat * 2 ^ 12 + f.cache.toNat * 2 ^ 10 + f.off.toNat

def encE (f : E) : Nat :=
  encGuard f.g + f.blk.toNat * 2 ^ 46 + bit1 f.last * 2 ^ 45 + f.tl.toNat * 2 ^ 42 + f.cls.toNat * 2 ^ 30 +
    f.aux.toNat * 2 ^ 16 + f.imm.toNat

def encB (f : B) : Nat :=
  encGuard f.g + f.link.toNat * 2 ^ 44 + bit1 f.last * 2 ^ 43 + f.mid.toNat * 2 ^ 32 + f.off.toNat

def encS (f : S) : Nat :=
  encGuard f.g + f.dst.toNat * 2 ^ 44 + encSrc f.a 33 + f.sr.toNat * 2 ^ 20 + f.imm.toNat

/-- The opcode and the other bits of an instruction's word; none for an event. -/
def encodeParts (i : Instr) : Option (Nat × Nat) :=
  match i with
  | .nop f => some (0x00, encB f)
  | .bra f => some (0x01, encB f)
  | .brx f => some (0x02, encB f)
  | .call f => some (0x03, encB f)
  | .ret f => some (0x04, encB f)
  | .join f => some (0x05, encB f)
  | .exit f => some (0x06, encB f)
  | .yield f => some (0x07, encB f)
  | .trap f => some (0x08, encB f)
  | .rett f => some (0x09, encB f)
  | .mcall f => some (0x0A, encB f)
  | .mdef f => some (0x0B, encB f)
  | .brkpt f => some (0x0C, encB f)
  | .iadd f => some (0x10, encVR f)
  | .isub f => some (0x11, encVR f)
  | .imul f => some (0x12, encVR f)
  | .imulh f => some (0x13, encVR f)
  | .imad f => some (0x14, encVR f)
  | .iaddc f => some (0x15, encVR f)
  | .isubb f => some (0x16, encVR f)
  | .iabs f => some (0x17, encVR f)
  | .ineg f => some (0x18, encVR f)
  | .imin f => some (0x19, encVR f)
  | .imax f => some (0x1A, encVR f)
  | .nmin f => some (0x1B, encVR f)
  | .nmax f => some (0x1C, encVR f)
  | .lea f => some (0x1D, encVR f)
  | .mov f => some (0x1E, encVR f)
  | .movi f => some (0x1F, encVI f)
  | .and f => some (0x20, encVR f)
  | .or f => some (0x21, encVR f)
  | .xor f => some (0x22, encVR f)
  | .andn f => some (0x23, encVR f)
  | .not f => some (0x24, encVR f)
  | .bmix f => some (0x25, encVR f)
  | .shl f => some (0x26, encVR f)
  | .shr f => some (0x27, encVR f)
  | .sar f => some (0x28, encVR f)
  | .rol f => some (0x29, encVR f)
  | .bfe f => some (0x2A, encVR f)
  | .bfi f => some (0x2B, encVR f)
  | .popc f => some (0x2C, encVR f)
  | .clz f => some (0x2D, encVR f)
  | .brev f => some (0x2E, encVR f)
  | .bperm f => some (0x2F, encVR f)
  | .fadd f => some (0x30, encVR f)
  | .fsub f => some (0x31, encVR f)
  | .fmul f => some (0x32, encVR f)
  | .ffma f => some (0x33, encVR f)
  | .fmin f => some (0x34, encVR f)
  | .fmax f => some (0x35, encVR f)
  | .fabs f => some (0x36, encVR f)
  | .fneg f => some (0x37, encVR f)
  | .frnd f => some (0x38, encVR f)
  | .frcp f => some (0x39, encVR f)
  | .frsq f => some (0x3A, encVR f)
  | .fsqrt f => some (0x3B, encVR f)
  | .fexp2 f => some (0x3C, encVR f)
  | .flog2 f => some (0x3D, encVR f)
  | .fsincos f => some (0x3E, encVR f)
  | .fclass f => some (0x3F, encVR f)
  | .cvt f => some (0x40, encVR f)
  | .cvtsr f => some (0x41, encVR f)
  | .fdot2 f => some (0x42, encVR f)
  | .qamax f => some (0x43, encVR f)
  | .qscale f => some (0x44, encVR f)
  | .qpack f => some (0x45, encVR f)
  | .qunpk f => some (0x46, encVR f)
  | .icmp f => some (0x50, encVR f)
  | .ncmp f => some (0x51, encVR f)
  | .fcmp f => some (0x52, encVR f)
  | .sel f => some (0x53, encVR f)
  | .plop f => some (0x54, encVR f)
  | .pmov f => some (0x55, encVR f)
  | .ballot f => some (0x58, encVR f)
  | .lrank f => some (0x59, encVR f)
  | .shfl f => some (0x5A, encVR f)
  | .bcast f => some (0x5B, encVR f)
  | .rdlane f => some (0x5C, encVR f)
  | .wrlane f => some (0x5D, encVR f)
  | .reduce f => some (0x5E, encVR f)
  | .scan f => some (0x5F, encVR f)
  | .compress f => some (0x60, encVR f)
  | .expand f => some (0x61, encVR f)
  | .active f => some (0x62, encVR f)
  | .rdsr f => some (0x68, encS f)
  | .wrsr f => some (0x69, encS f)
  | .gwr f => some (0x6A, encS f)
  | .gclaim f => some (0x6B, encS f)
  | .rdclk f => some (0x6C, encS f)
  | .relr f => some (0x6D, encS f)
  | .ldg f => some (0x80, encM f)
  | .lds f => some (0x81, encM f)
  | .ldx f => some (0x82, encM f)
  | .ldb f => some (0x83, encM f)
  | .exld f => some (0x84, encM f)
  | .pfg f => some (0x85, encM f)
  | .ldc f => some (0x86, encM f)
  | .stg f => some (0x88, encM f)
  | .sts f => some (0x89, encM f)
  | .stx f => some (0x8A, encM f)
  | .stb f => some (0x8B, encM f)
  | .cstg f => some (0x8C, encM f)
  | .llock f => some (0x90, encM f)
  | .lunlk f => some (0x91, encM f)
  | .cflush f => some (0x92, encM f)
  | .cinv f => some (0x93, encM f)
  | .halloc f => some (0x94, encM f)
  | .hfree f => some (0x95, encM f)
  | .atomg f => some (0x98, encM f)
  | .atoms f => some (0x99, encM f)
  | .atomx f => some (0x9A, encM f)
  | .redg f => some (0x9B, encM f)
  | .reds f => some (0x9C, encM f)
  | .xred f => some (0x9D, encM f)
  | .xrd f => some (0x9E, encM f)
  | .bar f => some (0xA0, encM f)
  | .barc f => some (0xA1, encM f)
  | .fence f => some (0xA2, encM f)
  | .syacq f => some (0xA3, encM f)
  | .syrel f => some (0xA4, encM f)
  | .sybind f => some (0xA5, encM f)
  | .mwatch f => some (0xA6, encM f)
  | .mwait f => some (0xA7, encM f)
  | .waittl f => some (0xA8, encM f)
  | .ordw f => some (0xA9, encM f)
  | .orda f => some (0xAA, encM f)
  | .waitq f => some (0xAB, encM f)
  | .qopen f => some (0xAC, encM f)
  | .qclose f => some (0xAD, encM f)
  | .acopy f => some (0xB0, encE f)
  | .acopys f => some (0xB1, encE f)
  | .afill f => some (0xB2, encE f)
  | .spawn f => some (0xB3, encE f)
  | .fsend f => some (0xB4, encE f)
  | .fget f => some (0xB5, encE f)
  | .tlrd f => some (0xB6, encE f)
  | .ores f => some (0xC0, encE f)
  | .orel f => some (0xC1, encE f)
  | .oload f => some (0xC2, encE f)
  | .ogath f => some (0xC3, encE f)
  | .mma f => some (0xC4, encE f)
  | .mmab f => some (0xC5, encE f)
  | .mzero f => some (0xC6, encE f)
  | .mdrain f => some (0xC7, encE f)
  | _ => none

/-- The words of an instruction: one for a Traex instruction, none for an event. -/
def encode (i : Instr) : List DWord :=
  match encodeParts i with
  | some (op, x) => [BitVec.ofNat 64 (op * 2 ^ 56 + x)]
  | none => []

end Sys2Proof
end

