-- ==== Sys2Proof/Machine/Flags.lean ====
section
/-! DEFINITION. The sticky bits of SR_STATUS [8:0] as a set (spec/01 R43), and the conditions of R119 that more than one
operation computes. -/

namespace Sys2Proof.Machine

/-- Bits [8:0] of SR_STATUS (R43). -/
abbrev Sticky := BitVec 9

namespace Sticky

def none : Sticky := 0
def invalid : Sticky := 0x001
def divzero : Sticky := 0x002
def overflow : Sticky := 0x004
def underflow : Sticky := 0x008
def inexact : Sticky := 0x010
def saturate : Sticky := 0x020
def fmterr : Sticky := 0x040
def relread : Sticky := 0x080
def scopemis : Sticky := 0x100

end Sticky

/-- A bit of SR_STATUS when its condition holds. -/
def stickyIf (b : Bool) (x : Sticky) : Sticky := if b then x else 0

/-- The union of the bits of several elements or lanes (R107, R128). -/
def stickyAll (l : List Sticky) : Sticky := l.foldl (· ||| ·) 0

/-- The enabled arithmetic conditions: SR_TRAPEN.ARITH against bits [4:0] (R44). -/
def arithEnabled (trapen : DWord) (x : Sticky) : Bool := ((trapen.toNat &&& 0x1F) &&& x.toNat) != 0

/-- Whether any ARITH enable is set (R129). -/
def arithAny (trapen : DWord) : Bool := trapen.toNat % 32 != 0

/-- SR_TRAPEN.RELREAD (R44). -/
def relreadEnabled (trapen : DWord) : Bool := bitOf trapen.toNat 7

end Sys2Proof.Machine
end

