-- ==== Sys2Proof/Machine/Float.lean ====
section
/-! DEFINITION. The floating formats, exact values, rounding and special values of spec/04 (R104, R105, R114 to R119), and
the floating sums and products of R141. All arithmetic is exact on integers until one rounding. -/

namespace Sys2Proof.Machine

/-- How a format uses its top codes (R104). -/
inductive FmtKind where
  /-- infinities and NaNs in the top exponent -/
  | ieee
  /-- E4M3: only 0x7F and 0xFF are NaN -/
  | nanOnly
  /-- E2M1: every code is finite -/
  | finite
  deriving DecidableEq, Repr

/-- A floating format: exponent bits, fraction bits, kind, and whether it has signalling NaNs (R104, R105). -/
structure Fmt where
  eb : Nat
  fb : Nat
  kind : FmtKind
  snan : Bool
  deriving DecidableEq, Repr

def fp32 : Fmt := ⟨8, 23, .ieee, true⟩
def fp16 : Fmt := ⟨5, 10, .ieee, true⟩
def bfl16 : Fmt := ⟨8, 7, .ieee, true⟩
def fE4M3 : Fmt := ⟨4, 3, .nanOnly, false⟩
def fE5M2 : Fmt := ⟨5, 2, .ieee, false⟩
def fE2M1 : Fmt := ⟨2, 1, .finite, false⟩

def Fmt.bias (f : Fmt) : Nat := 2 ^ (f.eb - 1) - 1
/-- The exponent of the smallest normal. -/
def Fmt.emin (f : Fmt) : Int := 1 - (f.bias : Int)
def Fmt.signBit (f : Fmt) : Nat := 2 ^ (f.eb + f.fb)
def Fmt.topExp (f : Fmt) : Nat := 2 ^ f.eb - 1

/-- The magnitude code of the largest finite value (R104). -/
def Fmt.maxCode (f : Fmt) : Nat :=
  match f.kind with
  | .ieee => f.topExp * 2 ^ f.fb - 1
  | .nanOnly => f.topExp * 2 ^ f.fb + 2 ^ f.fb - 2
  | .finite => 2 ^ (f.eb + f.fb) - 1

/-- The canonical NaN (R105); E2M1 has none, and its conversions give +0 (R117). -/
def Fmt.nanCode (f : Fmt) : Nat :=
  match f.kind with
  | .ieee => f.topExp * 2 ^ f.fb + 2 ^ (f.fb - 1)
  | .nanOnly => 0x7F
  | .finite => 0

/-- An exact value, an infinity or a NaN: (-1)^neg * m * 2^e. -/
inductive Num where
  | nan (sig : Bool)
  | inf (neg : Bool)
  | fin (neg : Bool) (m : Nat) (e : Int)
  deriving DecidableEq, Repr

/-- The float format of a type; `none` for integers, packed and block types. -/
def fmtOf : Ty → Option Fmt
  | .f32 => some fp32
  | .f16 | .f16x2 => some fp16
  | .bf16 | .bf16x2 => some bfl16
  | .e4m3 => some fE4M3
  | .e5m2 => some fE5M2
  | .e2m1 => some fE2M1
  | _ => none

/-- DecodeFloat (R104), with the signalling NaNs of R105. -/
def decodeFloat (f : Fmt) (bits : Nat) : Num :=
  let s := bitOf bits (f.eb + f.fb)
  let e := bitsOf bits f.fb f.eb
  let m := bitsOf bits 0 f.fb
  if f.kind == .ieee && e == f.topExp then
    if m == 0 then .inf s else .nan (f.snan && !bitOf m (f.fb - 1))
  else if f.kind == .nanOnly && e == f.topExp && m == 2 ^ f.fb - 1 then .nan false
  else if e == 0 then .fin s m (f.emin - f.fb)
  else .fin s (2 ^ f.fb + m) ((e : Int) - f.bias - f.fb)

/-- 2^e for a natural exponent given as an integer. -/
def pow2 (e : Int) : Nat := 2 ^ e.toNat

/-- The number of bits of a natural number. -/
def bitLen (m : Nat) : Nat := if m = 0 then 0 else Nat.log2 m + 1

/-- Whether a magnitude k + fraction rounds up: `rem` of `2^sh` units below the kept unit and a further fraction `st`
(R114). -/
def roundsUp (mode : Rnd) (neg : Bool) (k rem unit : Nat) (st : Bool) : Bool :=
  match mode with
  | .rne => 2 * rem > unit || (2 * rem == unit && (st || k % 2 == 1))
  | .rtz => false
  | .rdn => neg && (rem != 0 || st)
  | .rup => !neg && (rem != 0 || st)

/-- m * 2^e plus a fraction of one unit when `st`, rounded to a multiple of 2^q: the multiple, and whether it differs. -/
def roundTo (mode : Rnd) (neg : Bool) (m : Nat) (e : Int) (st : Bool) (q : Int) : Nat × Bool :=
  if q ≤ e then (m * pow2 (e - q), st)
  else
    let unit := pow2 (q - e)
    let k := m / unit
    let rem := m % unit
    (if roundsUp mode neg k rem unit st then k + 1 else k, rem != 0 || st)

/-- The code of k * 2^q in the format; k has at most fb + 2 bits and q is at least the subnormal spacing. -/
def encodeMag (f : Fmt) (k : Nat) (q : Int) : Nat :=
  if k < 2 ^ f.fb then k
  else
    let (k, q) := if k = 2 ^ (f.fb + 1) then (2 ^ f.fb, q + 1) else (k, q)
    (q + f.fb + f.bias).toNat * 2 ^ f.fb + (k - 2 ^ f.fb)

/-- Sign and magnitude code put together. -/
def signed (f : Fmt) (neg : Bool) (mag : Nat) : Nat := (if neg then f.signBit else 0) + mag

/-- What an overflow delivers (R115), with its bits. DESIGN CHOICE (log 81): with SAT = 1 SATURATE is set in a mode too that delivers the
largest finite number without SAT. -/
def overflowTo (f : Fmt) (mode : Rnd) (sat neg : Bool) : Nat × Sticky :=
  let base := Sticky.overflow ||| Sticky.inexact
  let toInf := match mode with | .rne => true | .rtz => false | .rdn => neg | .rup => !neg
  if sat then (signed f neg f.maxCode, base ||| .saturate)
  else if f.kind == .finite then (signed f neg f.maxCode, base ||| .saturate)
  else if !toInf then (signed f neg f.maxCode, base)
  else if f.kind == .nanOnly then (f.nanCode, base)
  else (signed f neg (f.topExp * 2 ^ f.fb), base)

/-- RoundToFormat of a finite value m * 2^e (plus a fraction of its unit when `st`), R114, R115 and R119. -/
def roundFin (f : Fmt) (mode : Rnd) (sat neg : Bool) (m : Nat) (e : Int) (st : Bool) : Nat × Sticky :=
  if m = 0 && !st then (signed f neg 0, 0)
  else
    let top := e + bitLen m - 1
    let qn := top - f.fb
    let qs := f.emin - f.fb
    let q := if qn < qs then qs else qn
    let (k, ix) := roundTo mode neg m e st q
    let mag := encodeMag f k q
    if mag > f.maxCode then overflowTo f mode sat neg
    else
      let (k0, _) := roundTo mode neg m e st qn
      let tiny := qn < qs && k0 < pow2 (f.emin - qn)
      (signed f neg mag, stickyIf ix .inexact ||| stickyIf (ix && tiny && k != 0) .underflow)

/-- RoundToFormat as the arithmetic instructions use it: NaN gives the canonical NaN, infinities stay (R114, R141). -/
def roundNum (f : Fmt) (mode : Rnd) (sat : Bool) (x : Num) : Nat × Sticky :=
  match x with
  | .nan _ => (f.nanCode, 0)
  | .inf neg => (signed f neg (f.topExp * 2 ^ f.fb), 0)
  | .fin neg m e => roundFin f mode sat neg m e false

/-- Conversion to a floating format with the special values of R117; a signalling NaN sets INVALID (R105). DESIGN CHOICE (log 35): with SAT = 1
an infinity follows R117's table, the largest finite number with SATURATE, to a wider format too, where the sentence under the table has
it map to an infinity. -/
def convertFloat (f : Fmt) (mode : Rnd) (sat : Bool) (x : Num) : Nat × Sticky :=
  match x with
  | .nan sig => (f.nanCode, stickyIf (sig || f.kind == .finite) .invalid)
  | .inf neg =>
    if f.kind == .finite || sat then (signed f neg f.maxCode, .saturate)
    else if f.kind == .nanOnly then (f.nanCode, .invalid)
    else (signed f neg (f.topExp * 2 ^ f.fb), 0)
  | .fin neg m e => roundFin f mode sat neg m e false

/-- The exact sum of a list of values with the rule of R114 for a zero sum; INVALID for opposing infinities and for a
signalling NaN (R119). -/
def sumNum (mode : Rnd) (xs : List Num) : Num × Sticky :=
  let isSig := xs.any fun x => match x with | .nan s => s | _ => false
  let isNan := xs.any fun x => match x with | .nan _ => true | _ => false
  let pInf := xs.any fun x => match x with | .inf s => !s | _ => false
  let nInf := xs.any fun x => match x with | .inf s => s | _ => false
  if isNan || (pInf && nInf) then (.nan false, stickyIf (isSig || (pInf && nInf)) .invalid)
  else if pInf then (.inf false, 0)
  else if nInf then (.inf true, 0)
  else
    let e := xs.foldl (fun a x => match x with | .fin _ m e => if m ≠ 0 && e < a then e else a | _ => a) (1024 : Int)
    let s : Int := xs.foldl (fun a x => match x with
      | .fin neg m e' => if m = 0 then a else
          let v : Int := (m * pow2 (e' - e) : Nat); if neg then a - v else a + v
      | _ => a) 0
    if s = 0 then
      let allNeg := xs.all fun x => match x with | .fin neg m _ => neg && m == 0 | _ => false
      let allPos := xs.all fun x => match x with | .fin neg m _ => !neg && m == 0 | _ => false
      (.fin (allNeg || (!allPos && mode == .rdn)) 0 0, 0)
    else (.fin (s < 0) s.natAbs e, 0)

/-- The exact product; INVALID for 0 * Inf and for a signalling NaN (R119). -/
def mulNum (a b : Num) : Num × Sticky :=
  match a, b with
  | .nan s, .nan t => (.nan false, stickyIf (s || t) .invalid)
  | .nan s, _ => (.nan false, stickyIf s .invalid)
  | _, .nan t => (.nan false, stickyIf t .invalid)
  | .inf s, .inf t => (.inf (s != t), 0)
  | .inf s, .fin t m _ => if m = 0 then (.nan false, .invalid) else (.inf (s != t), 0)
  | .fin s m _, .inf t => if m = 0 then (.nan false, .invalid) else (.inf (s != t), 0)
  | .fin s m e, .fin t n g => (.fin (s != t) (m * n) (e + g), 0)

def negNum : Num → Num
  | .nan s => .nan s
  | .inf s => .inf (!s)
  | .fin s m e => .fin (!s) m e

/-- The end of R141: an infinite result becomes the largest finite value under SAT, with SATURATE. -/
def satInf (f : Fmt) (sat : Bool) (y : Nat × Sticky) : Nat × Sticky :=
  if sat && f.kind == .ieee && y.1 % f.signBit == f.topExp * 2 ^ f.fb
  then (y.1 - 1, y.2 ||| .saturate) else y

/-- One rounding of an exact arithmetic result (R141). -/
def finishArith (f : Fmt) (mode : Rnd) (sat : Bool) (x : Num × Sticky) : Nat × Sticky :=
  let y := satInf f sat (roundNum f mode false x.1)
  (y.1, y.2 ||| x.2)

/-- a + b (R141). -/
def fAdd (f : Fmt) (mode : Rnd) (sat : Bool) (a b : Nat) : Nat × Sticky :=
  finishArith f mode sat (sumNum mode [decodeFloat f a, decodeFloat f b])

def fSub (f : Fmt) (mode : Rnd) (sat : Bool) (a b : Nat) : Nat × Sticky :=
  finishArith f mode sat (sumNum mode [decodeFloat f a, negNum (decodeFloat f b)])

def fMul (f : Fmt) (mode : Rnd) (sat : Bool) (a b : Nat) : Nat × Sticky :=
  finishArith f mode sat (mulNum (decodeFloat f a) (decodeFloat f b))

/-- A sum of products and addends with one rounding (R141, R149). -/
def fSumProd (f : Fmt) (mode : Rnd) (sat : Bool) (ps : List (Num × Num)) (cs : List Num) : Nat × Sticky :=
  let prods := ps.map fun p => mulNum p.1 p.2
  let s := sumNum mode (prods.map (·.1) ++ cs)
  finishArith f mode sat (s.1, s.2 ||| stickyAll (prods.map (·.2)))

def fFma (f : Fmt) (mode : Rnd) (sat : Bool) (a b c : Nat) : Nat × Sticky :=
  fSumProd f mode sat [(decodeFloat f a, decodeFloat f b)] [decodeFloat f c]

/-- Whether an exact value is below another; NaNs are not compared. -/
def numLt (a b : Num) : Bool :=
  match a, b with
  | .nan _, _ | _, .nan _ => false
  | .inf s, .inf t => s && !t
  | .inf s, _ => s
  | _, .inf t => !t
  | .fin s m e, .fin t n g =>
    let q := if e ≤ g then e else g
    let x : Int := (m * pow2 (e - q) : Nat)
    let y : Int := (n * pow2 (g - q) : Nat)
    (if s then -x else x) < (if t then -y else y)

def numEq (a b : Num) : Bool :=
  match a, b with
  | .nan _, _ | _, .nan _ => false
  | a, b => !numLt a b && !numLt b a

def isNanNum : Num → Bool
  | .nan _ => true
  | _ => false

def isSigNum : Num → Bool
  | .nan s => s
  | _ => false

def isInfNum : Num → Bool
  | .inf _ => true
  | _ => false

def isNegNum : Num → Bool
  | .nan _ => false
  | .inf s => s
  | .fin s _ _ => s

def isZeroNum : Num → Bool
  | .fin _ m _ => m == 0
  | _ => false

/-- Whether number `a` stands before number `b` with -0 below +0 (R142). -/
def orderedLt (a b : Num) : Bool :=
  numLt a b || (numEq a b && isNegNum a && !isNegNum b)

/-- FMIN and FMAX (R142): `max` chooses the larger, `num` gives minimumNumber and maximumNumber. -/
def fMinMax (f : Fmt) (max num : Bool) (a b : Nat) : Nat × Sticky :=
  let x := decodeFloat f a
  let y := decodeFloat f b
  let st := stickyIf (isSigNum x || isSigNum y) Sticky.invalid
  let pick := if orderedLt x y != max then a else b
  if isNanNum x && isNanNum y then (f.nanCode, st)
  else if isNanNum x then (if num then b else f.nanCode, st)
  else if isNanNum y then (if num then a else f.nanCode, st)
  else (pick, st)

/-- FRND (R143): the nearest integral value in the mode, in the same format. -/
def fRnd (f : Fmt) (mode : Rnd) (a : Nat) : Nat × Sticky :=
  match decodeFloat f a with
  | .nan s => (f.nanCode, stickyIf s .invalid)
  | .inf _ => (a % (2 * f.signBit), 0)
  | .fin neg m e =>
    if 0 ≤ e || m = 0 then (a % (2 * f.signBit), 0)
    else ((roundFin f .rne false neg (roundTo mode neg m e false 0).1 0 false).1, 0)

/-- The class mask of R145. -/
def fClass (f : Fmt) (a : Nat) : Nat :=
  let sub := bitsOf a f.fb f.eb == 0
  match decodeFloat f a with
  | .nan true => 1
  | .nan false => 2
  | .inf true => 4
  | .inf false => 512
  | .fin true m _ => if m = 0 then 32 else if sub then 16 else 8
  | .fin false m _ => if m = 0 then 64 else if sub then 128 else 256

/-- A float to an integer of `n` bits, signed or not, in the mode (R118). -/
def floatToInt (mode : Rnd) (sgn : Bool) (n : Nat) (x : Num) : Nat × Sticky :=
  let lo : Int := if sgn then -((2 ^ (n - 1) : Nat) : Int) else 0
  let hi : Int := if sgn then ((2 ^ (n - 1) : Nat) : Int) - 1 else ((2 ^ n : Nat) : Int) - 1
  match x with
  | .nan _ => (0, .invalid)
  | .inf neg => (wrapInt n (if neg then lo else hi), .invalid)
  | .fin neg m e =>
    let (k, ix) := roundTo mode neg m e false 0
    let v : Int := if neg then -(k : Int) else k
    if v < lo then (wrapInt n lo, .invalid ||| .saturate)
    else if hi < v then (wrapInt n hi, .invalid ||| .saturate)
    else (wrapInt n v, stickyIf ix .inexact)

/-- An exact integer as a value. -/
def intNum (x : Int) : Num := .fin (x < 0) x.natAbs 0

/-- An integer to a narrower integer, or between signs (R118). DESIGN CHOICE (log 35): R118 has no row for an unsigned to a signed type of the
same width; with SAT = 1 a value above the range clamps and sets SATURATE, as in its other rows. -/
def intToInt (sat sgn : Bool) (n : Nat) (x : Int) : Nat × Sticky :=
  let lo : Int := if sgn then -((2 ^ (n - 1) : Nat) : Int) else 0
  let hi : Int := if sgn then ((2 ^ (n - 1) : Nat) : Int) - 1 else ((2 ^ n : Nat) : Int) - 1
  if sat && x < lo then (wrapInt n lo, .saturate)
  else if sat && hi < x then (wrapInt n hi, .saturate)
  else (wrapInt n x, 0)

/-- The stochastic step of R116: magnitude m * 2^e to a multiple of 2^q with a 32-bit random word. -/
def stochTo (m : Nat) (e q : Int) (rnd : Nat) : Nat × Bool :=
  if q ≤ e then (m * pow2 (e - q), false)
  else
    let unit := pow2 (q - e)
    let k := m / unit
    let rem := m % unit
    (if rem * 2 ^ 32 / unit + rnd ≥ 2 ^ 32 then k + 1 else k, rem != 0)

/-- StochasticRound (R116) with the special values of R117. DESIGN CHOICE (log 35): UNDERFLOW follows R116 where the delivered result is zero,
so that it is set there; R119 asks for a result that is not zero. -/
def stochRound (f : Fmt) (sat : Bool) (rnd : Nat) (x : Num) : Nat × Sticky :=
  match x with
  | .fin neg m e =>
    if m = 0 then convertFloat f .rne sat x
    else
      let top := e + bitLen m - 1
      let qn := top - f.fb
      let qs := f.emin - f.fb
      let q := if qn < qs then qs else qn
      let (k, ix) := stochTo m e q rnd
      let mag := encodeMag f k q
      if mag > f.maxCode then overflowTo f .rne sat neg
      else
        let (k0, _) := stochTo m e qn rnd
        let tiny := qn < qs && k0 != 0 && k0 < pow2 (f.emin - qn)
        (signed f neg mag, stickyIf ix .inexact ||| stickyIf (ix && tiny) .underflow)
  | x => convertFloat f .rne sat x

end Sys2Proof.Machine
end

