-- ==== Sys2Proof/Machine/Operands.lean ====
section
/-! DEFINITION. How an operand looks to an operation: constants in the operation's type (spec/03 R86), integers and
elements in registers (spec/04 R107), and M-format base, index and offset (R83, R195). -/

namespace Sys2Proof.Machine

/-- Width in bits of an integer type (R106). -/
def tyWidth : Ty → Nat
  | .i64 | .n64 => 64
  | .i16 | .n16 => 16
  | _ => 32

/-- Whether an integer type is signed (R106). -/
def tySigned : Ty → Bool
  | .i16 | .i32 | .i64 => true
  | _ => false

/-- The integer that a register value holds in a type (R106, R107). -/
def rdInt (t : Ty) (raw : Nat) : Int :=
  if tySigned t then signedOf (tyWidth t) raw else ((raw % 2 ^ tyWidth t : Nat) : Int)

/-- The register value of an integer in a type: 16-bit types are extended to 32 bits (R107). -/
def wrInt (t : Ty) (x : Int) : Nat :=
  if t == .i16 then wrapInt 32 (signedOf 16 (wrapInt 16 x)) else wrapInt (tyWidth t) x

def minOf (t : Ty) : Int := if tySigned t then -((2 ^ (tyWidth t - 1) : Nat) : Int) else 0
def maxOf (t : Ty) : Int :=
  if tySigned t then ((2 ^ (tyWidth t - 1) : Nat) : Int) - 1 else ((2 ^ tyWidth t : Nat) : Int) - 1

/-- Whether a type packs two 16-bit floats (R107). -/
def isPacked (t : Ty) : Bool := t == .f16x2 || t == .bf16x2

/-- The 32 or 64 bits of a scalar result under a type: narrower results are extended (R107). -/
def extendScalar (t : Ty) (raw : Nat) : DWord :=
  if t.is64 then BitVec.ofNat 64 raw
  else if (t == .i32 || t == .i16) && bitOf raw 31 then BitVec.ofNat 64 (raw % 2 ^ 32 + 0xFFFFFFFF00000000)
  else BitVec.ofNat 64 (raw % 2 ^ 32)

/-- A constant as one float element (R86). -/
def constElem (f : Fmt) (c : ConstClass) (lane : Nat) : Nat :=
  match c with
  | .int v => (convertFloat f .rne false (intNum v)).1
  | .pat v => v % 2 ^ (1 + f.eb + f.fb)
  | .flt b => if f == fp32 then b.toNat else (convertFloat f .rne false (decodeFloat fp32 b.toNat)).1
  | .lane => (convertFloat f .rne false (intNum lane)).1

/-- A constant entry as the operation sees it in lane `lane` (R86). An entry that step 6 refuses is read as 0. -/
def presentConst (n : Nat) (t : Ty) (lane : Nat) : Nat :=
  match constClass n with
  | none => 0
  | some c =>
    match fmtOf t with
    | none =>
      match c with
      | .int v => wrapInt (tyWidth t) v
      | .pat v => v % 2 ^ tyWidth t
      | .flt b => b.toNat
      | .lane => lane
    | some f =>
      if isPacked t then
        match c with
        | .pat v => v % 2 ^ 32
        | c => constElem f c lane * 65537
      else constElem f c lane

/-- One float operation per element of a type: two halves of a packed type, the low bits of a 16-bit type (R107). -/
def perElem3 (t : Ty) (fn : Fmt → Nat → Nat → Nat → Nat × Sticky) (a b c : Nat) : Nat × Sticky :=
  match fmtOf t with
  | none => (0, 0)
  | some f =>
    let w := 1 + f.eb + f.fb
    let lo := fn f (bitsOf a 0 w) (bitsOf b 0 w) (bitsOf c 0 w)
    if isPacked t then
      let hi := fn f (bitsOf a 16 16) (bitsOf b 16 16) (bitsOf c 16 16)
      (hi.1 * 65536 + lo.1, hi.2 ||| lo.2)
    else lo

/-- The offset field of an M-format word as a signed number of units (R82, R195). -/
def mOffset (i : Instr) (f : M) : Int :=
  match i with
  | .atomg _ | .atoms _ | .atomx _ | .redg _ | .reds _ | .xred _ => signedOf 5 (f.off.toNat % 32)
  | .sybind _ => 0
  | _ => signedOf 10 f.off.toNat

/-- The unit W of R83 and R195: width bytes, the type's bytes for atomics, 64 for the exact accumulators. -/
def mUnit (i : Instr) (f : M) : Nat :=
  match i with
  | .atomg _ | .atoms _ | .atomx _ | .redg _ | .reds _ => if f.ty.is64 then 8 else 4
  | .xred _ | .xrd _ => 64
  | _ => widthBytes f.width.toNat

/-- The sum of R83 modulo 2^64. HALLOC and HFREE scale only the offset, by 256 (R195). -/
def mSum (i : Instr) (f : M) (base : DWord) (index : Int) : DWord :=
  match i with
  | .halloc _ | .hfree _ => BitVec.ofInt 64 (base.toNat + mOffset i f * 256)
  | _ => BitVec.ofInt 64 (base.toNat + index * mUnit i f + mOffset i f * mUnit i f)

end Sys2Proof.Machine
end

