-- ==== Sys2Proof/Config.lean ====
section
/-! DEFINITION. What the manual leaves to the implementation or to the outside, as constants with no body: no proof
can see their values (notes/assumptions 3, 5, 9 to 13). -/

namespace Sys2Proof.Config

/-- Which of the enabled actions moves next at tick `t` (log 3). -/
opaque choose : Nat → Nat
/-- how many borrows (0) and returns (1) reach a root in the same clock (R334, log 37) -/
opaque together : Nat → Nat → Nat
/-- Clocks of a unit that pass in tick `t` beyond the one every step takes (R5, log 3). -/
opaque clocks : Nat → Nat
/-- Clocks that pass in tick `t` for one unit alone: the clocks of two units are not comparable (R5, log 3). A core is a unit by its
number, a copy or port engine by its leaf's. -/
opaque ownClocks : Nat → Nat → Nat
/-- How many lines of the accesses that the n-th requester of tick `t` makes miss the memory-side caches (R364, log 21). -/
opaque memSideMisses : Nat → Nat → Nat
/-- The channel of the k-th missing line of the n-th requester of tick `t`: the manual gives the placement no effect (R363, log 21). -/
opaque channelOf : Nat → Nat → Nat → Nat
/-- Whether that miss evicts a line that is written back (R364, log 21). -/
opaque writesBack : Nat → Nat → Nat → Bool
/-- Class and slack of the DRAM requests of tick `t` by units that R365's table does not name: the command die and the instruction caches
(log 21). -/
opaque otherClass : Nat → Nat
opaque otherSlack : Nat → Nat
/-- Whether DRAM timing allows the k-th request of a channel to issue at tick `t` (R366, log 21). -/
opaque dramAllows : Nat → Nat → Bool
/-- Whether a TLB still holds the entry that covers the access of tick `t`: which entries a full TLB gives up is not said, and
until an invalidation an access may use the old entry or the new one (R356, log 7). -/
opaque tlbKeeps : Nat → Bool
/-- Whether a cluster's instruction cache still holds a line when another line is asked for at a tick: the replacement policy and the
time a line stays are not architectural (R29, log 6). -/
opaque icacheKeeps : Nat → Nat → Bool
/-- Whether the home package refuses a remote access of tick `t` (R362, log 12). -/
opaque remoteRefuses : Nat → Bool
/-- The byte another package answers at tick `t` for the address (R415, log 12). -/
opaque remoteByte : Nat → Nat → Byte
/-- Whether the home package's page forbids a remote access of tick `t` (R355, R415, log 12). -/
opaque remoteDenies : Nat → Bool
/-- Whether data of another package read at tick `t` at the address is uncorrectable there (R351, log 12). -/
opaque remotePoisons : Nat → Nat → Bool
/-- Whether an acquire of a word of another package meets, at tick `t`, a release of an agent there with which it does not pair by scope
(R281, log 12). -/
opaque remoteMis : Nat → Nat → Bool
/-- The set of a slice in which a physical line lies (R350 gives sets but no index, log 11). -/
opaque l2Set : Nat → Nat
/-- Whether a core fails its self-test at a reset of tick `t` (R434, log 24). -/
opaque selfTestFails : Nat → Nat → Bool
/-- A keyed signature check of a firmware image or an owner request (R429, log 13): key, message, signature. -/
opaque signatureOk : Nat → Nat → Nat → Bool
/-- A SHA-384 digest over a list of numbers that stands for the measured bytes (R425, log 13). -/
opaque digest384 : List Nat → Nat
/-- The boot ROM stage, as a number (R425, log 13). -/
opaque bootRom : Nat
/-- The key that the device's random bit generator makes at tick `t` (R424, log 13). -/
opaque drbgKey : Nat → Nat
/-- The payload of an attestation reply that the manual only names (R425, log 13). -/
opaque spdmPayload : Nat → Nat
/-- The maker keys in fuses: 0 RSA-3072, 1 SLH-DSA (R429, log 13). -/
opaque makerKey : Nat → Nat
/-- Whether the module's OWN_EN pin is asserted at tick `t` (R429, log 13). -/
opaque ownEn : Nat → Bool

/-- The readback of an operation killed at tick `t`, by words (R274, log 22). -/
opaque freeWord : Nat → Nat → Word
/-- Bytes of an event-ring entry of tick `t` to which the manual gives no content (R414, log 23). -/
opaque freeByte : Nat → Nat → Byte

/-- What a byte stored under another key than the one that reads it decrypts to: seed, address (R423, log 26). -/
opaque garbledByte : Nat → Nat → Byte

/-- Entries of the error-log ring: the manual gives no size (R433). DESIGN CHOICE, log 9. -/
def errorLogSize : Nat := 64

end Sys2Proof.Config
end

