-- ==== Sys2Proof/Machine/Table.lean ====
section
/-! DEFINITION. Tables by number: plain lists of (key, value) with keys strictly rising. An unlisted key has no entry;
each user of a table says what an unlisted unit holds. -/

namespace Sys2Proof.Machine

/-- A finite table keyed by numbers. -/
abbrev Table (α : Type) := List (Nat × α)

/-- The entry of a key. -/
def tget {α : Type} : Table α → Nat → Option α
  | [], _ => none
  | (k, v) :: t, n => if k = n then some v else tget t n

/-- The table with the entry of a key set. -/
def tput {α : Type} : Table α → Nat → α → Table α
  | [], n, x => [(n, x)]
  | (k, v) :: t, n, x =>
    if n < k then (n, x) :: (k, v) :: t
    else if n = k then (n, x) :: t
    else (k, v) :: tput t n x

/-- The table without a key. -/
def terase {α : Type} (t : Table α) (n : Nat) : Table α := t.filter fun p => p.1 != n

/-- The keys of a table, rising. -/
def tkeys {α : Type} (t : Table α) : List Nat := t.map (·.1)

/-- Keys strictly rising. -/
def twf {α : Type} : Table α → Bool
  | [] => true
  | [_] => true
  | (a, _) :: (b, y) :: t => a < b && twf ((b, y) :: t)

end Sys2Proof.Machine
end

