-- ==== Sys2Proof/Machine/State.lean ====
section
/-! DEFINITION. The state of one V770 package as plain data, the model's faults and refusals, and the state after a cold
reset. Registers that software reads and writes whole stay words; their fields have accessors beside the operations that
use them. A table lists only the units that differ from their reset value (INVENTORY.md, section State). -/

namespace Sys2Proof.Machine

/-- Why the machine stops. Neither constructor arises in a run of `step` from reset: both are safe. -/
inductive Fault where
  /-- raised by every Traex instruction executed while no sequencer issues one; safe -/
  | noIssuer
  /-- raised by an event of the device whose condition the state does not meet; safe -/
  | notEnabled
  deriving DecidableEq, Repr

/-- Why an instruction has no outcome. -/
inductive Refusal where
  /-- raised only by an arm of `exec` whose instruction has no meaning yet; safe -/
  | notModelled (mnemonic : String)
  deriving DecidableEq, Repr

/-! Memory. -/

/-- A byte performed at a narrow scope only: its physical address, the scope code and place of the point that holds it
(the core of an L1, or the die of an L2), and the context and virtual address that it was stored by (R277, R347, R223). -/
structure NarrowByte where
  pa : Nat
  byte : Byte
  /-- the core whose L1 holds it, or none: the L2 of `die` -/
  core : Option Nat
  die : Nat
  ctx : Nat
  va : Nat
  /-- the bytes of the aligned block that is performed as one with it where it stands: 16 (R199), 32 where the copy is good though memory's
  granule is poisoned (R351), or 64 of an exact accumulator (R216) -/
  span : Nat
  deriving DecidableEq, Repr

/-- Where a copy of a word stands: the L1 of a core, the L2 of a die, or memory (R347). -/
inductive Holder where
  | l1 (core : Nat)
  | l2 (die : Nat)
  | mem
  deriving DecidableEq, Repr

/-- A releaser: scope code and instance (R281). An engine, the host and another package are no wave: they have a wave key that no
wave has. -/
structure Release where
  scope : Nat
  wave : Nat
  wg : Nat
  place : Place
  deriving DecidableEq, Repr

/-- The record of the latest release written to an 8-byte word, beside the copy that it was written to (R281): a record goes with
the copy's bytes to where these are performed. -/
structure RelRec where
  word : Nat
  holder : Holder
  rel : Release
  deriving DecidableEq, Repr

/-- A bound range of a sync object: context, object address, slot, start and length (R223). -/
structure Bind where
  ctx : Nat
  obj : Nat
  slot : Nat
  start : Nat
  len : Nat
  deriving DecidableEq, Repr

/-- A line locked in a die's L2 for a context (R207, R350). -/
structure Lock where
  ctx : Nat
  die : Nat
  line : Nat
  deriving DecidableEq, Repr

/-- A cached translation: the unit (a core's L1 TLB or a cluster's TLB), context, page start, page bytes and the leaf
entry (R356). -/
structure TlbEntry where
  cluster : Bool
  unit : Nat
  ctx : Nat
  va : Nat
  size : Nat
  entry : Nat
  deriving DecidableEq, Repr

/-- A line of a cluster's instruction cache by virtual address, with its sixteen words; none while it is on its way
(R29). -/
structure ILine where
  cluster : Nat
  ctx : Nat
  line : Nat
  words : Option (List DWord)
  /-- its words with uncorrectable data (R375) -/
  bad : List Nat
  /-- a fetch has walked its page, whose A bit is set; a prefetch leaves no trace (R74, R355) -/
  walked : Bool
  /-- its page is uncacheable: the line serves one fetch (R349) -/
  once : Bool
  deriving DecidableEq, Repr

/-- A range of memory whose bytes were stored under another key than the one that now reads them, or under none: what they
decrypt to is not known (R423). -/
structure Garbled where
  start : Nat
  len : Nat
  seed : Nat
  deriving DecidableEq, Repr

structure Mem where
  /-- physical memory; an unlisted byte reads as 0 (log 1) -/
  cells : List Host.Cell
  narrow : List NarrowByte
  /-- numbers of poisoned 32-byte granules (R351) -/
  poisoned : List Nat
  garbled : List Garbled
  /-- words are numbered by physical address ÷ 8; those of scratchpads follow from 2^50 on -/
  releases : List RelRec
  binds : List Bind
  locks : List Lock
  tlb : List TlbEntry
  icache : List ILine
  deriving DecidableEq, Repr

/-! Waves. -/

/-- Where the value of a mapped register stands (R54). UNMAPPED registers are not listed. -/
inductive Home where
  | window
  | bank (phys : Nat)
  /-- `first` says that it stands as the launch or SPAWN initialised it, not yet filled (R52, R67) -/
  | spilled (first : Bool)
  deriving DecidableEq, Repr

/-- A rename entry that is not UNMAPPED (R54): released lanes, the value of every lane with pending window lanes merged,
poisoned lanes (R375), the stamp of its last use (R65) and the lanes that stand in its window slot (R54). A scalar holds its low
and high words as two lanes. -/
structure Reg where
  home : Home
  released : Mask
  lanes : Lanes
  poison : Mask
  used : Nat
  pend : Mask
  deriving DecidableEq, Repr

/-- One register of an outstanding long-latency result, in the lanes still to be written (R39, R40). -/
structure LLWrite where
  file : RegFile
  reg : Nat
  lanes : Lanes
  mask : Mask
  deriving DecidableEq, Repr

/-- An outstanding long-latency operation (R37 to R40): the flags it counted on, its register results, a group
destination (R34), the sticky bits it sets when visible, poisoned lanes with the lowest one's address (R201), and the
word whose release it acquires (R280). -/
structure LLOp where
  flags : List Nat
  writes : List LLWrite
  grp : Option (Nat × DWord)
  sticky : Sticky
  poison : Mask
  addr : DWord
  /-- the MDRAIN whose readback it is, until that is known (R274) -/
  op : Option Nat
  done : Bool
  /-- a handler's instruction issued it (R374) -/
  handler : Bool
  deriving DecidableEq, Repr

/-- The states of a frontier entry (R23). -/
inductive EState where
  | ready | resume | parked | joined | trapped
  deriving DecidableEq, Repr

/-- The operations of a macro expansion as they stood when its MCALL issued, the next operation, and the MCALL's EXEC
(R94, R190). -/
structure MacRun where
  ops : List DWord
  next : Nat
  exec : Mask
  deriving DecidableEq, Repr

/-- A frontier entry (R23). A parked entry names the fault record it waits on; a resumed one may carry a FAIL response
(R359) and the addresses of its lanes as the instruction formed them (R435). -/
structure Entry where
  pc : Nat
  /-- none until the header at the PC can be read -/
  prio : Option Nat
  mask : Mask
  st : EState
  index : Nat
  mac : Option MacRun
  fault : Option Nat
  failed : Bool
  addrs : List (Nat × DWord)
  /-- the instructions of the clause that it stands inside; 0 for an entry at a header -/
  count : Nat
  deriving DecidableEq, Repr

/-- A clause in progress (R22): its header, the next instruction's index and the lanes that execute it. -/
structure Clause where
  pc : Nat
  cls : Nat
  count : Nat
  setA : Nat
  setB : Nat
  prio : Nat
  index : Nat
  lanes : Mask
  handler : Bool
  mac : Option MacRun
  /-- the entry is a resumed one, at the instruction it resumes with: its FAIL response and kept addresses -/
  failed : Bool
  addrs : List (Nat × DWord)
  deriving DecidableEq, Repr

/-- What a trap reports (R12, R42). -/
structure TrapInfo where
  cause : Nat
  pc : Nat
  idx : Nat
  addr : DWord
  mask : Mask
  deriving DecidableEq, Repr

/-- A trap that is due at the start of a clause: an uncorrectable result (R201, R375) or a failed decant (R316); whether a
handler's instruction made it (R374). -/
structure Due where
  handler : Bool
  cause : Nat
  addr : DWord
  mask : Mask
  deriving DecidableEq, Repr

/-- Weight in a domain: root and amount (R330). -/
structure Weight where
  root : Nat
  w : Nat
  deriving DecidableEq, Repr

/-- The wave's watch (R224). -/
structure Watch where
  addr : DWord
  scope : Nat
  last : DWord
  deriving DecidableEq, Repr

/-- A holding instruction in its hold (R194): the instruction, its EXEC, the value it holds with, and the sticky bits that it
sets when it retires. -/
structure Hold where
  instr : Instr
  exec : Mask
  arg : DWord
  sticky : Sticky
  /-- the effect is complete and only the wave's going on is left -/
  done : Bool
  /-- what ends it is uncorrectable data: it ends in that trap (R375) -/
  bad : Bool
  deriving DecidableEq, Repr

/-- Why an instruction has not issued (R237, R333, R393): the resources it waits for. -/
structure Stall where
  /-- the step at which the wave began to wait -/
  since : Nat
  /-- the partition or node that refused its item, by queue number -/
  queue : Option Nat
  tl : Option Nat
  copy : Bool
  cls : Option Nat
  /-- a SPAWN of a deterministic launch, which a round boundary issues, with the RELREAD bit of its reads (R53, R393) -/
  det : Option (E × Mask × Sticky)
  borrow : Bool
  deriving DecidableEq, Repr

structure Wave where
  wg : Nat
  waveId : Nat
  v : Table Reg
  s : Table Reg
  /-- the eight slots of the forwarding window, newest first, each with the registers of its result (R57) -/
  window : List (List (RegFile × Nat))
  /-- p1 to p7 -/
  preds : List Mask
  ll : List LLOp
  frontier : List Entry
  handlers : List Entry
  clause : Option Clause
  sticky : Sticky
  trapen : DWord
  inTrap : Bool
  /-- the trap it waits with in the handler queue (R45, R385) -/
  queued : Option TrapInfo
  trap : TrapInfo
  spills : DWord
  retired : DWord
  weight : Option Weight
  watch : Option Watch
  hold : Option Hold
  stall : Option Stall
  /-- YIELD: the waves to let pass, and the clock until which the wave is not ready (R186) -/
  passing : List Nat
  pause : Option DWord
  /-- traps due at the next clause, in order -/
  due : List Due
  deriving DecidableEq, Repr

/-- What a sequencer's fetch waits for (R29, R77). -/
inductive Freeze where
  | line (ctx line : Nat)
  /-- an unresolved fault record, and the address of the word -/
  | fault (token va : Nat)
  deriving DecidableEq, Repr

/-- A sequencer (R28, R29, R36, R45). -/
structure Seq where
  /-- the wave whose clause it issues -/
  active : Option Nat
  /-- the slot that issued last -/
  last : Nat
  /-- the wave that runs its handler -/
  owner : Option Nat
  /-- t0 to t15 (R36) -/
  bank : List Lanes
  slips : DWord
  frozen : Option Freeze
  /-- the word whose fetch has been counted in `slips` and not been served yet (R29) -/
  missed : Option Nat
  /-- the word whose fetch a FAIL response has ended (R359) -/
  fetchFail : Option Nat
  /-- the words that have been fetched for an instruction that waits for others: an MDEF and its body (R29, R189), or a holding
  instruction whose clause's last word is still to come (R194) -/
  body : List DWord
  /-- a remote access refused by its home, waiting to be re-sent: times refused so far (R362) -/
  refused : Option Nat
  /-- the next access goes through after RETRY of REMOTE_REFUSED or a re-send -/
  resend : Bool
  /-- the wave whose turn of a deterministic rotation is not over (R390) -/
  turn : Option Nat
  deriving DecidableEq, Repr

/-! Workgroups. -/

/-- A resident workgroup or task (R15, R16): where it runs, its coordinates, what its waves share. -/
structure Wg where
  core : Nat
  wgid : Nat
  member : Nat
  launch : Nat
  ctx : Nat
  task : Bool
  depth : Nat
  /-- the SPAWN operation that the task completes -/
  spawnOp : Option Nat
  cls : Nat
  carve : Nat
  overcommit : Nat
  det : Bool
  /-- it belongs to a protected context (R43) -/
  prot : Bool
  /-- it stands on a core of a reserve set that its class borrows, or its spawner does so there (R314) -/
  borrower : Bool
  vregs : Nat
  sregs : Nat
  nwaves : Nat
  /-- resident waves as slots, by SR_WAVEID; `none` for an ended wave -/
  waves : List (Option Nat)
  grp : List DWord
  /-- claimant of each group register by SR_WAVEID (R33) -/
  claims : List (Option Nat)
  tlsel : List (BitVec 16)
  levels : List Nat
  extents : List Nat
  nlevels : Nat
  seed : DWord
  spadBase : Nat
  spadSize : Nat
  /-- waves arrived at BAR by SR_WAVEID, in order of arrival, and at BARC with the step of arrival (R218 to R220) -/
  bar : List Nat
  barc : List (Nat × Nat)
  /-- the workgroup has advanced its ticket (R382) -/
  ticket : Bool
  killed : Bool
  /-- the words of the dispatch item it was popped as, and its rank and push order at the leaf (R317, R318) -/
  words : List (BitVec 32)
  leafRank : Nat
  leafOrder : Nat
  /-- a switch has been requested, and its reason: true by the reserve-set rule (R315, R319) -/
  switching : Bool
  deriving DecidableEq, Repr

/-! Cores. -/

/-- An allocation event of R64. -/
inductive AllocKind where
  | windowExit | llVisible | fill
  deriving DecidableEq, Repr

structure Alloc where
  wave : Nat
  reg : Nat
  kind : AllocKind
  deriving DecidableEq, Repr

/-- A spill write in progress (R65): the victim, its register, and the physical register that is not free before the end of it
(R440). -/
structure Spill where
  wave : Nat
  reg : Nat
  phys : Nat
  deriving DecidableEq, Repr

/-- One pool of a core (R64, R65): its events in order, the register being spilled, and whether the head is filling. -/
structure Pool where
  queue : List Alloc
  spill : Option Spill
  filling : Bool
  deriving DecidableEq, Repr

/-- A macro slot (R92). -/
structure MacSlot where
  launch : Nat
  ops : List DWord
  deriving DecidableEq, Repr

/-- A reservation record in use by number, or the range of a released one, kept under a key from 16 (R258, R260). -/
structure ObRec where
  word : DWord
  wg : Nat
  valid : Bool
  /-- tile operations that keep the range of a released record (R260) -/
  ops : List Nat
  deriving DecidableEq, Repr

/-- An accumulator: claimant, status bits, and the cells that are not 0 (R262, R267). -/
structure Acc where
  wg : Option Nat
  status : BitVec 4
  cells : Table Word
  deriving DecidableEq, Repr

/-- An entry of a core's return pool (R336), least recently used first in its list. -/
structure PoolEntry where
  root : Nat
  sum : Nat
  abort : Bool
  deriving DecidableEq, Repr

/-- The partial sums of a tile task stopped at a K-step (R269): one list per output element. -/
structure Partial where
  op : Nat
  steps : Nat
  sums : List (List Nat)
  deriving DecidableEq, Repr

structure Core where
  /-- the package's count of clocks at the core's last reset (R164) -/
  clock0 : DWord
  carve : Nat
  /-- scratchpad bytes that are not 0, by offset in the array -/
  spad : List Host.Cell
  macros : Table MacSlot
  obs : Table ObRec
  /-- operand buffer bytes that are not 0 -/
  obuf : List Host.Cell
  accs : List Acc
  vpool : Pool
  spool : Pool
  returns : List PoolEntry
  /-- the deterministic rotation: wave slots, position, and whether a round boundary is due (R390) -/
  rota : List Nat
  pos : Nat
  boundary : Bool
  /-- a round boundary has ended and no turn has begun since: the point at which the share can be switched out (R395) -/
  edge : Bool
  /-- the wave slot that took the latest turn -/
  turn : Option Nat
  /-- slice offsets of deterministic HALLOC by launch and slice number (R211) -/
  slices : Table Nat
  /-- the protected context that owns it (R422) -/
  owner : Option Nat
  /-- failed self-test waiting for its next reset; on the cluster's spare; without a core (R434) -/
  failed : Bool
  spare : Bool
  gone : Bool
  partials : List Partial
  deriving DecidableEq, Repr

/-- A switched-out workgroup: its key, and beside its record in memory (R381) what no field of the record holds. -/
structure Saved where
  uid : Nat
  wg : Wg
  waves : List Wave
  /-- ranges of released records that its withdrawn tile operations still name (R260) -/
  ranges : List ObRec
  deriving DecidableEq, Repr

/-! Engines. -/

/-- A timeline context (R236, R238, R409). -/
structure Timeline where
  bound : Option Nat
  issued : Nat
  done : Nat
  /-- completed numbers above `done` -/
  ahead : List Nat
  /-- fault record: status, number, address -/
  fault : Option (Nat × Nat × DWord)
  deriving DecidableEq, Repr

/-- An engine operation in progress (R236 to R274): the instruction, the issuing wave's identity at issue, its block, and
how far it has come. -/
structure Op where
  instr : Instr
  core : Nat
  slot : Nat
  wg : Nat
  /-- the issuing wave's SR_WAVEID -/
  waveId : Nat
  wgid : Nat
  launch : Nat
  ctx : Nat
  cls : Nat
  /-- timeline number, scope code and sequence number; `none` for ORES-like operations never listed -/
  tl : Nat
  scope : Nat
  seq : Nat
  blk : List DWord
  exec : Mask
  /-- OGATH: the lanes of vI -/
  rows : Lanes
  /-- segments or packets in all, pushed, completed -/
  segs : Nat
  pushed : Nat
  finished : Nat
  /-- lowest failed segment: index, status, address -/
  worst : Option (Nat × Nat × DWord)
  /-- weight of the segmenter or of the SPAWN item -/
  weight : Option Weight
  /-- ended by a kill or an engine reset (R431) -/
  killed : Bool
  /-- SPAWN: the spawning workgroup as it stood at issue (R251) -/
  spawner : Option Wg
  /-- the landing word and every effect are done: complete but for the completion event -/
  ready : Bool
  deriving DecidableEq, Repr

/-- What a trellis item is (R298, R310). -/
inductive ItemKind where
  /-- the wave-launch item of a launch -/
  | launch (id : Nat)
  /-- a released workgroup of a launch, by SR_WGID -/
  | workgroup (id wgid : Nat)
  /-- the task of a SPAWN operation -/
  | task (op : Nat)
  /-- a switched-out workgroup: its context, save slot and core -/
  | resume (ctx slot core : Nat)
  /-- segment or packet `k` of an operation -/
  | segment (op k : Nat)
  /-- a tile operation -/
  | tile (op : Nat)
  deriving DecidableEq, Repr

/-- Where an item stands. -/
inductive ItemPlace where
  /-- at its nodes; `climb` lists the nodes whose rank program is still to run -/
  | tree (climb : List Nat)
  /-- on its way to a leaf, or in it -/
  | toLeaf (leaf : Nat)
  | leaf (leaf : Nat)
  /-- in service of the leaf's engine -/
  | service (leaf : Nat)
  /-- outside the queues: a tile item withdrawn with its switched-out workgroup (R380), or a resume item that waits for room -/
  | withdrawn
  deriving DecidableEq, Repr

structure Item where
  kind : ItemKind
  words : List (BitVec 32)
  ctx : Nat
  cls : Nat
  entry : Nat
  part : Nat
  place : ItemPlace
  weight : Option Weight
  /-- rank and push order at its leaf, kept for a put-back (R320) -/
  rank : Nat
  order : Nat
  /-- bytes of a copy segment already copied (R246) -/
  done : Nat
  /-- refusals of a packet so far, and whether it waits to be re-sent, or was sent and waits for its ACK (R255) -/
  refused : Nat
  waiting : Bool
  sent : Bool
  /-- the fault record it waits on (R248), whether a FAIL response has ended the wait, and the address that it waited for (R359) -/
  fault : Option Nat
  failed : Bool
  faultVa : Nat
  /-- a put-back is wanted at the next safe point (R318) -/
  victim : Bool
  /-- dispatch: scratchpad start once allocated, whether decanting has begun, is done, or failed at an address (R316) -/
  spad : Option Nat
  spadLen : Nat
  decanting : Bool
  decanted : Bool
  decantFail : Option DWord
  /-- resume: the workgroup that it returns -/
  saved : Option Saved
  deriving DecidableEq, Repr

/-! The trellis. -/

/-- What an entry of an inner node stands for: the item itself at its entry node, else the child it entered by (R299). -/
inductive NRef where
  | item (item : Nat)
  | child (node : Nat)
  deriving DecidableEq, Repr

/-- An entry of a node or leaf in push order (R301, R303). -/
structure NEntry where
  ref : NRef
  rank : Nat
  order : Nat
  passed : Nat
  promoted : Bool
  deriving DecidableEq, Repr

/-- An inner node (R326): registers, fourteen state words, entries in push order, and the room taken at issue. -/
structure Node where
  ctl : DWord
  hzn : Nat
  pops : BitVec 32
  aged : BitVec 32
  noflow : BitVec 32
  state : List (BitVec 32)
  entries : List NEntry
  nextOrder : Nat
  /-- entries taken at issue and not yet inserted -/
  taken : Nat
  /-- the reserve entry is in use (R322) -/
  rbusy : Bool
  deriving DecidableEq, Repr

/-- A leaf (R327). -/
structure Leaf where
  ctl : DWord
  hzn : Nat
  pops : BitVec 32
  hstall : DWord
  dstall : DWord
  preempts : BitVec 32
  resv : BitVec 32
  state : List (BitVec 32)
  /-- PROG0 to PROG15; the program is the first LEN + 1 of them -/
  prog : List (BitVec 32)
  entries : List NEntry
  nextOrder : Nat
  /-- the reserve entry is in use (R322) -/
  rbusy : Bool
  /-- an item has become the head by its arrival, and pre-emption is still to be evaluated for it (R317) -/
  fresh : Bool
  deriving DecidableEq, Repr

/-- TRL_PART (R325). -/
structure Part where
  limit : Nat
  used : Nat
  rbusy : Bool
  deriving DecidableEq, Repr

/-- A probe token: the queue that sent it, the queue it stands at, hops so far (R322). Queues are numbered: node n as n,
leaf x as 512 + x, partition q as 1104 + q. -/
structure Token where
  home : Nat
  at' : Nat
  hops : Nat
  deriving DecidableEq, Repr

structure Trellis where
  /-- TRL_CLASS_A and TRL_CLASS_B (R324) -/
  classA : Table DWord
  classB : Table DWord
  parts : Table Part
  /-- TRL_CORE (R325) -/
  cores : Table DWord
  nodes : Table Node
  /-- program-store slots (R308); an unlisted slot holds REMIT 0 -/
  slots : Table (List (BitVec 32))
  leaves : Table Leaf
  /-- flow words by group × 16,384 + flow × 4 + word (R309) -/
  flows : Table (BitVec 32)
  items : Table Item
  tokens : List Token
  /-- reserve entries granted and not yet taken: the queue, and the unit whose item may take it, a wave or a top node (R322) -/
  grants : List (Nat × Nat)
  /-- top nodes blocked on a leaf: the node, the leaf's queue, and the step since which it has been blocked on it (R321, R322) -/
  blocked : List (Nat × Nat × Nat)
  deriving DecidableEq, Repr

/-! Quiescence. -/

/-- A domain root (R328, R329). -/
structure Root where
  isOpen : Bool
  o : Nat
  scope : Nat
  place : Place
  abort : Bool
  err : Bool
  late : Bool
  foreign : Bool
  granted : Bool
  ctx : Nat
  borrows : BitVec 32
  discard : BitVec 32
  deriving DecidableEq, Repr

/-- Who borrows (R332, R333). -/
inductive Borrower where
  | wave (w : Nat)
  /-- the segmenter for an operation of a core -/
  | op (op core : Nat)
  /-- a wave of the core that has ended since (R340) -/
  | gone (core : Nat)
  deriving DecidableEq, Repr

/-- A borrow on its way to the root, or its grant on the way back (R333). -/
structure Borrow where
  who : Borrower
  root : Nat
  granted : Bool
  deriving DecidableEq, Repr

/-- A return on its way to a root (R336, R338). -/
structure Return where
  root : Nat
  amount : Nat
  abort : Bool
  place : Place
  deriving DecidableEq, Repr

/-- An entry of the fabric return table (R337). -/
structure FabReturn where
  pkg : Nat
  root : Nat
  sum : Nat
  abort : Bool
  deriving DecidableEq, Repr

/-- The weight of an ended workgroup's last wave, kept until the workgroup's tile operations have completed (R335). -/
structure Owed where
  wg : Nat
  core : Nat
  weight : Weight
  abort : Bool
  deriving DecidableEq, Repr

structure Quiesce where
  roots : Table Root
  borrows : List Borrow
  returns : List Return
  fab : List FabReturn
  owed : List Owed
  deriving DecidableEq, Repr

/-! The fault path, contexts and the command die. -/

/-- A fault record (R358). Its waiters name its token. `written` is false while it waits for ring room. -/
structure FaultRec where
  token : Nat
  ctx : Nat
  frame : Nat
  write : Bool
  fetch : Bool
  reason : Nat
  core : Nat
  unit : Nat
  slot : Nat
  pkg : Nat
  written : Bool
  deriving DecidableEq, Repr

/-- A translation invalidation in progress (R356, R409): context, range, and the host queue whose packet sent it. -/
structure Xinv where
  ctx : Nat
  va : Nat
  len : Nat
  queue : Nat
  packet : Nat
  deriving DecidableEq, Repr

/-- A context's entry (R419). CTX_FRESP is write-only and holds nothing. -/
structure Context where
  ctl : DWord
  xlt : DWord
  fring : DWord
  fhead : BitVec 32
  ftail : BitVec 32
  qos : DWord
  trap : DWord
  kill : DWord
  save : DWord
  /-- slots holding a record, and NOSLOT (R379) -/
  saved : List Nat
  noslot : BitVec 32
  /-- CTX_LLQ.QUOTA (R350) -/
  quota : Nat
  deriving DecidableEq, Repr

/-- A queued DRAM request (R366): requester index, class, deadline. -/
structure DramReq where
  who : Nat
  cls : Nat
  deadline : BitVec 32
  deriving DecidableEq, Repr

structure Channel where
  clock : BitVec 32
  reqs : List DramReq
  deriving DecidableEq, Repr

/-- A firmware bank's image: the number that stands for its contents, and its SVN (R429). -/
structure Firmware where
  active : Bool
  pending : Bool
  reverted : Bool
  svnMin : Nat
  /-- the images of banks A and B -/
  bankA : Option FwImage
  bankB : Option FwImage
  /-- the switched-to image is not yet ready -/
  trial : Bool
  /-- owner record: hashes of the two keys; none: UNOWNED -/
  owner : Option (Nat × Nat)
  deriving DecidableEq, Repr

/-- A measurement in a session's transcript: index, context, nonce, and what was measured. -/
structure Measured where
  index : Nat
  ctx : Nat
  nonce : Nat
  content : List Nat
  deriving DecidableEq, Repr

/-- An SPDM session (R425, R426): secured once finished; the measurements of its transcript. -/
structure Session where
  secured : Bool
  transcript : List Measured
  deriving DecidableEq, Repr

/-- An error-log entry (R433). -/
structure LogEntry where
  type : Nat
  lost : Nat
  ctx : Nat
  addr : Nat
  deriving DecidableEq, Repr

/-- An event for the event ring (R414). -/
structure Event where
  type : Nat
  stack : Nat
  layer : Nat
  deriving DecidableEq, Repr

structure Command where
  ctxs : Table Context
  /-- frame table by 2 MiB frame number: OWNER, PROT, DIRTY (R422); an unlisted frame has `frame0` -/
  frames : Table (BitVec 12)
  frame0 : BitVec 12
  /-- keys of the loaded slots (R424) -/
  keys : Table Nat
  faults : List FaultRec
  nextToken : Nat
  xinvs : List Xinv
  /-- RACK_PROGRESS (R428), and the frames of a cold reset still to scrub -/
  rack : DWord
  memRefuse : DWord
  /-- HBM_MAPOUT [12:0] (R367) -/
  mapout : DWord
  /-- HBM_CAPk.LIVE (R367) -/
  live : Table (BitVec 16)
  hbmMiss : Table DWord
  channels : Table Channel
  fabRoute : Table (BitVec 16)
  fw : Firmware
  session : Option Session
  /-- how far the connection has come: 1 version, 2 capabilities, 3 algorithms -/
  versioned : Nat
  sensors : Table Int
  log : List LogEntry
  lost : Nat
  /-- errors that ECC could not correct since the last cold reset (R432) -/
  uncorrected : Nat
  i3c : Option Nat
  hbase : Option Nat
  /-- failed lanes of each port, and the ports retraining (R434) -/
  badLanes : Table Nat
  training : List Nat
  /-- repaired SRAM rows, as the repair tables name them (R434) -/
  rows : List Nat
  pkgId : Nat
  deriving DecidableEq, Repr

/-! The host interface. -/

/-- A launch from its acceptance or refusal to its report (R401 to R403). -/
structure Launch where
  id : Nat
  ctx : Nat
  queue : Nat
  packet : Nat
  /-- the 256 bytes of the record as a number -/
  record : Nat
  status : Nat
  weight : Option Weight
  released : Nat
  /-- the permitted set fixed at the first release (R313) -/
  permitted : Option (List Nat)
  ticket : Nat
  /-- an abandon mark stands at the counter (R228) -/
  mark : Bool
  /-- ended workgroups: SR_WGID and whether killed -/
  ended : List (Nat × Bool)
  aborted : Bool
  /-- the dies of its groups bound to DIE, by group ordinal (R18, R20) -/
  dies : List (Nat × Nat)
  /-- the work is complete; the digest as it stands; the record is written, or none is due -/
  complete : Bool
  digest : Option Nat
  /-- a FAIL response has ended the digest, and the address that it waited for (R359, R400) -/
  digestFail : Bool
  digestVa : Nat
  fault : Option Nat
  digested : Bool
  written : Bool
  deriving DecidableEq, Repr

/-- What a packet asks for at its end, in program order (R409). -/
inductive CaskAct where
  | launch (record : Nat)
  | cmd (code a b : Nat)
  deriving DecidableEq, Repr

/-- A packet whose completion entry is still to come (R406): index, launches, status. -/
structure Packet where
  index : Nat
  launches : List Nat
  status : Nat
  /-- XINV commands still running -/
  waiting : Nat
  /-- launches and commands that have not taken effect yet (R409) -/
  acts : List CaskAct
  deriving DecidableEq, Repr

/-- A host queue (R404). -/
structure HostQueue where
  ring : DWord
  head : BitVec 32
  tail : BitVec 32
  ctx : DWord
  cq : DWord
  packets : List Packet
  /-- complete packets whose entries are due, in completion order -/
  ready : List Packet
  entries : Nat
  /-- launches that a DRAIN waits for (R409) -/
  drain : List Nat
  q : List DWord
  deriving DecidableEq, Repr

/-- A message to the outside. -/
inductive Msg where
  /-- an access to another package (R415, R416): the bytes it writes, or an atomic's operation (R213) with its operands; the exact sum
  of XRED is operation 13 -/
  | request (home va size : Nat) (bytes : List Byte) (op : Option Nat)
  /-- a packet: an FSEND's carries weight, with the number of its root and that root's home package (R337) -/
  | packet (item home : Nat) (va : DWord) (bytes : List Byte) (weight : Option Weight) (pkg : Nat)
  /-- the answer to a performed request, with a status of R238 -/
  | reply (pkg status : Nat) (bytes : List Byte)
  | refuse (pkg hint : Nat)
  | giveBack (pkg root amount : Nat) (abort : Bool)
  /-- what a host load returns, and whether a byte of it is uncorrectable -/
  | hostData (bad : Bool) (bytes : List Byte)
  | spdm (value : Nat)
  | pldm (value : Int)
  | logRead (entries : List LogEntry)
  | event (kind a b : Nat)
  deriving DecidableEq, Repr

/-- An error that ECC cannot correct, as it comes about (R351, R375, R67): a granule of memory, lanes of a register in its pool, or
lanes of the data of the next fill. -/
inductive Upset where
  | granule (g : Nat)
  | lanes (wave : Nat) (file : RegFile) (reg : Nat) (lanes : Mask)
  | fill (lanes : Mask)
  deriving DecidableEq, Repr

structure HostIf where
  queues : Table HostQueue
  /-- the queue from which the interpreters go on round-robin (R405) -/
  turn : Nat
  casks : Table (List (BitVec 32))
  launches : Table Launch
  nextLaunch : Nat
  vtgRing : DWord
  vtgHead : BitVec 32
  vtgTail : BitVec 32
  /-- launches whose vintage records wait, in completion order (R397) -/
  vtgQueue : List Nat
  mgmtRing : DWord
  mgmtHead : BitVec 32
  mgmtTail : BitVec 32
  mgmtCq : DWord
  mgmtWritten : Nat
  evq : DWord
  evqHead : BitVec 32
  evqTail : BitVec 32
  events : List Event
  inputs : List Instr
  /-- errors that physics has in store, oldest first (log 69) -/
  upsets : List Upset
  outbox : List Msg
  deriving DecidableEq, Repr

/-- The state of the package. `tick` counts steps and indexes every free value, `clocks` the clocks that they took (log 3);
`uid` is the next fresh number; `focus` names the sequencer whose instruction executes (log 4). -/
structure State where
  mem : Mem
  waves : Table Wave
  wgs : Table Wg
  seqs : Table Seq
  cores : Table Core
  timelines : Table Timeline
  ops : Table Op
  trl : Trellis
  qd : Quiesce
  cmd : Command
  host : HostIf
  tick : Nat
  clocks : DWord
  uid : Nat
  focus : Option Nat
  deriving DecidableEq, Repr

/-! What an unlisted unit holds, and reset. -/

def Seq.reset : Seq := ⟨none, 7, none, [], 0, none, none, none, [], none, false, none⟩
def Pool.reset : Pool := ⟨[], none, false⟩
def Acc.reset : Acc := ⟨none, 0, []⟩
def Core.reset : Core :=
  { clock0 := 0, carve := 0, spad := [], macros := [], obs := [], obuf := [], accs := [.reset, .reset, .reset, .reset],
    vpool := .reset, spool := .reset, returns := [], rota := [], pos := 0, boundary := false, edge := false, turn := none, slices := [], owner := none, failed := false, spare := false, gone := false, partials := [] }
def Timeline.reset : Timeline := ⟨none, 0, 0, [], none⟩
/-- REMIT 0, word 0x8040_0000 (R308). -/
def progReset : List (BitVec 32) := [0x80400000#32]
/-- TOP = 1 (R326). -/
def Node.reset : Node := ⟨0x200#64, 0, 0, 0, 0, List.replicate 14 0, [], 0, 0, false⟩
/-- MARGIN = 0xFFFF (R327). -/
def Leaf.reset : Leaf :=
  ⟨0x3FFFC000#64, 0, 0, 0, 0, 0, 0, List.replicate 14 0, progReset ++ List.replicate 15 0, [], 0, false, false⟩
def Part.reset : Part := ⟨0, 0, false⟩
def Root.reset : Root := ⟨false, 0, 0, ⟨0, none⟩, false, false, false, false, false, 0, 0, 0⟩
/-- LOG2N 4; WCLASS 1 and the slacks of R365. -/
def Context.reset : Context :=
  { ctl := 0, xlt := 0, fring := 8, fhead := 0, ftail := 0,
    qos := BitVec.ofNat 64 (1 + 4095 * 2 ^ 8 + 1024 * 2 ^ 20 + 256 * 2 ^ 32 + 64 * 2 ^ 44), trap := 0, kill := 0, save := 0,
    saved := [], noslot := 0, quota := 0 }
/-- LOG2N 4 and SLOT 2 (R404). -/
def ringReset : DWord := BitVec.ofNat 64 (4 * 2 + 2 * 64)
def HostQueue.reset : HostQueue := ⟨ringReset, 0, 0, 0, 4, [], [], 0, [], List.replicate 8 0⟩
def Channel.reset : Channel := ⟨0, []⟩

/-- After a cold reset every frame is DIRTY (R428). -/
def frameDirty : BitVec 12 := 0x800

/-- The package right after a cold reset (R6, R431, INVENTORY.md). -/
def State.reset : State :=
  { mem := ⟨[], [], [], [], [], [], [], [], []⟩, waves := [], wgs := [], seqs := [], cores := [], timelines := [], ops := [],
    trl := ⟨[], [], [], [], [], [], [], [], [], [], [], []⟩, qd := ⟨[], [], [], [], []⟩,
    cmd :=
      { ctxs := [], frames := [], frame0 := frameDirty, keys := [], faults := [], nextToken := 0, xinvs := [], rack := 0,
        memRefuse := BitVec.ofNat 64 (16 + 1024 * 65536), mapout := 0, live := [], hbmMiss := [], channels := [],
        fabRoute := [], fw := ⟨false, false, false, 0, none, none, false, none⟩, session := none,
        versioned := 0, sensors := [], log := [], lost := 0, uncorrected := 0, i3c := none, hbase := none, badLanes := [],
        training := [], rows := [], pkgId := 0 },
    host :=
      { queues := [], turn := 0, casks := [], launches := [], nextLaunch := 1, vtgRing := 16, vtgHead := 0, vtgTail := 0,
        vtgQueue := [], mgmtRing := ringReset, mgmtHead := 0, mgmtTail := 0, mgmtCq := 4, mgmtWritten := 0, evq := 4,
        evqHead := 0, evqTail := 0, events := [], inputs := [], upsets := [], outbox := [] },
    tick := 0, clocks := 0, uid := 0, focus := none }

end Sys2Proof.Machine
end

