-- ==== Sys2Proof/Machine/Access.lean ====
section
/-! DEFINITION. Reading and updating one unit of the package: an unlisted unit reads as its reset value. -/

namespace Sys2Proof

/-- Bits [lo + n - 1 : lo] of a 64-bit register. -/
def DWord.fld (x : DWord) (lo n : Nat) : Nat := bitsOf x.toNat lo n

/-- Bit `k` of a 64-bit register. -/
def DWord.bit (x : DWord) (k : Nat) : Bool := bitOf x.toNat k

/-- A 64-bit register with bits [lo + n - 1 : lo] replaced. -/
def DWord.setFld (x : DWord) (lo n v : Nat) : DWord :=
  BitVec.ofNat 64 (x.toNat - bitsOf x.toNat lo n * 2 ^ lo + v % 2 ^ n * 2 ^ lo)

/-- The bits of `new` where `mask` is 1, of `old` elsewhere. -/
def mixDWord (old new mask : DWord) : DWord := (old &&& ~~~mask) ||| (new &&& mask)

end Sys2Proof

namespace Sys2Proof.Machine

/-- Element `n` of a list replaced. -/
def lset {α : Type} : List α → Nat → α → List α
  | [], _, _ => []
  | _ :: xs, 0, y => y :: xs
  | x :: xs, n + 1, y => x :: lset xs n y

/-- Entry `n` of a list replaced whose missing entries read as `d`. -/
def lsetD {α : Type} (d : α) : List α → Nat → α → List α
  | [], 0, y => [y]
  | [], n + 1, y => d :: lsetD d [] n y
  | _ :: xs, 0, y => y :: xs
  | x :: xs, n + 1, y => x :: lsetD d xs n y

/-- Insert by a key into a list sorted by it, behind equal keys. -/
def insertBy {α : Type} (key : α → Nat) (a : α) : List α → List α
  | [] => [a]
  | b :: l => if key a < key b then a :: b :: l else b :: insertBy key a l

/-- A list sorted by a key; equal keys keep their order. -/
def sortBy {α : Type} (key : α → Nat) (l : List α) : List α := l.foldl (fun r a => insertBy key a r) []

/-- An element with the least key, the earliest among equals. -/
def leastBy {α : Type} (key : α → Nat) (l : List α) : Option α := (sortBy key l).head?

/-- A list without the element at a position. -/
def dropAt {α : Type} : List α → Nat → List α
  | [], _ => []
  | _ :: l, 0 => l
  | a :: l, n + 1 => a :: dropAt l n

def State.wave? (s : State) (w : Nat) : Option Wave := tget s.waves w
def State.setWave (s : State) (w : Nat) (x : Wave) : State := { s with waves := tput s.waves w x }
def State.updWave (s : State) (w : Nat) (f : Wave → Wave) : State :=
  match s.wave? w with | some x => s.setWave w (f x) | none => s
def State.dropWave (s : State) (w : Nat) : State := { s with waves := terase s.waves w }

def State.wg? (s : State) (u : Nat) : Option Wg := tget s.wgs u
def State.setWg (s : State) (u : Nat) (x : Wg) : State := { s with wgs := tput s.wgs u x }
def State.updWg (s : State) (u : Nat) (f : Wg → Wg) : State :=
  match s.wg? u with | some x => s.setWg u (f x) | none => s

def State.seq (s : State) (q : Nat) : Seq := (tget s.seqs q).getD Seq.reset
def State.setSeq (s : State) (q : Nat) (x : Seq) : State := { s with seqs := tput s.seqs q x }
def State.updSeq (s : State) (q : Nat) (f : Seq → Seq) : State := s.setSeq q (f (s.seq q))

/-- The clocks of a unit alone over a number of ticks (R5). -/
def ownTime (unit : Nat) : Nat → Nat
  | 0 => 0
  | t + 1 => ownTime unit t + Config.ownClocks unit t

/-- The clocks that a unit has counted: those of every step and its own (R5, log 3). -/
def State.unitClock (s : State) (unit : Nat) : DWord := s.clocks + BitVec.ofNat 64 (ownTime unit s.tick)

def State.core (s : State) (c : Nat) : Core := (tget s.cores c).getD Core.reset
/-- The clocks of a core since its last reset (R164). -/
def State.coreClock (s : State) (c : Nat) : DWord := s.unitClock c - (s.core c).clock0
def State.setCore (s : State) (c : Nat) (x : Core) : State := { s with cores := tput s.cores c x }
def State.updCore (s : State) (c : Nat) (f : Core → Core) : State := s.setCore c (f (s.core c))

def State.timeline (s : State) (t : Nat) : Timeline := (tget s.timelines t).getD Timeline.reset
def State.setTimeline (s : State) (t : Nat) (x : Timeline) : State := { s with timelines := tput s.timelines t x }
def State.op? (s : State) (o : Nat) : Option Op := tget s.ops o
def State.setOp (s : State) (o : Nat) (x : Op) : State := { s with ops := tput s.ops o x }
def State.updOp (s : State) (o : Nat) (f : Op → Op) : State :=
  match s.op? o with | some x => s.setOp o (f x) | none => s

def State.setTrl (s : State) (t : Trellis) : State := { s with trl := t }
def State.node (s : State) (n : Nat) : Node := (tget s.trl.nodes n).getD Node.reset
def State.setNode (s : State) (n : Nat) (x : Node) : State := s.setTrl { s.trl with nodes := tput s.trl.nodes n x }
def State.leaf (s : State) (x : Nat) : Leaf := (tget s.trl.leaves x).getD Leaf.reset
def State.setLeaf (s : State) (x : Nat) (l : Leaf) : State := s.setTrl { s.trl with leaves := tput s.trl.leaves x l }
def State.part (s : State) (p : Nat) : Part := (tget s.trl.parts p).getD Part.reset
def State.setPart (s : State) (p : Nat) (x : Part) : State := s.setTrl { s.trl with parts := tput s.trl.parts p x }
def State.classA (s : State) (c : Nat) : DWord := (tget s.trl.classA c).getD 0
def State.classB (s : State) (c : Nat) : DWord := (tget s.trl.classB c).getD 0
def State.trlCore (s : State) (c : Nat) : DWord := (tget s.trl.cores c).getD 0
def State.item? (s : State) (i : Nat) : Option Item := tget s.trl.items i
def State.setItem (s : State) (i : Nat) (x : Item) : State := s.setTrl { s.trl with items := tput s.trl.items i x }
def State.updItem (s : State) (i : Nat) (f : Item → Item) : State :=
  match s.item? i with | some x => s.setItem i (f x) | none => s
def State.dropItem (s : State) (i : Nat) : State := s.setTrl { s.trl with items := terase s.trl.items i }

def State.setQd (s : State) (q : Quiesce) : State := { s with qd := q }
def State.root (s : State) (d : Nat) : Root := (tget s.qd.roots d).getD Root.reset
def State.setRoot (s : State) (d : Nat) (r : Root) : State := s.setQd { s.qd with roots := tput s.qd.roots d r }

def State.setCmd (s : State) (c : Command) : State := { s with cmd := c }
def State.ctx (s : State) (c : Nat) : Context := (tget s.cmd.ctxs c).getD Context.reset
def State.setCtx (s : State) (c : Nat) (x : Context) : State := s.setCmd { s.cmd with ctxs := tput s.cmd.ctxs c x }
def State.updCtx (s : State) (c : Nat) (f : Context → Context) : State := s.setCtx c (f (s.ctx c))
def State.frame (s : State) (f : Nat) : BitVec 12 := (tget s.cmd.frames f).getD s.cmd.frame0
def State.channel (s : State) (c : Nat) : Channel := (tget s.cmd.channels c).getD Channel.reset
def State.liveLayers (s : State) (k : Nat) : BitVec 16 := (tget s.cmd.live k).getD 0xFFFF

def State.setHost (s : State) (h : HostIf) : State := { s with host := h }
def State.queue (s : State) (q : Nat) : HostQueue := (tget s.host.queues q).getD HostQueue.reset
def State.setQueue (s : State) (q : Nat) (x : HostQueue) : State := s.setHost { s.host with queues := tput s.host.queues q x }
def State.launch? (s : State) (l : Nat) : Option Launch := tget s.host.launches l
def State.setLaunch (s : State) (l : Nat) (x : Launch) : State :=
  s.setHost { s.host with launches := tput s.host.launches l x }
def State.updLaunch (s : State) (l : Nat) (f : Launch → Launch) : State :=
  match s.launch? l with | some x => s.setLaunch l (f x) | none => s
def State.send (s : State) (m : Msg) : State := s.setHost { s.host with outbox := s.host.outbox ++ [m] }

def State.setMem (s : State) (m : Mem) : State := { s with mem := m }

/-- A fresh number, and the state that has handed it out. -/
def State.fresh (s : State) : Nat × State := (s.uid, { s with uid := s.uid + 1 })

/-! Where a unit stands in the package (R1, R15, R348). -/

/-- Core, slot, sequencer, cluster and die of a wave key 32 × core + SR_WAVESLOT. -/
def coreOfWave (w : Nat) : Nat := w / 32
def slotOfWave (w : Nat) : Nat := w % 32
def seqOfWave (w : Nat) : Nat := w / 8
def clusterOfCore (c : Nat) : Nat := c / 12
def dieOfCore (c : Nat) : Nat := c / 96

/-- The place of a core of this package. -/
def State.placeOf (s : State) (c : Nat) : Place := ⟨s.cmd.pkgId, some c⟩

/-- Whether two places lie in one instance of a scope (R10, R11); a place without a core lies in no instance narrower
than DEVICE. -/
def samePlace (scope : Nat) (a b : Place) : Bool :=
  if scope ≥ 5 then true
  else if a.pkg != b.pkg then false
  else if scope = 4 then true
  else match a.core, b.core with
    | some x, some y =>
      if scope ≤ 1 then x == y else if scope = 2 then clusterOfCore x == clusterOfCore y else dieOfCore x == dieOfCore y
    | _, _ => false

end Sys2Proof.Machine
end

