-- ==== Sys2Proof/Machine/Launch.lean ====
section
/-! DEFINITION. The launch record (spec/15 R401): its fields, the levels of a grid and the coordinates of its workgroups
(spec/01 R18 to R21). -/

namespace Sys2Proof.Machine

/-- Bits [lo + n - 1 : lo] of the record from a byte offset. -/
def recFld (r byte lo n : Nat) : Nat := bitsOf r (8 * byte + lo) n

def recProgram (r : Nat) : Nat := recFld r 0 0 64
def recLevels (r : Nat) : Nat := recFld r 8 0 4
def recDet (r : Nat) : Bool := bitOf r 68
def recPlace (r : Nat) : Nat := recFld r 8 5 2
def recCarve (r : Nat) : Nat := recFld r 8 7 3
def recOvercommit (r : Nat) : Nat := recFld r 8 10 6
def recClass (r : Nat) : Nat := recFld r 8 16 12
def recDomain (r : Nat) : Nat := recFld r 8 28 10
def recQv (r : Nat) : Bool := bitOf r (64 + 38)
def recHint (r : Nat) : Nat := recFld r 8 39 8
def recTileMask (r : Nat) : Nat := recFld r 8 47 8
def recFootprint (r : Nat) : Nat := recFld r 16 0 64
def recVregs (r : Nat) : Nat := recFld r 16 0 9
def recSregs (r : Nat) : Nat := recFld r 16 9 7
def recSpad (r : Nat) : Nat := recFld r 16 16 20
def recSeed (r : Nat) : Nat := recFld r 0x38 0 64
def recCtrBase (r : Nat) : Nat := recFld r 0x40 0 64
def recTBase (r : Nat) : Nat := recFld r 0x48 0 64
def recTStride (r : Nat) : Nat := recFld r 0x50 0 64
def recTlSel (r k : Nat) : Nat := recFld r (0x58 + 2 * k) 0 16
def recDCount (r : Nat) : Nat := recFld r 0x68 0 2
def recOCount (r : Nat) : Nat := recFld r 0x68 2 3
/-- Decant region `k`: address, bytes, scratchpad offset. -/
def recDecant (r k : Nat) : Nat × Nat × Nat :=
  (recFld r (0x70 + 16 * k) 0 64, recFld r (0x78 + 16 * k) 0 20, recFld r (0x78 + 16 * k) 20 20)
/-- Output region `k`: address, bytes. -/
def recOut (r k : Nat) : Nat × Nat := (recFld r (0x90 + 16 * k) 0 64, recFld r (0x98 + 16 * k) 0 40)
/-- Initial value of s0 to s5. -/
def recScalar (r k : Nat) : Nat := recFld r (0xD0 + 8 * k) 0 64

/-- EXTENTk: 32 lanes, the waves of a workgroup, and levels 2 to 7 (R18). -/
def recExtent (r k : Nat) : Nat :=
  if k = 0 then 32 else if k = 1 then recFld r 0x18 0 6 else recFld r (0x20 + 4 * (k - 2)) 0 25

/-- BINDk of a level from 2 (R10 codes). -/
def recBind (r k : Nat) : Nat := recFld r 0x18 (3 * k + 2) 3

/-- The product of the extents of levels 2 to `k - 1`. -/
def recStride (r : Nat) (k : Nat) : Nat := (List.range (k - 2)).foldl (fun a j => a * recExtent r (j + 2)) 1

/-- Workgroups of the launch (R401). -/
def recCount (r : Nat) : Nat := recStride r 8

/-- The coordinate at a level of the workgroup with an SR_WGID (R21). -/
def recLevel (r wgid k : Nat) : Nat := wgid / recStride r k % recExtent r k

/-- Whether some level is bound to CLUSTER (R196). -/
def recHasCluster (r : Nat) : Bool := (List.range 6).any fun j => recBind r (j + 2) == 2

/-- The members of a group bound to CLUSTER: the product of the extents up to the highest level so bound; 1 without one
(R196). -/
def recMembers (r : Nat) : Nat :=
  (List.range 6).foldl (fun a j => if recBind r (j + 2) == 2 then recStride r (j + 3) else a) 1

/-- The workgroups of a group bound to DIE: the product of the extents up to the highest level so bound (R18). -/
def recDieMembers (r : Nat) : Option Nat :=
  (List.range 6).foldl (fun a j => if recBind r (j + 2) == 3 then some (recStride r (j + 3)) else a) none

/-- Scratchpad bytes of a carve-out code (R343). -/
def carveBytes (c : Nat) : Nat := [128, 256, 384, 512, 640, 704].getD c 704 * 1024

end Sys2Proof.Machine
end

