-- ==== Sys2Proof/Machine/Memory.lean ====
section
/-! DEFINITION. Physical memory, the points at which each scope is performed (spec/12 R347), poisoned granules (R351), the
physical address map (R363, R410), address translation (R352 to R357), frame ownership (R422, R423), and the error log
(R433). -/

namespace Sys2Proof.Machine

/-! Byte memories in canonical form: addresses strictly rising, no entry equal to 0, which an unlisted byte reads as. -/

/-- The byte at an address. -/
def cellGet (m : List Host.Cell) (a : Nat) : Byte := (tget m a).getD 0

/-- The memory with one byte written. -/
def cellPut (m : List Host.Cell) (a : Nat) (b : Byte) : List Host.Cell := if b = 0 then terase m a else tput m a b

/-- Strictly rising addresses and no listed zero byte. -/
def cellsWf (m : List Host.Cell) : Bool := twf m && m.all fun c => c.2 != 0

/-- `n` bytes from an address, little-endian (R3). -/
def cellsNat (m : List Host.Cell) (a : Nat) : Nat → Nat
  | 0 => 0
  | n + 1 => (cellGet m a).toNat + 256 * cellsNat m (a + 1) n

/-- The low `n` bytes of a number written from an address. -/
def cellsPut (m : List Host.Cell) (a : Nat) : Nat → Nat → List Host.Cell
  | 0, _ => m
  | n + 1, x => cellsPut (cellPut m a (BitVec.ofNat 8 x)) (a + 1) n (x / 256)

/-- The range [a, a + n) cleared. -/
def cellsClear (m : List Host.Cell) (a n : Nat) : List Host.Cell := m.filter fun c => c.1 < a || a + n ≤ c.1

/-- The memory with its cells in place of the old ones. -/
def Mem.setCells (m : Mem) (c : List Host.Cell) : Mem := { m with cells := c }

/-- Memory in canonical form: physical memory rises strictly and lists no zero byte. -/
def Mem.wf (m : Mem) : Bool := cellsWf m.cells

/-! The error log (R433). -/

/-- An error that ECC cannot correct is counted (R432). -/
def State.countError (s : State) : State := s.setCmd { s.cmd with uncorrected := s.cmd.uncorrected + 1 }

/-- An entry is added; in a full ring it overwrites the oldest one and counts the entries overwritten so far, up to 255. -/
def State.logError (s : State) (type ctx addr : Nat) : State :=
  let full := s.cmd.log.length ≥ Config.errorLogSize
  let lost := if full then (if s.cmd.lost < 255 then s.cmd.lost + 1 else 255) else s.cmd.lost
  let log := (if full then s.cmd.log.drop 1 else s.cmd.log) ++ [⟨type, lost, ctx, addr⟩]
  (s.setCmd { s.cmd with log := log, lost := lost }).send (.event 4 type ctx)

/-! The physical address map. -/

/-- What a 52-bit physical address names (R410). -/
inductive Target where
  | host
  | hbm (off : Nat)
  | regs (off : Nat)
  | remote (pkg : Nat)
  | remoteRegs
  deriving DecidableEq, Repr

def State.target (s : State) (pa : Nat) : Target :=
  if bitOf pa 51 then .host
  else
    let h := bitsOf pa 45 6
    if h = s.cmd.pkgId then (if bitOf pa 44 then .regs (pa % 2 ^ 44) else .hbm (pa % 2 ^ 44))
    else if bitOf pa 44 then .remoteRegs else .remote h

/-- 48 GiB, the size of a band. -/
def bandSize : Nat := 48 * 2 ^ 30

/-- The number of live stack-layers of a layer (R363). -/
def State.liveOf (s : State) (layer : Nat) : Nat :=
  ((List.range 12).filter fun k => bitOf (s.liveLayers k).toNat layer).length

/-- Whether an offset in local HBM is absent: beyond 768 GiB or beyond its band's live frames (R363). -/
def State.absent (s : State) (off : Nat) : Bool :=
  off ≥ 16 * bandSize || off % bandSize / 4096 ≥ s.liveOf (off / bandSize) * 2 ^ 20

/-- Whether a physical address is absent from local HBM (R363). -/
def State.absentAt (s : State) (pa : Nat) : Bool := match s.target pa with | .hbm off => s.absent off | _ => false

/-- Where a narrow byte stands. -/
def NarrowByte.holder (n : NarrowByte) : Holder := match n.core with | some c => .l1 c | none => .l2 n.die

/-- Whether narrow bytes of one copy hold the whole of a poisoned granule as good data (R351). -/
def goodCopy (l : List NarrowByte) (g : Nat) (h : Holder) : Bool :=
  (List.range 32).all fun k => l.any fun n => n.pa == 32 * g + k && n.holder == h && 32 ≤ n.span

/-- The copies that an agent of a core sees at a scope before memory (R347). -/
def seesCopy (core scope : Nat) (h : Holder) : Bool :=
  match h with
  | .l1 c => scope ≤ 1 && c == core
  | .l2 d => scope ≤ 3 && d == dieOfCore core
  | .mem => false

/-- Whether a granule is poisoned for an agent that sees these copies: none of them holds all of it as good data (R351). -/
def State.granuleBad (s : State) (g : Nat) (sees : Holder → Bool) : Bool :=
  s.mem.poisoned.contains g &&
    !(s.mem.narrow.any fun n => n.pa / 32 == g && sees n.holder && goodCopy s.mem.narrow g n.holder)

/-- Whether a read of the byte by an agent of a core at a scope finds uncorrectable data (R351, R363). -/
def State.isPoisoned (s : State) (core scope pa : Nat) : Bool :=
  s.granuleBad (pa / 32) (seesCopy core scope) || s.absentAt pa

/-- Whether it does for the command die, the page walker, the host and other packages, which see the L2 of every die (R347). -/
def State.sysPoisoned (s : State) (pa : Nat) : Bool :=
  s.granuleBad (pa / 32) (fun h => match h with | .l2 _ => true | _ => false) || s.absentAt pa

/-- The 2 MiB frame entry of a local address: owner and PROT (R422). -/
def State.frameOf (s : State) (pa : Nat) : BitVec 12 :=
  match s.target pa with
  | .hbm off => s.frame (off / 2 ^ 21)
  | _ => 0

/-- Whether an agent of context `c` may touch a frame: it is not protected, or it is the owner's and the owner's key is loaded
(R423, R427). -/
def State.frameAllows (s : State) (c pa : Nat) : Bool :=
  let f := (s.frameOf pa).toNat
  !bitOf f 10 || (bitsOf f 0 10 == c && (tget s.cmd.keys c).isSome)

/-! The performance points. -/

/-- A list of ranges without [a, a + n). -/
def ungarble (l : List Garbled) (a n : Nat) : List Garbled :=
  (l.map fun g =>
    if g.start + g.len ≤ a || a + n ≤ g.start then [g]
    else (if g.start < a then [{ g with len := a - g.start }] else []) ++
      (if a + n < g.start + g.len then [{ g with start := a + n, len := g.start + g.len - (a + n) }] else [])).flatten

/-- A byte of memory as it decrypts (R423). -/
def State.memByte (s : State) (pa : Nat) : Byte :=
  match s.mem.garbled.find? fun g => g.start ≤ pa && pa < g.start + g.len with
  | some g => Config.garbledByte g.seed pa
  | none => cellGet s.mem.cells pa

/-- Write one byte to physical memory itself. A write to an absent address is discarded (R363). -/
def State.pokeCell (s : State) (pa : Nat) (b : Byte) : State :=
  if s.absentAt pa then s
  else s.setMem { (s.mem.setCells (cellPut s.mem.cells pa b)) with garbled := ungarble s.mem.garbled pa 1 }

/-- The narrow byte at an address in a list, the latest one that `p` accepts. -/
def narrowGet (l : List NarrowByte) (p : NarrowByte → Bool) : Option Byte :=
  (l.reverse.find? p).map (·.byte)

/-- The byte that an agent of a core sees at a scope: its L1, then its die's L2, then memory (R347). -/
def State.peek (s : State) (core scope pa : Nat) : Byte :=
  let l1 := if scope ≤ 1 then narrowGet s.mem.narrow fun n => n.pa == pa && n.core == some core else none
  let l2 := if scope ≤ 3 then narrowGet s.mem.narrow fun n => n.pa == pa && n.core == none && n.die == dieOfCore core
    else none
  match l1, l2 with
  | some b, _ => b
  | none, some b => b
  | none, none => s.memByte pa

/-- The number of a word of a scratchpad array in the table of releases. -/
def spadWord (core off : Nat) : Nat := 2 ^ 50 + core * 2 ^ 17 + off / 8

/-- The release record of a word goes from one copy to another, in place of the other's (R281). -/
def relMove (l : List RelRec) (word : Nat) (a b : Holder) : List RelRec :=
  if l.any fun r => r.word == word && r.holder == a then
    (l.filter fun r => !(r.word == word && r.holder == b)).map fun r =>
      if r.word == word && r.holder == a then { r with holder := b } else r
  else l

/-- The widest block that a copy's narrow bytes of an address are performed in. -/
def spanAt (l : List NarrowByte) (pa : Nat) (h : Holder) (span : Nat) : Nat :=
  l.foldl (fun k n => if n.pa == pa && n.holder == h then max k n.span else k) span

/-- Perform one narrow byte at a wider scope: at its die's L2, or in memory (R277). -/
def State.widen (s : State) (n : NarrowByte) (scope : Nat) : State :=
  let rest := s.mem.narrow.filter fun m => m != n
  if scope ≤ 1 then s
  else if scope ≤ 3 then
    if n.core == none then s
    else
      let rest := rest.filter fun m => !(m.pa == n.pa && m.core == none && m.die == n.die)
      s.setMem { s.mem with
        narrow := rest ++ [{ n with core := none, span := spanAt s.mem.narrow n.pa (.l2 n.die) n.span }], releases := relMove s.mem.releases (n.pa / 8) n.holder (.l2 n.die) }
  else
    (s.setMem { s.mem with narrow := rest, releases := relMove s.mem.releases (n.pa / 8) n.holder .mem }).pokeCell n.pa n.byte

/-- Whether a narrow byte `n` is performed at a scope together with `m`: it lies in the same block of the same copy (R199, R216), or it is
the L2's and memory's granule is made coherent with the L2 of every die (R278, R347, log 72). -/
def NarrowByte.joins (scope : Nat) (m n : NarrowByte) : Bool :=
  let block := max 16 (max m.span n.span)
  (n.holder == m.holder && n.pa / block == m.pa / block) || (scope ≥ 4 && n.core == none && n.pa / 16 == m.pa / 16)

/-- The narrow bytes that are performed with those of a list, `k` rounds of `joins` on: blocks have at most 64 bytes, so that few
rounds find all. -/
def State.joined (s : State) (scope : Nat) : Nat → List NarrowByte → List NarrowByte
  | 0, l => l
  | k + 1, l => s.joined scope k (s.mem.narrow.filter fun n => l.any fun m => m.joins scope n)

/-- The marks of the granules that a list of narrow bytes writes whole to memory are gone (R351). -/
def State.clearWhole (s : State) (l : List NarrowByte) : State :=
  s.setMem { s.mem with poisoned := s.mem.poisoned.filter fun g => !(l.any fun n => n.pa / 32 == g && goodCopy l g n.holder) }

/-- Perform every narrow byte that `p` chooses at the scope, with what is performed as one with it: the bytes of L2s first, in the order of
their stores, then those of L1s, which pass through the L2 (R278, R347). -/
def State.widenAll (s : State) (p : NarrowByte → Bool) (scope : Nat) : State :=
  let all := s.joined scope 4 (s.mem.narrow.filter p)
  let t := ((all.filter fun n => n.core == none) ++ all.filter fun n => n.core.isSome).foldl (fun s n => s.widen n scope) s
  if scope ≥ 4 then t.clearWhole all else t

/-- Whether a byte stands in the L1 of a core or in the L2 of its die. -/
def NarrowByte.near (n : NarrowByte) (core : Nat) : Bool :=
  n.core == some core || (n.core == none && n.die == dieOfCore core)

/-- A release by an agent of a core: every covered byte that its caches hold narrowly is performed at the scope, so that what
the agent had acquired goes with it (R221, R222, R282). -/
def State.perform (s : State) (core scope : Nat) (covers : NarrowByte → Bool) : State :=
  s.widenAll (fun n => n.near core && covers n) scope

/-- Whether a narrow byte lies in a granule of `n` bytes from an address. -/
def NarrowByte.within (b : NarrowByte) (pa n : Nat) : Bool := pa / 16 ≤ b.pa / 16 && b.pa / 16 ≤ (pa + n - 1) / 16

/-- A load of `n` bytes at a scope discards narrower copies: those of the issuing core's L1, and at DEVICE scope or wider those of
every die's L2. They are performed first, whole granules at a time, so that no store is torn (R199, R277, R347). -/
def State.settle (s : State) (core scope pa n : Nat) : State :=
  if scope ≤ 1 then s
  else s.widenAll (fun b => b.within pa n && (b.core == some core || (scope ≥ 4 && b.core == none))) scope

/-- Every narrow byte of the granules of `n` bytes is performed at SYSTEM scope: the line is coherent with every copy (R347). -/
def State.gather (s : State) (pa n : Nat) : State := s.widenAll (fun b => b.within pa n) 5

/-- An atomic step at a die's L2 is preceded by what another die's L2 holds of the granules, so that it reads the value just before
its own write (R278, log 72). -/
def State.gatherDies (s : State) (core pa n : Nat) : State :=
  s.widenAll (fun b => b.within pa n && b.core == none && b.die != dieOfCore core) 5

/-- Who makes an access: core and context. -/
structure Who where
  core : Nat
  ctx : Nat
  deriving DecidableEq, Repr

/-- Store one byte at a scope (R347), in a block of `span` bytes: in the core's L1, in the die's L2, or in memory after every other copy
is gone. -/
def State.storeByte (s : State) (a : Who) (scope span va pa : Nat) (b : Byte) : State :=
  let die := dieOfCore a.core
  if scope ≤ 1 then
    let rest := s.mem.narrow.filter fun n => !(n.pa == pa && n.core == some a.core)
    s.setMem { s.mem with narrow := rest ++ [⟨pa, b, some a.core, die, a.ctx, va, spanAt s.mem.narrow pa (.l1 a.core) span⟩] }
  else if scope ≤ 3 then
    let rest := s.mem.narrow.filter fun n => !(n.pa == pa && (n.core == some a.core || (n.core == none && n.die == die)))
    s.setMem { s.mem with narrow := rest ++ [⟨pa, b, none, die, a.ctx, va, spanAt s.mem.narrow pa (.l2 die) span⟩] }
  else (s.setMem { s.mem with narrow := s.mem.narrow.filter fun n => n.pa != pa }).pokeCell pa b

/-- Whether writes, given as addresses and lengths, together cover a 32-byte granule. -/
def coversGranule (l : List (Nat × Nat)) (g : Nat) : Bool :=
  (List.range 32).all fun k => l.any fun r => r.1 ≤ 32 * g + k && 32 * g + k < r.1 + r.2

/-- Writes by an agent of a core at a scope that together cover a whole poisoned granule (R351): in memory they clear its mark; in a cache
the copy that they fill is good, while memory's granule stays as it is for those who do not see that copy. -/
def State.heal (s : State) (core scope : Nat) (l : List (Nat × Nat)) : State :=
  if scope ≥ 4 then s.setMem { s.mem with poisoned := s.mem.poisoned.filter fun g => !coversGranule l g }
  else
    let whole := s.mem.poisoned.filter (coversGranule l)
    if whole.isEmpty then s
    else
      let h : Holder := if scope ≤ 1 then .l1 core else .l2 (dieOfCore core)
      s.setMem { s.mem with narrow := s.mem.narrow.map fun n =>
        if n.holder == h && whole.contains (n.pa / 32) then { n with span := max 32 n.span } else n }

/-- Store the low `n` bytes of a number. More than 16 are an exact accumulator's, performed as one (R216). A write that covers whole
poisoned granules heals them (R351), and one that reaches an absent address is recorded in the error log (R363). -/
def State.storeNat (s : State) (a : Who) (scope va pa : Nat) (n x : Nat) : State :=
  let gone := (List.range n).any fun k => s.absentAt (pa + k)
  let span := if n ≤ 16 then 16 else 64
  let s := if scope ≥ 4 then s.gather pa n else s.settle a.core scope pa n
  let s := (List.range n).foldl (fun s k => s.storeByte a scope span (va + k) (pa + k) (BitVec.ofNat 8 (x / 256 ^ k))) s
  (if gone then s.logError 2 a.ctx pa else s).heal a.core scope [(pa, n)]

/-- `n` bytes as an agent of the core sees them at the scope. -/
def State.peekNat (s : State) (core scope pa : Nat) : Nat → Nat
  | 0 => 0
  | n + 1 => (s.peek core scope pa).toNat + 256 * s.peekNat core scope (pa + 1) n

/-- Load `n` bytes at a scope: the narrower copies are performed first. -/
def State.loadNat (s : State) (core scope pa n : Nat) : State × Nat :=
  ((s.settle core scope pa n), (s.settle core scope pa n).peekNat core scope pa n)

/-- Whether any of `n` bytes is uncorrectable for an agent of a core at a scope. -/
def State.poisonedRange (s : State) (core scope pa n : Nat) : Bool := (List.range n).any fun k => s.isPoisoned core scope (pa + k)

/-- The same for the command die, the page walker, the host and other packages. -/
def State.sysPoisonedRange (s : State) (pa n : Nat) : Bool := (List.range n).any fun k => s.sysPoisoned (pa + k)

/-- A byte at SYSTEM scope: the line is coherent with the L2 of every die, as `widenAll` performs them (R347). What another package
answers is free (log 12), as is what a read of the register space by no host gives (log 72). -/
def State.sysByte (s : State) (pa : Nat) : Byte :=
  match s.target pa with
  | .remote _ | .regs _ | .remoteRegs => Config.remoteByte s.tick pa
  | _ =>
    match narrowGet s.mem.narrow fun n => n.pa == pa && n.core == none with
    | some b => b
    | none => s.memByte pa

/-- Bytes at SYSTEM scope, as the command die, the page walker and the host read them. -/
def State.sysNat (s : State) (pa : Nat) : Nat → Nat
  | 0 => 0
  | n + 1 => (s.sysByte pa).toNat + 256 * s.sysNat (pa + 1) n

/-- The instruction word at an address as a cluster's fetch finds it: at the L2 of its die (R77), in an uncacheable page at SYSTEM scope
(R349). -/
def State.peekCode (s : State) (core pa : Nat) (uncached : Bool) : Nat := if uncached then s.sysNat pa 8 else s.peekNat core 3 pa 8

/-- Bytes written at SYSTEM scope by the command die or the page walker: in memory, or by a request to another package (R410). A
write to the register space does nothing (log 72). -/
def State.sysPut (s : State) (pa n x : Nat) : State :=
  match s.target pa with
  | .remote h => s.send (.request h pa n (leBytes n x) none)
  | .regs _ | .remoteRegs => s
  | _ => s.storeNat ⟨0, 0⟩ 5 0 pa n x

/-! Translation. -/

/-- Page bytes of a leaf size code and the level that allows it (R353). -/
def pageSize (code : Nat) : Nat × Nat :=
  match code with
  | 0 => (2 ^ 12, 0) | 1 => (2 ^ 14, 0) | 2 => (2 ^ 16, 0) | 3 => (2 ^ 18, 0)
  | 4 => (2 ^ 21, 1) | 5 => (2 ^ 25, 1) | 6 => (2 ^ 30, 2) | _ => (2 ^ 34, 2)

/-- The result of a walk: no present entry and the reason code of R358, or a leaf with its own address. -/
inductive Walk where
  | absent (reason : Nat)
  | leaf (entryPa entry size : Nat)
  deriving DecidableEq, Repr

/-- Whether a valid entry is malformed at a level (R354). -/
def malformed (level e : Nat) : Bool :=
  let t := bitOf e 1
  let code := bitsOf e 2 3
  bitsOf e 55 9 != 0 || bitsOf e 8 2 ≥ 2 || bitsOf e 52 2 == 3 || (t && (level == 0 || code != 0)) ||
  (!t && (level ≥ 3 || (pageSize code).2 != level || bitsOf e 12 40 * 4096 % (pageSize code).1 != 0))

/-- The walk from the table of a level (R352, R353): 12 index bits at level 4, 9 below. DESIGN CHOICE (log 78): an entry with uncorrectable
data, which R375 lets no one use, counts as malformed. -/
def State.walkFrom (s : State) (va : Nat) : Nat → Nat → Walk
  | 0, table =>
    let a := table + 8 * bitsOf va 12 9
    let e := s.sysNat a 8
    if s.sysPoisonedRange a 8 then .absent 1
    else if !bitOf e 0 then .absent 0 else if malformed 0 e then .absent 1 else .leaf a e (pageSize (bitsOf e 2 3)).1
  | n + 1, table =>
    let level := n + 1
    let a := table + 8 * bitsOf va (12 + 9 * level) (if level = 4 then 12 else 9)
    let e := s.sysNat a 8
    if s.sysPoisonedRange a 8 then .absent 1
    else if !bitOf e 0 then .absent 0
    else if malformed level e then .absent 1
    else if bitOf e 1 then s.walkFrom va n (bitsOf e 12 40 * 4096)
    else .leaf a e (pageSize (bitsOf e 2 3)).1

/-- Whether the protected context owns every 2 MiB frame of a page (R422). -/
def State.ownsPage (s : State) (c pa size : Nat) : Bool :=
  (List.range ((size + 2 ^ 21 - 1) / 2 ^ 21)).all fun k =>
    bitsOf (s.frameOf (pa + k * 2 ^ 21)).toNat 0 10 == c

/-- The walk of a context's tables (R352); a leaf of a protected context outside its frames is malformed (R422). -/
def State.walk (s : State) (c va : Nat) : Walk :=
  let x := (s.ctx c).xlt
  if !x.bit 0 then .absent 0
  else match s.walkFrom va 4 (x.fld 15 37 * 2 ^ 15) with
    | .leaf a e size =>
      if (s.ctx c).ctl.bit 1 && !s.ownsPage c (bitsOf e 12 40 * 4096) size then .absent 1 else .leaf a e size
    | w => w

/-- The cached entry that covers an address in a TLB (R356). -/
def State.tlbFind (s : State) (cluster : Bool) (unit c va : Nat) : Option TlbEntry :=
  s.mem.tlb.find? fun t => t.cluster == cluster && t.unit == unit && t.ctx == c && t.va ≤ va && va < t.va + t.size

/-- A TLB holds 64 entries in a core and 8,192 in a cluster; the oldest leaves (R356, log 7). -/
def tlbAdd (l : List TlbEntry) (e : TlbEntry) : List TlbEntry :=
  let l := l.filter fun t => !(t.cluster == e.cluster && t.unit == e.unit && t.ctx == e.ctx && t.va == e.va)
  let cap := if e.cluster then 8192 else 64
  let own := l.filter fun t => t.cluster == e.cluster && t.unit == e.unit
  let l := if own.length ≥ cap then (match own.head? with | some t => l.filter fun x => x != t | none => l) else l
  l ++ [e]

/-- A walked leaf entry cached in the core's L1 TLB and in its cluster's TLB. -/
def State.cacheLeaf (s : State) (core c va size e : Nat) : State :=
  let own := tlbAdd s.mem.tlb ⟨false, core, c, va - va % size, size, e⟩
  s.setMem { s.mem with tlb := tlbAdd own ⟨true, clusterOfCore core, c, va - va % size, size, e⟩ }

/-- The reason that stands for an access whose home no port routes to: it resolves as FAIL without a record (R417). -/
def reasonUnrouted : Nat := 16

/-- Whether some port leads to a home package (R417). -/
def State.routed (s : State) (home : Nat) : Bool := (tget s.cmd.fabRoute home).getD 0 != 0

/-- What translation gives an access (R197, R355, R360, R410, R415). -/
inductive Xlat where
  | ok (pa : Nat) (uncached : Bool)
  | prot
  /-- parks, with the reason code of R358 -/
  | park (reason : Nat)
  | remote (home pa : Nat)
  deriving DecidableEq, Repr

/-- Permissions an access needs (R355). -/
structure Need where
  r : Bool
  w : Bool
  x : Bool
  deriving DecidableEq, Repr

/-- The judgement of a present leaf: permissions go before parking (R197, R355). -/
def judge (need : Need) (e : Nat) : Option Xlat :=
  let mig := bitsOf e 52 2
  if (need.r && !bitOf e 5) || (need.w && !bitOf e 6) || (need.x && !bitOf e 7) then some .prot
  else if mig == 2 then some (.park 2)
  else if mig == 1 && need.w then some (.park 3)
  else none

/-- Set A, and D for a write, in an entry by a SYSTEM-scope atomic OR on what then stands there (R355); the entry as the walk read
it, with these bits. -/
def State.touch (s : State) (a e : Nat) (w : Bool) : State × Nat :=
  let bits := 2 ^ 10 ||| (if w then 2 ^ 11 else 0)
  if e ||| bits = e then (s, e)
  else
    let s := s.gather a 8
    (s.sysPut a 8 (s.sysNat a 8 ||| bits), e ||| bits)

/-- The cached entry that an access of a core's unit finds: in its L1 TLB, then in its cluster's (R356). -/
def State.tlbHit (s : State) (core c va : Nat) : Option TlbEntry :=
  match s.tlbFind false core c va with
  | some t => some t
  | none => s.tlbFind true (clusterOfCore core) c va

/-- Translate an address for a unit of a core (R355 to R357): the TLBs, then the walk, which fills both. A write through a
cached entry whose D is 0 walks again. -/
def State.translate (s : State) (core c va : Nat) (need : Need) : State × Xlat :=
  let cached := match s.tlbHit core c va with
    | some t => if Config.tlbKeeps s.tick then some t else none
    | none => none
  let finish (s : State) (e size : Nat) : State × Xlat :=
    match judge need e with
    | some x => (s, x)
    | none => (s, .ok (bitsOf e 12 40 * 4096 + va % size) (bitsOf e 8 2 == 1))
  match cached with
  | some t =>
    if need.w && !bitOf t.entry 11 && (judge need t.entry).isNone then
      match s.walk c va with
      | .leaf a e size =>
        (match judge need e with
         | some x => (s, x)
         | none =>
           let r := s.touch a e true
           finish (r.1.cacheLeaf core c va size r.2) r.2 size)
      | .absent _ => finish s t.entry t.size
    else finish s t.entry t.size
  | none =>
    match s.walk c va with
    | .absent reason => (s, .park reason)
    | .leaf a e size =>
      match judge need e with
      | some x => (s, x)
      | none =>
        let r := s.touch a e need.w
        finish (r.1.cacheLeaf core c va size r.2) r.2 size

/-- Translate for a context with the rules of domain addresses, the register space and frame ownership (R410, R411,
R415, R422, R423). -/
def State.resolve (s : State) (core c va : Nat) (need : Need) : State × Xlat :=
  if va ≥ 2 ^ 60 then (s, .prot)
  else if bitOf va 59 && bitsOf va 53 6 != s.cmd.pkgId then
    if (s.ctx c).ctl.bit 1 then (s, .prot) else (s, .remote (bitsOf va 53 6) va)
  else
    match s.translate core c va need with
    | (s, .ok pa u) =>
      match s.target pa with
      | .regs _ | .remoteRegs => (s, .prot)
      | .remote h => (s, .remote h pa)
      | .host => (s, .ok pa u)
      | .hbm _ => if s.frameAllows c pa then (s, .ok pa u) else (s, .prot)
    | r => r

end Sys2Proof.Machine
end

