-- ==== Sys2Proof/Machine/Quiesce.lean ====
section
/-! DEFINITION. Weight in quiescence domains (spec/11): return pools, returns and borrows at the roots, and the release of
waiting waves. -/

namespace Sys2Proof.Machine

/-- The root number that a held WAITQ waits on. -/
def Wave.waitsOn? (x : Wave) : Option Nat :=
  match x.hold with
  | some h => match h.instr with
    | .waitq _ => if h.done then none else some h.arg.toNat
    | _ => none
  | none => none

/-- Waves held in WAITQ on a root (QDR_STAT.WAITERS). -/
def State.waiters (s : State) (d : Nat) : Nat := (s.waves.filter fun p => p.2.waitsOn? == some d).length

/-- Whether a place lies outside the root's recorded scope instance (R338). -/
def Root.outside (r : Root) (p : Place) : Bool := !samePlace r.scope r.place p

/-- The status that a released WAITQ writes (R339). -/
def Root.status (r : Root) : Nat := if r.err then 2 else if r.abort then 1 else 0

/-- Release every wave held in WAITQ on the root (R339): its status, and in bit 8 whether it sets SCOPEMIS (R292). -/
def State.releaseWaiters (s : State) (d : Nat) : State :=
  let r := s.root d
  { s with waves := s.waves.map fun p =>
      if p.2.waitsOn? == some d then
        let mis := r.foreign || r.outside (s.placeOf (coreOfWave p.1))
        (p.1, { p.2 with hold := p.2.hold.map fun h =>
          { h with done := true, arg := BitVec.ofNat 64 (r.status + bit1 mis * 256) } })
      else p }

/-- A return reaches its root (R338), but for the test of O. -/
def State.creditReturn (s : State) (t : Return) : State :=
  let r := s.root t.root
  if !r.isOpen then s.setRoot t.root { r with late := true, discard := r.discard + 1 }
  else
    let tooMuch := t.amount > r.o
    let r := { r with
      foreign := r.foreign || r.outside t.place
      abort := r.abort || t.abort
      err := r.err || tooMuch
      discard := if tooMuch then r.discard + 1 else r.discard
      o := r.o - t.amount }
    s.setRoot t.root r

/-- O is tested for zero (R334, R338). -/
def State.testRoot (s : State) (d : Nat) : State :=
  if (s.root d).isOpen && (s.root d).o = 0 then s.releaseWaiters d else s

/-- A borrow reaches its root (R333): 2^32 is added to O, unless O would reach 2^64, which sets ERR. What the spec leaves open is the
model's choice (log 80): BORROWS counts that borrow too, and a borrow that reaches a CLOSED root (after FORCE and QCLOSE with holders
left, R342) adds to its O and is granted. -/
def State.applyBorrow (s : State) (d : Nat) : State :=
  let r := s.root d
  if r.o + 2 ^ 32 ≥ 2 ^ 64 then s.setRoot d { r with err := true, borrows := r.borrows + 1 }
  else s.setRoot d { r with o := r.o + 2 ^ 32, borrows := r.borrows + 1 }

/-- Whether a borrow is on its way to a root. -/
def Borrow.wants (b : Borrow) (d : Nat) : Bool := b.root == d && !b.granted

/-- The grants of the first `n` borrows that are on their way to a root set out (R333). -/
def grantFirst (d : Nat) : Nat → List Borrow → List Borrow
  | _, [] => []
  | 0, l => l
  | n + 1, b :: l => if b.wants d then { b with granted := true } :: grantFirst d n l else b :: grantFirst d (n + 1) l

/-- The order in which sources' messages are applied in one clock (R300, R334): by core, the command die's last. -/
def sourceKey (t : Return) : Nat := t.place.core.getD 192

/-- A return reaches its root, and with it the messages to that root that reach it in the same clock (R334): some of the borrows and
returns on their way, how many is free (log 37). Borrows are applied first, then the returns in the order of their sources, and O is
tested once. -/
def State.applyClock (s : State) (t : Return) : State :=
  let early := Config.together s.tick 0 % ((s.qd.borrows.filter fun b => b.wants t.root).length + 1)
  let rest := s.qd.returns.filter fun r => r.root == t.root
  let also := rest.take (Config.together s.tick 1 % (rest.length + 1))
  let s := (List.range early).foldl (fun s _ => s.applyBorrow t.root) s
  let s := s.setQd { s.qd with
    borrows := grantFirst t.root early s.qd.borrows
    returns := also.foldl (fun l r => l.erase r) s.qd.returns }
  ((sortBy sourceKey (t :: also)).foldl (fun s r => s.creditReturn r) s).testRoot t.root

/-- Whether an operation is a copy or fabric operation, which carries weight (R241). -/
def Op.carries (o : Op) : Bool :=
  match o.instr with
  | .acopy _ | .acopys _ | .afill _ | .fsend _ | .fget _ => true
  | _ => false

/-- Copy operations of a core issued and not complete (R237). -/
def State.copyOps (s : State) (core : Nat) : Nat := (s.ops.filter fun p => p.2.core == core && p.2.carries).length

/-- Whether an item is a segment or packet of an operation. -/
def Item.segmentOf? (i : Item) : Option Nat :=
  match i.kind with
  | .segment o _ => some o
  | _ => none

def weightIn (w : Option Weight) (d : Nat) : Bool := match w with | some x => x.root == d | none => false

/-- Whether the core holds live weight in a domain (R336). -/
def State.liveWeight (s : State) (core d : Nat) : Bool :=
  (s.waves.any fun p => coreOfWave p.1 == core && weightIn p.2.weight d) ||
  (s.ops.any fun p => p.2.core == core && p.2.carries && weightIn p.2.weight d) ||
  (s.trl.items.any fun p => weightIn p.2.weight d &&
    match p.2.segmentOf? with
    | some o => (match s.op? o with | some x => x.core == core | none => false)
    | none => false)

/-- A pool entry is sent to its root as one return (R336, R338). -/
def State.sendReturn (s : State) (core : Nat) (e : PoolEntry) : State :=
  s.setQd { s.qd with returns := s.qd.returns ++ [⟨e.root, e.sum, e.abort, s.placeOf core⟩] }

/-- Flush the entries of a core that R336 names: no live weight, or a sum above 2^48. -/
def State.flushPool (s : State) (core : Nat) : State :=
  let c := s.core core
  let due (e : PoolEntry) : Bool := !s.liveWeight core e.root || e.sum > 2 ^ 48
  let out := c.returns.filter due
  if out.isEmpty then s
  else out.foldl (fun s e => s.sendReturn core e) (s.setCore core { c with returns := c.returns.filter fun e => !due e })

/-- Flush every entry of a core, before its reset (R341). -/
def State.flushAll (s : State) (core : Nat) : State :=
  let c := s.core core
  if c.returns.isEmpty then s
  else c.returns.foldl (fun s e => s.sendReturn core e) (s.setCore core { c with returns := [] })

/-- Weight returns to the pool of a core (R335, R336). The latest entry stands last in the list. -/
def State.giveBack (s : State) (core : Nat) (w : Option Weight) (abort : Bool) : State :=
  match w with
  | none => s
  | some w =>
    let c := s.core core
    let e : PoolEntry := (c.returns.find? fun e => e.root == w.root).getD ⟨w.root, 0, false⟩
    let rest := c.returns.filter fun e => e.root != w.root
    let s := match rest with
      | [] => s
      | e :: l => if rest.length ≥ 8 then (s.setCore core { c with returns := l }).sendReturn core e
        else s.setCore core { c with returns := rest }
    let c := s.core core
    let rest := c.returns.filter fun e => e.root != w.root
    (s.setCore core { c with returns := rest ++ [{ e with sum := e.sum + w.w, abort := e.abort || abort }] }).flushPool core

/-- A borrow sets out for the root of the weight (R333). -/
def State.borrow (s : State) (who : Borrower) (root : Nat) : State :=
  if s.qd.borrows.any fun b => b.who == who then s
  else s.setQd { s.qd with borrows := s.qd.borrows ++ [⟨who, root, false⟩] }

/-- The creator's and the created work's share of a weight that exceeds 1 (R333). -/
def splitWeight (w : Option Weight) : Option Weight × Option Weight :=
  match w with
  | none => (none, none)
  | some w => (some { w with w := w.w - w.w / 2 }, some { w with w := w.w / 2 })

/-- Whether a creator must borrow before it splits (R333). -/
def mustBorrow (w : Option Weight) : Bool := match w with | some w => w.w == 1 | none => false

/-- A return to a root whose home is another package, gathered in the fabric return table (R337). The entry that received
a return least recently stands first; its flush is a message. -/
def State.fabGiveBack (s : State) (pkg : Nat) (w : Weight) (abort : Bool) : State :=
  let e : FabReturn := (s.qd.fab.find? fun e => e.pkg == pkg && e.root == w.root).getD ⟨pkg, w.root, 0, false⟩
  let rest := s.qd.fab.filter fun e => !(e.pkg == pkg && e.root == w.root)
  let s := match rest with
    | [] => s.setQd { s.qd with fab := [] }
    | f :: l => if rest.length ≥ 64 then (s.setQd { s.qd with fab := l }).send (.giveBack f.pkg f.root f.sum f.abort)
      else s.setQd { s.qd with fab := rest }
  let e := { e with sum := e.sum + w.w, abort := e.abort || abort }
  if e.sum > 2 ^ 48 then s.send (.giveBack e.pkg e.root e.sum e.abort)
  else s.setQd { s.qd with fab := s.qd.fab ++ [e] }

end Sys2Proof.Machine
end

