-- ==== Sys2Proof/Machine/Regs.lean ====
section
/-! DEFINITION. Operand lifetimes (spec/02): released lanes, rename entries, the forwarding window, the register pools with
their allocation events, spills and fills, and results of long-latency operations on their way to a register. -/

namespace Sys2Proof.Machine

/-! Rename entries of one wave. A register without an entry is UNMAPPED (R54). -/

def Wave.file (x : Wave) : RegFile → Table Reg
  | .vec => x.v
  | .scl => x.s

def Wave.setFile (x : Wave) (f : RegFile) (t : Table Reg) : Wave :=
  match f with
  | .vec => { x with v := t }
  | .scl => { x with s := t }

def Wave.reg? (x : Wave) (f : RegFile) (n : Nat) : Option Reg := tget (x.file f) n
def Wave.setReg (x : Wave) (f : RegFile) (n : Nat) (r : Reg) : Wave := x.setFile f (tput (x.file f) n r)

/-- The registers of the window's slots without one register. -/
def Wave.leaveSlot (x : Wave) (f : RegFile) (n : Nat) : Wave :=
  { x with window := x.window.map fun slot => slot.filter fun r => r != (f, n) }

/-- The last live lane of a register is released: UNMAPPED, its slot dropped, its physical register free (R55). -/
def Wave.unmap (x : Wave) (f : RegFile) (n : Nat) : Wave := (x.setFile f (terase (x.file f) n)).leaveSlot f n

/-- Lanes of a register that are released (R52). -/
def Wave.released (x : Wave) (f : RegFile) (n : Nat) : Mask :=
  match x.reg? f n with
  | some r => r.released
  | none => allLanes

/-- Lanes of a register that hold uncorrectable data (R375). -/
def Wave.poisoned (x : Wave) (f : RegFile) (n : Nat) : Mask :=
  match x.reg? f n with
  | some r => r.poison
  | none => 0

/-- A register as it reads: 0 in released lanes (R53). A scalar register's low and high words are lanes 0 and 1. -/
def Wave.lanes (x : Wave) (f : RegFile) (n : Nat) : Lanes :=
  match x.reg? f n with
  | some r => r.lanes
  | none => List.replicate 32 0

/-- The two words of a 64-bit value. -/
def dwordOf (lo hi : Word) : DWord := hi ++ lo
def loWord (x : DWord) : Word := x.truncate 32
def hiWord (x : DWord) : Word := (x >>> 32).truncate 32

/-- A scalar register as it reads (R53). -/
def Wave.scalar (x : Wave) (n : Nat) : DWord :=
  let l := x.lanes .scl n
  dwordOf (laneOf l 0) (laneOf l 1)

/-- Mix two lists of lanes: `new` where the mask has a lane, `old` elsewhere. -/
def mixLanes (mask : Mask) (old new : Lanes) : Lanes :=
  mkLanes fun l => if mask.getLsbD l then laneOf new l else laneOf old l

/-- Release lanes of a register (R55); `m` is all or none for a scalar. A released lane stands in no window slot. -/
def Wave.release (x : Wave) (f : RegFile) (n : Nat) (m : Mask) : Wave :=
  match x.reg? f n with
  | none => x
  | some r =>
    let rel := r.released ||| m
    if rel = allLanes then x.unmap f n
    else x.setReg f n { r with released := rel, lanes := mixLanes m r.lanes [], poison := r.poison &&& ~~~m, pend := r.pend &&& ~~~m }

/-- A later write or release takes lanes away from every outstanding result (R40). -/
def Wave.prune (x : Wave) (f : RegFile) (n : Nat) (m : Mask) : Wave :=
  { x with ll := x.ll.map fun o =>
      { o with writes := o.writes.map fun w =>
          if w.file == f && w.reg == n then { w with mask := w.mask &&& ~~~m } else w } }

/-- An ordinary write of lanes, which waits in the newest window slot (R55, R57). A write that covers the register leaves
it in the window alone; another keeps its physical register or its spill-slot copy. -/
def Wave.write (x : Wave) (f : RegFile) (n : Nat) (m : Mask) (v : Lanes) (now : Nat) : Wave :=
  if m = 0 then x
  else
    let old := (x.reg? f n).getD ⟨.window, allLanes, List.replicate 32 0, 0, now, 0⟩
    let covers := (m ||| old.released) = allLanes
    let r : Reg :=
      { home := if covers then .window else old.home
        released := old.released &&& ~~~m
        lanes := if f == .scl then v else mixLanes m old.lanes v
        poison := old.poison &&& ~~~m
        used := old.used
        pend := if covers then m else old.pend ||| m }
    let x := (x.leaveSlot f n).setReg f n r
    { x with window := match x.window with | [] => [[(f, n)]] | slot :: rest => (slot ++ [(f, n)]) :: rest }

/-- A use of registers (R65): an operand read, or a value written into them. -/
def Wave.touch (x : Wave) (f : RegFile) (n : Nat) (now : Nat) : Wave :=
  match x.reg? f n with
  | some r => x.setReg f n { r with used := now }
  | none => x

/-! The pools (R61, R64 to R67). -/

/-- Physical registers of a core's pool (R30 and the reader's table): 2,048 vector, 1,024 scalar. -/
def poolSize : RegFile → Nat
  | .vec => 2048
  | .scl => 1024

def Core.pool (c : Core) : RegFile → Pool
  | .vec => c.vpool
  | .scl => c.spool

def Core.setPool (c : Core) (f : RegFile) (p : Pool) : Core :=
  match f with
  | .vec => { c with vpool := p }
  | .scl => { c with spool := p }

/-- The resident waves of a core with their keys, by wave slot. -/
def State.wavesOf (s : State) (core : Nat) : List (Nat × Wave) := s.waves.filter fun p => coreOfWave p.1 == core

def Home.phys? : Home → Option Nat
  | .bank p => some p
  | _ => none

/-- The spill slot of a wave (R67): the byte at an offset of its 33,280 bytes, released lanes as zero. The slot holds a register
only while that is SPILLED. -/
def Wave.slotByte (x : Wave) (off : Nat) : Option Byte :=
  let spilled (f : RegFile) (n : Nat) : Option Reg := (x.reg? f n).bind fun r => match r.home with
    | .spilled _ => some r
    | _ => none
  if off < 32768 then
    (spilled .vec (off / 128)).map fun r => if r.released.getLsbD (off % 128 / 4) then 0
      else ((laneOf r.lanes (off % 128 / 4)) >>> (8 * (off % 4))).truncate 8
  else if off < 33280 then
    (spilled .scl ((off - 32768) / 8)).map fun r => ((laneOf r.lanes (off % 8 / 4)) >>> (8 * (off % 4))).truncate 8
  else none

/-- The physical registers that a wave holds. -/
def Wave.physRegs (x : Wave) (f : RegFile) : List Nat := (x.file f).filterMap fun r => r.2.home.phys?

/-- A wave's floor (R61). -/
def State.floorOf (s : State) (x : Wave) (f : RegFile) : Nat :=
  match s.wg? x.wg, f with
  | some g, .vec => min 12 g.vregs
  | some g, .scl => min 4 g.sregs
  | none, _ => 0

/-- The physical registers of a core that are not free: those that its waves hold, and that of a spill write in progress, until
it ends (R440). -/
def State.heldRegs (s : State) (core : Nat) (f : RegFile) : List Nat :=
  let held := ((s.wavesOf core).map fun p => p.2.physRegs f).flatten
  match ((s.core core).pool f).spill with
  | some v => if held.contains v.phys then held else v.phys :: held
  | none => held

/-- Free physical registers of a core (SR_VPOOL_FREE, SR_SPOOL_FREE). -/
def State.poolFree (s : State) (core : Nat) (f : RegFile) : Nat := poolSize f - (s.heldRegs core f).length

/-- The lowest number not in a list; `fuel` is the list's length. -/
def lowestFree (used : List Nat) : Nat → Nat → Nat
  | 0, n => n
  | fuel + 1, n => if used.contains n then lowestFree used fuel (n + 1) else n

/-- Whether wave `w` may take a free register (R64). -/
def State.mayTake (s : State) (core : Nat) (f : RegFile) (w : Nat) (x : Wave) : Bool :=
  let free := s.poolFree core f
  let short (y : Wave) : Nat := s.floorOf y f - (y.physRegs f).length
  free > 0 &&
    ((x.physRegs f).length < s.floorOf x f ||
     free > (((s.wavesOf core).filter fun p => p.1 != w).map fun p => short p.2).sum)

/-- The better of two spill candidates: larger key first, then the earlier in the list. -/
def bestBy {α : Type} (key : α → Nat) : List α → Option α
  | [] => none
  | a :: l =>
    match bestBy key l with
    | none => some a
    | some b => if key a ≥ key b then some a else some b

/-- The victim wave and register of R65. Registers that one instruction used have one stamp (log 70). -/
def State.spillVictim (s : State) (core : Nat) (f : RegFile) : Option Spill :=
  let excess (p : Nat × Wave) : Nat := (p.2.physRegs f).length - s.floorOf p.2 f
  match bestBy excess ((s.wavesOf core).filter fun p => !(p.2.physRegs f).isEmpty) with
  | none => none
  | some p =>
    let banked := (p.2.file f).filter fun r => r.2.home.phys?.isSome
    let newest := (banked.map fun r => r.2.used).foldl max 0
    (bestBy (fun r : Nat × Reg => newest - r.2.used) banked).bind fun r => r.2.home.phys?.map fun k => ⟨p.1, r.1, k⟩

/-- Serve the head events of a pool: a head whose register needs nothing is dropped, one that may take a register is
allocated, or starts its fill, and another makes the core start a spill (R64, R65, R67). `fuel` bounds the events. -/
def State.servePool (s : State) (core : Nat) (f : RegFile) : Nat → State
  | 0 => s
  | fuel + 1 =>
    let p := (s.core core).pool f
    match p.queue with
    | [] => s
    | e :: rest =>
      if p.filling then s
      else
        let dropHead (s : State) : State := s.updCore core fun c => c.setPool f { c.pool f with queue := rest }
        match s.wave? e.wave with
        | none => (dropHead s).servePool core f fuel
        | some x =>
          match x.reg? f e.reg with
          | none => (dropHead s).servePool core f fuel
          | some r =>
            if r.home.phys?.isSome then (dropHead s).servePool core f fuel
            else if s.mayTake core f e.wave x then
              let phys := lowestFree (s.heldRegs core f) (poolSize f) 0
              let s' := s.setWave e.wave (x.setReg f e.reg { r with home := .bank phys, used := s.tick })
              match r.home with
              | .spilled first =>
                (s'.updWave e.wave fun y => { y with spills := if first then y.spills else y.spills + 1 }).updCore core
                  fun c => c.setPool f { c.pool f with filling := true }
              | _ => (dropHead s').servePool core f fuel
            else if p.spill.isSome then s
            else
              match s.spillVictim core f with
              | none => s
              | some v => s.updCore core fun c => c.setPool f { c.pool f with spill := some v }

/-- Events of a pool served as far as they go. -/
def State.serve (s : State) (core : Nat) (f : RegFile) : State :=
  s.servePool core f (((s.core core).pool f).queue.length + 1)

/-- Add an allocation event for a register, unless the same event is queued already. -/
def State.needReg (s : State) (w : Nat) (f : RegFile) (n : Nat) (k : AllocKind) : State :=
  let core := coreOfWave w
  let q := ((s.core core).pool f).queue
  if q.any fun e => e.wave == w && e.reg == n then s
  else (s.updCore core fun c => c.setPool f { c.pool f with queue := q ++ [⟨w, n, k⟩] }).serve core f

/-- Whether the wave waits for an allocation event (R64). -/
def State.allocating (s : State) (w : Nat) : Bool :=
  let c := s.core (coreOfWave w)
  (c.vpool.queue ++ c.spool.queue).any fun e => e.wave == w

/-- Whether a register of the wave stands where a spill write takes it from (R65). -/
def Wave.chosen (x : Wave) (f : RegFile) (w n : Nat) (p : Pool) : Bool :=
  match p.spill, x.reg? f n with
  | some v, some r => v.wave == w && v.reg == n && r.home == .bank v.phys
  | _, _ => false

/-- Whether a register of the wave is being spilled (R65). -/
def State.spilling (s : State) (w : Nat) (f : RegFile) (n : Nat) : Bool :=
  match s.wave? w with
  | some x => x.chosen f w n ((s.core (coreOfWave w)).pool f)
  | none => false

/-- A wave's allocation events go with its registers (R51): its fill in progress is dropped, and the pools serve on. -/
def State.leavePools (s : State) (w : Nat) : State :=
  let core := coreOfWave w
  let leave (s : State) (f : RegFile) : State :=
    let p := (s.core core).pool f
    if !p.queue.any fun e => e.wave == w then s
    else (s.updCore core fun c => c.setPool f { p with
      queue := p.queue.filter fun e => e.wave != w
      filling := p.filling && p.queue.head?.any fun e => e.wave != w }).serve core f
  leave (leave s .vec) .scl

/-- A pool's spill write ends (R65): the register is SPILLED, unless it has been released or written whole meanwhile, its physical
register is free, and the pool serves on. -/
def State.endSpill (s : State) (core : Nat) (f : RegFile) : State :=
  match ((s.core core).pool f).spill with
  | none => s
  | some v =>
    let t := s.updCore core fun c => c.setPool f { c.pool f with spill := none }
    let t := if s.spilling v.wave f v.reg then t.updWave v.wave fun x =>
        match x.reg? f v.reg with
        | some r => x.setReg f v.reg { r with home := .spilled false }
        | none => x
      else t
    t.serve core f

/-- A transfer of a register that is being spilled waits for the end of the spill write (R65). -/
def State.awaitSpill (s : State) (w : Nat) (f : RegFile) (n : Nat) : State :=
  if s.spilling w f n then s.endSpill (coreOfWave w) f else s

/-- The slot of one register leaves the window (R55, R59): one with a live lane is written to the register's physical register,
and one without leaves the register as it is. -/
def State.leaveWindow (s : State) (w : Nat) (f : RegFile) (n : Nat) : State :=
  let s := s.awaitSpill w f n
  match s.wave? w with
  | none => s
  | some x =>
    match x.reg? f n with
    | none => s
    | some r =>
      if r.pend = 0 then s
      else
        let s := s.setWave w (x.setReg f n { r with pend := 0, used := if r.home.phys?.isSome then s.tick else r.used })
        if r.home.phys?.isSome then s else s.needReg w f n .windowExit

/-- The window advances by one instruction (R57, R58): a new empty slot before the result, `advance` after it. -/
def Wave.pushSlot (x : Wave) : Wave := { x with window := [] :: x.window }

/-- The registers of a slot by file and ascending number: the order of their allocation events (R64). -/
def slotOrder (l : List (RegFile × Nat)) : List (RegFile × Nat) :=
  sortBy (fun r => (if r.1 == RegFile.vec then 0 else 256) + r.2) l

/-- The slot pushed out by the eighth later instruction. -/
def State.popSlot (s : State) (w : Nat) : State :=
  match s.wave? w with
  | none => s
  | some x =>
    let s := s.setWave w { x with window := x.window.take 8 }
    match x.window.drop 8 with
    | [] => s
    | slot :: _ => if slot.isEmpty then s else (slotOrder slot).foldl (fun s r => s.leaveWindow w r.1 r.2) s

/-! Long-latency results (R38 to R41, R60). -/

/-- The lanes of a register that a fill brings back, of those in `m`: live ones that wait in no window slot (R67). -/
def Wave.filledLanes (x : Wave) (f : RegFile) (n : Nat) (m : Mask) : Mask :=
  match x.reg? f n with
  | some r => (match r.home with | .spilled _ => m &&& ~~~r.released &&& ~~~r.pend | _ => 0)
  | none => 0

/-- The outstanding count of a flag. -/
def Wave.flagCount (x : Wave) (n : Nat) : Nat := (x.ll.filter fun o => !o.done && o.flags.contains n).length

/-- Whether a flag is clear (R38). -/
def Wave.flagClear (x : Wave) (n : Nat) : Bool := x.ll.all fun o => o.done || !o.flags.contains n

/-- SR_FLAGS. -/
def Wave.flags (x : Wave) : DWord :=
  BitVec.ofNat 64 (((List.range 12).filter fun n => !x.flagClear n).foldl (fun a n => a + 2 ^ n) 0)

/-- The number under which a long-latency result names trap register `k` (R36). -/
def trapRegKey (k : Nat) : Nat := 256 + k

/-- One register of a result becomes visible: its lanes are written and the register must be in the bank (R60). Other lanes that
wait in a window slot go on waiting there (log 70). A trap register is written in its bank while the wave runs its handler. -/
def State.showWrite (s : State) (w : Nat) (lw : LLWrite) : State :=
  if lw.mask = 0 then s
  else if lw.file == .vec && lw.reg ≥ 256 then
    s.updSeq (seqOfWave w) fun q =>
      if q.owner == some w then
        { q with bank := lsetD [] q.bank (lw.reg - 256) (mixLanes lw.mask (q.bank.getD (lw.reg - 256) []) lw.lanes) }
      else q
  else
    let s := s.awaitSpill w lw.file lw.reg
    match s.wave? w with
    | none => s
    | some x =>
      let old := (x.reg? lw.file lw.reg).getD ⟨.window, allLanes, List.replicate 32 0, 0, s.tick, 0⟩
      let covers := (lw.mask ||| old.released) = allLanes
      let r : Reg :=
        { home := match old.home with | .spilled _ => if covers then .window else old.home | h => h
          released := old.released &&& ~~~lw.mask
          lanes := if lw.file == .scl then lw.lanes else mixLanes lw.mask old.lanes lw.lanes
          poison := old.poison &&& ~~~lw.mask
          used := s.tick
          pend := old.pend &&& ~~~lw.mask }
      let s := s.setWave w ((if r.pend = 0 then x.leaveSlot lw.file lw.reg else x).setReg lw.file lw.reg r)
      if r.home.phys?.isSome then s else s.needReg w lw.file lw.reg .llVisible

end Sys2Proof.Machine
end

