-- ==== Sys2Proof/Machine/Trellis.lean ====
section
/-! DEFINITION. The trellis (spec/10): rank programs, the order of entries at a node, pops, room in partitions and nodes,
and the removal of items without a release. -/

namespace Sys2Proof.Machine

/-! Rank programs (R304 to R309). -/

/-- What a run reads: the item words, the horizon, the entries held, the pop counter, and the flow group in use. -/
structure RankEnv where
  words : List (BitVec 32)
  hzn : Nat
  count : Nat
  pops : BitVec 32
  group : Option Nat
  deriving DecidableEq, Repr

/-- A run in progress: scratch words, node-state words n0 to n13, flow tables, whether it met R309, and the rank. -/
structure RankRun where
  w : List (BitVec 32)
  st : List (BitVec 32)
  flows : Table (BitVec 32)
  noflow : Bool
  rank : Nat
  deriving DecidableEq, Repr

/-- A source selector (R305). -/
def rankSrc (v : RankEnv) (r : RankRun) (sel : Nat) : BitVec 32 :=
  if sel < 8 then r.w.getD sel 0
  else if sel < 16 then v.words.getD (sel - 8) 0
  else BitVec.ofNat 32 (sel % 64)

/-- A node-state word (R307). -/
def rankState (v : RankEnv) (r : RankRun) (n : Nat) : BitVec 32 :=
  if n = 14 then BitVec.ofNat 32 v.hzn else if n = 15 then BitVec.ofNat 32 v.count else r.st.getD n 0

/-- The RCMP conditions (R306). -/
def rankCmp (cc : Nat) (a b : BitVec 32) : Bool :=
  let d := (a - b).toNat % 65536
  match cc with
  | 0 => a == b
  | 1 => a != b
  | 2 => a.toNat < b.toNat
  | 3 => a.toNat ≤ b.toNat
  | 4 => d ≥ 32768
  | _ => d ≥ 32768 || d == 0

/-- The key of a flow word in the flow tables. -/
def flowKey (group flow k : Nat) : Nat := group * 16384 + flow % 4096 * 4 + k

/-- One operation (R306). -/
def rankOp (v : RankEnv) (r : RankRun) (op : BitVec 32) : RankRun :=
  let x := op.toNat
  let d := bitsOf x 24 3
  let a := rankSrc v r (bitsOf x 16 8)
  let b := rankSrc v r (bitsOf x 8 8)
  let c := rankSrc v r (bitsOf x 0 8)
  let put (y : BitVec 32) : RankRun := { r with w := lset r.w d y }
  match bitsOf x 27 5 with
  | 0x01 => put (a + b)
  | 0x02 => put (a - b)
  | 0x03 => put (a * b)
  | 0x04 => put (a >>> (b.toNat % 32))
  | 0x05 => put (if a.toNat ≤ b.toNat then a else b)
  | 0x06 => put (if a.toNat ≤ b.toNat then b else a)
  | 0x07 => put (if c = 0 then b else a)
  | 0x08 => put (BitVec.ofNat 32 (bitsOf x 0 16 * (if bitOf x 16 then 65536 else 1)))
  | 0x09 => put (rankState v r (bitsOf x 16 4))
  | 0x0A => { r with st := lset r.st (bitsOf x 0 4) a }
  | 0x0B =>
    match v.group with
    | some g => put ((tget r.flows (flowKey g a.toNat (bitsOf x 0 2))).getD 0)
    | none => { put 0 with noflow := true }
  | 0x0C =>
    match v.group with
    | some g => { r with flows := tput r.flows (flowKey g a.toNat (bitsOf x 0 2)) b }
    | none => { r with noflow := true }
  | 0x0D =>
    let m := if a.toNat ≤ b.toNat then b else a
    put (if m.toNat ≤ c.toNat then m else c)
  | 0x0E => put (BitVec.ofNat 32 (bit1 (rankCmp (bitsOf x 0 3) a b)))
  | 0x0F => put v.pops
  | 0x10 => { r with rank := a.toNat % 65536 }
  | _ => r

/-- A whole run. -/
def rankRun (v : RankEnv) (st : List (BitVec 32)) (flows : Table (BitVec 32)) (prog : List (BitVec 32)) : RankRun :=
  prog.foldl (rankOp v) ⟨List.replicate 8 0, st, flows, false, 0⟩

/-- Whether a source selector is not reserved. -/
def selOk (n : Nat) : Bool := n < 16 || (0x40 ≤ n && n < 0x80)

/-- Whether the operands of one operation pass check 4 of R308. -/
def rankOperandsOk (x : Nat) : Bool :=
  let d := bitsOf x 24 3
  let a := bitsOf x 16 8
  let b := bitsOf x 8 8
  let c := bitsOf x 0 8
  match bitsOf x 27 5 with
  | 0x07 | 0x0D => selOk a && selOk b && selOk c
  | 0x08 => a < 2
  | 0x09 => a < 16 && b == 0 && c == 0
  | 0x0A => d == 0 && selOk a && b == 0 && c < 16
  | 0x0B => selOk a && b == 0 && c < 4
  | 0x0C => d == 0 && selOk a && selOk b && c < 4
  | 0x0E => selOk a && selOk b && c < 6
  | 0x0F => a == 0 && b == 0 && c == 0
  | 0x10 => d == 0 && selOk a && b == 0 && c == 0
  | _ => selOk a && selOk b && c == 0

/-- The status of a program load (R308). -/
def progStatus (leaf : Bool) (prog : List (BitVec 32)) : Nat :=
  let op (x : BitVec 32) : Nat := bitsOf x.toNat 27 5
  let emits := (prog.filter fun x => op x == 0x10).length
  if prog.length = 0 || prog.length > 16 then 1
  else if emits != 1 || (match prog.getLast? with | some x => op x != 0x10 | none => true) then 2
  else if prog.any fun x => op x == 0 || op x > 0x10 then 3
  else if prog.any fun x => !rankOperandsOk x.toNat then 4
  else if prog.any fun x => op x == 0x0A && bitsOf x.toNat 0 4 ≥ 14 then 5
  else if leaf && (prog.any fun x => op x == 0x0B || op x == 0x0C) then 6
  else if (prog.filter fun x => op x == 0x0A || op x == 0x0C).length > 4 then 7
  else 0

/-! The order of entries (R301 to R303), for inner nodes and leaves alike. -/

/-- The key of a rank at a horizon; an entry that is behind has key 0. -/
def rankKey (h rank : Nat) : Nat :=
  let k := (rank + 65536 - h % 65536) % 65536
  if k ≥ 32768 then 0 else k

/-- Whether a rank is ahead of a horizon. -/
def isAhead (h rank : Nat) : Bool := (rank + 65536 - h % 65536) % 65536 < 32768

/-- Entries in the node's order: promoted ones in push order, then by key and push order. -/
def rankOrder (h : Nat) (l : List NEntry) : List NEntry :=
  let l := sortBy (·.order) l
  l.filter (·.promoted) ++ sortBy (fun e => rankKey h e.rank) (l.filter fun e => !e.promoted)

/-- Entries after a pop of `e` has passed over those pushed before it that stand behind it, and how many it promoted
(R303, R311). -/
def passOver (h age : Nat) (e : NEntry) (l : List NEntry) : List NEntry × Nat :=
  let ahead := (rankOrder h l).takeWhile fun x => x.order != e.order
  let hit (x : NEntry) : Bool := x.order < e.order && !(ahead.any fun y => y.order == x.order)
  let rises (x : NEntry) : Bool := hit x && age != 0 && !x.promoted && x.passed + 1 > age
  (l.map fun x => if hit x then { x with passed := x.passed + 1, promoted := x.promoted || rises x } else x,
   (l.filter rises).length)

/-- The horizon after a pop (R302). -/
def horizonAfter (h : Nat) (e : NEntry) : Nat := if isAhead h e.rank && !e.promoted then e.rank else h

/-! Inner nodes. -/

def Node.parent (n : Node) : Nat := n.ctl.fld 0 9
def Node.isTop (n : Node) : Bool := n.ctl.bit 9
def Node.valid (n : Node) : Bool := n.ctl.bit 23
def Node.age (n : Node) : Nat := n.ctl.fld 24 16
def Node.cap (n : Node) : Nat := n.ctl.fld 40 18
/-- COUNT: entries held, those taken at issue among them (R297, R326). -/
def Node.count (n : Node) : Nat := n.entries.length + n.taken
def Leaf.parent (l : Leaf) : Nat := l.ctl.fld 0 9
def Leaf.valid (l : Leaf) : Bool := l.ctl.bit 9
def Leaf.depth (l : Leaf) : Nat := l.ctl.fld 10 4
def Leaf.margin (l : Leaf) : Nat := l.ctl.fld 14 16
def Leaf.age (l : Leaf) : Nat := l.ctl.fld 30 16

/-- The nodes from `n` to its top node (R295); `fuel` exceeds the number of nodes. -/
def State.nodesUp (s : State) : Nat → Nat → List Nat
  | 0, _ => []
  | fuel + 1, n => if (s.node n).isTop then [n] else n :: s.nodesUp fuel (s.node n).parent

/-- The path of an item entering at a node. -/
def State.pathOf (s : State) (entry : Nat) : List Nat := s.nodesUp 512 entry

/-- Whether a leaf lies below a node (R296). -/
def State.leafBelow (s : State) (leaf entry : Nat) : Bool :=
  (s.leaf leaf).valid && (s.pathOf (s.leaf leaf).parent).contains entry

/-- The class table of a class (R324). -/
def State.classEntry (s : State) (c : Nat) : Nat := (s.classA c).fld 0 9
def State.classValid (s : State) (c : Nat) : Bool := (s.classA c).bit 9 && (s.classA c).fld 18 16 < 1024
def State.classPart (s : State) (c : Nat) : Nat := (s.classA c).fld 10 8
def State.classCtx (s : State) (c : Nat) : Nat := (s.classA c).fld 18 16
def State.classOwn (s : State) (c : Nat) : Nat := (s.classA c).fld 34 16
def State.classBorrow (s : State) (c : Nat) : Nat := (s.classB c).fld 0 16

/-- Whether a class is mapped for a context towards some leaf: valid, owned by it, every node of its path in use, and a
leaf of the list below its entry node (R296, R326). -/
def State.classMapped (s : State) (c ctx : Nat) (leaves : List Nat) : Bool :=
  s.classValid c && s.classCtx c == ctx && ((s.pathOf (s.classEntry c)).all fun n => (s.node n).valid) &&
  (leaves.any fun x => s.leafBelow x (s.classEntry c))

/-- The number of a partition and of a leaf among the queues of R321; node n is queue n. -/
def queueOfPart (p : Nat) : Nat := 1104 + p
def queueOfLeaf (x : Nat) : Nat := 512 + x
def isLeafQueue (q : Nat) : Bool := 512 ≤ q && q < 1104

/-- The first partition or node that refuses an item of a wave (R297, R321); a granted reserve entry counts as room. -/
def State.refusing (s : State) (w part : Nat) (path : List Nat) : Option Nat :=
  let p := s.part part
  if p.used + path.length > p.limit && !s.trl.grants.contains (queueOfPart part, w) then some (queueOfPart part)
  else path.find? fun n => (s.node n).count + 1 > (s.node n).cap && !s.trl.grants.contains (n, w)

/-- The keys by which the command die and the segmenters ask for room: no wave has them, so no reserve entry is granted to them. -/
def commandDie : Nat := 32 * 192
def segmenter : Nat := 32 * 192 + 1

/-- What has been granted to a wave that leaves its core, and it has not used, is free again (R322). -/
def State.ungrant (s : State) (w : Nat) : State :=
  s.setTrl { s.trl with grants := s.trl.grants.filter fun g => g.2 != w || isLeafQueue g.1 }

/-- Take the entries of an item of a unit at its issue. An entry beyond a limit is the queue's reserve entry; what was granted to the
unit there is used up, as is a grant that it did not need (R322). -/
def State.takeRoom (s : State) (w part : Nat) (path : List Nat) : State :=
  let p := s.part part
  let s := s.setPart part { p with used := p.used + path.length, rbusy := p.rbusy || p.used + path.length > p.limit }
  let s := path.foldl (fun s n =>
    let x := s.node n
    s.setNode n { x with taken := x.taken + 1, rbusy := x.rbusy || x.count + 1 > x.cap }) s
  s.setTrl { s.trl with grants := s.trl.grants.filter fun g =>
    !(g.2 == w && (g.1 == queueOfPart part || path.contains g.1)) }

/-- Entries of a partition return; its reserve entry is free once it is below its limit. -/
def State.freePart (s : State) (part k : Nat) : State :=
  let p := s.part part
  s.setPart part { p with used := p.used - k, rbusy := p.rbusy && p.used - k ≥ p.limit }

/-- An item of a unit set on its way: its entries are taken and every program of its path is still to run. -/
def State.pushItem (s : State) (w : Nat) (i : Item) : State :=
  let path := s.pathOf i.entry
  let r := s.fresh
  (r.2.takeRoom w i.part path).setItem r.1 { i with place := .tree path, order := r.1 }

/-- A resume item that waits outside the queues and now finds room (R297, log 48). -/
def State.resumeWaiting (s : State) (i : Nat) : Option Item :=
  match s.item? i with
  | some x =>
    (match x.kind with
     | .resume _ _ _ =>
       if x.place == .withdrawn && (s.refusing commandDie (s.classPart x.cls) (s.pathOf (s.classEntry x.cls))).isNone then some x
       else none
     | _ => none)
  | none => none

/-- Such an item is pushed under its class as it now stands (R318, R324). -/
def State.enterResume (s : State) (i : Nat) : State :=
  match s.resumeWaiting i with
  | none => s
  | some x =>
    let e := s.classEntry x.cls
    let part := s.classPart x.cls
    let r := (s.takeRoom commandDie part (s.pathOf e)).fresh
    r.2.updItem i fun y => { y with entry := e, part := part, place := .tree (s.pathOf e), order := r.1 }

/-- Run a node's program on item words: the node after the run, and the rank (R299, R307, R309). -/
def State.rankAt (s : State) (n : Nat) (words : List (BitVec 32)) : State × Nat :=
  let x := s.node n
  let prog := (tget s.trl.slots (x.ctl.fld 10 8)).getD progReset
  let env : RankEnv := ⟨words, x.hzn, x.count, x.pops, if x.ctl.bit 22 then some (x.ctl.fld 18 4) else none⟩
  let r := rankRun env x.state s.trl.flows prog
  let s := s.setNode n { x with state := r.st, noflow := if r.noflow then x.noflow + 1 else x.noflow }
  (s.setTrl { s.trl with flows := r.flows }, r.rank)

/-- Insert an entry taken at issue. -/
def State.insertAt (s : State) (n : Nat) (ref : NRef) (rank : Nat) : State :=
  let x := s.node n
  s.setNode n { x with
    entries := x.entries ++ [⟨ref, rank, x.nextOrder, 0, false⟩], nextOrder := x.nextOrder + 1, taken := x.taken - 1 }

/-- The first eligible item below a node and the entries a release takes on its way (R311); `ok` judges items. -/
def State.descend (s : State) (ok : Nat → Bool) : Nat → Nat → Option (List (Nat × NEntry))
  | 0, _ => none
  | fuel + 1, n =>
    (rankOrder (s.node n).hzn (s.node n).entries).findSome? fun e =>
      match e.ref with
      | .item i => if ok i then some [(n, e)] else none
      | .child c => (s.descend ok fuel c).map fun p => (n, e) :: p

/-- One node's pop of an entry, which leaves the node unless `keep` (R302, R303, R298). -/
def Node.pop (x : Node) (e : NEntry) (keep : Bool) : Node :=
  let r := passOver x.hzn x.age e x.entries
  let l := if keep then r.1 else r.1.filter fun y => y.order != e.order
  let y := { x with hzn := horizonAfter x.hzn e, pops := x.pops + 1, aged := x.aged + BitVec.ofNat 32 r.2, entries := l }
  { y with rbusy := x.rbusy && y.count ≥ x.cap }

/-- The reference that a removal without release takes at an ancestor (R441). -/
def Node.lastRef (x : Node) (child : Nat) : Option NEntry :=
  let l := (rankOrder x.hzn x.entries).filter fun e => e.ref == .child child
  match (l.filter fun e => !e.promoted).getLast? with
  | some e => some e
  | none => l.getLast?

/-- One entry leaves a node without a pop. -/
def State.dropEntry (s : State) (n : Nat) (e : Option NEntry) : State :=
  match e with
  | none => s
  | some e =>
    let x := s.node n
    let y := { x with entries := x.entries.filter fun a => a.order != e.order }
    s.setNode n { y with rbusy := x.rbusy && y.count ≥ x.cap }

/-- Ancestors on a path with the child each was entered by. -/
def withChild : List Nat → List (Nat × Option Nat)
  | [] => []
  | n :: l => (n, none) :: (l.zip (n :: l)).map fun p => (p.1, some p.2)

/-- The scratchpad that a dispatch item was given is zero again (R316, R439). -/
def State.clearStaged (s : State) (l : Nat) (x : Item) : State :=
  match x.spad with
  | some b => s.updCore l fun c => { c with spad := cellsClear c.spad b x.spadLen }
  | none => s

/-- An item leaves the trellis without a release (R441); one that has left for its leaf leaves the leaf. Its partition
entries return. The item itself is dropped; its weight is the caller's. -/
def State.removeItem (s : State) (i : Nat) : State :=
  match s.item? i with
  | none => s
  | some x =>
    match x.place with
    | .tree climb =>
      let path := s.pathOf x.entry
      let s := (withChild path).foldl (fun s p =>
        if climb.contains p.1 then
          let y := s.node p.1
          s.setNode p.1 { y with taken := y.taken - 1, rbusy := y.rbusy && y.count - 1 ≥ y.cap }
        else match p.2 with
          | none => s.dropEntry p.1 ((s.node p.1).entries.find? fun e => e.ref == .item i)
          | some c => s.dropEntry p.1 ((s.node p.1).lastRef c)) s
      (s.freePart x.part path.length).dropItem i
    | .leaf l =>
      let y := s.leaf l
      let es := y.entries.filter fun e => e.ref != .item i
      ((s.setLeaf l { y with entries := es, rbusy := y.rbusy && es.length ≥ 256 }).clearStaged l x).dropItem i
    | .service l => (s.clearStaged l x).dropItem i
    | _ => s.dropItem i

/-! Leaves (R312). -/

/-- Leaf numbers of a core's engines and of a port (R294). -/
def dispatchLeaf (core : Nat) : Nat := core
def tileLeaf (core : Nat) : Nat := 192 + core
def copyLeaf (core : Nat) : Nat := 384 + core
def portLeaf (port : Nat) : Nat := 576 + port

/-- Run a leaf's program on item words. -/
def State.rankAtLeaf (s : State) (l : Nat) (words : List (BitVec 32)) : State × Nat :=
  let x := s.leaf l
  let r := rankRun ⟨words, x.hzn, x.entries.length, x.pops, none⟩ x.state [] (x.prog.take (x.ctl.fld 46 4 + 1))
  (s.setLeaf l { x with state := r.st }, r.rank)

/-- The head of a leaf. -/
def Leaf.head? (l : Leaf) : Option NEntry := (rankOrder l.hzn l.entries).head?

/-- A leaf's pop of its head (R302, R303). -/
def Leaf.pop (x : Leaf) (e : NEntry) : Leaf :=
  let r := passOver x.hzn x.age e x.entries
  let l := r.1.filter fun y => y.order != e.order
  { x with hzn := horizonAfter x.hzn e, pops := x.pops + 1, entries := l, rbusy := x.rbusy && l.length ≥ 256 }

/-- Items of a leaf's engine in service. -/
def State.inService (s : State) (l : Nat) : List (Nat × Item) := s.trl.items.filter fun p => p.2.place == .service l

end Sys2Proof.Machine
end

