-- ==== Sys2Proof/Machine/Work.lean ====
section
/-! DEFINITION. How work ends: waves, workgroups, barriers and tickets they leave behind (spec/01 R17, spec/07 R218 to
R228), kills (spec/16 R431) and the operations a kill ends. -/

namespace Sys2Proof.Machine

/-! Barriers. -/

/-- The key of a workgroup's wave by SR_WAVEID. -/
def Wg.key? (g : Wg) (id : Nat) : Option Nat := (g.waves.getD id none).map fun slot => 32 * g.core + slot

/-- The keys of a workgroup's resident waves. -/
def Wg.keys (g : Wg) : List Nat := g.waves.filterMap fun x => x.map fun slot => 32 * g.core + slot

/-- SR_WAVEIDs of the resident waves of a workgroup. -/
def Wg.ids (g : Wg) : List Nat := (List.range g.waves.length).filter fun id => (g.waves.getD id none).isSome

/-- The scope that a held barrier names. -/
def barrierScope (i : Instr) : Nat :=
  match i with
  | .bar f | .barc f => f.scope.toNat
  | _ => 0

/-- A released wave of a barrier: its writes are performed at the barrier's scope, and its hold ends with the result
(R218, R220). -/
def State.releaseBarrier (s : State) (key result : Nat) : State :=
  match s.wave? key with
  | none => s
  | some x =>
    match x.hold with
    | none => s
    | some h =>
      let s := s.perform (coreOfWave key) (barrierScope h.instr) fun _ => true
      s.updWave key fun y => { y with hold := some { h with done := true, arg := BitVec.ofNat 64 result } }

/-- The greatest of a list, 0 for none. -/
def maxOfList (l : List Nat) : Nat := l.foldl max 0

/-- Complete the workgroup barrier if every resident wave has arrived (R218, R220); a new barrier phase begins (R33). -/
def State.tryBar (s : State) (u : Nat) : State :=
  match s.wg? u with
  | none => s
  | some g =>
    if g.bar.isEmpty || !(g.ids.all fun id => g.bar.contains id) then s
    else
      let arrived := g.bar.filter fun id => (g.waves.getD id none).isSome
      let last := if g.det then maxOfList arrived else arrived.getLastD 0
      let s := s.setWg u { g with bar := [], claims := List.replicate 32 none }
      arrived.foldl (fun s id => match g.key? id with
        | some k => s.releaseBarrier k (bit1 (id == last))
        | none => s) s

/-- The workgroups of the cluster-bound group of a workgroup, by member index; a task's group is itself (R196, R251). -/
def State.groupOf (s : State) (u : Nat) (g : Wg) : List (Nat × Wg) :=
  match s.launch? g.launch with
  | none => [(u, g)]
  | some l =>
    let m := recMembers l.record
    if g.task || !recHasCluster l.record then [(u, g)]
    else sortBy (fun p => p.2.member)
      (s.wgs.filter fun p => p.2.launch == g.launch && !p.2.task && p.2.wgid / m == g.wgid / m)

/-- Complete the cluster barrier of a workgroup's group if every resident wave of every member has arrived (R219, R220). -/
def State.tryBarc (s : State) (u : Nat) : State :=
  match s.wg? u with
  | none => s
  | some g =>
    let group := s.groupOf u g
    let arrivals := (group.map fun p => p.2.barc.map fun a => (p.1, p.2, a.1, a.2)).flatten
    let all := group.all fun p => p.2.ids.all fun id => p.2.barc.any fun a => a.1 == id
    if arrivals.isEmpty || !all then s
    else
      let rank (a : Nat × Wg × Nat × Nat) : Nat :=
        (if g.det then 0 else a.2.2.2 * 2 ^ 20) + a.2.1.member * 32 + (if g.det then a.2.2.1 else slotOf a)
      let best := maxOfList (arrivals.map rank)
      let s := group.foldl (fun s p => s.updWg p.1 fun x => { x with barc := [] }) s
      arrivals.foldl (fun s a => match a.2.1.key? a.2.2.1 with
        | some k => s.releaseBarrier k (bit1 (rank a == best))
        | none => s) s
where
  /-- the wave slot of an arrival -/
  slotOf (a : Nat × Wg × Nat × Nat) : Nat := (a.2.1.waves.getD a.2.2.1 none).getD 0

/-! Ordered tickets (R227, R228). -/

/-- Move the counter past every ended ticket from where it stands; a killed one leaves a mark. -/
def passTickets (ended : List (Nat × Bool)) : Nat → Nat → Bool → Nat × Bool
  | 0, t, m => (t, m)
  | fuel + 1, t, m =>
    match ended.find? fun e => e.1 == t with
    | some e => passTickets ended fuel (t + 1) (m || e.2)
    | none => (t, m)

/-- The counter passes its ticket and every ended one behind it. `mark` says that the passed ticket was killed. -/
def State.passTicket (s : State) (id : Nat) (mark : Bool) : State :=
  s.updLaunch id fun l =>
    let r := passTickets l.ended l.ended.length (l.ticket + 1) mark
    { l with ticket := r.1, mark := r.2 }

/-! Operations. -/

/-- Whether an operation is a tile operation. -/
def Op.isTile (o : Op) : Bool :=
  match o.instr with
  | .oload _ | .ogath _ | .mma _ | .mmab _ | .mzero _ | .mdrain _ => true
  | _ => false

/-- Whether tile operations of a workgroup are incomplete. -/
def State.tileBusy (s : State) (u : Nat) : Bool := s.ops.any fun p => p.2.wg == u && p.2.isTile && !p.2.ready

/-- The reservation records that a tile operation names (R262). -/
def Op.records (o : Op) : List Nat :=
  match o.instr with
  | .oload f | .ogath f => [f.imm.toNat % 16]
  | .mma f | .mmab f => [bitsOf f.imm.toNat 2 4, bitsOf f.imm.toNat 6 4]
  | _ => []

/-- A record is released (R260): its range stays under a key of its own until the workgroup's tile operations that name it
have completed. -/
def State.releaseRecord (s : State) (core k : Nat) : State :=
  match tget (s.core core).obs k with
  | none => s
  | some r =>
    if !r.valid then s
    else
      let users := (s.ops.filter fun p => p.2.wg == r.wg && p.2.isTile && !p.2.ready && p.2.records.contains k).map (·.1)
      s.updCore core fun c =>
        let rest := terase c.obs k
        let key := (tkeys rest).foldl max 15 + 1
        ({ c with obs := if users.isEmpty then rest else tput rest key { r with valid := false, ops := users } } : Core)

/-- A tile operation no longer keeps the ranges of released records. -/
def Core.freeRanges (c : Core) (op : Nat) : Core :=
  let l : Table ObRec := c.obs.map fun (p : Nat × ObRec) => (p.1, { p.2 with ops := p.2.ops.filter fun o => o != op })
  { c with obs := l.filter fun p => p.2.valid || !p.2.ops.isEmpty }

/-- The accumulators of an ended workgroup are zeroed and free (R262), and its last wave's weight returns (R335), once no
tile operation of it is left. -/
def State.endTiles (s : State) (u core : Nat) : State :=
  if (s.wg? u).isSome || s.tileBusy u then s
  else
    let s := s.updCore core fun c => { c with
      accs := c.accs.map fun a => if a.wg == some u then Acc.reset else a
      partials := c.partials.filter fun p => (s.op? p.op).isSome }
    let due := s.qd.owed.filter fun o => o.wg == u
    due.foldl (fun s o => s.giveBack o.core (some o.weight) o.abort)
      (s.setQd { s.qd with owed := s.qd.owed.filter fun o => o.wg != u })

/-- A readback whose operation has been killed is a free value (log 22). -/
def LLOp.lost (op : Nat) (v : Lanes) (o : LLOp) : LLOp :=
  if o.op == some op then { o with op := none, writes := o.writes.map fun lw => { lw with lanes := v } } else o

/-- An operation ends KILLED (R431): its items leave the trellis and its weight returns with an abort mark, that of an FSEND packet sent
and not acknowledged too, though the far side may have taken it: R340 does not say which, and the model chooses (log 80). Its completion
is then due. A task already placed is not a part of it any more; one that still waits is killed, so its launch is ABORTED (R399). -/
def State.killOp (s : State) (o : Nat) : State :=
  match s.op? o with
  | none => s
  | some x =>
    if x.ready then s
    else
      let mine := s.trl.items.filter fun p => match p.2.kind with
        | .task k | .tile k | .segment k _ => k == o
        | _ => false
      let s := mine.foldl (fun s p => (s.removeItem p.1).giveBack x.core p.2.weight true) s
      let s := s.setOp o { x with weight := none, killed := true, ready := true }
      let s := s.updCore x.core fun c => { c.freeRanges o with partials := c.partials.filter fun p => p.op != o }
      let s := if mine.any fun p => p.2.kind == .task o then s.updLaunch x.launch fun l => { l with aborted := true } else s
      let lost : Lanes := [Config.freeWord s.tick 0, Config.freeWord s.tick 1]
      let s : State := { s with
        wgs := s.wgs.map fun (p : Nat × Wg) => (p.1, if p.2.spawnOp == some o then { p.2 with spawnOp := none } else p.2)
        waves := s.waves.map fun (p : Nat × Wave) => (p.1, { p.2 with ll := p.2.ll.map (LLOp.lost o lost) }) }
      (s.giveBack x.core x.weight true).endTiles x.wg x.core

/-- Every incomplete operation that a workgroup issued ends KILLED. -/
def State.killOpsOf (s : State) (u : Nat) : State :=
  (s.ops.filter fun p => p.2.wg == u).foldl (fun s p => s.killOp p.1) s

/-! Waves and workgroups. -/

/-- A core's rotation without a wave slot: the wave after it takes the next turn (R390). -/
def Core.leaveRota (c : Core) (slot : Nat) : Core :=
  if !c.rota.contains slot then c
  else
    let at' := (c.rota.takeWhile fun x => x != slot).length
    { c with rota := c.rota.filter fun x => x != slot, pos := if at' < c.pos then c.pos - 1 else c.pos }

/-- The release records of a range of a scratchpad go with its contents (R281). -/
def State.dropReleases (s : State) (core base n : Nat) : State :=
  s.setMem { s.mem with releases := s.mem.releases.filter fun r =>
    !(spadWord core base ≤ r.word && r.word < spadWord core (base + n)) }

/-- A workgroup has lost its last wave (R17). An abort mark that stands unconsumed at its ticket when it ends without ORDW or ORDA is
dropped: R228 does not say, and the model chooses (log 80). What it held is released and zeroed, the stores of its core are performed, so that a ticket
that is skipped (R291) and the SPAWN that made it (R286) carry them, its ticket is passed when the counter stands at it, and the SPAWN
is complete but for its completion event (R252). -/
def State.endWg (s : State) (u : Nat) : State :=
  match s.wg? u with
  | none => s
  | some g =>
    let s := { s with wgs := terase s.wgs u }
    let s := (((s.core g.core).obs.filter fun p => p.2.valid && p.2.wg == u).map (·.1)).foldl
      (fun s k => s.releaseRecord g.core k) s
    let s := ((s.updCore g.core fun c => { c with spad := cellsClear c.spad g.spadBase (alignUp g.spadSize 512) }).dropReleases
      g.core g.spadBase g.spadSize).perform g.core 5 fun _ => true
    let s := match g.spawnOp with
      | some o => s.updOp o fun x => { x with ready := true, killed := x.killed || g.killed }
      | none => s
    let s := s.updLaunch g.launch fun l =>
      { l with aborted := l.aborted || g.killed, ended := if g.task then l.ended else l.ended ++ [(g.wgid, g.killed)] }
    let s := match s.launch? g.launch with
      | some l => if !g.task && l.ticket == g.wgid then s.passTicket g.launch g.killed else s
      | none => s
    s.endTiles u g.core

/-- A sequencer forgets a wave. -/
def Seq.forget (q : Seq) (w : Nat) : Seq :=
  let mine := q.active == some w
  { q with
    active := if mine then none else q.active
    frozen := if mine then none else q.frozen
    missed := if mine then none else q.missed
    fetchFail := if mine then none else q.fetchFail
    body := if mine then [] else q.body
    refused := if mine then none else q.refused
    resend := if mine then false else q.resend
    turn := if q.turn == some w then none else q.turn
    owner := if q.owner == some w then none else q.owner
    bank := if q.owner == some w then [] else q.bank }

/-- A wave ends (R17, R51): its registers and outstanding results are discarded, its weight returns once its stores are
performed at the domain's scope (R292), and its end counts at its barriers. `killed` marks a kill (R431). -/
def State.endWave (s : State) (w : Nat) (killed : Bool) : State :=
  match s.wave? w with
  | none => s
  | some x =>
    let core := coreOfWave w
    let s := match x.weight with
      | some d => s.perform core (s.root d.root).scope fun _ => true
      | none => s
    let s := s.dropWave w
    let s := s.updSeq (seqOfWave w) fun q => q.forget w
    let s := s.setQd { s.qd with borrows := s.qd.borrows.map fun b => if b.who == .wave w then { b with who := .gone core } else b }
    let s := ((s.ungrant w).updCore core fun c => c.leaveRota (slotOfWave w)).leavePools w
    let s := s.updWg x.wg fun g =>
      { g with
        waves := lset g.waves x.waveId none
        killed := g.killed || killed
        bar := g.bar.filter fun id => id != x.waveId
        barc := g.barc.filter fun a => a.1 != x.waveId }
    match s.wg? x.wg with
    | none => s.giveBack core x.weight killed
    | some g =>
      if g.ids.isEmpty then
        let group := s.groupOf x.wg g
        let s := if s.tileBusy x.wg then
            match x.weight with
            | some d => s.setQd { s.qd with owed := s.qd.owed ++ [⟨x.wg, core, d, killed⟩] }
            | none => s
          else s.giveBack core x.weight killed
        let s := s.endWg x.wg
        (group.foldl (fun s p => s.tryBarc p.1) s).flushPool core
      else ((s.giveBack core x.weight killed).tryBar x.wg).tryBarc x.wg |>.flushPool core

/-- Fields of CTX_KILL (R374). -/
def killRecord (wgid cause : Nat) (double restore : Bool) : DWord :=
  BitVec.ofNat 64 (wgid % 2 ^ 32 + cause * 2 ^ 32 + bit1 double * 2 ^ 40 + bit1 restore * 2 ^ 41 + 2 ^ 42)

/-- Whether a wave waits on a fault record. -/
def Wave.waitsFault (x : Wave) (token : Nat) : Bool := (x.frontier ++ x.handlers).any fun e => e.fault == some token

/-- Whether anything waits on a fault record. A remote responder's record has its waiters in another package (R362). -/
def State.faultWaited (s : State) (r : FaultRec) : Bool :=
  r.unit == 6 || (s.waves.any fun p => p.2.waitsFault r.token) ||
  (s.seqs.any fun p => match p.2.frozen with | some (.fault t _) => t == r.token | _ => false) ||
  (s.trl.items.any fun p => p.2.fault == some r.token ||
    (match p.2.saved with | some v => v.waves.any fun x => x.waitsFault r.token | none => false)) ||
  (s.host.launches.any fun p => p.2.fault == some r.token)

/-- A kill of the waiting work resolves a record (R359). -/
def State.pruneFaults (s : State) : State := s.setCmd { s.cmd with faults := s.cmd.faults.filter s.faultWaited }

/-- Kill a workgroup or task (R431) and record it in CTX_KILL (R374). -/
def State.killWg (s : State) (u cause : Nat) (double restore : Bool) : State :=
  match s.wg? u with
  | none => s
  | some g =>
    let s := s.updCtx g.ctx fun c => { c with kill := killRecord g.wgid cause double restore }
    let s := (s.updWg u fun g => { g with killed := true }).killOpsOf u
    ((g.keys.foldl (fun s k => s.endWave k true) s).endWg u).pruneFaults

end Sys2Proof.Machine
end

