-- ==== Sys2Proof/Machine/Ops.lean ====
section
/-! DEFINITION. The shared operations of every Traex instruction: the issuing instruction and its EXEC, the frontier
(spec/01 R22 to R27), the checks of R76, reads with released and poisoned lanes (spec/02), retirement (R50), long-latency
results (R37 to R41), stalls, holds, parking, taking a trap and returning from one (spec/13 R370 to R374, spec/06 R188). -/

namespace Sys2Proof.Machine

/-! The instruction that a sequencer issues. -/

/-- The wave, clause and workgroup of the instruction in issue. -/
structure Issue where
  w : Nat
  wave : Wave
  cl : Clause
  wg : Wg
  deriving DecidableEq, Repr

/-- A wave with its clause in progress. -/
def State.issueOf (s : State) (w : Nat) : Option Issue :=
  match s.wave? w with
  | none => none
  | some x =>
    match x.clause, s.wg? x.wg with
    | some c, some g => some ⟨w, x, c, g⟩
    | _, _ => none

/-- The instruction of the sequencer in focus. -/
def State.issue? (s : State) : Option Issue :=
  match s.focus with
  | none => none
  | some q =>
    match (s.seq q).active with
    | none => none
    | some w => s.issueOf w

/-- A predicate register (R31). -/
def Wave.pred (x : Wave) (n : Nat) : Mask := if n = 0 then allLanes else x.preds.getD (n - 1) 0

/-- The lanes of a guard (R27). -/
def Wave.guardMask (x : Wave) (g : Guard) : Mask :=
  let p := x.pred g.p.toNat
  if g.neg then ~~~p else p

/-- EXEC with guard p0 (SR_EXEC): the entry's lanes, within an expansion those of its MCALL (R27, R190). -/
def Issue.lanes (x : Issue) : Mask :=
  match x.cl.mac with
  | some m => x.cl.lanes &&& m.exec
  | none => x.cl.lanes

/-- EXEC (R27). -/
def Issue.exec (x : Issue) (g : Guard) : Mask := x.lanes &&& x.wave.guardMask g

def Issue.core (x : Issue) : Nat := coreOfWave x.w

/-- SR_LEVEL1: the wave's number; a task's is its spawner's (R21, R251). -/
def Issue.level1 (x : Issue) : Nat := if x.wg.task then x.wg.levels.getD 1 0 else x.wave.waveId

def Issue.who (x : Issue) : Who := ⟨x.core, x.wg.ctx⟩

/-! Code as the instruction cache and memory hold it, without an effect. -/

/-- The word at a virtual address: that of a line that has arrived, else memory's as the die's L2 shows it (R77). -/
def State.peekWord (s : State) (core ctx va : Nat) : Option DWord :=
  let cached := s.mem.icache.find? fun l =>
    l.cluster == clusterOfCore core && l.ctx == ctx && l.line == va / 128 && l.words.isSome
  match cached.bind fun l => l.words with
  | some ws => ws[va / 8 % 16]?
  | none =>
    match s.walk ctx va with
    | .leaf _ e size => some (BitVec.ofNat 64 (s.peekCode core (bitsOf e 12 40 * 4096 + va % size) (bitsOf e 8 2 == 1)))
    | .absent _ => none

def hdrClass (h : DWord) : Nat := h.fld 58 2
def hdrCount (h : DWord) : Nat := h.fld 54 4 + 1
def hdrWait (h : DWord) : Nat := h.fld 42 12
def hdrSetA (h : DWord) : Nat := h.fld 38 4
def hdrSetB (h : DWord) : Nat := h.fld 34 4
def hdrPrio (h : DWord) : Nat := h.fld 22 12
def hdrHint (h : DWord) : Int := signedOf 16 (h.fld 6 16)
def hdrTagOk (h : DWord) : Bool := h.fld 60 4 == 0xA

/-- The header at an address, if the word there is one. -/
def State.headerAt (s : State) (core ctx pc : Nat) : Option DWord :=
  match s.peekWord core ctx pc with
  | some h => if hdrTagOk h then some h else none
  | none => none

/-- The priority an entry takes from the header at its PC (R23); none while the word there cannot be read, 0 where no header
stands (log 32). -/
def State.prioAt (s : State) (core ctx pc : Nat) : Option Nat :=
  (s.peekWord core ctx pc).map fun h => if hdrTagOk h then hdrPrio h else 0

/-! The frontier. -/

def Wave.entries (x : Wave) (handler : Bool) : List Entry := if handler then x.handlers else x.frontier
def Wave.setEntries (x : Wave) (handler : Bool) (l : List Entry) : Wave :=
  if handler then { x with handlers := l } else { x with frontier := l }

/-- Lanes that reach a PC join its READY entry or form one (R24). -/
def joinReady (l : List Entry) (pc : Nat) (prio : Option Nat) (m : Mask) : List Entry :=
  if m = 0 then l
  else if l.any fun e => e.st == .ready && e.pc == pc then
    l.map fun e => if e.st == .ready && e.pc == pc then { e with mask := e.mask ||| m } else e
  else l ++ [⟨pc, prio, m, .ready, 0, none, none, false, [], 0⟩]

/-- Every lane of a wave that has not exited. -/
def Wave.live (x : Wave) : Mask :=
  let m := (x.frontier).foldl (fun a e => a ||| e.mask) 0
  match x.clause with
  | some c => if c.handler then m else m ||| c.lanes
  | none => m

/-- The address of the next clause (R22). -/
def Clause.nextPc (c : Clause) : Nat := c.pc + 8 * (c.count + 1)

/-- An entry takes its priority once the header at its PC can be read (R23). -/
def State.noteEntry (s : State) (core ctx : Nat) (e : Entry) : Entry :=
  match e.prio with
  | some _ => e
  | none => { e with prio := s.prioAt core ctx e.pc }

/-- A wave whose entries have taken the priorities that can be read now. -/
def State.noted (s : State) (w ctx : Nat) (x : Wave) : Wave :=
  { x with frontier := x.frontier.map (s.noteEntry (coreOfWave w) ctx), handlers := x.handlers.map (s.noteEntry (coreOfWave w) ctx) }

/-- The sequencer of a wave that has issued nothing lets it go: the search of R28 starts where it started. -/
def State.dropActive (s : State) (w : Nat) : State :=
  s.updSeq (seqOfWave w) fun q => if q.active == some w then { q with active := none } else q

/-- The sequencer of a wave lets it go: the clause's last instruction has issued, or the wave is held, stalled or trapped (R28). Its turn
of a deterministic rotation is over (R390). -/
def State.letGo (s : State) (w : Nat) : State :=
  s.updSeq (seqOfWave w) fun q =>
    if q.active == some w then { q with active := none, last := slotOfWave w % 8, turn := none } else q

/-- The sequencer of a wave lets it go while it waits for a fill or a borrow grant; it keeps its turn of a deterministic rotation
(R28, R390). -/
def State.letWait (s : State) (w : Nat) : State :=
  s.updSeq (seqOfWave w) fun q => if q.active == some w then { q with active := none, last := slotOfWave w % 8 } else q

/-- The clause ends, and its lanes move (R24). -/
def State.endClause (s : State) (w : Nat) (moves : List (Nat × Mask)) : State :=
  match s.issueOf w with
  | none => s
  | some x =>
    let l := moves.foldl (fun l m => joinReady l m.1 (s.prioAt x.core x.wg.ctx m.1) m.2) (x.wave.entries x.cl.handler)
    (s.updWave w fun y => { y.setEntries x.cl.handler l with clause := none }).letGo w

/-- The next operation of an expansion, the next instruction of the clause, or its end with every lane at the next clause
(R22, R190). -/
def State.advance (s : State) (w : Nat) : State :=
  match s.issueOf w with
  | none => s
  | some x =>
    let c := { x.cl with failed := false, addrs := [] }
    let set (c : Clause) : State := s.updWave w fun y => { y with clause := some c }
    match c.mac with
    | some m =>
      if m.next + 1 < m.ops.length then set { c with mac := some { m with next := m.next + 1 } }
      else s.endClause w [(c.nextPc, c.lanes)]
    | none => if c.index + 1 < c.count then set { c with index := c.index + 1 } else s.endClause w [(c.nextPc, c.lanes)]

/-! Reads. -/

/-- A read of one register: the lanes read, the lanes of EXEC that read a scalar, and for a cross-lane read each lane of
EXEC with the lane it reads (R53, R167). -/
structure Read where
  file : RegFile
  reg : Nat
  lanes : Mask
  readers : Mask
  via : List (Nat × Nat)
  deriving DecidableEq, Repr

/-- A register released after the read, in these lanes (R48). -/
structure Rel where
  file : RegFile
  reg : Nat
  lanes : Mask
  deriving DecidableEq, Repr

/-- Whether a vector number names a trap register (R36). -/
def Issue.isTrapReg (x : Issue) (n : Nat) : Bool := x.cl.handler && n ≥ 240

/-- A vector register as the instruction reads it: in a handler v240 to v255 name t0 to t15 (R36). -/
def State.vreg (s : State) (x : Issue) (n : Nat) : Lanes :=
  if x.isTrapReg n then (s.seq (seqOfWave x.w)).bank.getD (n - 240) [] else x.wave.lanes .vec n

def State.sreg (_ : State) (x : Issue) (n : Nat) : DWord := x.wave.scalar n

/-- The lanes in which a read finds the register released, by the lanes of EXEC that SR_TRAPMASK reports. -/
def Read.relMask (x : Issue) (r : Read) : Mask :=
  let rel := x.wave.released r.file r.reg
  if !r.via.isEmpty then maskOf fun l => r.via.any fun p => p.1 == l && rel.getLsbD p.2
  else if r.file == .scl then (if rel = 0 then 0 else r.readers)
  else rel &&& r.lanes

/-- The lanes of a read that find lanes `p` of its register uncorrectable. -/
def Read.affected (r : Read) (p : Mask) : Mask :=
  if !r.via.isEmpty then maskOf fun l => r.via.any fun v => v.1 == l && p.getLsbD v.2
  else if r.file == .scl then (if p = 0 then 0 else r.readers)
  else p &&& r.lanes

/-- The RELREAD bit of an instruction's reads, for the lanes of it that retire (R53). -/
def relreadOf (x : Issue) (reads : List Read) (m : Mask) : Sticky :=
  stickyIf ((reads.foldl (fun a r => a ||| r.relMask x) 0) &&& m != 0) Sticky.relread

/-- The affected lanes of a read of uncorrectable data (R375). -/
def Read.poisonMask (x : Issue) (r : Read) : Mask := r.affected (x.wave.poisoned r.file r.reg)

/-- Whether a read needs the register's spilled lanes (R67). -/
def Read.needsFill (x : Issue) (r : Read) : Bool :=
  match x.wave.reg? r.file r.reg with
  | some g => (match g.home with | .spilled _ => true | _ => false) &&
      (if r.file == .scl then g.released = 0 else (r.lanes &&& ~~~g.released) != 0)
  | none => false

/-! Retirement. -/

/-- A result. -/
inductive Put where
  | vec (n : Nat) (m : Mask) (v : Lanes)
  | scl (n : Nat) (v : DWord)
  | pred (n : Nat) (m : Mask) (v : Mask)
  | grp (n : Nat) (v : DWord)
  /-- the result of a long-latency operation, which waits to become visible (R38, R60) -/
  | later (o : LLOp)
  deriving DecidableEq, Repr

/-- A later write of a group register discards an outstanding result for it (R40). -/
def Wave.pruneGrp (x : Wave) (n : Nat) : Wave :=
  { x with ll := x.ll.map fun o => match o.grp with
      | some (k, _) => if k = n then { o with grp := none } else o
      | none => o }

/-- The flags that an operation of the clause counts on (R38). -/
def Clause.flags (c : Clause) : List Nat :=
  (if c.setA = 15 then [] else [c.setA]) ++ (if c.setB = 15 || c.setB = c.setA then [] else [c.setB])

/-- A long-latency operation as it waits: it counts on the flags of its clause (R38). -/
def Clause.issued (c : Clause) (o : LLOp) : LLOp := { o with flags := c.flags, handler := c.handler }

/-- The two lanes that hold a scalar. -/
def scalarLanes (v : DWord) : Lanes := [loWord v, hiWord v]

/-- One result written at retirement (R32, R34, R36, R57), or one that waits from then on: the releases of its own instruction went
before it (R50, R60). -/
def State.put (s : State) (x : Issue) (p : Put) : State :=
  match p with
  | .vec n m v =>
    if x.isTrapReg n then
      (s.updSeq (seqOfWave x.w) fun q => { q with bank := lsetD [] q.bank (n - 240) (mixLanes m (q.bank.getD (n - 240) []) v) }
        ).updWave x.w fun y => y.prune .vec (trapRegKey (n - 240)) m
    else s.updWave x.w fun y => (y.write .vec n m v s.tick).prune .vec n m
  | .scl n v => s.updWave x.w fun y => (y.write .scl n allLanes (scalarLanes v) s.tick).prune .scl n allLanes
  | .pred n m v =>
    s.updWave x.w fun y =>
      if n = 0 then y else { y with preds := lsetD 0 y.preds (n - 1) ((y.pred n &&& ~~~m) ||| (v &&& m)) }
  | .grp n v =>
    (s.updWg x.wave.wg fun g => { g with grp := lsetD 0 g.grp n v, claims := lsetD none g.claims n (some x.wave.waveId) }).updWave
      x.w fun y => y.pruneGrp n
  | .later o => s.updWave x.w fun y => { y with ll := y.ll ++ [x.cl.issued o] }

/-- An instruction retires (R50): last uses, results, sticky bits, then the window advances by one. -/
def State.retire (s : State) (x : Issue) (uses : List Read) (rels : List Rel) (puts : List Put) (st : Sticky) : State :=
  let s := s.updWave x.w fun y =>
    let y := uses.foldl (fun y r => y.touch r.file r.reg s.tick) y
    let y := y.pushSlot
    let y := rels.foldl (fun y r => (y.release r.file r.reg r.lanes).prune r.file r.reg r.lanes) y
    { y with sticky := y.sticky ||| st, retired := y.retired + 1 }
  (puts.foldl (fun s p => s.put x p) s).popSlot x.w

/-- A retirement after which the clause goes on. A wave that waits for a register lets its sequencer go (R28, R64). -/
def State.finish (s : State) (x : Issue) (uses : List Read) (rels : List Rel) (puts : List Put) (st : Sticky) : State :=
  let s := (s.retire x uses rels puts st).advance x.w
  if s.allocating x.w then s.letWait x.w else s

/-! Long-latency operations. -/

/-- The register number under which a long-latency result is kept. -/
def Issue.llReg (x : Issue) (n : Nat) : Nat := if x.isTrapReg n then trapRegKey (n - 240) else n

/-- An operation with no result yet visible. -/
def LLOp.of (writes : List LLWrite) : LLOp := ⟨[], writes, none, 0, 0, 0, none, false, false⟩

/-- The lanes that a result cannot be merged with, because the fill of their register brings uncorrectable data (R67, log 69). -/
def State.mergeFaults (s : State) (w : Nat) (o : LLOp) : Mask :=
  match s.host.upsets, s.wave? w with
  | .fill m :: _, some x =>
    o.writes.foldl (fun a lw => if lw.mask = 0 || lw.reg ≥ 256 then a else a ||| x.filledLanes lw.file lw.reg (m &&& ~~~lw.mask)) 0
  | _, _ => 0

/-- The error of a fill is used up. -/
def State.filled (s : State) : State :=
  match s.host.upsets with
  | .fill _ :: rest => (s.setHost { s.host with upsets := rest }).countError
  | _ => s

/-- A result becomes visible (R39, R60): its registers in ascending order, its group register (R34), its sticky bits. A
result with uncorrectable lanes writes nothing and is due as a trap (R201), as is one whose register must be filled with
uncorrectable data (R67). Earlier results lose what it wrote (R40): they are the wave's outstanding ones now. -/
def State.show (s : State) (w : Nat) (o : LLOp) : State :=
  let bad := s.mergeFaults w o
  if o.poison != 0 then
    s.updWave w fun y => { y with due := y.due ++ [⟨o.handler, 6, o.addr, o.poison⟩] }
  else if bad != 0 then
    s.filled.updWave w fun y => { y with due := y.due ++ [⟨o.handler, 6, 0, bad⟩] }
  else
    let s := (sortBy (·.reg) o.writes).foldl (fun s lw => s.showWrite w lw) s
    let s := match o.grp, s.wave? w with
      | some (n, v), some x => s.updWg x.wg fun g => { g with grp := lsetD 0 g.grp n v }
      | _, _ => s
    s.updWave w fun y =>
      let y := o.writes.foldl (fun y lw => y.prune lw.file lw.reg lw.mask) { y with sticky := y.sticky ||| o.sticky }
      match o.grp with | some (n, _) => y.pruneGrp n | none => y

/-- Result `k` of a wave becomes visible: the results that issued before it lose what it writes, those behind it do not (R40). -/
def State.showAt (s : State) (w k : Nat) : State :=
  match s.wave? w with
  | none => s
  | some x =>
    match x.ll[k]? with
    | none => s
    | some o => ((s.setWave w { x with ll := x.ll.take k }).show w o).updWave w fun y => { y with ll := y.ll ++ x.ll.drop (k + 1) }

/-- Make the first result that `p` chooses visible, and so on; `fuel` bounds their number. -/
def State.showAll (s : State) (w : Nat) (p : LLOp → Bool) : Nat → State
  | 0 => s
  | fuel + 1 =>
    match s.wave? w with
    | none => s
    | some x =>
      if x.ll.any p then (s.showAt w (x.ll.findIdx p)).showAll w p fuel else s

/-- Every outstanding result is complete and visible (R41). -/
def State.showEvery (s : State) (w : Nat) : State :=
  match s.wave? w with
  | some x => s.showAll w (fun _ => true) x.ll.length
  | none => s

/-! Traps. -/

/-- The entry that keeps the lanes, index and expansion of the clause in progress (R23). -/
def Clause.entry (c : Clause) (m : Mask) (st : EState) (fault : Option Nat) : Entry :=
  ⟨c.pc, some c.prio, m, st, c.index, c.mac, fault, c.failed, c.addrs, c.count⟩

/-- CTX_TRAP (R369). -/
def trapPresent (t : DWord) : Bool := t.bit 0
def trapHandler (t : DWord) : Nat := t.fld 3 57 * 8

/-- A wave at its precise point enters its handler (R370, steps 3 to 5); without a handler it is a double trap, which kills
the workgroup (R374). -/
def State.enterHandler (s : State) (w : Nat) (t : TrapInfo) : State :=
  match s.wave? w with
  | none => s
  | some x =>
    match s.wg? x.wg with
    | none => s
    | some g =>
      let vec := (s.ctx g.ctx).trap
      if !trapPresent vec then s.killWg x.wg t.cause true false
      else
        let s := s.showEvery w
        let pc := trapHandler vec
        let m := x.frontier.foldl (fun a e => if e.st == .trapped then a ||| e.mask else a) 0
        let s := s.updWave w fun y => { y with
          queued := none, inTrap := true, trap := t
          handlers := [⟨pc, s.prioAt (coreOfWave w) g.ctx pc, m, .ready, 0, none, none, false, [], 0⟩] }
        s.updSeq (seqOfWave w) fun q =>
          { q with owner := some w, bank := List.replicate 16 (List.replicate 32 0) }

/-- Whether a readback of the wave is not known yet: a trap waits for it (R41, R274). -/
def Wave.readback (x : Wave) : Bool := x.ll.any fun o => o.op.isSome

/-- Whether a wave waits for its handler and no switch is asked of it: under a switch its trap is saved, and the handler entered after the
restore (R387). -/
def State.couldEnter (s : State) (x : Wave) : Bool :=
  x.queued.isSome && (match s.wg? x.wg with | some g => !g.switching | none => false)

/-- The queued wave that enters next on a sequencer: the lowest slot (R45), in deterministic mode the first of the rotation
list (R390). Where a readback keeps it from entering, the waves behind it wait too (R370, steps 2 and 3). -/
def State.nextQueued (s : State) (q : Nat) : Option Nat :=
  let l := (s.waves.filter fun p => seqOfWave p.1 == q && s.couldEnter p.2).map (·.1)
  let rota := (s.core (q / 4)).rota
  match rota.find? fun slot => l.contains (32 * (q / 4) + slot) with
  | some slot => some (32 * (q / 4) + slot)
  | none => leastBy id l

/-- The sequencer runs no handler: the next wave of its queue enters its own (R45), unless it waits for a readback (R41, log 44). -/
def State.serveTraps (s : State) (q : Nat) : State :=
  if (s.seq q).owner.isSome then s
  else
    match s.nextQueued q with
    | none => s
    | some w =>
      match s.wave? w with
      | none => s
      | some x =>
        match x.queued with
        | some t => if x.readback then s else s.enterHandler w t
        | none => s

/-- Taking a trap (R8, R370): the trapping instruction's entry becomes TRAPPED, SR_STATUS takes the sticky bits of R44,
and the wave enters its handler in the order of its sequencer's queue (R45), or waits while a switch is asked of it (R387). A trap
of a handler instruction is a double trap (R374). `failed` says that the entry still has its FAIL response to report. -/
def State.takeTrap (s : State) (x : Issue) (t : TrapInfo) (failed : Bool) (st : Sticky) : State :=
  let s := s.updWave x.w fun y => { y with sticky := y.sticky ||| st }
  if x.cl.handler then s.killWg x.wave.wg t.cause true false
  else
    let s := (s.updWave x.w fun y => { y with
      clause := none, hold := none, stall := none, queued := some t
      frontier := y.frontier ++ [{ x.cl.entry x.cl.lanes .trapped none with failed := failed }] }).letGo x.w
    s.serveTraps (seqOfWave x.w)

/-- The trap of an instruction (R76, R370). -/
def State.raiseTrap (s : State) (x : Issue) (cause : Nat) (addr : DWord) (mask : Mask) (st : Sticky) : State :=
  s.takeTrap x ⟨cause, x.cl.pc, x.cl.index, addr, mask⟩ false st

/-! Exits and joins. -/

/-- Complete the JOIN at a PC when its JOINED entries hold every lane that has not exited (R183). A JOINED entry keeps the
index of its JOIN, the last instruction of its clause. -/
def completeJoin (s : State) (core ctx : Nat) (live : Mask) (l : List Entry) (e : Entry) : List Entry :=
  let here (a : Entry) : Bool := a.st == .joined && a.pc == e.pc
  let m := l.foldl (fun a b => if here b then a ||| b.mask else a) 0
  if e.st == .joined && m != 0 && m == live then
    let pc := e.pc + 8 * (e.index + 2)
    joinReady (l.filter fun a => !here a) pc (s.prioAt core ctx pc) m
  else l

/-- The check of R183 at a wave's JOINs. -/
def State.checkJoins (s : State) (w : Nat) : State :=
  match s.wave? w with
  | none => s
  | some x =>
    match s.wg? x.wg with
    | none => s
    | some g =>
      let l := x.frontier.foldl (fun l e => completeJoin s (coreOfWave w) g.ctx x.live l e) x.frontier
      s.setWave w { x with frontier := l }

/-- The releases that an exit of lanes makes at its instruction's retirement, before the window advances (R50, R51): every vector
register in those lanes, and with the wave's last lane every scalar register too. -/
def Wave.exitRels (x : Wave) (m : Mask) : List Rel :=
  ((tkeys x.v).map fun n => ⟨.vec, n, m⟩) ++ (if x.live &&& ~~~m = 0 then (tkeys x.s).map fun n => ⟨.scl, n, allLanes⟩ else [])

/-- Lanes exit (R51, R185): they are released in every vector register; the wave ends with its last lane. The lanes stand
in no entry any more. -/
def State.exitLanes (s : State) (w : Nat) (m : Mask) : State :=
  match s.wave? w with
  | none => s
  | some x =>
    if x.live = 0 then s.endWave w false
    else
      let y := (tkeys x.v).foldl (fun y n => (y.release .vec n m).prune .vec n m) x
      (s.setWave w { y with ll := y.ll.map fun o =>
        { o with writes := o.writes.map fun lw => if lw.file == .vec then { lw with mask := lw.mask &&& ~~~m } else lw } }
        ).checkJoins w

/-- The lanes of the clause that `m` names leave it for another entry; the clause keeps the rest. -/
def State.keepLanes (s : State) (w : Nat) (m : Mask) : State :=
  s.updWave w fun y => { y with clause := y.clause.map fun c => { c with lanes := c.lanes &&& ~~~m } }

/-- What a return from a trap does with the TRAPPED entry by its mode (R188): it issues its instruction again, goes on behind it as
retired without effect and with the addresses of no earlier one, or exits. DESIGN CHOICE (log 77): after a trap at a header, where no
instruction has trapped, the instruction that the entry stands at counts as the trapping one. -/
def State.returnEntry (s : State) (x : Issue) (e : Entry) (mode : Nat) : State :=
  let w := x.w
  let resume (a : Entry) : State := s.updWave w fun y => { y with frontier := y.frontier ++ [{ a with st := .resume }] }
  let next (a : Entry) : State := resume { a with failed := false, addrs := [] }
  let ready (pc : Nat) (s : State) : State := s.updWave w fun y =>
    { y with frontier := joinReady y.frontier pc (s.prioAt x.core x.wg.ctx pc) e.mask }
  let skipped (s : State) : State := (s.updWave w fun y => { y.pushSlot with retired := y.retired + 1 }).popSlot w
  match mode with
  | 0 => resume e
  | 1 =>
    match e.mac with
    | some m =>
      if m.next + 1 < m.ops.length then skipped (next { e with mac := some { m with next := m.next + 1 } })
      else ready (e.pc + 8 * (e.count + 1)) (skipped s)
    | none =>
      if e.index + 1 < e.count then skipped (next { e with index := e.index + 1 })
      else ready (e.pc + 8 * (e.count + 1)) (skipped s)
  | _ => s.exitLanes w e.mask

/-- Return from a trap (R188, R371): the handler's entries and t0 to t15 are discarded and INTRAP is 0. By its mode the
TRAPPED entry issues its instruction again, goes on behind it as retired without effect, or exits. The handler's own
instruction has retired. -/
def State.returnTrap (s : State) (x : Issue) (mode : Nat) : State :=
  let w := x.w
  let s := (s.updWave w fun y => { y with
    clause := none, handlers := [], inTrap := false
    ll := y.ll.map fun o => { o with writes := o.writes.filter fun lw => !(lw.file == .vec && lw.reg ≥ 256) } }).letGo w
  let s := s.updSeq (seqOfWave w) fun q => if q.owner == some w then { q with owner := none, bank := [] } else q
  match x.wave.frontier.find? fun e => e.st == .trapped with
  | none => s.serveTraps (seqOfWave w)
  | some e =>
    let s := s.updWave w fun y => { y with frontier := y.frontier.filter fun a => a.st != .trapped }
    let s := if mode != 0 && x.wave.trap.cause = 0x10 then
        s.updLaunch x.wg.launch fun l => if l.ticket = x.wg.wgid then { l with mark := false } else l
      else s
    (s.returnEntry x e mode).serveTraps (seqOfWave w)

/-! Stalls, holds and parking. -/

/-- The instruction has not issued: the wave waits at it, at a safe point (R237). -/
def State.stallIssue (s : State) (x : Issue) (t : Stall) : State :=
  let s := s.updWave x.w fun y => { y with stall := some t }
  if t.borrow then s.letWait x.w else s.letGo x.w

def Stall.none (now : Nat) : Stall := ⟨now, .none, .none, false, .none, .none, false⟩

/-- A holding instruction holds its wave (R194); the sticky bits of its reads are set when it retires (R53). -/
def State.holdWave (s : State) (x : Issue) (i : Instr) (e : Mask) (arg : DWord) (st : Sticky) : State :=
  (s.updWave x.w fun y => { y with hold := some ⟨i, e, arg, st, false, false⟩ }).letGo x.w

/-- A wave held in BAR or BARC arrives once each of its group-register results is complete; these become visible first (R34,
R218, R219). -/
def State.arrive (s : State) (w : Nat) : State :=
  match s.wave? w with
  | none => s
  | some x =>
    match x.hold, s.wg? x.wg with
    | some h, some g =>
      if h.done || x.ll.any (fun o => o.grp.isSome && !o.done) then s
      else
        match h.instr with
        | .bar _ =>
          if g.bar.contains x.waveId then s
          else ((s.showAll w (fun o => o.grp.isSome) x.ll.length).updWg x.wg fun g => { g with bar := g.bar ++ [x.waveId] }
            ).tryBar x.wg
        | .barc _ =>
          if g.barc.any fun a => a.1 == x.waveId then s
          else ((s.showAll w (fun o => o.grp.isSome) x.ll.length).updWg x.wg fun g =>
            { g with barc := g.barc ++ [(x.waveId, s.tick)] }).tryBarc x.wg
        | _ => s
    | _, _ => s

/-- Lanes of the instruction park on a fault record, or resume with its FAIL response where the ring is invalid (R197,
R358). -/
def State.parkLanes (s : State) (x : Issue) (m : Mask) (fault : Option Nat) (addrs : List (Nat × DWord)) : State :=
  let e := x.cl.entry m (if fault.isSome then .parked else .resume) fault
  let e := { e with failed := fault.isNone, addrs := addrs }
  (s.updWave x.w fun y => y.setEntries x.cl.handler (y.entries x.cl.handler ++ [e])).keepLanes x.w m

/-- Every lane of the clause has parked: the sequencer is free. -/
def State.endIfEmpty (s : State) (w : Nat) : State :=
  match s.issueOf w with
  | some x => if x.cl.lanes = 0 then (s.updWave w fun y => { y with clause := none }).letGo w else s
  | none => s

/-! The checks of R76, steps 4 to 7. -/

/-- The opcode of a constructor. -/
def opcodeOf (i : Instr) : Nat := match encodeParts i with | some p => p.1 | none => 0xFF

/-- The clause class of an opcode (R75). -/
def opClass (op : Nat) : Nat := if op ≤ 0x0C then 3 else if op ≤ 0x6F then 0 else if op ≤ 0xAF then 1 else 2

/-- The holding instructions (R194). -/
def isHolding (i : Instr) : Bool :=
  match i with
  | .bar _ | .barc _ | .fence _ | .syacq _ | .sybind _ | .mwatch _ | .mwait _ | .waittl _ | .ordw _ | .orda _ | .waitq _
  | .qopen _ | .qclose _ => true
  | _ => false

/-- The instructions that a handler must not hold on (R194, R188). -/
def barredInHandler (i : Instr) : Bool :=
  match i with
  | .bar _ | .barc _ | .mwait _ | .ordw _ | .orda _ | .waitq _ | .exit _ | .join _ => true
  | _ => false

def isRett (i : Instr) : Bool := match i with | .rett _ => true | _ => false

/-- Step 4 of R76 for an instruction: class and position (R75, R93, R194), and what a handler changes (R188). A clause's last word that
cannot be read refuses nothing; its fetch waits for the page (R77, `State.awaitsLast`). -/
def State.positionOk (s : State) (x : Issue) (i : Instr) : Bool :=
  let k := opClass (opcodeOf i)
  let last := x.cl.index + 1 = x.cl.count
  let beforeControl := x.cl.index + 2 = x.cl.count &&
    match s.peekWord x.core x.wg.ctx (x.cl.pc + 8 * x.cl.count) with
    | some w => w.fld 56 8 ≤ 0x0C
    | none => true
  (match x.cl.mac with
   | some m => !isHolding i || m.next + 1 = m.ops.length
   | none => (if k = 3 then decide last else k == x.cl.cls) && (!isHolding i || last || beforeControl)) &&
  (if x.cl.handler then !barredInHandler i else !isRett i)

/-- A register of a VR or M source field, with the registers behind it that its type reads. -/
def srcNames (u : SrcUse) (x : Src) : List (RegFile × Nat × Nat) :=
  let of (t : Ty) : List (RegFile × Nat × Nat) :=
    match x.kind with
    | .vec => [(.vec, x.num.toNat, if t.is64 then 2 else 1)]
    | .scl => [(.scl, x.num.toNat, 1)]
    | _ => []
  match u with
  | .as t | .uniform t | .vector t | .noGroup t | .noVec t => of t
  | _ => []

/-- The registers of an M-format base or index field. -/
def addrNames (u : AddrUse) (x : Src) : List (RegFile × Nat × Nat) :=
  match x.kind, u with
  | .vec, .any64 => [(.vec, x.num.toNat, 2)]
  | .vec, _ => [(.vec, x.num.toNat, 1)]
  | .scl, _ => [(.scl, x.num.toNat, 1)]
  | _, _ => []

/-- RET or RB of an E-format word: the scalar register it names (R234). -/
def retOf (f : E) : Option Nat := if bitOf f.aux.toNat 13 then some (bitsOf f.aux.toNat 7 6) else none

/-- The vector and scalar registers that a word names in any field, each with how many (R56). -/
def namedRegs (i : Instr) : List (RegFile × Nat × Nat) :=
  match i with
  | .movi f => [(.vec, f.dst.toNat, 1)]
  | .brx f | .call f | .ret f => [(.vec, f.link.toNat, 2)]
  | .mcall f =>
    (List.range 4).filterMap fun k =>
      match bitsOf f.mid.toNat (2 * k) 2 with
      | 0 => some (.vec, bitsOf f.off.toNat (8 * k) 8, 1)
      | 1 => some (.scl, bitsOf f.off.toNat (8 * k) 8, 1)
      | _ => none
  | .rdsr f => [(if f.imm = 1 then .scl else .vec, f.dst.toNat, 1)]
  | .rdclk f => [(.scl, f.dst.toNat, 1)]
  | .wrsr f => srcNames (.as .n64) f.a |>.map fun p => (p.1, p.2.1, 1)
  | .gwr f => srcNames (.as .n32) f.a
  | .relr f => [(if bitsOf f.imm.toNat 18 2 = 0 then .vec else .scl, f.dst.toNat, bitsOf f.imm.toNat 9 9)]
  | .ogath f =>
    [(.scl, f.blk.toNat, 3), (.vec, bitsOf f.imm.toNat 4 8, 1)] ++
      (match retOf f with | some r => [(.scl, r, 1)] | none => [])
  | i =>
    match shapeOf i, vrOf i with
    | some sh, some f =>
      srcNames sh.a f.a ++ srcNames sh.b f.b ++ srcNames sh.c f.c ++
        (match f.dk with
         | .vec => [(.vec, f.dst.toNat, if sh.dst.is64 then 2 else 1)]
         | .scl => [(.scl, f.dst.toNat, 1)]
         | _ => [])
    | _, _ =>
      match mShapeOf i with
      | some (sh, f) =>
        addrNames sh.base f.base ++ addrNames sh.index f.index ++
          (match sh.data with
           | .vec n _ _ _ => [(.vec, f.data.toNat, n)]
           | .scl n _ _ opt => if opt && f.data = 255 then [] else [(.scl, f.data.toNat, n)]
           | _ => [])
      | none =>
        match eShapeOf i with
        | some (sh, f) =>
          (if sh.blk = 0 then [] else [(.scl, f.blk.toNat, sh.blk)]) ++
            (match retOf f with | some r => [(.scl, r, 1)] | none => [])
        | none => []

/-- Whether every register named lies within the declared footprint; t registers of a handler need none (R56), but as the range
of a RELR, which the declared counts bound in a handler too (R72). -/
def Issue.footprintOk (x : Issue) (i : Instr) : Bool :=
  let trap := x.cl.handler && (match i with | .relr _ => false | _ => true)
  (namedRegs i).all fun r =>
    match r.1 with
    | .vec => r.2.1 + r.2.2 ≤ x.wg.vregs || (trap && r.2.1 ≥ 240 && r.2.1 + r.2.2 ≤ 256)
    | .scl => r.2.1 + r.2.2 ≤ x.wg.sregs

/-- The selector that an instruction names (R35, R226). -/
def selectorOf (i : Instr) : Option Nat :=
  match i with
  | .waittl f => some (f.data.toNat % 8)
  | i =>
    match eShapeOf i with
    | some (sh, f) => if sh.tl then some f.tl.toNat else none
    | none => none

def tlselCtx (t : BitVec 16) : Nat := bitsOf t.toNat 0 12
def tlselScope (t : BitVec 16) : Nat := bitsOf t.toNat 12 3
def tlselValid (t : BitVec 16) : Bool := bitOf t.toNat 15

def Issue.tlsel (x : Issue) (k : Nat) : BitVec 16 := x.wg.tlsel.getD k 0

/-- Special registers that exist only in a handler (R42). -/
def handlerSrOk (i : Instr) (handler : Bool) : Bool :=
  match i with
  | .rdsr f => (match srKind f.sr.toNat with | some (_, _, h) => handler || !h | none => false)
  | _ => true

/-- Steps 5 to 7 of R76. -/
def Issue.operandsOk (x : Issue) (i : Instr) : Bool :=
  legal i && x.footprintOk i && handlerSrOk i x.cl.handler &&
  (match selectorOf i with | some k => tlselValid (x.tlsel k) && tlselScope (x.tlsel k) < 6 | none => true)

/-! Running an instruction. -/

/-- What stands between the reads of an instruction and its effect. -/
inductive Gate where
  /-- the state in which the instruction waits or has trapped -/
  | stop (s : State)
  /-- the lanes for which RELEASED_READ is due, or none, and the RELREAD bit -/
  | go (rel : Mask) (st : Sticky)
  deriving Repr

/-- Whether the instruction transfers a register that is being spilled, which it must await (R65): one it reads or writes,
or one that its retirement pushes out of the window. -/
def State.spillConflict (s : State) (x : Issue) (reads : List Read) (dsts : List (RegFile × Nat)) : Bool :=
  let busy (r : RegFile × Nat) : Bool := s.spilling x.w r.1 r.2
  (reads.any fun r => busy (r.file, r.reg)) || dsts.any busy || ((x.wave.window.drop 7).any fun slot => slot.any busy)

/-- The lanes of an instruction that find the data of a fill uncorrectable (R67, log 69). -/
def State.fillFaults (s : State) (x : Issue) (reads : List Read) : Mask :=
  match s.host.upsets with
  | .fill m :: _ =>
    reads.foldl (fun a r => if r.needsFill x then a ||| r.affected (x.wave.filledLanes r.file r.reg m) else a) 0
  | _ => 0

/-- The lanes with uncorrectable data of the registers that `p` names, of those whose slot the instruction's retirement would push out of
the window and which must be filled for that (R55, R67, log 69). -/
def State.leavingFaults (s : State) (x : Issue) (p : RegFile → Nat → Bool) : Mask :=
  match s.host.upsets with
  | .fill m :: _ =>
    ((x.wave.window.drop 7).headD []).foldl (fun a r => match x.wave.reg? r.1 r.2 with
      | some g => if g.pend = 0 || !p r.1 r.2 then a else a ||| x.wave.filledLanes r.1 r.2 m
      | none => a) 0
  | _ => 0

def State.exitFaults (s : State) (x : Issue) : Mask := s.leavingFaults x fun _ _ => true

/-- The scalar registers that a holding instruction writes or releases when its hold ends (R49, R194). -/
def holdOutputs (i : Instr) : List Nat :=
  match mShapeOf i with
  | some (_, f) => [f.data.toNat] ++ (if f.base.last then [f.base.num.toNat] else []) ++ (if f.index.last then [f.index.num.toNat] else [])
  | none => []

/-- The uncorrectable lanes of the fills that an instruction needs to retire, given the state `t` that it comes to (R50, R55, R67): a
register of the leaving slot that it has released or written has not left the window. An instruction that holds needs the fills of its
retirement when it issues, since nothing of it has happened then (log 69). -/
def State.retireFaults (s : State) (x : Issue) (t : State) : Mask :=
  if s.exitFaults x = 0 then 0
  else
    match t.wave? x.w with
    | none => 0
    | some y =>
      match y.hold with
      | some h => s.leavingFaults x fun f n => !(f == .scl && (holdOutputs h.instr).contains n)
      | none =>
        if y.retired = x.wave.retired then 0
        else s.leavingFaults x fun f n => match y.reg? f n with
          | some g => g.pend = 0 && (g.home.phys?.isSome || (((t.core x.core).pool f).queue.any fun e => e.wave == x.w && e.reg == n))
          | none => false

/-- The state that an instruction comes to, or its trap where a fill for its retirement brings uncorrectable data (R67). -/
def State.leaveChecked (s : State) (x : Issue) (t : State) : State :=
  let bad := s.retireFaults x t
  if bad = 0 then t else s.filled.raiseTrap x 6 0 bad 0

/-- Fill the spilled registers of a read, lowest number first, while the wave waits (R67). -/
def State.fillReads (s : State) (x : Issue) (reads : List Read) : State :=
  let need := sortBy (·.reg) (reads.filter fun r => r.needsFill x)
  (need.foldl (fun s r => s.needReg x.w r.file r.reg .fill) s).letWait x.w

/-- The reads of an instruction (R53): it waits for a spill or a fill, whose data may be uncorrectable (R67); uncorrectable lanes
trap (R375); released lanes read 0 and set RELREAD, or are due as RELEASED_READ, which goes before every other condition. -/
def State.gate (s : State) (x : Issue) (reads : List Read) (dsts : List (RegFile × Nat)) : Gate :=
  if s.spillConflict x reads dsts then .stop s
  else
    let rel := reads.foldl (fun a r => a ||| r.relMask x) 0
    let st := stickyIf (rel != 0) Sticky.relread
    if rel != 0 && relreadEnabled x.wave.trapen && !x.cl.handler then .go rel st
    else if reads.any fun r => r.needsFill x then
      let bad := s.fillFaults x reads
      .stop (if bad != 0 then s.filled.raiseTrap x 6 0 bad 0 else s.filled.fillReads x reads)
    else
      let bad := reads.foldl (fun a r => a ||| r.poisonMask x) 0
      if bad != 0 then .stop (s.raiseTrap x 6 0 bad 0) else .go 0 st

/-- A gate with no more than released reads to decide: RELEASED_READ, or the body with the RELREAD bit. -/
def State.gated (s : State) (x : Issue) (reads : List Read) (dsts : List (RegFile × Nat)) (body : Sticky → State) : State :=
  match s.gate x reads dsts with
  | .stop s => s
  | .go rel st => if rel != 0 then s.raiseTrap x 8 0 rel st else body st

/-- An instruction in issue: steps 4 to 7 of R76 whatever its guard, then, with an empty EXEC, a retirement without effect
(R27), else its own effect. -/
def State.run (s : State) (i : Instr) (g : Guard) (body : Issue → Mask → State) : Host.Outcome State Fault Refusal :=
  match s.issue? with
  | none => .fault .noIssuer
  | some x =>
    .next
      (if !s.positionOk x i then s.raiseTrap x 1 0 x.cl.lanes 0
       else if !x.operandsOk i then s.raiseTrap x 2 0 x.cl.lanes 0
       else s.leaveChecked x (if x.exec g = 0 then s.gated x [] [] fun st => s.finish x [] [] [] st else body x (x.exec g)))

/-- Whether a write of a group register by the wave raises GROUP_WRITER (R33). -/
def Issue.groupTaken (x : Issue) (n : Nat) : Bool :=
  match x.wg.claims.getD n none with
  | some id => id != x.wave.waveId
  | none => false

end Sys2Proof.Machine
end

