-- ==== Sys2Proof/Machine/Faults.lean ====
section
/-! DEFINITION. The fault path (spec/12 R358, R359): records, the fault ring, and the responses that resume or fail the
units that wait. -/

namespace Sys2Proof.Machine

/-- The units of R358. -/
def unitWave : Nat := 0
def unitFetch : Nat := 1
def unitCopy : Nat := 2
def unitStaging : Nat := 3
def unitPort : Nat := 5
def unitResponder : Nat := 6
def unitDigest : Nat := 7

def ringValid (r : DWord) : Bool := r.bit 0
/-- Records of the fault ring; a LOG2N outside 4 to 16 acts as 4. -/
def ringSize (r : DWord) : Nat :=
  let n := r.fld 1 5
  2 ^ (if 4 ≤ n && n ≤ 16 then n else 4)
def ringBase (r : DWord) : Nat := r.fld 12 40 * 4096

/-- Entries of a completion ring or event ring; other values of LOG2N act as 4 (R404). -/
def cqSize (c : DWord) : Nat := let n := c.fld 0 5; 2 ^ (if 4 ≤ n && n ≤ 16 then n else 4)

/-- Bytes of a packet slot (R404). -/
def slotBytes (r : DWord) : Nat := 64 * 2 ^ min (r.fld 6 3) 4

/-! Management requests (R421). -/

/-- Where the next management request lies, and where its response goes. -/
def HostIf.mgmtAddr (h : HostIf) : Nat := ringBase h.mgmtRing + slotBytes h.mgmtRing * (h.mgmtHead.toNat % ringSize h.mgmtRing)
def HostIf.mgmtPlace (h : HostIf) : Nat := ringBase h.mgmtCq + 16 * (h.mgmtWritten % cqSize h.mgmtCq)

/-- Whether a request is in execution or can be: the ring is enabled and holds one, its response has room, and no firmware switch
is under way (R406, R430). -/
def State.mgmtPending (s : State) : Bool :=
  let h := s.host
  h.mgmtRing.bit 0 && h.mgmtHead != h.mgmtTail && !s.cmd.fw.trial && s.sysNat (h.mgmtPlace + 15) 1 = 0

/-- The response to the request that `t` has executed, at the place that `s` gave it: its index and the status in byte 8. Nothing where
no request was pending. -/
def State.respondMgmt (s t : State) (status : Nat) : State :=
  if !s.mgmtPending then t
  else
    let h := s.host
    let t := t.sysPut h.mgmtPlace 16 (h.mgmtHead.toNat + (status % 256 + 2 ^ 56) * 2 ^ 64)
    t.setHost { t.host with mgmtHead := t.host.mgmtHead + 1, mgmtWritten := t.host.mgmtWritten + 1 }

/-- A fault of a context at an address: the token of the record it joins or makes; none where the ring is not valid, so
that it resolves as FAIL (R358). -/
def State.faultAt (s : State) (ctx va : Nat) (write fetch : Bool) (reason core unit slot pkg : Nat) : State × Option Nat :=
  if !ringValid (s.ctx ctx).fring then (s, none)
  else
    match s.cmd.faults.find? fun r => r.ctx == ctx && r.frame == va / 4096 && r.write == write with
    | some r => (s, some r.token)
    | none =>
      let t := s.cmd.nextToken
      let r : FaultRec := ⟨t, ctx, va / 4096, write, fetch, reason, core, unit, slot, pkg, false⟩
      (s.setCmd { s.cmd with faults := s.cmd.faults ++ [r], nextToken := (t + 1) % 2 ^ 48 }, some t)

/-- The first 24 bytes of a record in the ring as a number. -/
def faultWords (r : FaultRec) : Nat :=
  (r.reason + bit1 r.write * 16 + bit1 r.fetch * 32 + r.frame * 4096) +
  (r.core + r.unit * 256 + r.slot * 2048 + r.pkg * 65536 + r.ctx * 2 ^ 32) * 2 ^ 64 + r.token * 2 ^ 128

/-- Whether a record waits to be written and its ring has room. -/
def State.canWriteFault (s : State) (k : Nat) : Bool :=
  match s.cmd.faults[k]? with
  | none => false
  | some r =>
    let c := s.ctx r.ctx
    !r.written && (!ringValid c.fring || (c.fhead - c.ftail).toNat < ringSize c.fring)

/-- One entry, when it waits on the record, becomes a RESUME entry (R359). -/
def Entry.answer (token : Nat) (fail : Bool) (e : Entry) : Entry :=
  if e.st == .parked && e.fault == some token then { e with st := .resume, fault := none, failed := fail } else e

/-- The entries of a wave that wait on the record. -/
def Wave.answer (token : Nat) (fail : Bool) (x : Wave) : Wave :=
  { x with frontier := x.frontier.map (Entry.answer token fail), handlers := x.handlers.map (Entry.answer token fail) }

/-- An item that waits on the record, and the parked lanes of a workgroup that it returns. -/
def Item.answer (token : Nat) (fail : Bool) (x : Item) : Item :=
  let x := { x with saved := x.saved.map fun v => { v with waves := v.waves.map (Wave.answer token fail) } }
  if x.fault == some token then { x with fault := none, failed := fail } else x

/-- A wave stands frozen on a fetch while its workgroup is to be switched out: it waits there (R319, R377). -/
def State.restFrozen (s : State) (w : Nat) : State :=
  match s.wave? w with
  | none => s
  | some x =>
    match s.wg? x.wg with
    | none => s
    | some g =>
      if g.switching && !g.det then
        let s := s.updSeq (seqOfWave w) fun q => { q with active := none, missed := none, body := [] }
        if x.clause.isSome then s.updWave w fun y => { y with stall := some (Stall.none s.tick) } else s
      else s

/-- Sequencers go on whose freeze is over: `stop` gives, for a freeze that ends, the word whose fetch has failed, if any. A wave whose
workgroup is to be switched out stays at its safe point (R377); one whose fetch has failed goes on to its trap. -/
def State.thaw (s : State) (stop : Nat → Freeze → Option (Option Nat)) : State :=
  let ends (p : Nat × Seq) : Option (Option Nat) := p.2.frozen.bind (stop p.1)
  let t : State := { s with seqs := s.seqs.map fun (p : Nat × Seq) =>
    (p.1, match ends p with | some f => { p.2 with frozen := none, fetchFail := f } | none => p.2) }
  (s.seqs.filter fun p => ends p == some none).foldl (fun t p => match p.2.active with
    | some w => t.restFrozen w
    | none => t) t

/-- Every unit that waits on a record is answered: lanes, fetches, items of engines, staging and digests (R359). -/
def State.answerFault (s : State) (ctx token : Nat) (fail : Bool) : State :=
  let s := s.setCmd { s.cmd with faults := s.cmd.faults.filter fun r => !(r.ctx == ctx && r.token == token) }
  let s : State := { s with waves := s.waves.map fun (p : Nat × Wave) => (p.1, p.2.answer token fail) }
  let s := s.thaw fun _ f => match f with
    | .fault t va => if t = token then some (if fail then some va else none) else none
    | _ => none
  let s := s.setTrl { s.trl with items := s.trl.items.map fun (p : Nat × Item) => (p.1, p.2.answer token fail) }
  s.setHost { s.host with launches := s.host.launches.map fun (p : Nat × Launch) =>
    (p.1, if p.2.fault == some token then { p.2 with fault := none, digestFail := fail } else p.2) }

/-- FAULT_RECORD_WRITE (R358): the record is written at SYSTEM scope, then HEAD advances; with a ring that is not valid any
more the fault resolves as FAIL. -/
def execFaultRecordWrite (k : Nat) (s : State) : Host.Outcome State Fault Refusal :=
  if !s.canWriteFault k then .fault .notEnabled
  else
    match s.cmd.faults[k]? with
    | none => .fault .notEnabled
    | some r =>
      let c := s.ctx r.ctx
      if !ringValid c.fring then .next (s.answerFault r.ctx r.token true)
      else
        let s := s.sysPut (ringBase c.fring + 32 * (c.fhead.toNat % ringSize c.fring)) 32 (faultWords r)
        let s := s.setCtx r.ctx { c with fhead := c.fhead + 1 }
        .next (s.setCmd { s.cmd with faults := lset s.cmd.faults k { r with written := true } })

/-- CTX_FRESP (R358): RETRY or FAIL for a record that has been written. -/
def State.respondFault (s : State) (c token : Nat) (fail : Bool) : State :=
  if s.cmd.faults.any fun r => r.ctx == c && r.token == token && r.written then s.answerFault c token fail else s

/-- FAULT_RETRY (R359). A response that names no unresolved token is ignored (R358). -/
def execFaultRetry (ctx token : Nat) (s : State) : Host.Outcome State Fault Refusal :=
  .next (s.respondMgmt (s.respondFault ctx token false) 0)

/-- FAULT_FAIL (R359). -/
def execFaultFail (ctx token : Nat) (s : State) : Host.Outcome State Fault Refusal :=
  .next (s.respondMgmt (s.respondFault ctx token true) 0)

end Sys2Proof.Machine
end

