-- ==== Sys2Proof/Machine/Fetch.lean ====
section
/-! DEFINITION. Choosing waves, starting clauses and fetching words (spec/01 R22 to R29, spec/03 R73 to R77), the yield
restriction (spec/06 R186), and the events of registers and long-latency results. -/

namespace Sys2Proof.Machine

/-! The instruction cache. -/

/-- What a fetch gives: the word; the state in which the sequencer waits for a line or a page; or the trap it raises, with
its cause (R29, R77, R375). -/
inductive Fetched where
  | word (s : State) (w : DWord)
  | wait (s : State)
  | trap (s : State) (cause : Nat)
  deriving Repr

/-- The lines of a cluster's instruction cache: 512 KiB of 128 bytes (R29). -/
def icacheLines : Nat := 4096

/-- Whether a sequencer of a line's cluster has missed in the line and not been served yet. -/
def State.lineWanted (s : State) (a : ILine) : Bool :=
  s.seqs.any fun p => clusterOfCore (p.1 / 4) == a.cluster && p.2.missed.any fun va => va / 128 == a.line

/-- A cluster's cache gives up lines that have arrived: those that the free choice names, and where it is full the oldest (R29: the
replacement policy is not architectural, log 6). A line stays until the sequencers that missed in it are served. -/
def State.evictLines (s : State) (cluster : Nat) (l : List ILine) : List ILine :=
  let l := l.filter fun a => a.cluster != cluster || a.words.isNone || s.lineWanted a || Config.icacheKeeps s.tick a.line
  if (l.filter fun a => a.cluster == cluster).length < icacheLines then l
  else match l.find? fun a => a.cluster == cluster && a.words.isSome with
    | some a => l.filter fun b => b != a
    | none => l

/-- Whether a cache line is a line of a cluster's cache. -/
def ILine.isAt (l : ILine) (cluster ctx line : Nat) : Bool := l.cluster == cluster && l.ctx == ctx && l.line == line

/-- Ask for a line (R29, R74). -/
def State.requestLine (s : State) (cluster ctx line : Nat) : State :=
  if s.mem.icache.any fun l => l.isAt cluster ctx line then s
  else s.setMem { s.mem with icache := s.evictLines cluster s.mem.icache ++ [⟨cluster, ctx, line, none, [], false, false⟩] }

/-- The fetch of a word walks its page (R355): its line keeps that. -/
def State.markWalked (s : State) (cluster ctx line : Nat) : State :=
  s.setMem { s.mem with icache := s.mem.icache.map fun l => if l.isAt cluster ctx line then { l with walked := true } else l }

/-- A fetch misses: it freezes its sequencer, and counts one slip however often it is made again (R29). -/
def State.missFetch (s : State) (q va : Nat) (f : Freeze) : State :=
  s.updSeq q fun y => { y with
    slips := if y.missed = some va then y.slips else y.slips + 1, missed := some va, frozen := some f }

/-- A fetch has been served, or has trapped. -/
def State.endFetch (s : State) (q va : Nat) : State :=
  if (s.seq q).missed = some va then s.updSeq q fun y => { y with missed := none } else s

/-- The line of a cluster's cache that an address lies in. -/
def State.lineAt (s : State) (cluster ctx va : Nat) : Option ILine := s.mem.icache.find? fun l => l.isAt cluster ctx (va / 128)

/-- A line serves a fetch: one of an uncacheable page is gone with it (R349). -/
def State.takeWord (s : State) (q va : Nat) (l : ILine) : State :=
  let s := s.endFetch q va
  if l.once then s.setMem { s.mem with icache := s.mem.icache.filter fun a => !a.isAt l.cluster l.ctx l.line } else s

/-- A line that is present serves a fetch, or its word is uncorrectable (R375); one that is on its way freezes the sequencer (R29). -/
def State.serveFetch (s : State) (q va : Nat) (l : ILine) : Fetched :=
  match l.words with
  | some ws =>
    if l.bad.contains (va / 8 % 16) then .trap (s.endFetch q va) 6
    else .word (s.takeWord q va l) (ws.getD (va / 8 % 16) 0)
  | none => .wait (s.missFetch q va (.line l.ctx l.line))

/-- A fetch by a wave: a line that is present serves it; any other fetch is a miss, which counts one slip and freezes the
sequencer (R29); a page without X is PROTECTION, a page not present freezes the sequencer on the fault path (R77), and a FAIL
response is PAGE_FAULT at the word that was fetched (R359). The first fetch of a line walks its page, which sets A (R355), be the line
there by a prefetch. -/
def State.fetch (s : State) (w ctx va : Nat) : Fetched :=
  let core := coreOfWave w
  let cluster := clusterOfCore core
  let q := seqOfWave w
  let walked := match s.lineAt cluster ctx va with | some l => l.walked | none => false
  let serve (s : State) : Fetched := match s.lineAt cluster ctx va with
    | some l => s.serveFetch q va l
    | none => .wait (((s.requestLine cluster ctx (va / 128)).markWalked cluster ctx (va / 128)).missFetch q va (.line ctx (va / 128)))
  if (s.seq q).fetchFail = some va then
    .trap ((s.updSeq q fun y => { y with fetchFail := none }).endFetch q va) 4
  else if walked then serve s
  else
    match s.resolve core ctx va ⟨false, false, true⟩ with
    | (s, .prot) => .trap (s.endFetch q va) 5
    | (s, .park reason) =>
      match s.faultAt ctx va false true reason core unitFetch (slotOfWave w) s.cmd.pkgId with
      | (s, some t) => .wait (s.missFetch q va (.fault t va))
      | (s, none) => .trap (s.endFetch q va) 4
    | (s, .remote h _) =>
      if !s.routed h then .trap (s.endFetch q va) 4 else serve (s.markWalked cluster ctx (va / 128))
    | (s, .ok _ _) => serve (s.markWalked cluster ctx (va / 128))

/-- The words that a sequencer keeps while others that its instruction needs arrive, so that none is fetched twice: an MDEF and its body
(R29, R189), or a holding instruction whose clause's last word cannot be read (R76, R194). -/
def State.keepBody (s : State) (w : Nat) (l : List DWord) : State :=
  if (s.seq (seqOfWave w)).body == l then s else s.updSeq (seqOfWave w) fun y => { y with body := l }

/-- What arrives for a line: its sixteen words, those with uncorrectable data, and whether its page is uncacheable. -/
structure LineFill where
  words : List DWord
  bad : List Nat
  once : Bool
  deriving DecidableEq, Repr

/-- The sixteen words of a line, as its die's L2 shows them or memory for an uncacheable page (R349), and those with uncorrectable data;
words of another package are free (R77, log 12). -/
def State.lineWords (s : State) (core ctx line : Nat) : Option LineFill :=
  match s.resolve core ctx (line * 128) ⟨false, false, true⟩ with
  | (s, .ok pa u) =>
    some ⟨(List.range 16).map fun k => BitVec.ofNat 64 (s.peekCode core (pa + 8 * k) u),
      (List.range 16).filter fun k => if u then s.sysPoisonedRange (pa + 8 * k) 8 else s.poisonedRange core 3 (pa + 8 * k) 8, u⟩
  | (s, .remote _ _) =>
    some ⟨(List.range 16).map fun k =>
      BitVec.ofNat 64 (leNat ((List.range 8).map fun j => Config.remoteByte s.tick (line * 128 + 8 * k + j))), [], false⟩
  | _ => none

/-- Whether a requested line has not arrived. -/
def State.canArrive (s : State) (cluster ctx line : Nat) : Bool :=
  s.mem.icache.any fun l => l.isAt cluster ctx line && l.words.isNone

/-- ICACHE_LINE_ARRIVAL (R29): the line holds the words that memory holds now, and every sequencer frozen on it goes on. A
line whose page is gone leaves the cache, and the fetch repeats. -/
def execIcacheLineArrival (cluster ctx line : Nat) (s : State) : Host.Outcome State Fault Refusal :=
  if !s.canArrive cluster ctx line then .fault .notEnabled
  else
    let rest := s.mem.icache.filter fun l => !l.isAt cluster ctx line
    let walked := s.mem.icache.any fun l => l.isAt cluster ctx line && l.walked
    let s' : State := match s.lineWords (cluster * 12) ctx line with
      | some a => s.setMem { s.mem with icache := rest ++ [⟨cluster, ctx, line, some a.words, a.bad, walked, a.once⟩] }
      | none => s.setMem { s.mem with icache := rest }
    .next (s'.thaw fun q f => if f == Freeze.line ctx line && clusterOfCore (q / 4) == cluster then some none else none)

/-- Whether code may be prefetched from an address, as a walk without effect says (R74): from executable pages that may be cached. -/
def State.executable (s : State) (ctx va : Nat) : Bool :=
  va < 2 ^ 60 && match s.walk ctx va with
    | .leaf _ e _ => (judge ⟨false, false, true⟩ e).isNone && bitsOf e 8 2 != 1
    | .absent _ => false

/-- The lines that a prefetch hint asks for (R74): from the named header to its clause's end, or the word's own line. A
hint outside executable pages is dropped (R29); the look at the page table leaves no trace. -/
def State.prefetch (s : State) (core ctx pc : Nat) (h : DWord) : State :=
  if hdrHint h = 0 then s
  else
    let va := ((pc : Int) + 8 * hdrHint h).toNat
    let n := match s.headerAt core ctx va with | some k => hdrCount k | none => 0
    (List.range ((va + 8 * n) / 128 - va / 128 + 1)).foldl (fun s k =>
      if s.executable ctx ((va / 128 + k) * 128) then s.requestLine (clusterOfCore core) ctx (va / 128 + k) else s) s

/-! Readiness (R26, R28). -/

/-- The order of an issuable entry (R25); the least goes first. -/
def Entry.order (handler : Bool) (e : Entry) : Nat :=
  let p := if handler then 4095 else min (e.prio.getD 0) 4094
  ((4095 - p) * 2 ^ 61 + e.pc) * 2 ^ 10 +
    (if e.st == .resume then e.index % 16 * 32 + lowestLane e.mask else 2 ^ 9)

/-- The head of the frontier (R25): while the wave runs its handler, the handler's entries only. -/
def Wave.head? (x : Wave) : Option Entry :=
  leastBy (Entry.order x.inTrap) ((x.entries x.inTrap).filter fun e => e.st == .ready || e.st == .resume)

/-- Whether the header lets its entry start or go on (R26). -/
def Wave.passes (x : Wave) (h : DWord) (e : Entry) : Bool :=
  (e.st == .resume || ((List.range 12).all fun n => !bitOf (hdrWait h) n || x.flagClear n)) &&
  ([hdrSetA h, hdrSetB h].all fun n => n ≥ 12 || x.flagCount n ≤ 239)

/-- Whether a stalled wave may issue its instruction again (R237, R333, R393). -/
def State.stallOver (s : State) (w : Nat) (t : Stall) : Bool :=
  (match t.tl with
   | some k => (s.timeline k).issued - (s.timeline k).done < 1024
   | none => true) &&
  (!t.copy || s.copyOps (coreOfWave w) < 1024) &&
  (match t.cls with
   | some c => (s.refusing w (s.classPart c) (s.pathOf (s.classEntry c))).isNone
   | none => true) && t.det.isNone && !t.borrow

/-- Whether a resident workgroup waits for others to be resident with it: those of its cluster-bound group (R20), and those
of a deterministic share that returns (R395). -/
def State.awaits (s : State) (g : Wg) : Bool :=
  let m := match s.launch? g.launch with | some l => if recHasCluster l.record then recMembers l.record else 0 | none => 0
  s.trl.items.any fun p => match p.2.kind, p.2.saved with
    | .workgroup id wgid, _ => !g.task && m != 0 && id == g.launch && wgid / m == g.wgid / m
    | _, some v => v.wg.launch == g.launch &&
        ((!g.task && !v.wg.task && m != 0 && v.wg.wgid / m == g.wgid / m) || (g.det && v.wg.core == g.core))
    | _, none => false

/-- Whether a wave is ready, but for the choice among waves (R28, R186, R319): it continues a clause that it let go of, or
its head passes R26. A head whose header cannot be seen is ready to fetch it. -/
def State.ready (s : State) (w : Nat) : Bool :=
  match s.wave? w with
  | none => false
  | some x =>
    match s.wg? x.wg with
    | none => false
    | some g =>
      x.queued.isNone && x.hold.isNone && x.pause.isNone && !s.allocating w &&
      (match x.stall with | some t => s.stallOver w t | none => true) &&
      (match x.clause with
       | some _ => !(g.switching && !g.det && x.stall.isSome)
       | none =>
         !(g.switching && !g.det) && !s.awaits g &&
         (match (s.noted w g.ctx x).head? with
          | none => false
          | some e =>
            match s.headerAt (coreOfWave w) g.ctx e.pc with
            | some h => x.passes h e
            | none => true))

/-- The waves of a sequencer in the order of R28's search. -/
def State.searchOrder (s : State) (q : Nat) : List Nat :=
  let last := (s.seq q).last
  ((List.range 8).map fun k => 8 * q + (last + 1 + k) % 8).filter fun w => (s.wave? w).isSome

/-- The wave that the sequencer chooses (R28): a yielding wave only where no other is ready (R186). -/
def State.chooseWave (s : State) (q : Nat) : Option Nat :=
  let l := (s.searchOrder q).filter fun w => s.ready w
  match l.find? fun w => match s.wave? w with | some x => x.passing.isEmpty | none => false with
  | some w => some w
  | none => l.head?

/-! Clauses. -/

/-- A wave has issued a clause: waves that let it pass do so no longer (R186). -/
def State.passed (s : State) (w : Nat) : State :=
  if (s.waves.all fun p => p.2.passing.isEmpty) then s
  else { s with waves := s.waves.map fun (p : Nat × Wave) => (p.1, { p.2 with passing := p.2.passing.filter fun v => v != w }) }

/-- Waves that are no longer ready leave the lists of the waves that let them pass (R186). -/
def State.prunePassing (s : State) : State :=
  if (s.waves.all fun p => p.2.passing.isEmpty) then s
  else { s with waves := s.waves.map fun (p : Nat × Wave) => (p.1, { p.2 with passing := p.2.passing.filter fun v => s.ready v }) }

/-- The clause of an entry under a header. -/
def clauseOf (e : Entry) (h : DWord) (handler : Bool) : Clause :=
  { pc := e.pc, cls := hdrClass h, count := hdrCount h, setA := hdrSetA h, setB := hdrSetB h, prio := hdrPrio h,
    index := if e.st == .resume then e.index else 0, lanes := e.mask, handler := handler, mac := e.mac, failed := e.failed,
    addrs := e.addrs }

/-- The clause of an entry whose header has trapped: a RESUME entry keeps the length of the clause that it stands inside. -/
def Entry.stands (e : Entry) (c : Clause) : Clause := if e.st == .resume then { c with count := e.count } else c

/-- An entry leaves the frontier for the sequencer. -/
def State.takeEntry (s : State) (w : Nat) (e : Entry) (c : Clause) : State :=
  s.updWave w fun y => { y.setEntries c.handler ((y.entries c.handler).filter fun a => a != e) with clause := some c }

/-- The trap of a clause's header, or of its fetch, for the entry that a wave has just taken (R76, steps 1 and 2, R77): it stands where it
stood, with its kept addresses and a FAIL response that it has yet to report (R435). DESIGN CHOICE (log 77): R188 does not say what `.skip`
does after it, and the model goes on behind the instruction that the entry stands at (State.returnEntry); where the header could not be
fetched that clause counts as one instruction long. -/
def State.trapHeader (s : State) (w cause : Nat) (addr : DWord) : State :=
  match s.issueOf w with
  | some x => s.takeTrap x ⟨cause, x.cl.pc, 0, addr, x.cl.lanes⟩ x.cl.failed 0
  | none => s

/-- Trap the clause that a wave has just taken, at the index it stands at. -/
def State.trapClause (s : State) (w cause : Nat) (addr : DWord) (m : Option Mask) : State :=
  match s.issueOf w with
  | some x => s.raiseTrap x cause addr (m.getD x.cl.lanes) 0
  | none => s

/-- The addresses kept with a parked entry: that of its lowest lane. -/
def lowestAddr (l : List (Nat × DWord)) : DWord := match leastBy (·.1) l with | some p => p.2 | none => 0

/-- The trap that is due where a clause starts (R201, R375): in a handler one that a handler's instruction made, which is a double
trap there (R374); others wait for the end of the handler (log 34). -/
def Wave.dueAt (x : Wave) (st : EState) (handler : Bool) : Option Due :=
  if st == .ready then x.due.find? fun d => d.handler || !handler else none

/-- Start or continue the clause of a wave's head under its header (R22, R26, R39, R76): the header's checks, the results
it waits on become visible, a FAIL response (R359) or a trap that is due (R201, R316) is raised. What `.skip` does after such a trap is
the model's choice (log 77). -/
def State.startClause (s : State) (w ctx : Nat) (x : Wave) (e : Entry) (h : DWord) : State :=
  let c := clauseOf e h x.inTrap
  if !hdrTagOk h then (s.takeEntry w e (e.stands c)).trapHeader w 1 (BitVec.ofNat 64 e.pc)
  else if h.fld 0 6 != 0 || [hdrSetA h, hdrSetB h].any (fun n => 12 ≤ n && n ≤ 14) then
    (s.takeEntry w e (e.stands c)).trapHeader w 2 (BitVec.ofNat 64 e.pc)
  else if !x.passes h e then s.dropActive w
  else
    let s := (s.prefetch (coreOfWave w) ctx e.pc h).passed w
    let s := s.takeEntry w e c
    let s := if e.st == .resume then s
      else s.showAll w (fun o => o.flags.any fun n => bitOf (hdrWait h) n) x.ll.length
    let due := match s.wave? w with | some y => y.dueAt e.st c.handler | none => none
    if e.failed then s.trapClause w 4 (lowestAddr e.addrs) none
    else
      match due with
      | some d => (s.updWave w fun y => { y with due := y.due.erase d }).trapClause w d.cause d.addr (some d.mask)
      | none => if s.allocating w then s.letWait w else s

/-- The sequencer turns to a wave: it goes on with the wave's clause, or fetches the header of its head (R76, R77; a trap of that fetch is
`trapHeader`'s, log 77). -/
def State.issueClause (s : State) (w : Nat) : State :=
  match s.wave? w with
  | none => s
  | some x =>
    match s.wg? x.wg with
    | none => s
    | some g =>
      let s := s.updSeq (seqOfWave w) fun q => { q with active := some w }
      let y := s.noted w g.ctx x
      match x.clause with
      | some _ => s.updWave w fun y => { y with stall := none }
      | none =>
        match y.head? with
        | none => s.dropActive w
        | some e =>
          match (s.setWave w y).fetch w g.ctx e.pc with
          | .wait s => s
          | .trap s cause =>
            (s.takeEntry w e (e.stands (clauseOf e 0 x.inTrap))).trapHeader w cause (BitVec.ofNat 64 e.pc)
          | .word s h => s.startClause w g.ctx y e h

/-- Whether a core runs a deterministic launch (R389). -/
def State.detCore (s : State) (core : Nat) : Bool := !(s.core core).rota.isEmpty

/-- The wave whose header the sequencer is fetching, or the wave it chooses now. -/
def State.nextWave (s : State) (q : Nat) : Option Nat :=
  match (s.seq q).active with
  | some w => match s.wave? w with
    | some x => if x.clause.isNone then some w else none
    | none => none
  | none => if s.detCore (q / 4) then none else s.chooseWave q

def State.canClauseIssue (s : State) (q : Nat) : Bool :=
  (s.nextWave q).isSome && (s.seq q).frozen.isNone

/-- CLAUSE_ISSUE (R26, R28). -/
def execClauseIssue (q : Nat) (s : State) : Host.Outcome State Fault Refusal :=
  if !s.canClauseIssue q then .fault .notEnabled
  else
    match s.nextWave q with
    | some w => .next (s.issueClause w)
    | none => .fault .notEnabled

/-- Whether the n clocks of a wave's YIELD have passed (R186). -/
def State.pauseOver (s : State) (w : Nat) (x : Wave) : Bool :=
  match x.pause with
  | some t => !(s.coreClock (coreOfWave w) - t).msb
  | none => false

/-- YIELD_RESTRICTION_END (R186): the n clocks of a YIELD have passed. -/
def execYieldRestrictionEnd (w : Nat) (s : State) : Host.Outcome State Fault Refusal :=
  match s.wave? w with
  | some x => if s.pauseOver w x then .next (s.setWave w { x with pause := none }) else .fault .notEnabled
  | none => .fault .notEnabled

/-! Registers and long-latency results. -/

/-- SPILL_WRITE_COMPLETE (R65): the register is SPILLED, its physical register free, and the pool serves on. -/
def execSpillWriteComplete (core : Nat) (file : RegFile) (s : State) : Host.Outcome State Fault Refusal :=
  if ((s.core core).pool file).spill.isNone then .fault .notEnabled else .next (s.endSpill core file)

/-- FILL_COMPLETE (R67): the head event of the pool is served. -/
def execFillComplete (core : Nat) (file : RegFile) (s : State) : Host.Outcome State Fault Refusal :=
  let p := (s.core core).pool file
  if !p.filling then .fault .notEnabled
  else
    let s := s.updCore core fun c => c.setPool file { c.pool file with filling := false, queue := p.queue.drop 1 }
    .next (s.serve core file)

/-- LONG_LATENCY_COMPLETE (R38, R39): operation `k` of a wave completes; one that counts on no flag becomes visible. -/
def execLongLatencyComplete (w k : Nat) (s : State) : Host.Outcome State Fault Refusal :=
  match s.wave? w with
  | none => .fault .notEnabled
  | some x =>
    match x.ll[k]? with
    | none => .fault .notEnabled
    | some o =>
      if o.done || o.op.isSome then .fault .notEnabled
      else if o.flags.isEmpty then .next ((s.showAt w k).arrive w)
      else .next ((s.setWave w { x with ll := lset x.ll k { o with done := true } }).arrive w)

/-- Whether a queued wave may enter its handler: a handler has ended without RETT, or what the wave waited for is over. -/
def State.canTrapEntry (s : State) (w : Nat) : Bool :=
  (s.seq (seqOfWave w)).owner.isNone && s.nextQueued (seqOfWave w) == some w &&
    (match s.wave? w with | some x => !x.readback | none => false)

/-- TRAP_ENTRY (R45, R370): the queued wave enters its handler. -/
def execTrapEntry (w : Nat) (s : State) : Host.Outcome State Fault Refusal :=
  if !s.canTrapEntry w then .fault .notEnabled
  else
    match s.wave? w with
    | some x =>
      match x.queued with
      | some t => .next (s.enterHandler w t)
      | none => .fault .notEnabled
    | none => .fault .notEnabled

end Sys2Proof.Machine
end

