-- ==== Sys2Proof/Machine/Transcend.lean ====
section
/-! DEFINITION. FRCP to FSINCOS (spec/05 R144): the exact function value, held as a fixed-point number with a sticky
fraction, rounded once. Rational and square-root values are exact by integer division; the others are computed to 448
fractional bits, far below the distance of any irrational value of a 24-bit argument from a rounding boundary. -/

namespace Sys2Proof.Machine

/-- Fractional bits of the fixed-point values. -/
def fxBits : Nat := 448
def fxOne : Nat := 2 ^ fxBits

/-- Σ z^(2k+1)/(2k+1) with alternating signs when `alt`, over `n` terms from term `k`; `p` is the running power. -/
def oddSeries (alt : Bool) (zz : Nat) : Nat → Nat → Nat → Int
  | 0, _, _ => 0
  | n + 1, k, p =>
    let t : Int := (p / (2 * k + 1) : Nat)
    (if alt && k % 2 == 1 then -t else t) + oddSeries alt zz n (k + 1) (p * zz / fxOne)

/-- The natural logarithm of 2, as 2 artanh(1/3). -/
def fxLn2 : Nat := 2 * (oddSeries false (fxOne / 9) 150 0 (fxOne / 3)).toNat

/-- Pi by Machin's formula. -/
def fxPi : Nat :=
  (16 * oddSeries true (fxOne / 25) 110 0 (fxOne / 5) - 4 * oddSeries true (fxOne / 57121) 40 0 (fxOne / 239)).toNat

/-- Σ y^k / k! over `n` terms from term `k`, `t` the running term. -/
def expSeries (y : Nat) : Nat → Nat → Nat → Nat
  | 0, _, _ => 0
  | n + 1, k, t => t + expSeries y n (k + 1) (t * y / fxOne / (k + 1))

/-- Alternating series of sine (odd first term) and cosine: `t` is the running term of power `k`. -/
def trigSeries (yy : Nat) : Nat → Nat → Nat → Bool → Int
  | 0, _, _, _ => 0
  | n + 1, k, t, neg =>
    (if neg then -(t : Int) else t) + trigSeries yy n (k + 2) (t * yy / fxOne / ((k + 1) * (k + 2))) (!neg)

/-- Sine and cosine of an angle of at most an eighth turn, given in turns as a fixed-point number. -/
def fxSinCos (turns : Nat) : Nat × Nat :=
  let y := turns * (2 * fxPi) / fxOne
  let yy := y * y / fxOne
  ((trigSeries yy 60 1 y false).toNat, (trigSeries yy 60 0 fxOne false).toNat)

/-- The integer square root by bits from the top: `n` steps. -/
def isqrtGo (x : Nat) : Nat → Nat → Nat
  | 0, r => r
  | n + 1, r =>
    let r' := r + 2 ^ n
    isqrtGo x n (if r' * r' ≤ x then r' else r)

def isqrt (x : Nat) : Nat := isqrtGo x (bitLen x / 2 + 1) 0

/-- The result of a transcendental operation: R141's end for SAT over one rounding. -/
def finishFn (mode : Rnd) (sat neg : Bool) (m : Nat) (e : Int) (st : Bool) : Nat × Sticky :=
  satInf fp32 sat (roundFin fp32 mode false neg m e st)

/-- An infinite result of a special input (R144). -/
def infFn (sat neg : Bool) (s : Sticky) : Nat × Sticky :=
  let y := satInf fp32 sat (signed fp32 neg (fp32.topExp * 2 ^ 23), 0)
  (y.1, y.2 ||| s)

def nanFn (s : Sticky) : Nat × Sticky := (fp32.nanCode, s)

def fRcp (mode : Rnd) (sat : Bool) (a : Nat) : Nat × Sticky :=
  match decodeFloat fp32 a with
  | .nan s => nanFn (stickyIf s .invalid)
  | .inf neg => (signed fp32 neg 0, 0)
  | .fin neg m e =>
    if m = 0 then infFn sat neg .divzero
    else finishFn mode sat neg (2 ^ 96 / m) (-96 - e) (2 ^ 96 % m != 0)

/-- 1/√x of a positive finite value: the square root of the reciprocal. -/
def fRsq (mode : Rnd) (sat : Bool) (a : Nat) : Nat × Sticky :=
  match decodeFloat fp32 a with
  | .nan s => nanFn (stickyIf s .invalid)
  | .inf neg => if neg then nanFn .invalid else (0, 0)
  | .fin neg m e =>
    if m = 0 then infFn sat neg .divzero
    else if neg then nanFn .invalid
    else
      let (m, e) := if e % 2 = 0 then (m, e) else (2 * m, e - 1)
      let r := isqrt (2 ^ 192 / m)
      finishFn mode sat false r (-96 - e / 2) (r * r * m != 2 ^ 192)

def fSqrt (mode : Rnd) (sat : Bool) (a : Nat) : Nat × Sticky :=
  match decodeFloat fp32 a with
  | .nan s => nanFn (stickyIf s .invalid)
  | .inf neg => if neg then nanFn .invalid else infFn sat false 0
  | .fin neg m e =>
    if m = 0 then (signed fp32 neg 0, 0)
    else if neg then nanFn .invalid
    else
      let (m, e) := if e % 2 = 0 then (m, e) else (2 * m, e - 1)
      let x := m * 2 ^ 96
      let r := isqrt x
      finishFn mode sat false r (e / 2 - 48) (r * r != x)

/-- 2^x: the integer part goes to the exponent, the fraction through the exponential series (R144). -/
def fExp2 (mode : Rnd) (sat : Bool) (a : Nat) : Nat × Sticky :=
  match decodeFloat fp32 a with
  | .nan s => nanFn (stickyIf s .invalid)
  | .inf neg => if neg then (0, 0) else infFn sat false 0
  | .fin neg m e =>
    if m = 0 then finishFn mode sat false 1 0 false
    else if 0 ≤ e then
      -- an integer of magnitude at least 1; far outside the range only its sign matters
      let k : Nat := if e > 20 || m * pow2 e > 400 then 400 else m * pow2 e
      finishFn mode sat false 1 (if neg then -(k : Int) else k) false
    else
      let d := pow2 (-e)
      let whole : Nat := m / d
      if whole > 400 then finishFn mode sat false 1 (if neg then -400 else 400) false
      else
        let fr := m % d
        -- x = whole + fr/d, or -(whole + fr/d) = -(whole+1) + (1 - fr/d)
        let n : Int := if neg then (if fr = 0 then -(whole : Int) else -(whole : Int) - 1) else whole
        let f := if neg then (if fr = 0 then 0 else d - fr) else fr
        if f = 0 then finishFn mode sat false 1 n false
        else
          let y := f * fxLn2 / d
          finishFn mode sat false (expSeries y 120 0 fxOne) (n - fxBits) true

/-- log2 x: exponent plus the logarithm of the significand in [1, 2) (R144). -/
def fLog2 (mode : Rnd) (sat : Bool) (a : Nat) : Nat × Sticky :=
  match decodeFloat fp32 a with
  | .nan s => nanFn (stickyIf s .invalid)
  | .inf neg => if neg then nanFn .invalid else infFn sat false 0
  | .fin neg m e =>
    if m = 0 then infFn sat true .divzero
    else if neg then nanFn .invalid
    else
      let l := bitLen m - 1
      let ex : Int := e + l
      let d := 2 ^ l
      if m = d then finishFn mode sat (ex < 0) ex.natAbs 0 false
      else
        let z := (m - d) * fxOne / (m + d)
        let lg := 2 * (oddSeries false (z * z / fxOne) 150 0 z).toNat * fxOne / fxLn2
        let v : Int := ex * fxOne + lg
        finishFn mode sat (v < 0) v.natAbs (-(fxBits : Int)) true

/-- sin(2πx) and cos(2πx): the fraction of a turn is exact, its eighth chooses the series (R144). -/
def fSinCos (cos : Bool) (mode : Rnd) (sat : Bool) (a : Nat) : Nat × Sticky :=
  match decodeFloat fp32 a with
  | .nan s => nanFn (stickyIf s .invalid)
  | .inf _ => nanFn .invalid
  | .fin neg m e =>
    let d := pow2 (-e)
    let fr := m % d
    let zero : Nat × Sticky := (signed fp32 (neg && !cos) 0, 0)
    let one (s : Bool) : Nat × Sticky := finishFn mode sat s 1 0 false
    if 0 ≤ e || fr = 0 then (if cos then one false else zero)
    else
      -- quadrant and the rest within it, as fr/d turns; sine of a negative argument is negated
      let q := 4 * fr / d
      let r := 4 * fr % d
      let useCos := (q % 2 == 1) != cos
      let sgn := if cos then (q == 1 || q == 2) else ((q ≥ 2) != neg)
      if r = 0 then (if useCos then one sgn else zero)
      else
        -- r/d in (0, 1) quarter turns; above one half use the complement
        let big := 2 * r > d
        let t := (if big then d - r else r) * fxOne / (4 * d)
        let sc := fxSinCos t
        let v := if useCos != big then sc.2 else sc.1
        finishFn mode sat sgn v (-(fxBits : Int)) true

end Sys2Proof.Machine
end

