-- ==== Sys2Proof/Machine/Alu.lean ====
section
/-! DEFINITION. What the instructions of opcodes 0x10 to 0x55 compute in one lane (spec/05 R130 to R158): functions from
the three operands, presented in their types, to a register value and the sticky bits. -/

namespace Sys2Proof.Machine

/-- A result of the integer family: saturation or truncation (R131). -/
def intResult (t : Ty) (sat : Bool) (x : Int) : Nat × Sticky :=
  if sat && (x < minOf t || maxOf t < x) then
    (wrInt t (if x < minOf t then minOf t else maxOf t), .saturate)
  else (wrInt t x, 0)

def aluIadd (f : VR) (a b _c : Nat) : Nat × Sticky := intResult f.ty f.sat (rdInt f.ty a + rdInt f.ty b)
def aluIsub (f : VR) (a b _c : Nat) : Nat × Sticky := intResult f.ty f.sat (rdInt f.ty a - rdInt f.ty b)
def aluImul (f : VR) (a b _c : Nat) : Nat × Sticky := intResult f.ty f.sat (rdInt f.ty a * rdInt f.ty b)
def aluImad (f : VR) (a b c : Nat) : Nat × Sticky := intResult f.ty f.sat (rdInt f.ty a * rdInt f.ty b + rdInt f.ty c)
/-- The high half of the product: floor division by 2^W (R131). -/
def aluImulh (f : VR) (a b _c : Nat) : Nat × Sticky :=
  intResult f.ty false (Int.fdiv (rdInt f.ty a * rdInt f.ty b) ((2 ^ tyWidth f.ty : Nat) : Int))
def aluIabs (f : VR) (a _b _c : Nat) : Nat × Sticky := intResult f.ty f.sat ((rdInt f.ty a).natAbs : Int)
def aluIneg (f : VR) (a _b _c : Nat) : Nat × Sticky := intResult f.ty f.sat (-(rdInt f.ty a))
def aluMin (f : VR) (a b _c : Nat) : Nat × Sticky :=
  intResult f.ty false (if rdInt f.ty b < rdInt f.ty a then rdInt f.ty b else rdInt f.ty a)
def aluMax (f : VR) (a b _c : Nat) : Nat × Sticky :=
  intResult f.ty false (if rdInt f.ty a < rdInt f.ty b then rdInt f.ty b else rdInt f.ty a)

/-- IADDC: the sum, or the carry out, of unsigned words with the carry in bit 0 of c (R132). -/
def aluIaddc (f : VR) (a b c : Nat) : Nat × Sticky :=
  let m := 2 ^ tyWidth f.ty
  let s := a % m + b % m + c % 2
  (if f.sub == 0 then s % m else s / m, 0)

/-- ISUBB: the difference, or the borrow out (R132). -/
def aluIsubb (f : VR) (a b c : Nat) : Nat × Sticky :=
  let m := 2 ^ tyWidth f.ty
  (if f.sub == 0 then (a % m + (m - b % m) + (m - c % 2)) % m else bit1 (a % m < b % m + c % 2), 0)

/-- LEA: a + (extend(b) << shift) modulo 2^64 (R133). -/
def aluLea (f : VR) (a b c : Nat) : Nat × Sticky :=
  (wrapInt 64 ((a : Int) + rdInt f.ty b * ((2 ^ (c % 64) : Nat) : Int)), 0)

def aluMov (f : VR) (a _b _c : Nat) : Nat × Sticky := (a % 2 ^ tyWidth f.ty, 0)

/-- The all-ones word of a type's width. -/
def onesOf (t : Ty) : Nat := 2 ^ tyWidth t - 1

def aluAnd (_f : VR) (a b _c : Nat) : Nat × Sticky := (a &&& b, 0)
def aluOr (_f : VR) (a b _c : Nat) : Nat × Sticky := (a ||| b, 0)
def aluXor (_f : VR) (a b _c : Nat) : Nat × Sticky := (a ^^^ b, 0)
def aluAndn (f : VR) (a b _c : Nat) : Nat × Sticky := (a &&& (b ^^^ onesOf f.ty), 0)
def aluNot (f : VR) (a _b _c : Nat) : Nat × Sticky := (a ^^^ onesOf f.ty, 0)

/-- The result whose bit i is `sel` of the three source bits, over `n` bits (R138). -/
def mixBits (tt : Nat) : Nat → Nat → Nat → Nat → Nat
  | 0, _, _, _ => 0
  | n + 1, a, b, c => bitsOf tt (a % 2 + 2 * (b % 2) + 4 * (c % 2)) 1 + 2 * mixBits tt n (a / 2) (b / 2) (c / 2)

def aluBmix (f : VR) (a b c : Nat) : Nat × Sticky := (mixBits f.table (if f.dk == .vec then 32 else 64) a b c, 0)

def aluShl (f : VR) (a b _c : Nat) : Nat × Sticky :=
  (if b % 2 ^ 32 ≥ tyWidth f.ty then 0 else a * 2 ^ (b % 2 ^ 32) % 2 ^ tyWidth f.ty, 0)
def aluShr (f : VR) (a b _c : Nat) : Nat × Sticky :=
  (if b % 2 ^ 32 ≥ tyWidth f.ty then 0 else a % 2 ^ tyWidth f.ty / 2 ^ (b % 2 ^ 32), 0)
/-- SAR: arithmetic for I types, logical for N types, all copies of the top bit from W on (R136). -/
def aluSar (f : VR) (a b _c : Nat) : Nat × Sticky :=
  let n := if b % 2 ^ 32 ≥ tyWidth f.ty then tyWidth f.ty else b % 2 ^ 32
  (wrInt f.ty (Int.fdiv (rdInt f.ty a) ((2 ^ n : Nat) : Int)), 0)
def aluRol (f : VR) (a b _c : Nat) : Nat × Sticky :=
  let w := tyWidth f.ty
  let n := b % w
  let x := a % 2 ^ w
  (x * 2 ^ n % 2 ^ w + x / 2 ^ (w - n) % 2 ^ n, 0)

/-- BFE: n bits of a from offset o, sign-extended for I types (R137). -/
def aluBfe (f : VR) (a b c : Nat) : Nat × Sticky :=
  let w := tyWidth f.ty
  let o := b % 256
  let n := c % 256
  if o ≥ w || n = 0 then (0, 0)
  else
    let n := if n < w - o then n else w - o
    let x := a % 2 ^ w / 2 ^ o % 2 ^ n
    (wrInt f.ty (if tySigned f.ty then signedOf n x else x), 0)

/-- BFI: b placed into a at offset c[7:0] over c[15:8] bits (R137). -/
def aluBfi (f : VR) (a b c : Nat) : Nat × Sticky :=
  let w := tyWidth f.ty
  let o := c % 256
  let n := c / 256 % 256
  if o ≥ w || n = 0 then (a % 2 ^ w, 0)
  else
    let n := if n < w - o then n else w - o
    let m := (2 ^ n - 1) * 2 ^ o
    ((a % 2 ^ w &&& (m ^^^ onesOf f.ty)) ||| (b * 2 ^ o &&& m), 0)

def aluPopc (f : VR) (a _b _c : Nat) : Nat × Sticky := (popCountNat (tyWidth f.ty) a, 0)
def aluClz (f : VR) (a _b _c : Nat) : Nat × Sticky := (tyWidth f.ty - bitLen (a % 2 ^ tyWidth f.ty), 0)

/-- The low `n` bits of a number in reverse order. -/
def revBits : Nat → Nat → Nat
  | 0, _ => 0
  | n + 1, x => x % 2 * 2 ^ n + revBits n (x / 2)

def aluBrev (f : VR) (a _b _c : Nat) : Nat × Sticky := (revBits (tyWidth f.ty) a, 0)

/-- BPERM: four bytes chosen from B:A, or filled with a byte's sign (R139). -/
def aluBperm (_f : VR) (a b c : Nat) : Nat × Sticky :=
  let ab := a % 2 ^ 32 + b % 2 ^ 32 * 2 ^ 32
  let byte (s : Nat) : Nat := if s ≤ 7 then bitsOf ab (8 * s) 8 else if bitOf ab (8 * (s - 8) + 7) then 255 else 0
  (([0, 1, 2, 3].map fun k => byte (bitsOf c (4 * k) 4) * 2 ^ (8 * k)).foldl (· + ·) 0, 0)

def aluFadd (f : VR) (a b c : Nat) : Nat × Sticky := perElem3 f.ty (fun m x y _ => fAdd m f.rnd f.sat x y) a b c
def aluFsub (f : VR) (a b c : Nat) : Nat × Sticky := perElem3 f.ty (fun m x y _ => fSub m f.rnd f.sat x y) a b c
def aluFmul (f : VR) (a b c : Nat) : Nat × Sticky := perElem3 f.ty (fun m x y _ => fMul m f.rnd f.sat x y) a b c
def aluFfma (f : VR) (a b c : Nat) : Nat × Sticky := perElem3 f.ty (fun m x y z => fFma m f.rnd f.sat x y z) a b c
def aluFmin (f : VR) (a b c : Nat) : Nat × Sticky := perElem3 f.ty (fun m x y _ => fMinMax m false (f.sub == 1) x y) a b c
def aluFmax (f : VR) (a b c : Nat) : Nat × Sticky := perElem3 f.ty (fun m x y _ => fMinMax m true (f.sub == 1) x y) a b c
def aluFabs (f : VR) (a b c : Nat) : Nat × Sticky := perElem3 f.ty (fun m x _ _ => (x % m.signBit, 0)) a b c
def aluFneg (f : VR) (a b c : Nat) : Nat × Sticky := perElem3 f.ty (fun m x _ _ => (x ^^^ m.signBit, 0)) a b c
def aluFrnd (f : VR) (a b c : Nat) : Nat × Sticky := perElem3 f.ty (fun m x _ _ => fRnd m f.rnd x) a b c
def aluFrcp (f : VR) (a _b _c : Nat) : Nat × Sticky := fRcp f.rnd f.sat (a % 2 ^ 32)
def aluFrsq (f : VR) (a _b _c : Nat) : Nat × Sticky := fRsq f.rnd f.sat (a % 2 ^ 32)
def aluFsqrt (f : VR) (a _b _c : Nat) : Nat × Sticky := fSqrt f.rnd f.sat (a % 2 ^ 32)
def aluFexp2 (f : VR) (a _b _c : Nat) : Nat × Sticky := fExp2 f.rnd f.sat (a % 2 ^ 32)
def aluFlog2 (f : VR) (a _b _c : Nat) : Nat × Sticky := fLog2 f.rnd f.sat (a % 2 ^ 32)
def aluFsincos (f : VR) (a _b _c : Nat) : Nat × Sticky := fSinCos (f.sub == 1) f.rnd f.sat (a % 2 ^ 32)
def aluFclass (f : VR) (a b c : Nat) : Nat × Sticky := perElem3 f.ty (fun m x _ _ => (fClass m x, 0)) a b c

/-- FDOT2: a0 * b0 + a1 * b1 + c with one rounding to FP32 (R149). -/
def aluFdot2 (f : VR) (a b c : Nat) : Nat × Sticky :=
  match fmtOf f.ty with
  | none => (0, 0)
  | some m =>
    let el (x k : Nat) := decodeFloat m (bitsOf x (16 * k) 16)
    fSumProd fp32 f.rnd f.sat [(el a 0, el b 0), (el a 1, el b 1)] [decodeFloat fp32 (c % 2 ^ 32)]

/-- Element k mod n of a narrow source, the whole low part of any other float (R107, R146). -/
def cvtElem (m : Fmt) (a k : Nat) : Nat :=
  if m == fE4M3 || m == fE5M2 then bitsOf a (8 * (k % 4)) 8
  else if m == fE2M1 then bitsOf a (4 * (k % 8)) 4
  else bitsOf a 0 (1 + m.eb + m.fb)

/-- CVT (R147). -/
def aluCvt (f : VR) (a b _c : Nat) : Nat × Sticky :=
  let s := f.cvtS
  match fmtOf s, fmtOf f.ty with
  | some m, some d => convertFloat d f.rnd f.sat (decodeFloat m (cvtElem m a b))
  | some m, none =>
    let r := floatToInt f.rnd (tySigned f.ty) (tyWidth f.ty) (decodeFloat m (cvtElem m a b))
    (wrInt f.ty (rdInt f.ty r.1), r.2)
  | none, some d => convertFloat d f.rnd f.sat (intNum (rdInt s a))
  | none, none =>
    let r := intToInt f.sat (tySigned f.ty) (tyWidth f.ty) (rdInt s a)
    (wrInt f.ty (rdInt f.ty r.1), r.2)

/-- CVTSR (R148). -/
def aluCvtsr (f : VR) (a b _c : Nat) : Nat × Sticky :=
  match fmtOf f.ty with
  | some d => stochRound d f.sat (b % 2 ^ 32) (decodeFloat fp32 (a % 2 ^ 32))
  | none => (0, 0)

/-- ICMP and NCMP (R155). -/
def aluCmp (f : VR) (a b _c : Nat) : Nat × Sticky :=
  let x := rdInt f.ty a
  let y := rdInt f.ty b
  (bit1 (match f.sub.toNat with | 0 => x == y | 1 => x != y | 2 => decide (x < y) | _ => decide (x ≤ y)), 0)

/-- FCMP (R155): a NaN makes only `.ne` true; `.lt` and `.le` signal on any NaN. -/
def aluFcmp (f : VR) (a b _c : Nat) : Nat × Sticky :=
  match fmtOf f.ty with
  | none => (0, 0)
  | some m =>
    let x := decodeFloat m (bitsOf a 0 (1 + m.eb + m.fb))
    let y := decodeFloat m (bitsOf b 0 (1 + m.eb + m.fb))
    let isNan := isNanNum x || isNanNum y
    let r := match f.sub.toNat with
      | 0 => numEq x y
      | 1 => !numEq x y
      | 2 => numLt x y
      | _ => numLt x y || numEq x y
    (bit1 r, stickyIf (isSigNum x || isSigNum y || (isNan && f.sub.toNat ≥ 2)) .invalid)

end Sys2Proof.Machine
end

