-- ==== Sys2Proof/Machine/Quant.lean ====
section
/-! DEFINITION. Block scales (spec/04 R108 to R110), the Q4E block (R111 to R113), the exact accumulator object (R120 to
R122), and the sum of a tile element (R123). -/

namespace Sys2Proof.Machine

def absNum : Num → Num
  | .nan s => .nan s
  | .inf _ => .inf false
  | .fin _ m e => .fin false m e

/-- The larger of two magnitudes; a NaN makes a NaN (R110, R151, R273). -/
def maxAbs (a b : Num) : Num :=
  if isNanNum a || isNanNum b then .nan false else if numLt (absNum a) (absNum b) then absNum b else absNum a

/-- x / 2^k, exactly. -/
def scaleNum (x : Num) (k : Int) : Num :=
  match x with
  | .fin s m e => .fin s m (e - k)
  | x => x

/-- floor(log2 |x|) of a non-zero finite value. -/
def floorLog2 (m : Nat) (e : Int) : Int := e + bitLen m - 1

def clampInt (x lo hi : Int) : Int := if x < lo then lo else if hi < x then hi else x

/-- The exponent of the top binade of an element format (R110). -/
def emaxElem (f : Fmt) : Int := if f == fE4M3 then 8 else if f == fE5M2 then 15 else 2

/-- BlockScale (R110): the E8M0 code of a block. -/
def blockScale (f : Fmt) (xs : List Num) : Nat :=
  match xs.foldl maxAbs (.fin false 0 0) with
  | .nan _ => 0xFF
  | .inf _ => 0xFF
  | .fin _ m e => if m = 0 then 0 else (clampInt (floorLog2 m e - emaxElem f) (-127) 127 + 127).toNat

/-- QuantiseElement (R110). A signalling NaN sets INVALID under every code, as R105 and R119 say of a conversion that reads one. -/
def quantiseElement (f : Fmt) (code : Nat) (x : Num) : Nat × Sticky :=
  if code = 0xFF then (f.nanCode, stickyIf (isSigNum x) .invalid) else convertFloat f .rne true (scaleNum x ((code : Int) - 127))

/-- An element with its block scale (R109). -/
def scaledElem (f : Fmt) (code bits : Nat) : Num :=
  if code = 0xFF then .nan false else scaleNum (decodeFloat f bits) (127 - (code : Int))

/-- A 4-bit two's complement nibble times a power of two (R111). -/
def nibNum (n : Nat) (k : Int) : Num :=
  let v := signedOf 4 n
  .fin (v < 0) v.natAbs k

/-- Q4EDecode over the byte pairs from byte k, with n escapes met so far (R112). -/
def q4eGo (ext : Nat) (sc : Int) : List Nat → Nat → List Num × Bool
  | [], _ => ([], false)
  | b :: bs, n =>
    let lo := b % 16
    let hi := b / 16 % 16
    let zero : Num := .fin false 0 0
    if lo ≠ 8 && hi ≠ 8 then
      let r := q4eGo ext sc bs n
      (nibNum lo sc :: nibNum hi sc :: r.1, r.2)
    else
      let pay := if lo = 8 then hi else lo
      let r := q4eGo ext sc bs (n + 1)
      let v := if n ≥ 2 then zero
        else scaleNum (decodeFloat fE4M3 (pay * 16 + (if n = 0 then ext % 16 else ext / 16 % 16))) (-sc)
      (if lo = 8 then v :: zero :: r.1 else zero :: v :: r.1, r.2 || n ≥ 2)

/-- Q4EDecode (R112) of ten bytes: 16 values, and whether a third escape stands in the block. -/
def q4eDecode (b : List Nat) : List Num × Bool :=
  let sc := b.getD 8 0
  let r := q4eGo (b.getD 9 0) ((sc : Int) - 127) (b.take 8) 0
  if sc = 0xFF then (r.1.map fun _ => .nan false, r.2) else r

/-- Element indices by decreasing magnitude, ties to the lower index (R113). -/
def insertByMag (xs : List Num) (i : Nat) : List Nat → List Nat
  | [] => [i]
  | j :: js =>
    let a := absNum (xs.getD i (.fin false 0 0))
    let b := absNum (xs.getD j (.fin false 0 0))
    if numLt b a then i :: j :: js else j :: insertByMag xs i js

def orderByMag (xs : List Num) : List Nat := (List.range 16).foldl (fun l i => insertByMag xs i l) []

/-- The scale exponent of Q4EEncode before its clamp (R113): from the third-largest magnitude, else the largest. -/
def q4eExp (a1 a3 : Num) : Int :=
  match a3, a1 with
  | .fin _ m3 e3, .fin _ m1 e1 =>
    if m3 ≠ 0 then
      -- the least e with 7 * 2^e at least a3
      let f := floorLog2 m3 e3
      if numLt (.fin false 7 (f - 2)) (.fin false m3 e3) then f - 1 else f - 2
    else if m1 ≠ 0 then floorLog2 m1 e1 - 8
    else -127
  | _, _ => -127

/-- x / 2^e rounded to an integer, ties to even (R113). -/
def roundInt (x : Num) (e : Int) : Int :=
  match x with
  | .fin s m g => let k := (roundTo .rne s m (g - e) false 0).1; if s then -(k : Int) else k
  | _ => 0

/-- The outliers and the clamped elements of Q4EEncode, in decreasing order of magnitude (R113). -/
def q4eOutliers (q : List Int) : List Nat → List Nat → List Nat → List Nat × List Nat
  | [], out, cl => (out, cl)
  | i :: is, out, cl =>
    if (q.getD i 0).natAbs ≤ 7 then q4eOutliers q is out cl
    else if out.contains (i + 1 - 2 * (i % 2)) then q4eOutliers q is out cl
    else if out.length ≥ 2 then q4eOutliers q is out (i :: cl)
    else q4eOutliers q is (out ++ [i]) cl

/-- Q4EEncode (R113): ten bytes and the sticky bits. In a group with a NaN or an infinity a signalling NaN sets INVALID (R105, R119). -/
def q4eEncode (xs : List Num) : List Nat × Sticky :=
  if xs.any (fun x => isNanNum x || isInfNum x) then ([0, 0, 0, 0, 0, 0, 0, 0, 0xFF, 0], stickyIf (xs.any isSigNum) .invalid)
  else
    let z : Num := .fin false 0 0
    let ord := orderByMag xs
    let a1 := absNum (xs.getD (ord.getD 0 0) z)
    let a3 := absNum (xs.getD (ord.getD 2 0) z)
    let e := clampInt (q4eExp a1 a3) (-127) 127
    let q := (List.range 16).map fun i => roundInt (xs.getD i z) e
    let oc := q4eOutliers q ord [] []
    let out := oc.1
    let q := (List.range 16).map fun i => if oc.2.contains i then clampInt (q.getD i 0) (-7) 7 else q.getD i 0
    let y (i : Nat) : Nat × Sticky := convertFloat fE4M3 .rne true (scaleNum (xs.getD i z) e)
    let byte (k : Nat) : Nat :=
      if out.contains (2 * k) then (y (2 * k)).1 / 16 * 16 + 8
      else if out.contains (2 * k + 1) then 8 * 16 + (y (2 * k + 1)).1 / 16
      else wrapInt 4 (q.getD (2 * k + 1) 0) * 16 + wrapInt 4 (q.getD (2 * k) 0)
    let outs := (List.range 16).filter out.contains
    let ext := match outs with
      | [] => 0
      | [i] => (y i).1 % 16
      | i :: j :: _ => (y i).1 % 16 + (y j).1 % 16 * 16
    let b := (List.range 8).map byte ++ [(e + 127).toNat, ext]
    let dec := (q4eDecode b).1
    let ix := (List.range 16).any fun i => !numEq (dec.getD i z) (xs.getD i z)
    (b, stickyAll (outs.map fun i => (y i).2) ||| stickyIf (oc.2 != []) .saturate ||| stickyIf ix .inexact)

/-- An exact accumulator object: SUM as an unsigned number of 480 bits, and the 32 flag bits (R120). -/
structure XObj where
  sum : Nat
  flags : Nat
  deriving DecidableEq, Repr

def XObj.ofBytes (n : Nat) : XObj := ⟨n % 2 ^ 480, n / 2 ^ 480 % 2 ^ 32⟩
def XObj.toBytes (o : XObj) : Nat := o.sum + o.flags * 2 ^ 480

/-- XAdd (R121). -/
def xAdd (f : Fmt) (o : XObj) (bits : Nat) : XObj :=
  let fl (b : Bool) (k : Nat) (x : Nat) : Nat := if b && !bitOf x k then x + 2 ^ k else x
  let x := decodeFloat f bits
  let negZero := match x with | .fin s m _ => s && m == 0 | _ => false
  let flags := fl (isSigNum x) 1 (fl (isNanNum x) 0 o.flags)
  let flags := fl (x == .inf false) 2 (fl (x == .inf true) 3 flags)
  let flags := fl true 4 (fl (!negZero) 5 flags)
  let sum := match x with
    | .fin s m e =>
      let v : Int := (m * pow2 (e + 149) : Nat)
      wrapInt 480 ((o.sum : Int) + (if s then -v else v))
    | _ => o.sum
  ⟨sum, flags⟩

/-- XRead (R122). -/
def xRead (mode : Rnd) (o : XObj) : Nat × Sticky :=
  let both := bitOf o.flags 2 && bitOf o.flags 3
  if bitOf o.flags 0 || both then (0x7FC00000, stickyIf (bitOf o.flags 1 || both) .invalid)
  else if bitOf o.flags 2 then (0x7F800000, 0)
  else if bitOf o.flags 3 then (0xFF800000, 0)
  else
    let v := signedOf 480 o.sum
    if v = 0 then (if bitOf o.flags 4 && !bitOf o.flags 5 then 0x80000000 else 0, 0)
    else roundFin fp32 mode false (v < 0) v.natAbs (-149) false

/-- One level of the pairwise tree of R123: neighbours added in RNE. -/
def treeLevel : List Nat → List Nat × Sticky
  | a :: b :: rest =>
    let s := fAdd fp32 .rne false a b
    let r := treeLevel rest
    (s.1 :: r.1, s.2 ||| r.2)
  | l => (l, 0)

/-- The tree over a power of two of values, in `n` levels (R123). -/
def treeSum : Nat → List Nat → List Nat × Sticky
  | 0, l => (l, 0)
  | n + 1, l =>
    let s := treeLevel l
    let r := treeSum n s.1
    (r.1, s.2 ||| r.2)

/-- The group sum of 16 products, rounded once (R123). -/
def mmaGroup (a b : List Num) : Nat × Sticky :=
  fSumProd fp32 .rne false (a.zip b) []

/-- The 64-element step of R123 and R269: four groups and their tree. -/
def mmaStep (a b : List Num) : Nat × Sticky :=
  let g (t : Nat) := mmaGroup ((a.drop (16 * t)).take 16) ((b.drop (16 * t)).take 16)
  let gs := [g 0, g 1, g 2, g 3]
  let r := treeSum 2 (gs.map (·.1))
  (r.1.headD 0, stickyAll (gs.map (·.2)) ||| r.2)

/-- MmaElement (R123) from the sums of its 64-element steps: the upper levels of the tree, then the accumulator. -/
def mmaFinish (acc : Nat) (steps : List Nat) : Nat × Sticky :=
  let r := treeSum (if steps.length ≤ 1 then 0 else if steps.length ≤ 2 then 1 else 2) steps
  let y := fAdd fp32 .rne false acc (r.1.headD 0)
  (y.1, r.2 ||| y.2)

end Sys2Proof.Machine
end

