-- ==== Sys2Proof/Machine/VectorOps.lean ====
section
/-! DEFINITION. How a VR-format instruction reads its operands and delivers its result: the vector path and the scalar path
(spec/03 R80, spec/05 R125 to R129), predicate destinations (R31), long-latency results (R37), and the order of its traps
(R53, R33, R44). -/

namespace Sys2Proof.Machine

/-- The 32 or 64 bits of a vector operand in a lane (R107). -/
def State.vecVal (s : State) (x : Issue) (n : Nat) (wide : Bool) (l : Nat) : Nat :=
  let lo := (laneOf (s.vreg x n) l).toNat
  if wide then lo + (laneOf (s.vreg x (n + 1)) l).toNat * 2 ^ 32 else lo

/-- A source in a type as lane `l` sees it: scalar and group sources are broadcast (R34, R80), constants presented (R86). -/
def State.opnd (s : State) (x : Issue) (t : Ty) (a : Src) (l : Nat) : Nat :=
  match a.kind with
  | .vec => s.vecVal x a.num.toNat t.is64 l
  | .scl => if t.is64 then (s.sreg x a.num.toNat).toNat else (s.sreg x a.num.toNat).toNat % 2 ^ 32
  | .grp => if t.is64 then (x.wg.grp.getD a.num.toNat 0).toNat else (x.wg.grp.getD a.num.toNat 0).toNat % 2 ^ 32
  | .con => presentConst a.num.toNat t l

/-- The reads of a register number that may be a trap register, over `n` registers. -/
def Issue.vecReads (x : Issue) (r n : Nat) (m : Mask) (via : List (Nat × Nat)) : List Read :=
  ((List.range n).filter fun k => !x.isTrapReg (r + k)).map fun k => ⟨.vec, r + k, m, m, via⟩

/-- The reads of a source in a type, in some lanes. -/
def Issue.srcReads (x : Issue) (t : Ty) (a : Src) (m : Mask) : List Read :=
  match a.kind with
  | .vec => x.vecReads a.num.toNat (if t.is64 then 2 else 1) m []
  | .scl => [⟨.scl, a.num.toNat, allLanes, m, []⟩]
  | _ => []

/-- The releases of a source in a type whose L bit is set (R48); trap registers are not released. -/
def Issue.srcRels (x : Issue) (t : Ty) (a : Src) (e : Mask) : List Rel :=
  if !a.last then []
  else
    match a.kind with
    | .vec => ((List.range (if t.is64 then 2 else 1)).filter fun k => !x.isTrapReg (a.num.toNat + k)).map fun k =>
        ⟨.vec, a.num.toNat + k, e⟩
    | .scl => [⟨.scl, a.num.toNat, allLanes⟩]
    | _ => []

/-- The type in which a use reads its source, if it reads one. -/
def SrcUse.ty? : SrcUse → Option Ty
  | .as t | .uniform t | .vector t | .noGroup t | .noVec t => some t
  | _ => none

/-- Reads and releases of a source under its use. -/
def Issue.useReads (x : Issue) (u : SrcUse) (a : Src) (m : Mask) : List Read :=
  match u.ty? with | some t => x.srcReads t a m | none => []
def Issue.useRels (x : Issue) (u : SrcUse) (a : Src) (e : Mask) : List Rel :=
  match u.ty? with | some t => x.srcRels t a e | none => []

/-- The value of a source under its use: 0 for one it does not read. -/
def State.useVal (s : State) (x : Issue) (u : SrcUse) (a : Src) (l : Nat) : Nat :=
  match u.ty? with | some t => s.opnd x t a l | none => 0

/-- Every read and every release of a word of the VR format. -/
def Issue.vrReads (x : Issue) (sh : Shape) (f : VR) (m : Mask) : List Read :=
  x.useReads sh.a f.a m ++ x.useReads sh.b f.b m ++ x.useReads sh.c f.c m
def Issue.vrRels (x : Issue) (sh : Shape) (f : VR) (e : Mask) : List Rel :=
  x.useRels sh.a f.a e ++ x.useRels sh.b f.b e ++ x.useRels sh.c f.c e

/-- The renamed registers that a destination writes. -/
def vrDsts (f : VR) (t : Ty) : List (RegFile × Nat) :=
  match f.dk with
  | .vec => if t.is64 then [(.vec, f.dst.toNat), (.vec, f.dst.toNat + 1)] else [(.vec, f.dst.toNat)]
  | .scl => [(.scl, f.dst.toNat)]
  | _ => []

/-- The low and high words of the results of all lanes. -/
def loLanes (res : List (Nat × Sticky)) : Lanes := res.map fun r => BitVec.ofNat 32 r.1
def hiLanes (res : List (Nat × Sticky)) : Lanes := res.map fun r => BitVec.ofNat 32 (r.1 / 2 ^ 32)

/-- The lanes whose result is not 0. -/
def resMask (res : List (Nat × Sticky)) : Mask := maskOf fun l => (res.getD l (0, 0)).1 != 0

/-- The results written to a destination of a type, in lanes `m` (R32, R80, R107). On the scalar path the one result stands
in every lane. -/
def vrPuts (f : VR) (t : Ty) (m : Mask) (res : List (Nat × Sticky)) : List Put :=
  match f.dk with
  | .vec =>
    if t.is64 then [.vec f.dst.toNat m (loLanes res), .vec (f.dst.toNat + 1) m (hiLanes res)]
    else [.vec f.dst.toNat m (loLanes res)]
  | .scl => [.scl f.dst.toNat (extendScalar t (res.getD 0 (0, 0)).1)]
  | .grp => [.grp f.dst.toNat (extendScalar t (res.getD 0 (0, 0)).1)]
  | .pred => [.pred f.dst.toNat m (resMask res)]

/-- The same results as a long-latency operation's (R37). -/
def Issue.llOf (x : Issue) (f : VR) (t : Ty) (m : Mask) (res : List (Nat × Sticky)) (st : Sticky) : LLOp :=
  let o := LLOp.of ((vrPuts f t m res).filterMap fun p =>
    match p with
    | .vec n m v => some ⟨.vec, x.llReg n, v, m⟩
    | .scl n v => some ⟨.scl, n, scalarLanes v, allLanes⟩
    | _ => none)
  { o with sticky := st, grp := if f.dk == .grp then some (f.dst.toNat, extendScalar t (res.getD 0 (0, 0)).1) else none }

/-- Deliver the results of a VR-format instruction. `m` names the lanes written, `res` the result of every lane. In this
order: waits and uncorrectable lanes, RELEASED_READ (R53), GROUP_WRITER (R33), an enabled ARITH condition (R44), else
retirement. `ll` makes the result long-latency. -/
def State.vrDeliver (s : State) (x : Issue) (e : Mask) (f : VR) (t : Ty) (reads : List Read) (rels : List Rel)
    (m : Mask) (res : List (Nat × Sticky)) (ll : Bool) : State :=
  match s.gate x reads (vrDsts f t) with
  | .stop s => s
  | .go rel st =>
    let own := stickyAll (res.map (·.2))
    let scalar := f.dk == .scl || f.dk == .grp
    let arith := maskOf fun l => arithEnabled x.wave.trapen (res.getD l (0, 0)).2
    if rel != 0 then s.raiseTrap x 8 0 rel (st ||| own)
    else if f.dk == .grp && x.groupTaken f.dst.toNat then s.raiseTrap x 7 0 e 0
    else if arithEnabled x.wave.trapen own && !x.cl.handler then
      s.raiseTrap x 0x0B 0 (if scalar then e else arith) (st ||| own)
    else if ll then
      let s := if f.dk == .grp then s.updWg x.wave.wg fun g => { g with claims := lsetD none g.claims f.dst.toNat (some x.wave.waveId) }
        else s
      s.finish x reads rels [.later (x.llOf f t m res own)] st
    else s.finish x reads rels (vrPuts f t m res) (st ||| own)

/-- The results of all lanes: those of `m` computed, the others empty. On the scalar path (R127) the function runs once. -/
def laneResults (f : VR) (m : Mask) (fn : Nat → Nat × Sticky) : List (Nat × Sticky) :=
  if f.dk == .scl || f.dk == .grp then [fn 0] else laneIds.map fun l => if m.getLsbD l then fn l else (0, 0)

/-- What a VR-format instruction does: the type of its destination, what it reads and releases, the lanes it writes, and the
result of every lane. -/
structure Plan where
  ty : Ty
  reads : List Read
  rels : List Rel
  lanes : Mask
  res : List (Nat × Sticky)
  deriving DecidableEq, Repr

/-- A VR-format instruction in issue, by its plan. -/
def State.vr (s : State) (i : Instr) (f : VR) (ll : Bool) (plan : State → Issue → Mask → Plan) :
    Host.Outcome State Fault Refusal :=
  s.run i f.g fun x e =>
    let p := plan s x e
    s.vrDeliver x e f p.ty p.reads p.rels p.lanes p.res ll

/-- The plan of an instruction that computes each lane from its own operands (R127). -/
def planAlu (sh : Shape) (f : VR) (fn : Nat → Nat → Nat → Nat × Sticky) (s : State) (x : Issue) (e : Mask) : Plan :=
  ⟨sh.dst, x.vrReads sh f e, x.vrRels sh f e, e,
    laneResults f e fun l => fn (s.useVal x sh.a f.a l) (s.useVal x sh.b f.b l) (s.useVal x sh.c f.c l)⟩

/-- The shape of a VR-format instruction. -/
def vrShape (i : Instr) : Shape := (shapeOf i).getD ⟨.unused, .unused, .unused, .n32, [], false, false, [], [], false, false⟩

/-- An instruction that computes each lane from its own operands, in issue. -/
def State.alu (s : State) (i : Instr) (f : VR) (fn : Nat → Nat → Nat → Nat × Sticky) (ll : Bool) :
    Host.Outcome State Fault Refusal :=
  s.vr i f ll (planAlu (vrShape i) f fn)

end Sys2Proof.Machine
end

