-- ==== Sys2Proof/Machine/Lanes.lean ====
section
/-! DEFINITION. Accesses of the M format (spec/03 R83, spec/07 R193 to R201): lane addresses, the three address spaces, the
checks of R197 and parking, acquire and release (spec/09 R280, R281), and accesses to another package (R362, R415). -/

namespace Sys2Proof.Machine

/-! Addresses. -/

/-- The base in a lane (R83): a vector names a pair where the address is 64 bits wide, else one register. -/
def State.baseVal (s : State) (x : Issue) (wide : Bool) (a : Src) (l : Nat) : DWord :=
  match a.kind with
  | .vec => BitVec.ofNat 64 (s.vecVal x a.num.toNat wide l)
  | _ => BitVec.ofNat 64 (s.opnd x .n64 a l)

/-- The index in a lane: a vector index is a signed word (R83). -/
def State.indexVal (s : State) (x : Issue) (a : Src) (l : Nat) : Int :=
  match a.kind with
  | .vec => signedOf 32 (s.vecVal x a.num.toNat false l)
  | _ => (s.opnd x .n64 a l : Nat)

/-- Whether the base of an instruction is 64 bits wide (R192). -/
def wideBase (i : Instr) : Bool :=
  match mShapeOf i with
  | some (sh, _) => sh.base == .any64
  | none => false

/-- The address of a lane (R83, R195). -/
def State.addrOf (s : State) (x : Issue) (i : Instr) (f : M) (l : Nat) : DWord :=
  mSum i f (s.baseVal x (wideBase i) f.base l) (s.indexVal x f.index l)

/-- The reads of base and index. -/
def Issue.addrReads (x : Issue) (i : Instr) (f : M) (e : Mask) : List Read :=
  (match f.base.kind with
   | .vec => x.vecReads f.base.num.toNat (if wideBase i then 2 else 1) e []
   | .scl => [⟨.scl, f.base.num.toNat, allLanes, e, []⟩]
   | _ => []) ++
  (match f.index.kind with
   | .vec => x.vecReads f.index.num.toNat 1 e []
   | .scl => [⟨.scl, f.index.num.toNat, allLanes, e, []⟩]
   | _ => [])

/-- The releases of base and index in the lanes that retire (R48). DESIGN CHOICE (log 36): while other lanes are parked a scalar register stays;
`State.laneRels` leaves its release to the lanes that retire last. -/
def Issue.addrRels (x : Issue) (i : Instr) (f : M) (m : Mask) : List Rel :=
  ((x.addrReads i f m).filter fun r =>
      (f.base.last && r.file == (if f.base.kind == .vec then .vec else .scl) && covers f.base r.reg) ||
      (f.index.last && r.file == (if f.index.kind == .vec then .vec else .scl) && covers f.index r.reg)).map fun r =>
    ⟨r.file, r.reg, r.lanes⟩
where
  /-- the field names the register, or the first of its pair -/
  covers (a : Src) (n : Nat) : Bool :=
    (a.kind == .vec || a.kind == .scl) && (a.num.toNat == n || (a.kind == .vec && wideBase i && a == f.base && a.num.toNat + 1 == n))

/-- Each lane with its address. -/
def State.laneAddrs (s : State) (x : Issue) (i : Instr) (f : M) (m : Mask) : List (Nat × DWord) :=
  (lanesIn m).map fun l => (l, s.addrOf x i f l)

/-! Spaces. -/

/-- The space of an access (R195, R196). -/
inductive Space where
  | global | spad | remote
  deriving DecidableEq, Repr

/-- Where a lane's access lands: physical memory, another package, or a scratchpad array at an offset. -/
inductive Loc where
  | mem (pa : Nat) (uncached : Bool)
  | far (home va : Nat)
  | spad (core off : Nat)
  deriving DecidableEq, Repr

/-- What the checks of R197 say of one lane. -/
inductive Reach where
  | lands (loc : Loc)
  | prot
  | park (reason : Nat)
  deriving DecidableEq, Repr

/-- Bytes of a workgroup's scratchpad that an access of `n` bytes at an offset reaches (R195). -/
def Wg.spadReach (g : Wg) (off n : Nat) : Reach :=
  if off + n > g.spadSize then .prot else .lands (.spad g.core (g.spadBase + off))

/-- The member of the cluster-bound group that a remote scratchpad address names (R196). -/
def State.remoteReach (s : State) (u : Nat) (g : Wg) (a : DWord) (n : Nat) : Reach :=
  if a.fld 32 32 != 0 then .prot
  else
    match (s.groupOf u g).find? fun p => p.2.member == a.fld 23 9 with
    | some p => p.2.spadReach (a.fld 0 23) n
    | none => .prot

/-- The checks of one lane after alignment. -/
def State.reach (s : State) (x : Issue) (sp : Space) (need : Need) (n : Nat) (a : DWord) : State × Reach :=
  match sp with
  | .spad => (s, x.wg.spadReach a.toNat n)
  | .remote => (s, s.remoteReach x.wave.wg x.wg a n)
  | .global =>
    match s.resolve x.core x.wg.ctx a.toNat need with
    | (s, .ok pa u) => (s, .lands (.mem pa u))
    | (s, .prot) => (s, .prot)
    | (s, .park r) => (s, .park r)
    | (s, .remote h va) => (s, if s.routed h then .lands (.far h va) else .park reasonUnrouted)

/-- Every lane's check, in ascending lane order. -/
def State.reachAll (s : State) (x : Issue) (sp : Space) (need : Need) (n : Nat) :
    List (Nat × DWord) → State × List (Nat × DWord × Reach)
  | [] => (s, [])
  | p :: l =>
    let r := s.reach x sp need n p.2
    let t := r.1.reachAll x sp need n l
    (t.1, (p.1, p.2, r.2) :: t.2)

/-! Reading and writing a location. -/

/-- The scope at which a location is accessed: uncacheable pages at SYSTEM scope (R349). -/
def Loc.scope (c : Loc) (scope : Nat) : Nat := match c with | .mem _ true => 5 | _ => scope

/-- The low `n` bytes of a number as bytes. -/
def bytesOf (n v : Nat) : List Byte := leBytes n v

/-- The `n` bytes that another package answers, which are free (log 12). -/
def State.farNat (s : State) (va n : Nat) : Nat := leNat ((List.range n).map fun k => Config.remoteByte s.tick (va + k))

/-- `n` bytes of a location at a scope. -/
def State.readLoc (s : State) (x : Issue) (scope : Nat) (c : Loc) (n : Nat) : State × Nat :=
  match c with
  | .mem pa _ => s.loadNat x.core (c.scope scope) pa n
  | .spad core off => (s, cellsNat (s.core core).spad off n)
  | .far home va => (s.send (.request home va n [] none), s.farNat va n)

/-- Whether an agent of a core finds uncorrectable data at a location of `n` bytes that it reads at a scope, once narrower copies are
performed. -/
def State.badLoc (s : State) (core scope : Nat) (c : Loc) (n : Nat) : Bool :=
  match c with
  | .mem pa _ => s.poisonedRange core (c.scope scope) pa n
  | .far _ va => Config.remotePoisons s.tick va
  | .spad _ _ => false

/-- Store the low `n` bytes of a number at a location. -/
def State.writeLoc (s : State) (x : Issue) (scope : Nat) (va : DWord) (c : Loc) (n v : Nat) : State :=
  match c with
  | .mem pa _ => s.storeNat x.who (c.scope scope) va.toNat pa n v
  | .spad core off => s.updCore core fun k => { k with spad := cellsPut k.spad off n v }
  | .far home va => s.send (.request home va n (bytesOf n v) none)

/-! Release and acquire. -/

/-- The number of a word of another package in the table of releases. -/
def farWord (home va : Nat) : Nat := 2 ^ 60 * (home + 1) + va / 8

/-- The keys of the 8-byte words of a location in the table of releases. -/
def Loc.words (c : Loc) (n : Nat) : List Nat :=
  let span (a : Nat) : List Nat := (List.range ((a + n - 1) / 8 + 1 - a / 8)).map fun k => a / 8 + k
  match c with
  | .mem pa _ => span pa
  | .spad core off => (span off).map fun k => spadWord core (8 * k)
  | .far home va => (span va).map fun k => farWord home (8 * k)

/-- The copy that an access at a scope by an agent of a core writes. -/
def holderAt (scope core : Nat) : Holder := if scope ≤ 1 then .l1 core else if scope ≤ 3 then .l2 (dieOfCore core) else .mem

/-- The copy of a location that an access at a scope writes; a scratchpad array is its only copy, and another package's memory the only
one that this package knows of. -/
def Loc.holder (c : Loc) (scope core : Nat) : Holder :=
  match c with
  | .spad _ _ | .far _ _ => .mem
  | _ => holderAt (c.scope scope) core

/-- Record a release beside the copy of some words that it was written to (R281). -/
def State.recordAt (s : State) (r : Release) (h : Holder) (words : List Nat) : State :=
  let rest := s.mem.releases.filter fun k => !(k.holder == h && words.contains k.word)
  s.setMem { s.mem with releases := rest ++ words.map fun k => ⟨k, h, r⟩ }

/-- Record a release of an agent of a core, written at a scope, at `n` bytes of each location. -/
def State.recordRelease (s : State) (r : Release) (scope core : Nat) (l : List Loc) (n : Nat) : State :=
  l.foldl (fun s c => s.recordAt r (c.holder scope core) (c.words n)) s

/-- The record that goes with the value which a core sees of a word at a scope: the first of its L1, its die's L2 and memory that holds
one, since a later write that is no release keeps the record (R281). -/
def State.relAt (s : State) (core scope word : Nat) : Option Release :=
  let at' (h : Holder) : Option Release := (s.mem.releases.find? fun r => r.word == word && r.holder == h).map (·.rel)
  let l1 := if scope ≤ 1 then at' (.l1 core) else none
  let l2 := if scope ≤ 3 then at' (.l2 (dieOfCore core)) else none
  match l1, l2 with
  | some r, _ => some r
  | none, some r => some r
  | none, none => at' .mem

/-- Whether a scope's instance around agent `a` contains agent `b`; agents are given as releases. -/
def scopeContains (scope : Nat) (a b : Release) : Bool :=
  match scope with
  | 0 => a.wave == b.wave && a.wg == b.wg
  | 1 => a.wg == b.wg
  | n => samePlace n a.place b.place

/-- The wave keys by which an engine, another package, the host and the command die release: no wave has them (R281). -/
def engineKey : Nat := 32 * 192
def remoteKey : Nat := 32 * 192 + 1
def hostKey : Nat := 32 * 192 + 2
def commandKey : Nat := 32 * 192 + 3

/-- The wave in issue as a releaser or acquirer at a scope. -/
def State.agent (s : State) (x : Issue) (scope : Nat) : Release := ⟨scope, x.w, x.wave.wg, s.placeOf x.core⟩

/-- What an acquire at a scope of `n` bytes of some locations, read at the scope `at'`, sets: SCOPEMIS for a recorded release that does
not pair with it by scope (R281). The releases of another package's agents to its own words are not known here (log 12). -/
def State.acquire (s : State) (x : Issue) (scope at' : Nat) (l : List Loc) (n : Nat) : Sticky :=
  let me := s.agent x scope
  let mis (at' word : Nat) : Bool := match s.relAt x.core at' word with
    | some r => !(scopeContains r.scope r me && scopeContains scope me r)
    | none => false
  stickyIf (l.any fun c => match c with
    | .mem _ _ => (c.words n).any (mis (c.scope at'))
    | .spad _ _ => (c.words n).any (mis 5)
    | .far _ va => (c.words n).any (mis 5) || Config.remoteMis s.tick va) .scopemis

/-- Whether an object's bound ranges cover a byte, or another one of its granule, since no store of 16 bytes is performed in parts
(R199); an object with no ranges covers every address (R222). -/
def State.covered (s : State) (ctx obj : Nat) (n : NarrowByte) : Bool :=
  let l := s.mem.binds.filter fun b => b.ctx == ctx && b.obj == obj
  let granule := n.va / 16 * 16
  l.isEmpty || (n.ctx == ctx && l.any fun b => b.start < granule + 16 && granule < b.start + b.len)

/-! The access of an instruction. -/

/-- A lane that performs: its number, address and location. -/
structure LaneLoc where
  lane : Nat
  addr : DWord
  loc : Loc
  deriving DecidableEq, Repr

/-- Whether a lane lands in another package. -/
def LaneLoc.isFar (p : LaneLoc) : Bool := match p.loc with | .far _ _ => true | _ => false

/-- A checked lane that performs, and one that parks with its reason. -/
def landed? (p : Nat × DWord × Reach) : Option LaneLoc := match p.2.2 with | .lands loc => some ⟨p.1, p.2.1, loc⟩ | _ => none
def parked? (p : Nat × DWord × Reach) : Option (Nat × DWord × Nat) :=
  match p.2.2 with | .park why => some (p.1, p.2.1, why) | _ => none

/-- The mask of lanes that perform. -/
def lanesOf (l : List LaneLoc) : Mask := maskOf fun k => l.any fun p => p.lane == k

/-- What an access needs: the space, permissions, bytes and alignment, whether a trap or parking takes every lane of EXEC
with it (R204), and the registers that the instruction reads and writes. -/
structure Access where
  space : Space
  need : Need
  bytes : Nat
  align : Nat
  single : Bool
  reads : List Read
  dsts : List (RegFile × Nat)
  deriving DecidableEq, Repr

/-- Parked lanes grouped by the record they wait on, each group parked (R197). -/
def State.parkAll (s : State) (x : Issue) (write single : Bool) (e : Mask) (l : List (Nat × DWord × Nat)) : State :=
  let r := l.foldl (fun (a : State × List (Option Nat × Nat × Nat × DWord)) p =>
    let t := if p.2.2 = reasonUnrouted then (a.1, none)
      else a.1.faultAt x.wg.ctx p.2.1.toNat write false p.2.2 x.core unitWave (slotOfWave x.w) a.1.cmd.pkgId
    (t.1, a.2 ++ [(t.2, if t.2.isSome then 0 else p.2.1.toNat / 4096, p.1, p.2.1)])) (s, [])
  let groups := (r.2.map fun p => (p.1, p.2.1)).eraseDups
  groups.foldl (fun s g =>
    let mine := r.2.filter fun p => (p.1, p.2.1) == g
    let m := if single then e else maskOf fun k => mine.any fun p => p.2.2.1 == k
    s.parkLanes x m g.1 (mine.map fun p => p.2.2)) r.1

/-- What becomes of an instruction's accesses to another package (R362): they go through, fail that package's protection
check, wait to be re-sent, or park. -/
inductive FarGate where
  | go (s : State)
  | deny (s : State)
  | wait (s : State)
  | park (s : State)
  deriving Repr

/-- Another package refuses, denies or performs the accesses of an instruction (R355, R362, log 12). -/
def State.farGate (s : State) (x : Issue) : FarGate :=
  let q := seqOfWave x.w
  let y := s.seq q
  let judged (s : State) : FarGate := if Config.remoteDenies s.tick then .deny s else .go s
  if y.resend then judged (s.setSeq q { y with resend := false })
  else if y.refused.isSome then .park (s.setSeq q { y with refused := none })
  else if Config.remoteRefuses s.tick then .wait (s.setSeq q { y with refused := some 1 })
  else judged s

/-- The same for an access of one location; one that stays in the package goes through. -/
def State.farOne (s : State) (x : Issue) (c : Loc) : FarGate :=
  match c with
  | .far _ _ => s.farGate x
  | _ => .go s

/-- Whether other lanes of the instruction wait for a response or to resume, so that the scalar registers that it releases are still
to be read (log 36). -/
def Issue.lanesWait (x : Issue) (y : Wave) : Bool :=
  (y.entries x.cl.handler).any fun e => (e.st == .parked || e.st == .resume) && e.pc == x.cl.pc && e.index == x.cl.index && e.mac == x.cl.mac

/-- The releases of an instruction of which some lanes may have parked: a scalar register is released by the lanes that retire
last (R48, log 36). -/
def State.laneRels (s : State) (x : Issue) (rels : List Rel) : List Rel :=
  match s.wave? x.w with
  | some y => if x.lanesWait y then rels.filter fun r => r.file == .vec else rels
  | none => rels

/-- The instruction retires in the lanes that performed and goes on; where every lane of the clause has parked, nothing
retires and the sequencer is free. -/
def State.finishLanes (s : State) (x : Issue) (uses : List Read) (rels : List Rel) (puts : List Put) (st : Sticky) : State :=
  match s.issueOf x.w with
  | some y => if y.cl.lanes = 0 then s.endIfEmpty x.w else s.finish x uses rels puts st
  | none => s

/-- What performing an access gives: the state after it with status bits and results, or a precise trap of the instruction as
if it had performed nothing. -/
inductive Perf where
  | done (s : State) (st : Sticky) (puts : List Put)
  | trap (cause : Nat) (addr : DWord) (mask : Mask)
  deriving Repr

/-- An access by lanes (R197): reads, MISALIGN, PROTECTION, then `perform` in the lanes whose page is present, and parking of
the others. `rels` gives the releases in the lanes that retire. A lane that parks reads its registers when it resumes: RELREAD is set for the
lanes that retire (R53). -/
def State.access (s : State) (x : Issue) (e : Mask) (c : Access) (addrs : List (Nat × DWord)) (rels : Mask → List Rel)
    (perform : State → List LaneLoc → Perf) : State :=
  s.gated x c.reads c.dsts fun _ =>
    let mis := addrs.filter fun p => p.2.toNat % c.align != 0
    let trap (cause : Nat) (l : List (Nat × DWord)) : State :=
      s.raiseTrap x cause (lowest l) (if c.single then e else maskOf fun k => l.any fun p => p.1 == k) 0
    if !mis.isEmpty then trap 3 mis
    else
      let r := s.reachAll x c.space c.need c.bytes addrs
      let prot := r.2.filter fun p => p.2.2 == .prot
      if !prot.isEmpty then trap 5 (prot.map fun p => (p.1, p.2.1))
      else
        let here := r.2.filterMap landed?
        let wait := r.2.filterMap parked?
        let go (t : State) (here : List LaneLoc) (wait : List (Nat × DWord × Nat)) : State :=
          match if here.isEmpty then Perf.done t 0 [] else perform t here with
          | .trap cause addr mask => s.raiseTrap x cause addr mask 0
          | .done t own puts =>
            let t := t.parkAll x c.need.w c.single e wait
            let m := if here.isEmpty then 0 else if c.single then e else lanesOf here
            t.finishLanes x c.reads (if m = 0 then [] else t.laneRels x (rels m)) puts (relreadOf x c.reads m ||| own)
        if here.any LaneLoc.isFar then
          match r.1.farGate x with
          | .go t => go t here wait
          | .deny t =>
            let far := (here.filter LaneLoc.isFar).map fun p => (p.lane, p.addr)
            t.raiseTrap x 5 (lowest far) (if c.single then e else maskOf fun k => far.any fun p => p.1 == k) 0
          | .wait _ => s.setSeq (seqOfWave x.w) { s.seq (seqOfWave x.w) with refused := some 1 }
          | .park t => go t (here.filter fun p => !p.isFar) (wait ++ (here.filter LaneLoc.isFar).map fun p => (p.lane, p.addr, 4))
        else go r.1 here wait
where
  /-- the address of the lowest lane -/
  lowest (l : List (Nat × DWord)) : DWord := match leastBy (·.1) l with | some p => p.2 | none => 0

/-- REMOTE_ACCESS_RESEND (R362): the access goes through, or is refused again; after the 64th refusal it goes to the fault
path. -/
def execRemoteAccessResend (q : Nat) (s : State) : Host.Outcome State Fault Refusal :=
  match (s.seq q).refused with
  | none => .fault .notEnabled
  | some n =>
    if n ≥ 64 then .fault .notEnabled
    else if Config.remoteRefuses s.tick then .next (s.setSeq q { s.seq q with refused := some (n + 1) })
    else .next (s.setSeq q { s.seq q with refused := none, resend := true })

end Sys2Proof.Machine
end

