-- ==== Sys2Proof/Machine/Loads.lean ====
section
/-! DEFINITION. The loads (spec/07 R202 to R205). A load reads memory when it issues; its result waits as a long-latency
result (spec/01 R37 to R40, log 5). -/

namespace Sys2Proof.Machine

/-- The register value of a loaded number under a width code (R82): the narrow signed widths are sign-extended. -/
def widthValue (w bits v : Nat) : Nat :=
  match w with
  | 1 => wrapInt bits (signedOf 8 v)
  | 3 => wrapInt bits (signedOf 16 v)
  | _ => v

/-- The register writes of per-lane values into `k` vector registers from `n` on. -/
def Issue.laneWrites (x : Issue) (n k : Nat) (m : Mask) (vals : List (Nat × Nat)) : List LLWrite :=
  (List.range k).map fun j =>
    { file := .vec, reg := x.llReg (n + j), mask := m,
      lanes := mkLanes fun l => match vals.find? fun p => p.1 == l with
        | some p => BitVec.ofNat 32 (p.2 / 2 ^ (32 * j))
        | none => 0 }

/-- What is read at every lane's location, lowest lane first: the value and whether it is uncorrectable. -/
def State.readLanes (s : State) (x : Issue) (scope n : Nat) : List LaneLoc → State × List (LaneLoc × Nat × Bool)
  | [] => (s, [])
  | p :: l =>
    let r := s.readLoc x scope p.loc n
    let t := r.1.readLanes x scope n l
    (t.1, (p, r.2, r.1.badLoc x.core scope p.loc n) :: t.2)

/-- A long-latency operation with uncorrectable lanes and the address of the lowest one (R201). -/
def LLOp.withBad (o : LLOp) (l : List (LaneLoc × Nat × Bool)) : LLOp :=
  let bad := l.filter fun p => p.2.2
  { o with poison := lanesOf (bad.map (·.1)), addr := match leastBy (fun p => p.1.lane) bad with | some p => p.1.addr | none => 0 }

/-- The vector registers of a data group. -/
def dataRegs (n k : Nat) : List (RegFile × Nat) := (List.range k).map fun j => (RegFile.vec, n + j)

/-- The acquire of an instruction with order 1 or 3 over the words of its lanes, read at the scope `at'` (R201, R280). -/
def State.acquireLanes (s : State) (x : Issue) (f : M) (at' n : Nat) (l : List LaneLoc) : Sticky :=
  if f.order.toNat % 2 = 1 then s.acquire x f.scope.toNat at' (l.map (·.loc)) n else 0

/-- A load into vector registers (R203), given the address of each lane. -/
def State.loadLanes (s : State) (x : Issue) (e : Mask) (i : Instr) (f : M) (sp : Space) (addrs : List (Nat × DWord)) : State :=
  let w := f.width.toNat
  let n := widthBytes w
  let k := widthRegs w
  s.access x e ⟨sp, ⟨true, false, false⟩, n, n, false, x.addrReads i f e, dataRegs f.data.toNat k⟩ addrs
    (x.addrRels i f)
    fun s l =>
      let r := s.readLanes x f.scope.toNat n l
      let o := LLOp.of (x.laneWrites f.data.toNat k (lanesOf l) (r.2.map fun p => (p.1.lane, widthValue w 32 p.2.1)))
      .done r.1 0 [.later { o.withBad r.2 with sticky := r.1.acquireLanes x f f.scope.toNat n l }]

/-- The addresses of consecutive elements by rank in EXEC (R203, R206). A resumed lane keeps its address (R435). -/
def State.rankAddrs (s : State) (x : Issue) (i : Instr) (f : M) (e : Mask) : List (Nat × DWord) :=
  (lanesIn e).map fun l =>
    match x.cl.addrs.find? fun p => p.1 == l with
    | some p => p
    | none =>
      (l, s.addrOf x i f l + BitVec.ofNat 64 (widthBytes f.width.toNat * ((lanesIn e).filter fun k => k < l).length))

/-- The addresses of consecutive elements by lane number (R203, R206). -/
def State.strideAddrs (s : State) (x : Issue) (i : Instr) (f : M) (e : Mask) : List (Nat × DWord) :=
  (lanesIn e).map fun l => (l, s.addrOf x i f l + BitVec.ofNat 64 (widthBytes f.width.toNat * l))

/-- LDG (R203). -/
def execLdg (f : M) (s : State) : Host.Outcome State Fault Refusal :=
  s.run (.ldg f) f.g fun x e => s.loadLanes x e (.ldg f) f .global (s.laneAddrs x (.ldg f) f e)

/-- LDS (R203). -/
def execLds (f : M) (s : State) : Host.Outcome State Fault Refusal :=
  s.run (.lds f) f.g fun x e => s.loadLanes x e (.lds f) f .spad (s.laneAddrs x (.lds f) f e)

/-- LDX (R203). -/
def execLdx (f : M) (s : State) : Host.Outcome State Fault Refusal :=
  s.run (.ldx f) f.g fun x e => s.loadLanes x e (.ldx f) f .remote (s.laneAddrs x (.ldx f) f e)

/-- LDB (R203): lane l reads at A + W × l. -/
def execLdb (f : M) (s : State) : Host.Outcome State Fault Refusal :=
  s.run (.ldb f) f.g fun x e => s.loadLanes x e (.ldb f) f .global (s.strideAddrs x (.ldb f) f e)

/-- EXLD (R203): consecutive elements into the lanes of EXEC. -/
def execExld (f : M) (s : State) : Host.Outcome State Fault Refusal :=
  s.run (.exld f) f.g fun x e => s.loadLanes x e (.exld f) f .global (s.rankAddrs x (.exld f) f e)

/-- LDC (R204): one access for every lane of EXEC. -/
def execLdc (f : M) (s : State) : Host.Outcome State Fault Refusal :=
  s.run (.ldc f) f.g fun x e =>
    let w := f.width.toNat
    let n := widthBytes w
    let d := f.data.toNat
    let regs := (List.range (ldcRegs w)).map fun k => (RegFile.scl, d + k)
    s.access x e ⟨.global, ⟨true, false, false⟩, n, n, true, x.addrReads (.ldc f) f e, regs⟩
      [(lowestLane e, s.addrOf x (.ldc f) f 0)] (x.addrRels (.ldc f) f)
      fun s l =>
        let r := s.readLanes x f.scope.toNat n l
        let v := match r.2 with | p :: _ => widthValue w 64 p.2.1 | [] => 0
        let writes := (List.range (ldcRegs w)).map fun k =>
          ({ file := .scl, reg := d + k, mask := allLanes, lanes := scalarLanes (BitVec.ofNat 64 (v / 2 ^ (64 * k))) } : LLWrite)
        let o := (LLOp.of writes).withBad r.2
        .done r.1 0 [.later { o with poison := if o.poison = 0 then 0 else e, sticky := r.1.acquireLanes x f f.scope.toNat n l }]

/-- PFG (R205): no architectural effect, no flag and no trap after decode, whatever its address register holds. It waits for a spill or a
fill of that register as any instruction does (R65, R67), and releases it under L. -/
def execPfg (f : M) (s : State) : Host.Outcome State Fault Refusal :=
  s.run (.pfg f) f.g fun x e =>
    let reads := x.addrReads (.pfg f) f e
    if s.spillConflict x reads [] then s
    else if reads.any fun r => r.needsFill x then s.fillReads x reads
    else s.finish x reads (x.addrRels (.pfg f) f e) [] 0

end Sys2Proof.Machine
end

