-- ==== Sys2Proof/Machine/Stores.lean ====
section
/-! DEFINITION. The stores (spec/07 R206), with the release of order 2 and 3 (R201, R280). -/

namespace Sys2Proof.Machine

/-- The reads of a data group of `k` registers. -/
def Issue.dataReads (x : Issue) (n k : Nat) (m : Mask) : List Read := x.vecReads n k m []

/-- The releases of a data group whose L bit is set (R49). -/
def Issue.dataRels (x : Issue) (n k : Nat) (last : Bool) (m : Mask) : List Rel :=
  if last then (x.vecReads n k m []).map fun r => ⟨.vec, r.reg, m⟩ else []

/-- The value of a data group of `k` registers in a lane. -/
def State.dataVal (s : State) (x : Issue) (n k l : Nat) : Nat :=
  ((List.range k).map fun j => (laneOf (s.vreg x (n + j)) l).toNat * 2 ^ (32 * j)).sum

/-- The release of an instruction with order 2 or 3, before any lane's store is performed (R201). -/
def State.releaseBefore (s : State) (x : Issue) (f : M) : State :=
  if f.order.toNat ≥ 2 then s.perform x.core f.scope.toNat fun _ => true else s

/-- The record of that release at the words written at the scope `at'` (R281). -/
def State.releaseAfter (s : State) (x : Issue) (f : M) (at' n : Nat) (l : List LaneLoc) : State :=
  if f.order.toNat ≥ 2 then s.recordRelease (s.agent x f.scope.toNat) at' x.core (l.map (·.loc)) n else s

/-- The lanes of a store at a scope, as the coalescer merges them, heal a granule that they cover together (R351, R197); those of
uncacheable pages store at SYSTEM scope (R349). -/
def State.healLanes (s : State) (core scope n : Nat) (l : List LaneLoc) : State :=
  let at' (k : Nat) : List (Nat × Nat) := l.filterMap fun p => match p.loc with
    | .mem pa u => if Loc.scope (.mem pa u) scope = k then some (pa, n) else none
    | _ => none
  if scope = 5 then s.heal core 5 (at' 5) else (s.heal core scope (at' scope)).heal core 5 (at' 5)

/-- A store from vector registers (R206), given the address of each lane: lanes in ascending order (R198). -/
def State.storeLanes (s : State) (x : Issue) (e : Mask) (i : Instr) (f : M) (sp : Space) (addrs : List (Nat × DWord)) : State :=
  let w := f.width.toNat
  let n := widthBytes w
  let k := widthRegs w
  let d := f.data.toNat
  s.access x e ⟨sp, ⟨false, true, false⟩, n, n, false, x.addrReads i f e ++ x.dataReads d k e, []⟩ addrs
    (fun m => x.addrRels i f m ++ x.dataRels d k f.last m)
    fun t l =>
      let t := t.releaseBefore x f
      let t := (l.foldl (fun t p => t.writeLoc x f.scope.toNat p.addr p.loc n (s.dataVal x d k p.lane)) t).healLanes x.core f.scope.toNat n l
      .done (t.releaseAfter x f f.scope.toNat n l) 0 []

/-- STG (R206). -/
def execStg (f : M) (s : State) : Host.Outcome State Fault Refusal :=
  s.run (.stg f) f.g fun x e => s.storeLanes x e (.stg f) f .global (s.laneAddrs x (.stg f) f e)

/-- STS (R206). -/
def execSts (f : M) (s : State) : Host.Outcome State Fault Refusal :=
  s.run (.sts f) f.g fun x e => s.storeLanes x e (.sts f) f .spad (s.laneAddrs x (.sts f) f e)

/-- STX (R206). -/
def execStx (f : M) (s : State) : Host.Outcome State Fault Refusal :=
  s.run (.stx f) f.g fun x e => s.storeLanes x e (.stx f) f .remote (s.laneAddrs x (.stx f) f e)

/-- STB (R206): lane l writes at A + W × l. -/
def execStb (f : M) (s : State) : Host.Outcome State Fault Refusal :=
  s.run (.stb f) f.g fun x e => s.storeLanes x e (.stb f) f .global (s.strideAddrs x (.stb f) f e)

/-- CSTG (R206): the lanes of EXEC to consecutive elements. -/
def execCstg (f : M) (s : State) : Host.Outcome State Fault Refusal :=
  s.run (.cstg f) f.g fun x e => s.storeLanes x e (.cstg f) f .global (s.rankAddrs x (.cstg f) f e)

end Sys2Proof.Machine
end

