-- ==== Sys2Proof/Machine/Heap.lean ====
section
/-! DEFINITION. The heap (spec/07 R209 to R212). -/

namespace Sys2Proof.Machine

/-- The class of a request, with its block size 2^(c+4); none for 0 bytes or more than 65,536 (R209). -/
def heapClass (n : Nat) : Option (Nat × Nat) :=
  if n = 0 || n > 65536 then none
  else
    let c := ((List.range 13).find? fun c => n ≤ 2 ^ (c + 4)).getD 12
    some (c, 2 ^ (c + 4))

/-- Byte offsets of a descriptor's fields (R209). -/
def heapArena : Nat := 0
def heapLimit : Nat := 8
def heapBump : Nat := 16
def heapSlice : Nat := 24
def heapHead (c : Nat) : Nat := 32 + 8 * c

/-- Read and write one 8-byte field of a descriptor at DEVICE scope (R210). -/
def State.heapGet (s : State) (x : Issue) (d : LaneLoc) (off : Nat) : Nat :=
  match d.loc with
  | .mem pa u => (s.readLoc x 4 (.mem (pa + off) u) 8).2
  | .far _ va => s.farNat (va + off) 8
  | .spad _ _ => 0

def State.heapPut (s : State) (x : Issue) (d : LaneLoc) (off v : Nat) : State :=
  match d.loc with
  | .mem pa u => s.writeLoc x 4 (d.addr + BitVec.ofNat 64 off) (.mem (pa + off) u) 8 v
  | .far h va => s.writeLoc x 4 (d.addr + BitVec.ofNat 64 off) (.far h (va + off)) 8 v
  | .spad _ _ => s

/-- Where serving the lanes stops: it does not; a block whose page is not present parks the lanes from here on; or a block
that may not be touched traps (log 17). -/
inductive HeapStop where
  | all
  | park (lane : Nat) (addr : DWord) (reason : Nat)
  | prot (lane : Nat) (addr : DWord)
  deriving DecidableEq, Repr

/-- HALLOC outside deterministic mode, lane by lane (R210): the pointers, each with whether it is lost since the link of its block is
uncorrectable, which leaves HEAD as it is (R375, log 17); and where it stopped. -/
def State.heapAlloc (s : State) (x : Issue) (d : LaneLoc) (size : Nat → Nat) :
    List Nat → State × List (Nat × Nat × Bool) × HeapStop
  | [] => (s, [], .all)
  | l :: rest =>
    let on (s : State) (ptr : Nat) (bad : Bool) : State × List (Nat × Nat × Bool) × HeapStop :=
      let r := s.heapAlloc x d size rest
      (r.1, (l, ptr, bad) :: r.2.1, r.2.2)
    match heapClass (size l) with
    | none => on s 0 false
    | some (c, z) =>
      let head := s.heapGet x d (heapHead c)
      if head != 0 then
        match s.reach x .global ⟨true, false, false⟩ 8 (BitVec.ofNat 64 head) with
        | (s, .lands b) =>
          let r := s.readLoc x 4 b 8
          if r.1.badLoc x.core 4 b 8 then on r.1 head true else on (r.1.heapPut x d (heapHead c) r.2) head false
        | (s, .park why) => (s, [], .park l (BitVec.ofNat 64 head) why)
        | (s, .prot) => (s, [], .prot l (BitVec.ofNat 64 head))
      else
        let b := alignUp (s.heapGet x d heapBump) z
        if b + z ≤ s.heapGet x d heapLimit then
          on (s.heapPut x d heapBump (b + z)) ((s.heapGet x d heapArena + b) % 2 ^ 64) false
        else on s 0 false

/-- The key of a slice offset: launch and slice number. A slice has one offset, which each record of a wave that draws on it holds (R211,
R383). -/
def sliceKey (launch n : Nat) : Nat := launch * 2 ^ 64 + n

/-- HALLOC in deterministic mode (R211): blocks from the wave's slice. -/
def heapSliceAlloc (arena limit dslice n : Nat) (size : Nat → Nat) : List Nat → Nat → List (Nat × Nat) × Nat
  | [], off => ([], off)
  | l :: rest, off =>
    match heapClass (size l) with
    | none =>
      let r := heapSliceAlloc arena limit dslice n size rest off
      ((l, 0) :: r.1, r.2)
    | some (_, z) =>
      let b := alignUp off z
      if b + z ≤ dslice && n * dslice + b + z ≤ limit then
        let r := heapSliceAlloc arena limit dslice n size rest (b + z)
        ((l, (arena + n * dslice + b) % 2 ^ 64) :: r.1, r.2)
      else
        let r := heapSliceAlloc arena limit dslice n size rest off
        ((l, 0) :: r.1, r.2)

/-- The slice of a workgroup's wave (R211). -/
def Wg.sliceNo (g : Wg) (id : Nat) : Nat := g.wgid * g.extents.getD 1 1 + (if g.task then 0 else id)

def Issue.slice (x : Issue) : Nat := x.wg.sliceNo x.wave.waveId

/-- The size operand of a lane: the index source as N32 (R192). -/
def State.heapSize (s : State) (x : Issue) (f : M) (l : Nat) : Nat := s.opnd x .n32 f.index l

/-- Lanes from one on wait for a block's page: the lanes before it have been served (log 17). -/
def State.heapPark (s : State) (x : Issue) (e : Mask) (write : Bool) (l : Nat) (a : DWord) (why : Nat) : State × Mask :=
  let m := maskOf fun k => e.getLsbD k && l ≤ k
  (s.parkAll x write true m [(l, a, why)], e &&& ~~~m)

/-- A location as an access at a scope finds it: narrower copies of its bytes are performed (R347). -/
def State.settleLoc (s : State) (core scope : Nat) (c : Loc) (n : Nat) : State :=
  match c with
  | .mem pa _ => s.settle core (c.scope scope) pa n
  | _ => s

/-- What HALLOC leaves outstanding: the pointers by lane, the lost ones uncorrectable with the block of the lowest (R201). -/
def Issue.heapResult (x : Issue) (d : Nat) (l : List (Nat × Nat × Bool)) : LLOp :=
  let bad := l.filter fun p => p.2.2
  { LLOp.of (x.laneWrites d 2 (maskOf fun k => l.any fun p => p.1 == k) (l.map fun p => (p.1, p.2.1))) with
    poison := maskOf fun k => bad.any fun p => p.1 == k
    addr := match leastBy (·.1) bad with | some p => BitVec.ofNat 64 p.2.1 | none => 0 }

/-- HALLOC (R210, R211): one access to the descriptor, which serves the lanes in ascending order. -/
def execHalloc (f : M) (s : State) : Host.Outcome State Fault Refusal :=
  s.run (.halloc f) f.g fun x e =>
    let d := f.data.toNat
    let det := x.wg.det
    let reads := x.addrReads (.halloc f) f e
    let addr := s.addrOf x (.halloc f) f 0
    let size := s.heapSize x f
    let out (l : List (Nat × Nat × Bool)) : List Put := [.later (x.heapResult d l)]
    s.gated x reads (dataRegs d 2) fun st =>
      if addr.toNat % 256 != 0 then s.raiseTrap x 3 addr e 0
      else
        match s.reach x .global ⟨true, !det, false⟩ 256 addr with
        | (_, .prot) => s.raiseTrap x 5 addr e 0
        | (t, .park why) => (t.parkAll x (!det) true e [(lowestLane e, addr, why)]).finishLanes x reads [] [] 0
        | (t, .lands c) =>
          match t.farOne x c with
          | .deny t => t.raiseTrap x 5 addr e 0
          | .wait t => s.setSeq (seqOfWave x.w) { s.seq (seqOfWave x.w) with refused := (t.seq (seqOfWave x.w)).refused }
          | .park t => (t.parkAll x (!det) true e [(lowestLane e, addr, 4)]).finishLanes x reads [] [] 0
          | .go t =>
          let desc : LaneLoc := ⟨lowestLane e, addr, c⟩
          let t := t.settleLoc x.core 4 c 256
          if t.badLoc x.core 4 c 256 then
            t.finish x reads (x.addrRels (.halloc f) f e) (out ((lanesIn e).map fun l => (l, addr.toNat, true))) st
          else if det then
            let key := sliceKey x.wg.launch x.slice
            let r := heapSliceAlloc (t.heapGet x desc heapArena) (t.heapGet x desc heapLimit) (t.heapGet x desc heapSlice)
              x.slice size (lanesIn e) ((tget (t.core x.core).slices key).getD 0)
            let t := t.updCore x.core fun c => { c with slices := tput c.slices key r.2 }
            t.finish x reads (x.addrRels (.halloc f) f e) (out (r.1.map fun p => (p.1, p.2, false))) st
          else
            let r := t.heapAlloc x desc size (lanesIn e)
            match r.2.2 with
            | .all => r.1.finish x reads (x.addrRels (.halloc f) f e) (out r.2.1) st
            | .prot l a => s.raiseTrap x 5 a (maskOf fun k => k == l) 0
            | .park l a why =>
              let p := r.1.heapPark x e false l a why
              p.1.finishLanes x reads (if p.2 = 0 then [] else x.addrRels (.halloc f) f p.2)
                (if p.2 = 0 then [] else out r.2.1) (relreadOf x reads p.2)

/-- Whether HFREE takes a lane's block (R212), and its class. -/
def freeClass (arena limit ptr size : Nat) : Option Nat :=
  match heapClass size with
  | none => none
  | some (c, z) => if ptr = 0 || ptr % z != 0 || ptr < arena || arena + limit ≤ ptr then none else some c

/-- HFREE outside deterministic mode, lane by lane (R212). -/
def State.heapFree (s : State) (x : Issue) (d : LaneLoc) (ptr size : Nat → Nat) : List Nat → State × HeapStop
  | [] => (s, .all)
  | l :: rest =>
    match freeClass (s.heapGet x d heapArena) (s.heapGet x d heapLimit) (ptr l) (size l) with
    | none => s.heapFree x d ptr size rest
    | some c =>
      let a := BitVec.ofNat 64 (ptr l)
      match s.reach x .global ⟨false, true, false⟩ 8 a with
      | (s, .lands b) =>
        let s := s.writeLoc x 4 a b 8 (s.heapGet x d (heapHead c))
        (s.heapPut x d (heapHead c) (ptr l)).heapFree x d ptr size rest
      | (s, .park why) => (s, .park l a why)
      | (s, .prot) => (s, .prot l a)

/-- HFREE (R212); in deterministic mode it has no effect beyond its reads and releases. -/
def execHfree (f : M) (s : State) : Host.Outcome State Fault Refusal :=
  s.run (.hfree f) f.g fun x e =>
    let d := f.data.toNat
    let reads := x.addrReads (.hfree f) f e ++ x.dataReads d 2 e
    let rels (m : Mask) : List Rel := x.addrRels (.hfree f) f m ++ x.dataRels d 2 f.last m
    let addr := s.addrOf x (.hfree f) f 0
    let ptr (l : Nat) : Nat := s.dataVal x d 2 l
    s.gated x reads [] fun st =>
      if x.wg.det then s.finish x reads (rels e) [] st
      else if addr.toNat % 256 != 0 then s.raiseTrap x 3 addr e 0
      else
        match s.reach x .global ⟨true, true, false⟩ 256 addr with
        | (_, .prot) => s.raiseTrap x 5 addr e 0
        | (t, .park why) => (t.parkAll x true true e [(lowestLane e, addr, why)]).finishLanes x reads [] [] 0
        | (t, .lands c) =>
          match t.farOne x c with
          | .deny t => t.raiseTrap x 5 addr e 0
          | .wait t => s.setSeq (seqOfWave x.w) { s.seq (seqOfWave x.w) with refused := (t.seq (seqOfWave x.w)).refused }
          | .park t => (t.parkAll x true true e [(lowestLane e, addr, 4)]).finishLanes x reads [] [] 0
          | .go t =>
          let t := t.settleLoc x.core 4 c 256
          if t.badLoc x.core 4 c 256 then t.finish x reads (rels e) [] st
          else
            let r := t.heapFree x ⟨lowestLane e, addr, c⟩ ptr (s.heapSize x f) (lanesIn e)
            match r.2 with
            | .all => r.1.finish x reads (rels e) [] st
            | .prot l a => s.raiseTrap x 5 a (maskOf fun k => k == l) 0
            | .park l a why =>
              let p := r.1.heapPark x e true l a why
              p.1.finishLanes x reads (if p.2 = 0 then [] else rels p.2) [] (relreadOf x reads p.2)

end Sys2Proof.Machine
end

