-- ==== Sys2Proof/Machine/Engines.lean ====
section
/-! DEFINITION. The engine instructions at issue (spec/08 R232 to R274): blocks, the checks of step 8, stalls, numbers, items and
weight; TLRD; reservation records. What the engines then do is in Copy and Tile. -/

namespace Sys2Proof.Machine

/-! Blocks and results (R232 to R234). -/

/-- A register of the block. -/
def State.blk (s : State) (x : Issue) (f : E) (k : Nat) : Nat := (s.sreg x (f.blk.toNat + k)).toNat

/-- Reads of the block's registers that the operation uses, and the release of the whole block (R233, R244). -/
def blockReads (f : E) (ks : List Nat) (e : Mask) : List Read :=
  ks.map fun k => ⟨.scl, f.blk.toNat + k, allLanes, e, []⟩
def blockRels (f : E) (n : Nat) : List Rel :=
  if f.last then (List.range n).map fun k => ⟨.scl, f.blk.toNat + k, allLanes⟩ else []

/-- The result of RET. -/
def retPuts (f : E) (v : Nat) : List Put :=
  match retOf f with
  | some r => [.scl r (BitVec.ofNat 64 v)]
  | none => []
def retDsts (f : E) : List (RegFile × Nat) := match retOf f with | some r => [(.scl, r)] | none => []

/-! The checks of step 8. -/

/-- A check: whether it fails, with the cause and the address it then traps with. -/
structure Check where
  fails : Bool
  cause : Nat
  addr : Nat
  deriving DecidableEq, Repr

/-- The timeline context that an engine instruction names. -/
def Issue.lineOf (x : Issue) (f : E) : Nat := tlselCtx (x.tlsel f.tl.toNat)

/-- The timeline check of R233 and R409. -/
def State.lineCheck (s : State) (x : Issue) (f : E) : Check := ⟨(s.timeline (x.lineOf f)).bound != some x.wg.ctx, 5, 0⟩

/-- The checks against the context's tables (R233): the class towards some leaf (R296), then the timeline. -/
def State.tableChecks (s : State) (x : Issue) (f : E) (leaves : List Nat) : List Check :=
  [⟨!s.classMapped f.cls.toNat x.wg.ctx leaves, 5, 0⟩, s.lineCheck x f]

/-! Stalls (R237, R241). -/

/-- Whether an operation must wait to issue: its timeline, the core's copies, its first item's room, then a borrow. -/
def State.opStall (s : State) (x : Issue) (f : E) (copy pushes weighs : Bool) : Option Stall :=
  let n := x.lineOf f
  let t := s.timeline n
  let c := f.cls.toNat
  let refused := if pushes then s.refusing x.w (s.classPart c) (s.pathOf (s.classEntry c)) else none
  let full := t.issued + 1 - t.done > 1024
  let many := copy && s.copyOps x.core + 1 > 1024
  if full || many || refused.isSome then
    some { Stall.none s.tick with
      tl := if full then some n else none, copy := many, queue := refused, cls := if refused.isSome then some c else none }
  else if weighs && mustBorrow x.wave.weight then some { Stall.none s.tick with borrow := true }
  else none

/-- The wave stalls; one that needs weight sends its borrow (R333). -/
def State.stallOp (s : State) (x : Issue) (t : Stall) : State :=
  let s := match x.wave.weight with
    | some w => if t.borrow then s.borrow (.wave x.w) w.root else s
    | none => s
  s.stallIssue x t

/-- An engine instruction: reads, the checks of step 8 in order, a stall, then its effect. -/
def State.engine (s : State) (x : Issue) (e : Mask) (reads : List Read) (dsts : List (RegFile × Nat)) (checks : List Check)
    (wait : Option Stall) (go : Sticky → State) : State :=
  s.gated x reads dsts fun st =>
    match checks.find? (·.fails) with
    | some c => s.raiseTrap x c.cause (BitVec.ofNat 64 c.addr) e 0
    | none =>
      match wait with
      | some t => s.stallOp x t
      | none => go st

/-! Operations. -/

/-- A new operation with the next number of its timeline (R236). -/
def State.startOp (s : State) (x : Issue) (i : Instr) (f : E) (e : Mask) (blk : List Nat) (rows : Lanes) (segs : Nat)
    (w : Option Weight) : State × Nat × Op :=
  let n := x.lineOf f
  let t := s.timeline n
  let s := s.setTimeline n { t with issued := t.issued + 1 }
  let r := s.fresh
  let o : Op :=
    { instr := i, core := x.core, slot := slotOfWave x.w, wg := x.wave.wg, waveId := x.wave.waveId, wgid := x.wg.wgid, launch := x.wg.launch,
      ctx := x.wg.ctx, cls := f.cls.toNat, tl := n, scope := tlselScope (x.tlsel f.tl.toNat), seq := t.issued + 1,
      blk := blk.map (BitVec.ofNat 64), exec := e, rows := rows, segs := segs, pushed := 0, finished := 0, worst := none,
      weight := w, killed := false, spawner := none, ready := false }
  (r.2.setOp r.1 o, r.1, o)

/-- The E-format word of an operation. -/
def Op.word? (o : Op) : Option E := (eShapeOf o.instr).map (·.2)

/-- The rank hint of copies, SPAWN and fabric instructions (R240). -/
def Op.hint (o : Op) : Nat :=
  if o.isTile then 0 else match o.word? with | some f => bitsOf f.imm.toNat 8 8 | none => 0

/-- The item words of R240, with the size word and the index of the segment. -/
def Op.words (o : Op) (pkg size k : Nat) : List (BitVec 32) :=
  [BitVec.ofNat 32 (opcodeOf o.instr + o.hint * 2 ^ 8 + o.cls * 2 ^ 16), BitVec.ofNat 32 size, BitVec.ofNat 32 o.wgid,
   BitVec.ofNat 32 (o.core + o.slot * 2 ^ 8 + pkg * 2 ^ 13), BitVec.ofNat 32 o.ctx,
   BitVec.ofNat 32 (o.tl + o.seq % 2 ^ 20 * 2 ^ 12), BitVec.ofNat 32 o.launch, BitVec.ofNat 32 (k % 2 ^ 16)]

/-- An item that has not moved yet. -/
def Item.of (kind : ItemKind) (words : List (BitVec 32)) (ctx cls entry part : Nat) (w : Option Weight) : Item :=
  { kind := kind, words := words, ctx := ctx, cls := cls, entry := entry, part := part, place := .tree [], weight := w,
    rank := 0, order := 0, done := 0, refused := 0, waiting := false, sent := false, fault := none, failed := false, faultVa := 0,
    victim := false, spad := none, spadLen := 0, decanting := false, decanted := false, decantFail := none
    saved := none }

/-- The wave that issued an operation. -/
def Op.unit (o : Op) : Nat := 32 * o.core + o.slot

/-- Push an item of an operation under its class, for the unit that asks for its room. -/
def State.pushOf (s : State) (unit : Nat) (o : Op) (kind : ItemKind) (size k : Nat) (w : Option Weight) : State :=
  s.pushItem unit (Item.of kind (o.words s.cmd.pkgId size k) o.ctx o.cls (s.classEntry o.cls) (s.classPart o.cls) w)

/-! Copies and fabric transfers: their geometry (R242 to R248, R253 to R256). -/

/-- What a copy moves: addresses, rows, strides, spaces, the landing word, and the boundary at which it splits. -/
structure CopyShape where
  dst : Nat
  src : Nat
  bytes : Nat
  rows : Nat
  dstride : Int
  sstride : Int
  dsp : Bool
  ssp : Bool
  fill : Bool
  land : Bool
  loff : Nat
  lval : DWord
  chunk : Nat
  /-- it splits at the source's boundaries: FGET's remote side -/
  bySrc : Bool
  deriving DecidableEq, Repr

/-- The shape of a copy or fabric instruction with its block. -/
def copyShape (i : Instr) (blk : List DWord) : Option CopyShape :=
  let b (k : Nat) : Nat := (blk.getD k 0).toNat
  let signed (k : Nat) : Int := (blk.getD k 0).toInt
  let mk (f : E) (dsp ssp : Bool) : CopyShape :=
    { dst := b 0, src := b 1, bytes := b 2, rows := 1, dstride := 0, sstride := 0, dsp := dsp, ssp := ssp, fill := false,
      land := bitOf f.imm.toNat 0, loff := b 3, lval := blk.getD 4 0, chunk := 65536, bySrc := false }
  match i with
  | .acopy f => some (mk f (bitOf f.imm.toNat 1) (bitOf f.imm.toNat 2))
  | .acopys f => some { mk f (bitOf f.imm.toNat 1) (bitOf f.imm.toNat 2) with
      bytes := b 2 % 2 ^ 32, rows := b 2 / 2 ^ 32, dstride := signed 3, sstride := signed 4, loff := b 5, lval := blk.getD 6 0 }
  | .afill f => some { mk f (bitOf f.imm.toNat 1) false with fill := true }
  | .fsend f => some { mk f false (bitOf f.imm.toNat 1) with chunk := 4096 }
  | .fget f => some { mk f (bitOf f.imm.toNat 1) false with chunk := 4096, bySrc := true }
  | _ => none

/-- Start of row `r` on either side, as an exact integer. -/
def CopyShape.dstRow (c : CopyShape) (r : Nat) : Int := c.dst + r * c.dstride
def CopyShape.srcRow (c : CopyShape) (r : Nat) : Int := c.src + r * c.sstride

/-- Whether there is a byte to move. -/
def CopyShape.empty (c : CopyShape) : Bool := c.bytes = 0 || c.rows = 0

/-- Lowest byte and end of a side over all its rows. -/
def CopyShape.span (c : CopyShape) (row : Nat → Int) : Int × Int :=
  (min (row 0) (row (c.rows - 1)), max (row 0) (row (c.rows - 1)) + c.bytes)

/-- Whether two starts name ranges of `n` bytes that meet. -/
def rangesMeet (a b : Int) (n : Nat) : Bool := a < b + n && b < a + n

/-- Item 5 of R245: a destination byte that is a source byte in the same space, or that two rows write. -/
def CopyShape.overlaps (c : CopyShape) : Bool :=
  !c.empty &&
  ((!c.fill && c.dsp == c.ssp &&
      (List.range c.rows).any fun r => (List.range c.rows).any fun q => rangesMeet (c.dstRow r) (c.srcRow q) c.bytes) ||
   (c.rows ≥ 2 && rangesMeet (c.dstRow 0) (c.dstRow 1) c.bytes))

/-- The address or offset in a trap for the lowest byte of a range. -/
def spanAddr (a : Int) : Nat := wrapInt 64 a

/-- Items 1 to 4 of R245, and item 5 where it applies. An empty range fails no check. -/
def CopyShape.checks (c : CopyShape) (spad : Nat) (overlap : Bool) : List Check :=
  let d := c.span c.dstRow
  let r := c.span c.srcRow
  let global (sp : Bool) (p : Int × Int) : Check := ⟨!sp && !c.empty && (p.1 < 0 || p.2 > 2 ^ 60), 5, spanAddr p.1⟩
  let local' (sp : Bool) (p : Int × Int) : Check := ⟨sp && !c.empty && (p.1 < 0 || p.2 > spad), 5, spanAddr p.1⟩
  let none' : Check := ⟨false, 0, 0⟩
  [global c.dsp d, if c.fill then none' else global c.ssp r, local' c.dsp d, if c.fill then none' else local' c.ssp r,
   ⟨c.land && c.loff + 8 > spad, 5, c.loff⟩, ⟨c.land && c.loff % 8 != 0, 3, c.loff⟩,
   ⟨c.bytes * c.rows ≥ 2 ^ 40, 2, 0⟩, ⟨overlap && c.overlaps, 2, 0⟩]

/-- Pieces of `n` bytes from an address, split at multiples of `c`. -/
def pieces (a n c : Nat) : Nat := if n = 0 then 0 else (a + n - 1) / c - a / c + 1

/-- Offset and length of piece `k`. -/
def piece (a n c k : Nat) : Nat × Nat :=
  let lo := if k = 0 then 0 else (a / c + k) * c - a
  let hi := min n ((a / c + k + 1) * c - a)
  (lo, hi - lo)

/-- The address at which row `r` is split. -/
def CopyShape.splitRow (c : CopyShape) (r : Nat) : Nat := ((if c.bySrc then c.srcRow r else c.dstRow r)).toNat

/-- Rows in ascending order of destination (R246): row number `j` of that order. -/
def CopyShape.rowAt (c : CopyShape) (j : Nat) : Nat := if c.dstride < 0 then c.rows - 1 - j else j

/-- Segments of a copy. -/
def CopyShape.segments (c : CopyShape) : Nat :=
  if c.empty then 0 else ((List.range c.rows).map fun j => pieces (c.splitRow (c.rowAt j)) c.bytes c.chunk).sum

/-- Segment `k`: row, offset in it, and length; `fuel` rows from row number `j` on. -/
def CopyShape.find (c : CopyShape) : Nat → Nat → Nat → Nat × Nat × Nat
  | 0, _, _ => (0, 0, 0)
  | fuel + 1, j, k =>
    let r := c.rowAt j
    let n := pieces (c.splitRow r) c.bytes c.chunk
    if k < n then
      let p := piece (c.splitRow r) c.bytes c.chunk k
      (r, p.1, p.2)
    else c.find fuel (j + 1) (k - n)

def CopyShape.segment (c : CopyShape) (k : Nat) : Nat × Nat × Nat := c.find c.rows 0 k

/-! Ports (R415, R417). -/

/-- The home package of an address of a fabric transfer's remote side, if it is not this one (R254, R415). -/
def State.homeOf (s : State) (va : Nat) : Option Nat :=
  if bitOf va 59 && bitsOf va 53 6 != s.cmd.pkgId then some (bitsOf va 53 6) else none

/-- Bits of a 16-bit mask, lowest first. -/
def maskBits (m : BitVec 16) : List Nat := (List.range 16).filter fun k => m.getLsbD k

/-- The port by which an address leaves for a home; none where the mask is empty (R417). -/
def State.portOf (s : State) (home va : Nat) : Option Nat :=
  let l := maskBits ((tget s.cmd.fabRoute home).getD 0)
  l[bitsOf va 12 4 % l.length]?

/-- The leaf that takes the first packet of a fabric transfer: the routed port's; a transfer inside the package goes to the
issuing core's copy engine (R254, log 19). -/
def State.fabricLeaf (s : State) (core va : Nat) : Option Nat :=
  match s.homeOf va with
  | some h => (s.portOf h va).map portLeaf
  | none => some (copyLeaf core)

/-! The segmenter (R297, R333). -/

/-- The weight that segment number `k` of `n` takes, and what the segmenter keeps. -/
def segWeight (w : Option Weight) (last : Bool) : Option Weight × Option Weight := if last then (none, w) else splitWeight w

/-- Whether a segmenter must borrow before its next push (R333). -/
def Op.mustBorrow (o : Op) : Bool := Sys2Proof.Machine.mustBorrow o.weight && o.pushed + 1 < o.segs

/-- Push the next segment of an operation: the first for its wave at issue, the others for the segmenter (R297). -/
def State.pushSegment (s : State) (unit id : Nat) (o : Op) (c : CopyShape) : State :=
  let g := c.segment o.pushed
  let w := segWeight o.weight (o.pushed + 1 = o.segs)
  let s := s.setOp id { o with pushed := o.pushed + 1, weight := w.1 }
  s.pushOf unit o (.segment id o.pushed) g.2.2 o.pushed w.2

/-- The segmenter borrows when it has to. -/
def State.segBorrow (s : State) (id : Nat) : State :=
  match s.op? id with
  | some o => (match o.weight with
    | some w => if o.mustBorrow then s.borrow (.op id o.core) w.root else s
    | none => s)
  | none => s

/-- A copy or fabric operation starts: it takes its number and its share of weight, and the segmenter pushes its first segment or
borrows. `lost` is the address that a transfer with an empty route mask completes with: as REFUSED (R417), as PROTECTION where the
context is confined to its package (R422). -/
def State.copyStart (s : State) (x : Issue) (e : Mask) (i : Instr) (f : E) (blk : List Nat) (c : CopyShape) (segs : Nat)
    (lost : Option Nat) : State × Op :=
  let w := splitWeight x.wave.weight
  let r := s.startOp x i f e blk [] segs w.2
  let t := r.1.updWave x.w fun y => { y with weight := w.1 }
  let t := match lost with
    | some a => t.updOp r.2.1 fun o => { o with worst := some (0, if (s.ctx x.wg.ctx).ctl.bit 1 then 1 else 4, BitVec.ofNat 64 a) }
    | none => t
  let t := if segs = 0 || r.2.2.mustBorrow then t else t.pushSegment r.2.2.unit r.2.1 r.2.2 c
  (t.segBorrow r.2.1, r.2.2)

/-- What a copy or fabric instruction is about to do: the values of its block, the leaf of its first packet, and the number of its
segments; a transfer without a leaf pushes nothing. -/
structure CopyPlan where
  blk : List Nat
  shape : CopyShape
  leaf : Option Nat
  remote : Nat
  segs : Nat
  deriving DecidableEq, Repr

def State.copyPlan (s : State) (x : Issue) (i : Instr) (f : E) (n : Nat) (fabric : Bool) : Option CopyPlan :=
  let blk := (List.range n).map fun k => s.blk x f k
  (copyShape i (blk.map (BitVec.ofNat 64))).map fun c =>
    let remote := if c.bySrc then c.src else c.dst
    let leaf := if fabric then s.fabricLeaf x.core remote else some (copyLeaf x.core)
    ⟨blk, c, leaf, remote, if leaf.isNone then 0 else c.segments⟩

/-- The reads of a copy: without LAND its last two block registers are not read (R244). -/
def copyReads (f : E) (n : Nat) (e : Mask) : List Read :=
  blockReads f (List.range (if bitOf f.imm.toNat 0 then n else n - 2)) e

/-- The checks of a copy in order (R233, R245). -/
def State.copyChecks (s : State) (x : Issue) (f : E) (fabric : Bool) (p : CopyPlan) : List Check :=
  (match p.leaf with
   | some l => s.tableChecks x f [l]
   | none => [⟨!(s.classValid f.cls.toNat && s.classCtx f.cls.toNat == x.wg.ctx), 5, 0⟩, s.lineCheck x f]) ++
  p.shape.checks x.wg.spadSize (!fabric)

/-- The operation of a copy's plan starts. -/
def State.copyGo (s : State) (x : Issue) (e : Mask) (i : Instr) (f : E) (p : CopyPlan) : State × Op :=
  s.copyStart x e i f p.blk p.shape p.segs (if p.leaf.isNone && !p.shape.empty then some p.remote else none)

/-- A copy or fabric instruction (R242 to R248, R253 to R256). -/
def State.copyIssue (s : State) (x : Issue) (e : Mask) (i : Instr) (f : E) (n : Nat) (fabric : Bool) : State :=
  match s.copyPlan x i f n fabric with
  | none => s
  | some p =>
    let reads := copyReads f n e
    s.engine x e reads (retDsts f) (s.copyChecks x f fabric p) (s.opStall x f true (p.segs != 0) true) fun st =>
      let r := s.copyGo x e i f p
      r.1.finish x reads (blockRels f n) (retPuts f r.2.seq) st

/-- ACOPY (R246). -/
def execAcopy (f : E) (s : State) : Host.Outcome State Fault Refusal :=
  s.run (.acopy f) f.g fun x e => s.copyIssue x e (.acopy f) f 5 false

/-- ACOPYS (R246). -/
def execAcopys (f : E) (s : State) : Host.Outcome State Fault Refusal :=
  s.run (.acopys f) f.g fun x e => s.copyIssue x e (.acopys f) f 7 false

/-- AFILL (R246). -/
def execAfill (f : E) (s : State) : Host.Outcome State Fault Refusal :=
  s.run (.afill f) f.g fun x e => s.copyIssue x e (.afill f) f 5 false

/-- FSEND (R253 to R256). -/
def execFsend (f : E) (s : State) : Host.Outcome State Fault Refusal :=
  s.run (.fsend f) f.g fun x e => s.copyIssue x e (.fsend f) f 5 true

/-- FGET (R253 to R256). -/
def execFget (f : E) (s : State) : Host.Outcome State Fault Refusal :=
  s.run (.fget f) f.g fun x e => s.copyIssue x e (.fget f) f 5 true

/-! SPAWN (R249 to R252, R393). -/

/-- Whether tasks of a workgroup target their spawner's core (R250, R313). -/
def State.staticPlace (s : State) (g : Wg) : Bool :=
  g.det || (match s.launch? g.launch with | some l => recPlace l.record == 2 | none => false)

/-- The value checks of R249. -/
def spawnChecks (prog foot depth : Nat) : List Check :=
  let v := bitsOf foot 0 9
  let sc := bitsOf foot 9 7
  let sp := bitsOf foot 16 20
  [⟨prog % 8 != 0, 3, prog⟩, ⟨prog ≥ 2 ^ 60, 5, prog⟩,
   ⟨v = 0 || v > 256 || sc > 64 || sp % 16 != 0 || sp > 720896 || foot ≥ 2 ^ 36, 2, 0⟩, ⟨depth ≥ 16, 0x0A, 0⟩]

/-- The reads, block and stall of a SPAWN. -/
def State.spawnStall (s : State) (x : Issue) (f : E) : Option Stall := s.opStall x f false (!x.wg.det) true

/-- SPAWN starts its operation (R241, R251): the operation that stands for the task, its key, and the split of weight. -/
def State.spawnStart (s : State) (x : Issue) (e : Mask) (f : E) : State × Nat × Op :=
  let blk := (List.range 4).map fun k => s.blk x f k
  let w := splitWeight x.wave.weight
  let r := s.startOp x (.spawn f) f e blk [] 0 none
  let t := r.1.updWave x.w fun y => { y with weight := w.1 }
  let o := { r.2.2 with spawner := some { x.wg with levels := lset x.wg.levels 1 x.level1 }, weight := w.2 }
  (t.setOp r.2.1 o, r.2.1, o)

/-- The retirement of SPAWN. -/
def State.spawnEnd (s : State) (x : Issue) (e : Mask) (f : E) (seq : Nat) (st : Sticky) : State :=
  s.finish x (blockReads f (List.range 4) e) (blockRels f 4) (retPuts f seq) st

/-- The task's item in the trellis, which takes the operation's weight. -/
def State.pushTask (s : State) (id : Nat) : State :=
  match s.op? id with
  | none => s
  | some o =>
    let foot := (o.blk.getD 1 0).toNat
    (s.setOp id { o with weight := none }).pushOf o.unit o (.task id) (bitsOf foot 0 9 + 512 * bitsOf foot 9 7) 0 o.weight

/-- SPAWN. In deterministic mode it stalls until a round boundary admits the task (R393). -/
def execSpawn (f : E) (s : State) : Host.Outcome State Fault Refusal :=
  s.run (.spawn f) f.g fun x e =>
    let leaves := if s.staticPlace x.wg then [dispatchLeaf x.core] else List.range 192
    let checks := s.tableChecks x f leaves ++ spawnChecks (s.blk x f 0) (s.blk x f 1) x.wg.depth
    s.engine x e (blockReads f (List.range 4) e) (retDsts f) checks (s.spawnStall x f) fun st =>
      if x.wg.det then
        s.stallIssue x { Stall.none s.tick with det := some (f, e, st) }
      else
        let r := s.spawnStart x e f
        (r.1.pushTask r.2.1).spawnEnd x e f r.2.2.seq st

/-! TLRD (R257). -/

/-- The fault record's status word (R238). -/
def Timeline.statusWord (t : Timeline) : Nat :=
  match t.fault with
  | some (st, n, _) => st + 2 ^ 8 + n % 2 ^ 48 * 2 ^ 16
  | none => 0

def Timeline.addrWord (t : Timeline) : DWord := match t.fault with | some (_, _, a) => a | none => 0

/-- TLRD. -/
def execTlrd (f : E) (s : State) : Host.Outcome State Fault Refusal :=
  s.run (.tlrd f) f.g fun x e =>
    let n := x.lineOf f
    let t := s.timeline n
    s.engine x e [] [(.scl, f.blk.toNat)] [s.lineCheck x f] none fun st =>
      let v : DWord := match f.aux.toNat % 4 with
        | 0 => BitVec.ofNat 64 t.done
        | 1 => BitVec.ofNat 64 t.issued
        | 2 => BitVec.ofNat 64 t.statusWord
        | _ => t.addrWord
      let s := if f.imm == 1 then s.setTimeline n { t with fault := none } else s
      s.finish x [] [] [.scl f.blk.toNat v] st

/-! Reservation records (R258 to R260). -/

def obBase (r : DWord) : Nat := r.fld 0 14 * 16
def obLen (r : DWord) : Nat := r.fld 14 15 * 16
def obFmt (r : DWord) : Nat := r.fld 29 4
def obBlock (r : DWord) : Nat := if r.bit 33 then 32 else 16
def obSoff (r : DWord) : Nat := r.fld 34 14 * 16
def obScaled (r : DWord) : Bool := r.fld 48 2 == 1

/-- Whether a descriptor keeps R258. -/
def obOk (r : DWord) : Bool :=
  let len := r.fld 14 15
  1 ≤ len && r.fld 0 14 + len ≤ 16384 && obFmt r ≤ 8 && r.fld 34 14 < len && r.fld 48 2 ≤ 1 &&
  (r.fld 48 2 == 0 || (2 ≤ obFmt r && obFmt r ≤ 4)) && r.fld 50 14 == 0

/-- The status of ORES (R259), in its order of conditions. -/
def State.oresStatus (s : State) (core k : Nat) (desc : DWord) : Nat :=
  let c := s.core core
  let meets (p : Nat × ObRec) : Bool :=
    obBase p.2.word < obBase desc + obLen desc && obBase desc < obBase p.2.word + obLen p.2.word
  if !obOk desc then 3
  else if (match tget c.obs k with | some r => r.valid | none => false) then 1
  else if c.obs.any meets then 2 else 0

/-- The cause of ORES without RET. -/
def oresCause (status : Nat) : Nat := if status = 3 then 2 else 0x0A

/-- A descriptor becomes the workgroup's record, and its range is zeroed (R259). -/
def State.reserve (s : State) (x : Issue) (k : Nat) (desc : DWord) : State :=
  let word := (desc.setFld 50 6 (slotOfWave x.w)).setFld 56 1 1
  s.updCore x.core fun c =>
    { c with obs := tput c.obs k ⟨word, x.wave.wg, true, []⟩, obuf := cellsClear c.obuf (obBase desc) (obLen desc) }

/-- ORES (R259). -/
def execOres (f : E) (s : State) : Host.Outcome State Fault Refusal :=
  s.run (.ores f) f.g fun x e =>
    let k := f.imm.toNat % 16
    let desc := s.sreg x f.blk.toNat
    let status := s.oresStatus x.core k desc
    let reads := blockReads f [0] e
    s.engine x e reads (retDsts f) [⟨status != 0 && (retOf f).isNone, oresCause status, 0⟩] none fun st =>
      (if status = 0 then s.reserve x k desc else s).finish x reads (blockRels f 1) (retPuts f status) st

/-- A valid record of the issuing workgroup. -/
def State.ownRecord (s : State) (x : Issue) (k : Nat) : Option DWord :=
  match tget (s.core x.core).obs k with
  | some r => if r.valid && r.wg == x.wave.wg then some r.word else none
  | none => none

/-- A valid record of another workgroup. -/
def State.foreignRecord (s : State) (x : Issue) (k : Nat) : Bool :=
  match tget (s.core x.core).obs k with | some r => r.valid && r.wg != x.wave.wg | none => false

/-- OREL (R260). -/
def execOrel (f : E) (s : State) : Host.Outcome State Fault Refusal :=
  s.run (.orel f) f.g fun x e =>
    let k := f.imm.toNat % 16
    s.engine x e [] [] [⟨s.foreignRecord x k, 5, 0⟩] none fun st => (s.releaseRecord x.core k).finish x [] [] [] st

/-! Tile operations at issue (R261 to R274). -/

/-- A claimed accumulator of another workgroup (R262). -/
def State.accTaken (s : State) (x : Issue) (a : Nat) : Bool :=
  match ((s.core x.core).accs.getD a Acc.reset).wg with
  | some u => u != x.wave.wg
  | none => false

/-- The first operation that names an accumulator claims it (R262). -/
def State.claimAcc (s : State) (x : Issue) (a : Nat) : State :=
  s.updCore x.core fun c => { c with accs := lsetD Acc.reset c.accs a { c.accs.getD a Acc.reset with wg := some x.wave.wg } }

/-- The size word of a tile operation (R240). -/
def windowSize (code : Nat) : Nat := 32 * 2 ^ code

/-- A tile operation starts: its number, the accumulator that it claims, and its item (R240, R262). -/
def State.tileStart (s : State) (x : Issue) (e : Mask) (i : Instr) (f : E) (blk : List Nat) (rows : Lanes) (size : Nat)
    (claim : Option Nat) : State × Nat × Op :=
  let r := s.startOp x i f e blk rows 0 none
  let t := match claim with | some a => r.1.claimAcc x a | none => r.1
  (t.pushOf r.2.2.unit r.2.2 (.tile r.2.1) size 0 none, r.2)

/-- What a tile operation is about to do: the values it keeps, the indices of its rows, its size word, the accumulator that it
claims, its reads and releases, its checks, and the lanes that its rows trap with the address reported. -/
structure TilePlan where
  blk : List Nat
  rows : Lanes
  size : Nat
  claim : Option Nat
  reads : List Read
  rels : List Rel
  checks : List Check
  bad : Mask
  badAddr : Nat
  deriving DecidableEq, Repr

/-- A tile operation issues (R232, R262): its checks, its rows' trap, a stall, its number; the result of RET, or with RB a
readback that waits (R274). -/
def State.tileOp (s : State) (x : Issue) (e : Mask) (i : Instr) (f : E) (readback : Bool) (p : TilePlan) : State :=
  s.engine x e p.reads (retDsts f) p.checks (if p.bad != 0 then none else s.opStall x f false true false) fun st =>
    if p.bad != 0 then s.raiseTrap x 5 (BitVec.ofNat 64 p.badAddr) p.bad 0
    else
      let r := s.tileStart x e i f p.blk p.rows p.size p.claim
      match readback, retOf f with
      | true, some k =>
        r.1.finish x p.reads p.rels [.later { LLOp.of [⟨.scl, k, [], allLanes⟩] with op := some r.2.1 }] st
      | true, none => r.1.finish x p.reads p.rels [] st
      | false, _ => r.1.finish x p.reads p.rels (retPuts f r.2.2.seq) st

/-- The plan of OLOAD. -/
def State.oloadPlan (s : State) (x : Issue) (e : Mask) (f : E) : TilePlan :=
  let src := s.blk x f 0
  let range := s.blk x f 1
  let off := bitsOf range 0 19
  let n := bitsOf range 20 19
  let own := s.ownRecord x (f.imm.toNat % 16)
  let word := own.getD 0
  { blk := [src, range, word.toNat], rows := [], size := n / 16, claim := none, reads := blockReads f [0, 1] e
    rels := blockRels f 2
    checks := s.tableChecks x f [tileLeaf x.core] ++
      [⟨own.isNone, 5, 0⟩,
       ⟨src ≥ 2 ^ 20 || src % 16 != 0 || off % 16 != 0 || bitOf range 19 || n % 16 != 0 || n < 16 || n > 262144 ||
          range ≥ 2 ^ 39, 2, 0⟩,
       ⟨src + n > x.wg.spadSize, 5, src⟩, ⟨off + n > obLen word, 5, off⟩]
    bad := 0, badAddr := 0 }

/-- OLOAD (R263). -/
def execOload (f : E) (s : State) : Host.Outcome State Fault Refusal :=
  s.run (.oload f) f.g fun x e => s.tileOp x e (.oload f) f false (s.oloadPlan x e f)

/-- The fields of OGATH's block. -/
structure Gather where
  base : Nat
  pitch : Nat
  bytes : Nat
  row : Nat
  rpitch : Nat
  deriving DecidableEq, Repr

def gatherOf (a b c : Nat) : Gather := ⟨a, bitsOf b 0 19, bitsOf b 20 19, bitsOf c 0 19, bitsOf c 20 19⟩

/-- Source offset and record offset of a lane's row (R264). -/
def Gather.src (g : Gather) (v : Word) : Nat := g.base + v.toNat * g.pitch
def Gather.dst (g : Gather) (l : Nat) : Nat := g.row + l * g.rpitch

/-- The plan of OGATH. -/
def State.ogathPlan (s : State) (x : Issue) (e : Mask) (f : E) : TilePlan :=
  let vi := bitsOf f.imm.toNat 4 8
  let a := s.blk x f 0
  let b := s.blk x f 1
  let c := s.blk x f 2
  let g := gatherOf a b c
  let own := s.ownRecord x (f.imm.toNat % 16)
  let word := own.getD 0
  let idx := s.vreg x vi
  let vreads := x.vecReads vi 1 e []
  let badSrc (l : Nat) : Bool := g.src (laneOf idx l) + g.bytes > x.wg.spadSize
  let bad := maskOf fun l => e.getLsbD l && (badSrc l || g.dst l + g.bytes > obLen word)
  let odd (v : Nat) : Bool := bitOf v 19 || v ≥ 2 ^ 39
  let first := lowestLane bad
  { blk := [a, b, c, word.toNat], rows := idx, size := g.bytes * (lanesIn e).length / 16, claim := none
    reads := blockReads f [0, 1, 2] e ++ vreads
    rels := blockRels f 3 ++ (if bitOf f.imm.toNat 12 then vreads.map fun r => ⟨.vec, r.reg, e⟩ else [] : List Rel)
    checks := s.tableChecks x f [tileLeaf x.core] ++
      [⟨own.isNone, 5, 0⟩,
       ⟨a ≥ 2 ^ 20 || a % 8 != 0 || odd b || odd c || g.pitch % 8 != 0 || g.bytes % 8 != 0 || g.bytes < 8 ||
          g.bytes > 65536 || g.row % 8 != 0 || g.rpitch % 8 != 0, 2, 0⟩]
    bad := bad, badAddr := if badSrc first then g.src (laneOf idx first) else g.dst first }

/-- OGATH (R264). -/
def execOgath (f : E) (s : State) : Host.Outcome State Fault Refusal :=
  s.run (.ogath f) f.g fun x e => s.tileOp x e (.ogath f) f false (s.ogathPlan x e f)

/-- Bytes of a record up to element `n` of a format (R261). -/
def elemEnd (fmt n : Nat) : Nat :=
  match fmt with
  | 0 | 1 => 2 * n
  | 4 => (n + 1) / 2
  | 5 => 10 * ((n + 15) / 16)
  | 8 => (n + 7) / 8
  | _ => n

/-- Whether `n` elements from an offset, and their scales, lie within a record (R265). -/
def elemsInside (r : DWord) (off n : Nat) : Bool :=
  elemEnd (obFmt r) (off + n) ≤ obLen r &&
  (!obScaled r || obSoff r + (off + n + obBlock r - 1) / obBlock r ≤ obLen r)

/-- The legal pairs of formats (R265). -/
def pairOk (binary : Bool) (a b : Nat) : Bool :=
  if binary then a == 8 && b == 8
  else (a == 0 && b == 0) || (a == 1 && b == 1) || (2 ≤ a && a ≤ 5 && 2 ≤ b && b ≤ 5) || (6 ≤ a && a ≤ 7 && 6 ≤ b && b ≤ 7)

/-- The plan of MMA and MMAB (R265). -/
def State.mmaPlan (s : State) (x : Issue) (e : Mask) (f : E) (binary : Bool) : TilePlan :=
  let imm := f.imm.toNat
  let acc := bitsOf imm 0 2
  let m := windowSize (bitsOf imm 10 2)
  let n := windowSize (bitsOf imm 12 2)
  let k := 64 * 2 ^ bitsOf imm 14 2
  let v := s.blk x f 0
  let aoff := bitsOf v 0 21
  let boff := bitsOf v 21 21
  let ra := s.ownRecord x (bitsOf imm 2 4)
  let rb := s.ownRecord x (bitsOf imm 6 4)
  let a := ra.getD 0
  let b := rb.getD 0
  { blk := [v, a.toNat, b.toNat], rows := [], size := m * n * k / 4096, claim := some acc, reads := blockReads f [0] e
    rels := blockRels f 1
    checks := s.tableChecks x f [tileLeaf x.core] ++
      [⟨ra.isNone || rb.isNone || s.accTaken x acc, 5, 0⟩, ⟨!pairOk binary (obFmt a) (obFmt b), 2, 0⟩,
       ⟨aoff % obBlock a != 0 || boff % obBlock b != 0 || 32 * bitsOf v 42 2 + m > 128 || 32 * bitsOf v 44 2 + n > 128 ||
          v ≥ 2 ^ 46, 2, 0⟩,
       ⟨!(elemsInside a aoff (m * k) && elemsInside b boff (n * k)), 5, 0⟩]
    bad := 0, badAddr := 0 }

/-- MMA (R265, R266). -/
def execMma (f : E) (s : State) : Host.Outcome State Fault Refusal :=
  s.run (.mma f) f.g fun x e => s.tileOp x e (.mma f) f false (s.mmaPlan x e f false)

/-- MMAB (R265, R266). -/
def execMmab (f : E) (s : State) : Host.Outcome State Fault Refusal :=
  s.run (.mmab f) f.g fun x e => s.tileOp x e (.mmab f) f false (s.mmaPlan x e f true)

/-- The plan of MZERO. -/
def State.mzeroPlan (s : State) (x : Issue) (f : E) : TilePlan :=
  let acc := f.imm.toNat % 4
  { blk := [], rows := [], size := 0, claim := some acc, reads := [], rels := []
    checks := s.tableChecks x f [tileLeaf x.core] ++ [⟨s.accTaken x acc, 5, 0⟩], bad := 0, badAddr := 0 }

/-- MZERO (R270). -/
def execMzero (f : E) (s : State) : Host.Outcome State Fault Refusal :=
  s.run (.mzero f) f.g fun x e => s.tileOp x e (.mzero f) f false (s.mzeroPlan x f)

/-- Bytes of a row of `n` elements in a drain format (R271, R272). -/
def drainRow (ofmt n : Nat) : Nat :=
  match ofmt with
  | 0 | 7 => 4 * n
  | 1 | 2 => 2 * n
  | 5 => n / 2
  | 6 => 10 * (n / 16)
  | _ => n

/-- Whether MDRAIN quantises by blocks, and whether it updates the maximum word. -/
def drainQb (f : E) : Bool := bitOf f.imm.toNat 9
def drainAmax (f : E) : Bool := bitOf f.imm.toNat 14

/-- The plan of MDRAIN (R271). -/
def State.mdrainPlan (s : State) (x : Issue) (e : Mask) (f : E) : TilePlan :=
  let imm := f.imm.toNat
  let acc := bitsOf imm 0 2
  let m := windowSize (bitsOf imm 10 2)
  let n := windowSize (bitsOf imm 12 2)
  let d := s.blk x f 0
  let sc := s.blk x f 1
  let word := s.blk x f 2
  let pass (v row : Nat) : Bool := bitsOf v 0 20 + (m - 1) * bitsOf v 20 18 + row > x.wg.spadSize
  { blk := [d, sc, word], rows := [], size := m * n / 256, claim := some acc
    reads := blockReads f ([0] ++ (if drainQb f then [1] else []) ++ (if drainAmax f then [2] else [])) e
    rels := blockRels f 3
    checks := s.tableChecks x f [tileLeaf x.core] ++
      [⟨s.accTaken x acc, 5, 0⟩,
       ⟨32 * bitsOf d 38 2 + m > 128 || 32 * bitsOf d 40 2 + n > 128 || d ≥ 2 ^ 42 || (drainQb f && sc ≥ 2 ^ 38), 2, 0⟩,
       ⟨drainAmax f && word % 4 != 0, 3, word⟩, ⟨drainAmax f && word ≥ 2 ^ 60, 5, word⟩,
       ⟨pass d (drainRow (bitsOf imm 2 4) n), 5, bitsOf d 0 20⟩, ⟨drainQb f && pass sc (n / 16), 5, bitsOf sc 0 20⟩]
    bad := 0, badAddr := 0 }

/-- MDRAIN at issue (R271, R274): with RB it is long-latency. -/
def execMdrain (f : E) (s : State) : Host.Outcome State Fault Refusal :=
  s.run (.mdrain f) f.g fun x e => s.tileOp x e (.mdrain f) f true (s.mdrainPlan x e f)

end Sys2Proof.Machine
end

