-- ==== Sys2Proof/Machine/Placement.lean ====
section
/-! DEFINITION. Placing workgroups and tasks (spec/10 R310 to R315, R442; R62, R250, R344, R345, R389, R422): what a dispatch
item asks of a core, which cores are permitted and admit it, and the core that each placement mode chooses. -/

namespace Sys2Proof.Machine

/-- What a workgroup or task asks of a core: waves, registers of each wave, scratchpad bytes and its launch's settings. -/
structure Demand where
  launch : Nat
  ctx : Nat
  waves : Nat
  vregs : Nat
  sregs : Nat
  spad : Nat
  carve : Nat
  overcommit : Nat
  det : Bool
  deriving DecidableEq, Repr

/-- A workgroup of a launch. -/
def Launch.demand (l : Launch) : Demand :=
  let r := l.record
  { launch := l.id, ctx := l.ctx, waves := recExtent r 1, vregs := recVregs r, sregs := recSregs r, spad := recSpad r,
    carve := recCarve r, overcommit := recOvercommit r, det := recDet r }

/-- A resident workgroup, with the waves that it still has. -/
def Wg.demand (g : Wg) : Demand :=
  { launch := g.launch, ctx := g.ctx, waves := g.ids.length, vregs := g.vregs, sregs := g.sregs, spad := g.spadSize,
    carve := g.carve, overcommit := g.overcommit, det := g.det }

/-- The task of a SPAWN (R249, R250). -/
def Op.demand (o : Op) (g : Wg) : Demand :=
  let foot := (o.blk.getD 1 0).toNat
  { launch := o.launch, ctx := o.ctx, waves := 1, vregs := bitsOf foot 0 9, sregs := bitsOf foot 9 7, spad := bitsOf foot 16 20,
    carve := g.carve, overcommit := g.overcommit, det := g.det }

/-- What a dispatch item asks of a core; none for any other item. -/
def State.demandOf (s : State) (x : Item) : Option Demand :=
  match x.kind with
  | .launch id | .workgroup id _ => (s.launch? id).map Launch.demand
  | .task o =>
    match s.op? o with
    | some p => p.spawner.map fun g => p.demand g
    | none => none
  | .resume _ _ _ => x.saved.map fun v => v.wg.demand
  | _ => none

/-! Admission. -/

/-- Work that counts on a core: its demand and the start of its scratchpad, if it has one. -/
structure Occupant where
  d : Demand
  base : Option Nat
  deriving DecidableEq, Repr

/-- Whether an item stands in a core's dispatch leaf, on its way there, or popped and not yet resident. -/
def Item.atDispatch (x : Item) (core : Nat) : Bool :=
  x.place == .leaf (dispatchLeaf core) || x.place == .toLeaf (dispatchLeaf core) || x.place == .service (dispatchLeaf core)

/-- The occupants of a core (R313): resident work but for the workgroups `without`, and its dispatch leaf's items but for
`skip`. -/
def State.occupants (s : State) (core : Nat) (skip : Option Nat) (without : List Nat) : List Occupant :=
  ((s.wgs.filter fun p => p.2.core == core && !without.contains p.1).map fun p =>
    ⟨p.2.demand, if p.2.spadSize = 0 then none else some p.2.spadBase⟩) ++
  (s.trl.items.filter fun p => p.2.atDispatch core && skip != some p.1).filterMap fun p =>
    (s.demandOf p.2).map fun d => ⟨d, p.2.spad⟩

/-- Rounded length of an allocation (R345). -/
def Demand.length (d : Demand) : Nat := alignUp d.spad 512

/-- Whether [a, a + n) is clear of the used ranges. -/
def rangeFree (used : List (Nat × Nat)) (a n : Nat) : Bool := used.all fun u => a + n ≤ u.1 || u.1 + u.2 ≤ a

/-- The lowest start from which `n` bytes are free below `cap` (R345). -/
def lowestRange (used : List (Nat × Nat)) (cap n : Nat) : Option Nat :=
  (sortBy id (0 :: used.map fun u => u.1 + u.2)).find? fun a => a + n ≤ cap && rangeFree used a n

/-- Used ranges of the occupants with an allocation. -/
def usedRanges (l : List Occupant) : List (Nat × Nat) := l.filterMap fun o => o.base.map fun b => (b, o.d.length)

/-- Used ranges with those occupants placed too that have no allocation yet. -/
def plannedRanges (l : List Occupant) (cap : Nat) : List (Nat × Nat) :=
  (l.filter fun o => o.base.isNone && o.d.spad != 0).foldl
    (fun u o => match lowestRange u cap o.d.length with | some a => u ++ [(a, o.d.length)] | none => u) (usedRanges l)

/-- Whether a demand fits beside occupants (R62, R313, R344, R345, R389). -/
def Demand.fits (d : Demand) (l : List Occupant) : Bool :=
  let all := d :: l.map (·.d)
  let f := (all.map (·.overcommit)).foldl min 32
  (l.all fun o => o.d.carve == d.carve) &&
  (all.map (·.waves)).sum ≤ 32 &&
  (all.map fun o => o.waves * o.vregs).sum ≤ f * 2048 / 16 &&
  (all.map fun o => o.waves * o.sregs).sum ≤ f * 1024 / 16 &&
  (d.spad = 0 || (lowestRange (plannedRanges l (carveBytes d.carve)) (carveBytes d.carve) d.length).isSome) &&
  (l.all fun o => o.d.launch == d.launch || !(d.det || o.d.det))

/-- Whether a core may run a context's work at all (R422, R427, R434). -/
def Core.takes (c : Core) (ctx : Nat) : Bool :=
  c.owner.all (fun o => o == ctx) && !c.failed && !c.gone

/-- Whether a core admits a demand, with `extra` work counted on it and `without` not (R313). -/
def State.admits (s : State) (core : Nat) (d : Demand) (skip : Option Nat) (extra : List (Nat × Demand))
    (without : List Nat) : Bool :=
  let more := (extra.filter fun e => e.1 == core).map fun e => (⟨e.2, none⟩ : Occupant)
  (s.core core).takes d.ctx && d.fits (s.occupants core skip without ++ more)

/-! Permitted cores. -/

/-- The reserve set of a core (R314). -/
def State.reserveSet (s : State) (core : Nat) : Option Nat :=
  let r := s.trlCore core
  if r.bit 4 then some (r.fld 0 4) else none

def State.classOwns (s : State) (c k : Nat) : Bool := bitOf (s.classOwn c) k
def State.classBorrows (s : State) (c k : Nat) : Bool := bitOf (s.classBorrow c) k && !s.classOwns c k

/-- Whether a core is permitted for an item of a class entering at a node (R313). -/
def State.permits (s : State) (cls entry core : Nat) : Bool :=
  s.leafBelow (dispatchLeaf core) entry &&
  (match s.reserveSet core with
   | none => true
   | some k => s.classOwns cls k || s.classBorrows cls k)

/-- The permitted cores in ascending order. -/
def State.permitted (s : State) (x : Item) : List Nat := (List.range 192).filter fun c => s.permits x.cls x.entry c

/-! The choice of a core. -/

/-- Entries of a leaf, with items on their way to it. -/
def State.leafLoad (s : State) (l : Nat) : Nat :=
  (s.leaf l).entries.length + (s.trl.items.filter fun p => p.2.place == .toLeaf l).length

/-- FIT (R313): the fewest entries, then the most free vector registers, then the lowest number. -/
def State.fitCore (s : State) (l : List Nat) : Option Nat :=
  leastBy (fun c => s.leafLoad (dispatchLeaf c) * 4096 + (2048 - s.poolFree c .vec)) l

/-- TILEHASH's two candidates (R313, R348): the cores beside the slice that owns the named line. -/
def tileCandidates (r wgid : Nat) : List Nat :=
  let ks := (List.range 6).map (· + 2) |>.filter fun k => bitOf (recTileMask r) k
  let t := (ks.foldl (fun a k => (a.1 + recLevel r wgid k * a.2, a.2 * recExtent r k)) (0, 1)).1
  let line := bitsOf (recTBase r + t * recTStride r) 7 45
  let c := 96 * (line / 48 % 2) + 2 * (line % 48)
  [c, c + 1]

/-- The placement mode in force: deterministic mode forces STATIC (R388). -/
def placeMode (r : Nat) : Nat := if recDet r then 2 else recPlace r

/-- The permitted set of a launch: fixed at its first release (R313). -/
def State.launchSet (s : State) (l : Launch) (x : Item) : List Nat := l.permitted.getD (s.permitted x)

/-- The core that STATIC maps a workgroup to. -/
def staticCore (set : List Nat) (wgid : Nat) : Option Nat := set[wgid % set.length]?

/-- Whether a core lies on the die that runs a workgroup's group bound to DIE (R18, R20). -/
def Launch.dieOk (l : Launch) (wgid core : Nat) : Bool :=
  match recDieMembers l.record with
  | none => true
  | some m => l.dies.all fun p => p.1 != wgid / m || p.2 == dieOfCore core

/-- The launch with the die of a released workgroup's group. -/
def Launch.onDie (l : Launch) (wgid core : Nat) : Launch :=
  match recDieMembers l.record with
  | none => l
  | some m => if l.dies.any fun p => p.1 == wgid / m then l else { l with dies := l.dies ++ [(wgid / m, dieOfCore core)] }

/-- The core that a workgroup outside cluster-bound groups goes to, if it is eligible (R313). `home` is the core of a
switched-out workgroup. -/
def State.coreFor (s : State) (l : Launch) (x : Item) (wgid : Nat) (home : Option Nat) (d : Demand) (skip : Option Nat) :
    Option Nat :=
  let ok (c : Nat) : Bool := s.permits x.cls x.entry c && s.admits c d skip [] [] && l.dieOk wgid c
  match placeMode l.record with
  | 0 => s.fitCore ((s.permitted x).filter ok)
  | 1 => (tileCandidates l.record wgid).find? ok
  | _ =>
    match home with
    | some c => if ok c then some c else none
    | none =>
      match staticCore (s.launchSet l x) wgid with
      | some c => if ok c then some c else none
      | none => none

/-- One member of a group after another on the cores that `choose` gives, the members already placed counted as resident
(R442). -/
def placeGroup (choose : Nat → List (Nat × Demand) → Option Nat) (d : Nat → Demand) :
    Nat → Nat → List (Nat × Demand) → Option (List Nat)
  | 0, _, _ => some []
  | n + 1, m, placed =>
    match choose m placed with
    | none => none
    | some c => (placeGroup choose d n (m + 1) (placed ++ [(c, d m)])).map fun l => c :: l

/-- The cores of a cluster. -/
def clusterCores (k : Nat) : List Nat := (List.range 12).map fun j => 12 * k + j

/-- The cores of a group's members in one cluster, if it admits the group whole (R442); `d` gives what each member asks. `homes` are
the cores of a switched-out group. In the order of FIT each member already placed on a core counts there as one more entry of its leaf
too, which R442 does not say: the model's choice (log 80). -/
def State.groupIn (s : State) (l : Launch) (x : Item) (k : Nat) (wgids : List Nat) (homes : List Nat) (d : Nat → Demand)
    (skip : Option Nat) : Option (List Nat) :=
  let ok (m : Nat) (placed : List (Nat × Demand)) (c : Nat) : Bool :=
    clusterOfCore c == k && s.permits x.cls x.entry c && s.admits c (d m) skip placed [] && l.dieOk (wgids.headD 0) c
  let fit (m : Nat) (placed : List (Nat × Demand)) : Option Nat :=
    leastBy (fun c => (s.leafLoad (dispatchLeaf c) + (placed.filter fun p => p.1 == c).length) * 4096 +
      (2048 - s.poolFree c .vec)) ((clusterCores k).filter (ok m placed))
  let choose (m : Nat) (placed : List (Nat × Demand)) : Option Nat :=
    match placeMode l.record with
    | 0 => fit m placed
    | 1 =>
      match (tileCandidates l.record (wgids.getD m 0)).head? with
      | some c => if ok m placed c then some c else fit m placed
      | none => fit m placed
    | _ =>
      let set := (s.launchSet l x).filter fun c => clusterOfCore c == k
      let c := match homes[m]? with
        | some c => some c
        | none => staticCore set (m)
      match c with
      | some c => if ok m placed c then some c else none
      | none => none
  placeGroup choose d wgids.length 0 []

/-- The cluster of a group by its launch's placement mode, and the cores of its members (R442). -/
def State.groupFor (s : State) (l : Launch) (x : Item) (wgids : List Nat) (homes : List Nat) (d : Nat → Demand)
    (skip : Option Nat) : Option (List Nat) :=
  let first := wgids.headD 0
  let ordinal := first / recMembers l.record
  let whole (k : Nat) : Option (List Nat) := s.groupIn l x k wgids homes d skip
  match placeMode l.record with
  | 0 =>
    let load (k : Nat) : Nat :=
      (((clusterCores k).filter fun c => s.permits x.cls x.entry c).map fun c => s.leafLoad (dispatchLeaf c)).sum
    match leastBy load ((List.range 16).filter fun k => (whole k).isSome) with
    | some k => whole k
    | none => none
  | 1 =>
    match (tileCandidates l.record first).find? fun c => s.permits x.cls x.entry c with
    | some c => whole (clusterOfCore c)
    | none => none
  | _ =>
    match homes.head? with
    | some c => whole (clusterOfCore c)
    | none =>
      let ks := (List.range 16).filter fun k => (s.launchSet l x).any fun c => clusterOfCore c == k
      match staticCore ks ordinal with
      | some k => whole k
      | none => none

/-! Destinations. -/

/-- The tile items of a workgroup before one of them that are still to be released, or withdrawn with it (R262, R311). -/
def State.tilesBefore (s : State) (u op : Nat) : Bool :=
  s.trl.items.any fun p => match p.2.kind, p.2.place with
    | .tile k, .tree _ => k < op && (match s.op? k with | some o => o.wg == u | none => false)
    | .tile k, .withdrawn => k < op && (match s.op? k with | some o => o.wg == u | none => false)
    | _, _ => false

/-- Whether a workgroup is switched out. -/
def State.isSaved (s : State) (u : Nat) : Bool :=
  s.trl.items.any fun p => match p.2.saved with | some v => v.uid == u | none => false

/-- The launch of the workgroup that a resume item returns. -/
def State.savedLaunch (s : State) (v : Saved) : Option Launch := s.launch? v.wg.launch

/-- The resume items that return together with one (R378): those of its cluster-bound group, by member index. -/
def State.resumeGroup (s : State) (i : Nat) (v : Saved) : List (Nat × Saved) :=
  match s.savedLaunch v with
  | none => [(i, v)]
  | some l =>
    if v.wg.task || !recHasCluster l.record then [(i, v)]
    else
      let m := recMembers l.record
      sortBy (fun p => p.2.wg.member) (s.trl.items.filterMap fun p => match p.2.saved with
        | some u =>
          if u.wg.launch == v.wg.launch && !u.wg.task && u.wg.wgid / m == v.wg.wgid / m then some (p.1, u) else none
        | none => none)

/-- The workgroups that a launch item releases next (R298, R442). -/
def Launch.nextGroup (l : Launch) : List Nat :=
  (List.range (if recHasCluster l.record then recMembers l.record else 1)).map (l.released + ·)

/-- The leaf of a fabric packet (R310, R417); one that no port leads to ends at the copy leaf as REFUSED. -/
def State.packetLeaf (s : State) (o : Op) (k : Nat) : Nat :=
  match copyShape o.instr o.blk with
  | some c =>
    let g := c.segment k
    let va := ((if c.bySrc then c.srcRow g.1 else c.dstRow g.1)).toNat + g.2.1
    (s.fabricLeaf o.core va).getD (copyLeaf o.core)
  | none => copyLeaf o.core

/-- Whether an operation is a fabric transfer. -/
def Op.isFabric (o : Op) : Bool := match o.instr with | .fsend _ | .fget _ => true | _ => false

/-- The leaves to which a release of an item would send what it releases, if they could take it: none while the item is not
eligible for another reason (R310, R311, R313, R442). -/
def State.destinations (s : State) (i : Nat) (x : Item) : Option (List Nat) :=
  let valid (l : List Nat) : Option (List Nat) := if l.all fun y => (s.leaf y).valid then some l else none
  match x.kind with
  | .tile o =>
    match s.op? o with
    | some p => if s.isSaved p.wg || s.tilesBefore p.wg o then none else valid [tileLeaf p.core]
    | none => none
  | .segment o k =>
    match s.op? o with
    | some p => valid [if p.isFabric then s.packetLeaf p k else copyLeaf p.core]
    | none => none
  | .task o =>
    match s.op? o, s.demandOf x with
    | some p, some d =>
      let ok (c : Nat) : Bool := s.permits x.cls x.entry c && s.admits c d none [] []
      let home := match p.spawner with | some g => if s.staticPlace g then some g.core else none | none => none
      (match home with
       | some c => if ok c then valid [dispatchLeaf c] else none
       | none => (s.fitCore ((s.permitted x).filter ok)).bind fun c => valid [dispatchLeaf c])
    | _, _ => none
  | .launch id =>
    match s.launch? id with
    | some l =>
      let d := l.demand
      if recHasCluster l.record then (s.groupFor l x l.nextGroup [] (fun _ => d) none).bind fun cs => valid (cs.map dispatchLeaf)
      else (s.coreFor l x l.released none d none).bind fun c => valid [dispatchLeaf c]
    | none => none
  | .resume _ _ _ =>
    match x.saved with
    | none => none
    | some v =>
      match s.savedLaunch v with
      | none => none
      | some l =>
        let d := v.wg.demand
        if v.wg.task then
          let ok (c : Nat) : Bool := s.permits x.cls x.entry c && s.admits c d none [] []
          if s.staticPlace v.wg then (if ok v.wg.core then valid [dispatchLeaf v.wg.core] else none)
          else (s.fitCore ((s.permitted x).filter ok)).bind fun c => valid [dispatchLeaf c]
        else if recHasCluster l.record then
          let group := s.resumeGroup i v
          let ready := group.all fun p => match s.item? p.1 with | some y => y.place == .tree [] | none => false
          if !ready then none
          else (s.groupFor l x (group.map fun p => p.2.wg.wgid) (group.map fun p => p.2.wg.core)
              (fun m => (group.map fun p => p.2.wg.demand).getD m d) none).bind fun cs =>
            valid (cs.map dispatchLeaf)
        else (s.coreFor l x v.wg.wgid (some v.wg.core) d none).bind fun c => valid [dispatchLeaf c]
  | .workgroup _ _ => none

/-- The top node above a node. -/
def State.topOf (s : State) (n : Nat) : Nat := (s.pathOf n).getLastD n

/-- Whether a leaf can take `n` more items of a top node: below 256, or one more through a reserve entry granted to it (R311, R322). -/
def State.leafRoom (s : State) (top l n : Nat) : Bool :=
  s.leafLoad l + n ≤ 256 || (n ≤ 1 && s.trl.grants.contains (queueOfLeaf l, top))

/-- Whether every leaf of a release has room for what it would receive. -/
def State.roomFor (s : State) (top : Nat) (ls : List Nat) : Bool :=
  ls.all fun l => s.leafRoom top l (ls.filter fun y => y == l).length

/-- The cores without work: nothing is resident on them, and nothing stands in their dispatch leaves or on its way there. -/
def State.idle (s : State) : State :=
  ({ s with wgs := [], waves := [] } : State).setTrl { s.trl with items := s.trl.items.filter fun p => match p.2.place with
    | .leaf l | .toLeaf l | .service l => l ≥ 192
    | _ => true }

/-- The leaves that an item targets whether or not their cores admit it now: where none does, as if the cores were without work, which
the model chooses (R321, log 80). -/
def State.targets (s : State) (i : Nat) (x : Item) : Option (List Nat) :=
  match s.destinations i x with
  | some ls => some ls
  | none => s.idle.destinations i x

/-- Whether an item is eligible at its entry node (R311). -/
def State.eligible (s : State) (i : Nat) : Bool :=
  match s.item? i with
  | none => false
  | some x =>
    x.place == .tree [] &&
    match s.destinations i x with
    | none => false
    | some ls => s.roomFor (s.topOf x.entry) ls

end Sys2Proof.Machine
end

