-- ==== Sys2Proof/Machine/Sync.lean ====
section
/-! DEFINITION. Synchronisation (spec/07 R218 to R231): barriers, fences, sync objects, watched words, timeline waits, ordered
tickets and quiescence domains; the end of a hold (R194). -/

namespace Sys2Proof.Machine

/-! Results and holds. -/

/-- The scalar register that an M-format word names for its result, unless it is omitted (R193). -/
def dstOf (f : M) : Option Nat := if f.data == 255 then none else some f.data.toNat

/-- The result of a synchronisation instruction, as N64. -/
def sclPuts (f : M) (v : Nat) : List Put :=
  match dstOf f with
  | some n => [.scl n (BitVec.ofNat 64 v)]
  | none => []

def sclDsts (f : M) : List (RegFile × Nat) := match dstOf f with | some n => [(.scl, n)] | none => []

/-- The reads and releases of `k` scalar data registers. -/
def Issue.sclReads (f : M) (k : Nat) (e : Mask) : List Read :=
  (List.range k).map fun j => ⟨.scl, f.data.toNat + j, allLanes, e, []⟩
def Issue.sclRels (f : M) (k : Nat) : List Rel :=
  if f.last then (List.range k).map fun j => ⟨.scl, f.data.toNat + j, allLanes⟩ else []

/-- The hold is over: the instruction retires with its result and with the sticky bits of its reads, and the wave goes on (R194,
R53). -/
def State.finishHold (s : State) (x : Issue) (reads : List Read) (rels : List Rel) (puts : List Put) (st : Sticky) : State :=
  let own := match x.wave.hold with | some h => h.sticky | none => 0
  (s.updWave x.w fun y => { y with hold := none }).finish x reads rels puts (st ||| own)

/-! Barriers. -/

/-- BAR (R218): the wave is held, and arrives once its own group-register results are visible (R34). -/
def execBar (f : M) (s : State) : Host.Outcome State Fault Refusal :=
  s.run (.bar f) f.g fun x e =>
    s.gated x [] (sclDsts f) fun st => (s.holdWave x (.bar f) e 0 st).arrive x.w

/-- BARC (R219). -/
def execBarc (f : M) (s : State) : Host.Outcome State Fault Refusal :=
  s.run (.barc f) f.g fun x e =>
    s.gated x [] (sclDsts f) fun st => (s.holdWave x (.barc f) e 0 st).arrive x.w

/-! Fences and sync objects. -/

/-- Whether every access that the wave has issued is complete (R221); a readback is an engine's (R284). -/
def Wave.quiet (x : Wave) : Bool := x.ll.all fun o => o.done || o.op.isSome

/-- FENCE (R221): it holds until the wave's earlier accesses are complete, and performs them at its scope. -/
def execFence (f : M) (s : State) : Host.Outcome State Fault Refusal :=
  s.run (.fence f) f.g fun x e =>
    s.gated x [] [] fun st =>
      if x.wave.quiet then (s.perform x.core f.scope.toNat fun _ => true).finish x [] [] [] st
      else s.holdWave x (.fence f) e 0 st

/-- An access of 8 bytes at one address for every lane of EXEC. -/
def Issue.wordAccess (x : Issue) (i : Instr) (f : M) (sp : Space) (need : Need) (e : Mask) (reads : List Read)
    (dsts : List (RegFile × Nat)) : Access :=
  ⟨sp, need, 8, 8, true, x.addrReads i f e ++ reads, dsts⟩

/-- Read the word of such an access into the result: uncorrectable data traps at the instruction (R201, R375, log 18). -/
def State.readWord (s : State) (x : Issue) (e : Mask) (f : M) (p : LaneLoc) (own : State → Nat → State × Sticky) : Perf :=
  let r := s.readLoc x f.scope.toNat p.loc 8
  if r.1.badLoc x.core f.scope.toNat p.loc 8 then .trap 6 p.addr e
  else
    let o := own r.1 r.2
    .done o.1 o.2 (sclPuts f r.2)

/-- SYACQ (R222). -/
def execSyacq (f : M) (s : State) : Host.Outcome State Fault Refusal :=
  s.run (.syacq f) f.g fun x e =>
    s.access x e (x.wordAccess (.syacq f) f .global ⟨true, false, false⟩ e [] (sclDsts f))
      [(lowestLane e, s.addrOf x (.syacq f) f 0)] (x.addrRels (.syacq f) f)
      fun t l => match l with
        | [] => .done t 0 []
        | p :: _ => t.readWord x e f p fun u _ => (u, u.acquire x f.scope.toNat f.scope.toNat [p.loc] 8)

/-- SYREL (R222): the covered writes are performed at the scope, then the word is written as a release. -/
def execSyrel (f : M) (s : State) : Host.Outcome State Fault Refusal :=
  s.run (.syrel f) f.g fun x e =>
    s.access x e (x.wordAccess (.syrel f) f .global ⟨false, true, false⟩ e (Issue.sclReads f 1 e) [])
      [(lowestLane e, s.addrOf x (.syrel f) f 0)] (fun m => x.addrRels (.syrel f) f m ++ Issue.sclRels f 1)
      fun t l => match l with
        | [] => .done t 0 []
        | p :: _ =>
          let t := t.perform x.core f.scope.toNat (t.covered x.wg.ctx p.addr.toNat)
          let t := t.writeLoc x f.scope.toNat p.addr p.loc 8 (s.sreg x f.data.toNat).toNat
          .done (t.recordRelease (s.agent x f.scope.toNat) f.scope.toNat x.core [p.loc] 8) 0 []

/-- The objects of the binding table (R223). -/
def State.boundObjects (s : State) : List (Nat × Nat) := (s.mem.binds.map fun b => (b.ctx, b.obj)).eraseDups

/-- Set a range slot of an object, or clear it with length 0; none where a new object finds the context's table full (R223: the
bindings are held per context, which is read as 4,096 objects of each context, log 73). -/
def State.bindRange (s : State) (ctx obj slot start len : Nat) : Option State :=
  let rest := s.mem.binds.filter fun b => !(b.ctx == ctx && b.obj == obj && b.slot == slot)
  if len = 0 then some (s.setMem { s.mem with binds := rest })
  else if !s.boundObjects.contains (ctx, obj) && (s.boundObjects.filter fun o => o.1 == ctx).length ≥ 4096 then none
  else some (s.setMem { s.mem with binds := rest ++ [⟨ctx, obj, slot, start, len⟩] })

/-- SYBIND (R223). -/
def execSybind (f : M) (s : State) : Host.Outcome State Fault Refusal :=
  s.run (.sybind f) f.g fun x e =>
    let addr := s.addrOf x (.sybind f) f 0
    let start := (s.sreg x f.data.toNat).toNat
    let len := (s.sreg x (f.data.toNat + 1)).toNat
    let c := x.wordAccess (.sybind f) f .global ⟨true, false, false⟩ e (Issue.sclReads f 2 e) []
    if addr.toNat % 8 = 0 && len != 0 && start + len > 2 ^ 60 then
      s.gated x c.reads [] fun _ => s.raiseTrap x 5 addr e 0
    else
      s.access x e c [(lowestLane e, addr)] (fun m => x.addrRels (.sybind f) f m ++ Issue.sclRels f 2)
        fun t _ => match t.bindRange x.wg.ctx addr.toNat (f.off.toNat % 8) start len with
          | some u => .done u 0 []
          | none => .trap 0x0A 0 e

/-! Watched words. -/

/-- MWATCH (R224): at GROUP scope the word is in the wave's scratchpad. -/
def execMwatch (f : M) (s : State) : Host.Outcome State Fault Refusal :=
  s.run (.mwatch f) f.g fun x e =>
    let addr := s.addrOf x (.mwatch f) f 0
    let sp : Space := if f.scope = 1 then .spad else .global
    s.access x e (x.wordAccess (.mwatch f) f sp ⟨true, false, false⟩ e [] (sclDsts f)) [(lowestLane e, addr)]
      (x.addrRels (.mwatch f) f)
      fun t l => match l with
        | [] => .done t 0 []
        | p :: _ => t.readWord x e f p fun u v =>
          (u.updWave x.w fun y => { y with watch := some ⟨addr, f.scope.toNat, BitVec.ofNat 64 v⟩ }, 0)

/-- Where a watched word stands, as the translation of this moment says; none where its page is not present. -/
def State.watchLoc (s : State) (g : Wg) (a : Watch) : Option Loc :=
  if a.scope = 1 then (match g.spadReach a.addr.toNat 8 with | .lands c => some c | _ => none)
  else if bitOf a.addr.toNat 59 && bitsOf a.addr.toNat 53 6 != s.cmd.pkgId then
    some (.far (bitsOf a.addr.toNat 53 6) a.addr.toNat)
  else
    match s.walk g.ctx a.addr.toNat with
    | .leaf _ e size =>
      let pa := bitsOf e 12 40 * 4096 + a.addr.toNat % size
      (match s.target pa with
       | .remote h => some (.far h pa)
       | _ => some (.mem pa (bitsOf e 8 2 == 1)))
    | .absent _ => none

/-- The watched word as it is seen at the watch's scope (R225); its last value while its page is not present. -/
def State.watchLook (s : State) (core : Nat) (g : Wg) (a : Watch) : DWord :=
  match s.watchLoc g a with
  | some (.mem pa u) => BitVec.ofNat 64 (s.peekNat core (Loc.scope (.mem pa u) a.scope) pa 8)
  | some (.spad k off) => BitVec.ofNat 64 (cellsNat (s.core k).spad off 8)
  | some (.far _ va) => BitVec.ofNat 64 (s.farNat va 8)
  | none => a.last

/-- What the acquire of the watched word's value sets (R280, R281). -/
def State.watchAcquire (s : State) (x : Issue) (a : Watch) : Sticky :=
  match s.watchLoc x.wg a with
  | some c => s.acquire x a.scope a.scope [c] 8
  | none => 0

/-- A load of the watched word performs the narrower copies that the core holds of it (R277). -/
def State.watchSettle (s : State) (core : Nat) (g : Wg) (a : Watch) : State :=
  match s.watchLoc g a with
  | some (.mem pa u) => s.settle core (Loc.scope (.mem pa u) a.scope) pa 8
  | _ => s

/-- Whether the watched word, as it is seen at the watch's scope, is uncorrectable (R351). -/
def State.watchBad (s : State) (core : Nat) (g : Wg) (a : Watch) : Bool :=
  match s.watchLoc g a with
  | some c => s.badLoc core a.scope c 8
  | none => false

/-- The watched word of the issuing wave is read as a load reads it: narrower copies are performed (R277). -/
def State.settleWatch (s : State) (x : Issue) : State :=
  match x.wave.watch with
  | some a => s.watchSettle x.core x.wg a
  | none => s

/-- A restored wave's watch is armed again, and its word is read (R386). -/
def State.watchAgain (s : State) (core : Nat) (g : Wg) (x : Wave) : State × Wave :=
  match x.watch with
  | none => (s, x)
  | some a =>
    let s := s.watchSettle core g a
    (s, { x with watch := some { a with last := s.watchLook core g a } })

/-- MWAIT's end with a value that it has read (R225): a changed one is acquired, which sets `st`. -/
def State.endMwait (s : State) (x : Issue) (e : Mask) (f : M) (v : DWord) (st : Sticky) : State :=
  let s := s.updWave x.w fun y => { y with watch := y.watch.map fun a => { a with last := v } }
  s.finishHold x (Issue.sclReads f 1 e ++ x.addrReads (.mwait f) f e) (x.addrRels (.mwait f) f e) (sclPuts f v.toNat) st

/-- MWAIT (R225). Uncorrectable data raises UNCORRECTABLE at the MWAIT, with the word's address (R375, log 18). -/
def execMwait (f : M) (s : State) : Host.Outcome State Fault Refusal :=
  s.run (.mwait f) f.g fun x e =>
    let reads := Issue.sclReads f 1 e ++ x.addrReads (.mwait f) f e
    s.gated x reads (sclDsts f) fun st =>
      match x.wave.watch with
      | none => s.finish x reads (x.addrRels (.mwait f) f e) [] st
      | some a =>
        let t := s.settleWatch x
        let v := t.watchLook x.core x.wg a
        if t.watchBad x.core x.wg a then t.raiseTrap x 6 a.addr e 0
        else if v != s.sreg x f.data.toNat then t.endMwait x e f v (st ||| t.watchAcquire x a)
        else t.holdWave x (.mwait f) e v st

/-- A held MWAIT whose word holds another value than sD is over, with the value it saw and what its acquire sets (R225), as is one whose word
is uncorrectable, which is to trap (R375). -/
def State.wakeWatch (s : State) (w : Nat) (x : Wave) : Wave :=
  match x.hold, x.watch, s.issueOf w with
  | some h, some a, some y =>
    match h.instr with
    | .mwait f =>
      let v := s.watchLook y.core y.wg a
      if h.done then x
      else if s.watchBad y.core y.wg a then { x with hold := some { h with done := true, bad := true } }
      else if v = x.scalar f.data.toNat then x
      else { x with hold := some { h with done := true, arg := v, sticky := h.sticky ||| s.watchAcquire y a } }
    | _ => x
  | _, _, _ => x

/-- The words that MWAITs watch are looked at. -/
def State.wakeWatches (s : State) : State :=
  if s.waves.all fun p => p.2.hold.isNone then s
  else { s with waves := s.waves.map fun (p : Nat × Wave) => (p.1, s.wakeWatch p.1 p.2) }

/-- The timeout of an MWAIT in hold. -/
def State.mwaitTimeout? (s : State) (w : Nat) : Option (M × Mask) :=
  match s.issueOf w with
  | none => none
  | some x =>
    match x.wave.hold with
    | none => none
    | some h =>
      match h.instr with
      | .mwait f => if !h.done && s.opnd x .n32 f.index 0 != 0 then some (f, h.exec) else none
      | _ => none

/-- MWAIT_TIMEOUT (R225): sD receives the current value; where that has changed the MWAIT is an acquire point (R280). -/
def execMwaitTimeout (w : Nat) (s : State) : Host.Outcome State Fault Refusal :=
  match s.mwaitTimeout? w, s.issueOf w with
  | some (f, e), some x =>
    let s := s.settleWatch x
    .next (match x.wave.watch with
      | none => s.finishHold x (Issue.sclReads f 1 e ++ x.addrReads (.mwait f) f e) (x.addrRels (.mwait f) f e)
          (sclPuts f (s.sreg x f.data.toNat).toNat) 0
      | some a =>
        let v := s.watchLook x.core x.wg a
        if s.watchBad x.core x.wg a then s.raiseTrap x 6 a.addr e 0
        else s.endMwait x e f v (if v = s.sreg x f.data.toNat then 0 else s.watchAcquire x a))
  | _, _ => .fault .notEnabled

/-! Timeline waits. -/

/-- How a WAITTL stands (R226). -/
inductive TlWait where
  | fault (n : Nat)
  | done
  | waits
  deriving DecidableEq, Repr

/-- The test of a WAITTL at its issue, where the fault record goes first (R194, R226). -/
def Timeline.wait (t : Timeline) (n : Nat) : TlWait :=
  match t.fault with
  | some (_, k, _) => if k ≤ n then .fault k else if n ≤ t.done then .done else .waits
  | none => if n ≤ t.done then .done else .waits

/-- The test of a held WAITTL: only when its counter has come is the fault record tested again (R194). -/
def Timeline.heldWait (t : Timeline) (n : Nat) : TlWait := if n ≤ t.done then t.wait n else .waits

/-- The number that a WAITTL waits for. -/
def State.waitNumber (s : State) (x : Issue) (f : M) : Nat := s.opnd x .n64 f.base 0

/-- The timeline that a WAITTL names. -/
def Issue.waitLine (x : Issue) (f : M) : Nat := tlselCtx (x.tlsel (f.data.toNat % 8))

/-- WAITTL (R226). -/
def execWaittl (f : M) (s : State) : Host.Outcome State Fault Refusal :=
  s.run (.waittl f) f.g fun x e =>
    let reads := x.addrReads (.waittl f) f e
    let t := s.timeline (x.waitLine f)
    s.gated x reads [] fun st =>
      if t.bound != some x.wg.ctx then s.raiseTrap x 5 0 e 0
      else
        match t.wait (s.waitNumber x f) with
        | .fault n => s.raiseTrap x 0x0F (BitVec.ofNat 64 n) e 0
        | .done => s.finish x reads (x.addrRels (.waittl f) f e) [] st
        | .waits => s.holdWave x (.waittl f) e 0 st

/-! Ordered tickets. -/

/-- The status of a workgroup's ticket (R227): none while the counter has not reached it. A task's is PASSED (R251). -/
def State.ticketStatus (s : State) (g : Wg) : Option Nat :=
  if g.task then some 2
  else
    let c := match s.launch? g.launch with | some l => (l.ticket, l.mark) | none => (0, false)
    if c.1 < g.wgid then none else if c.1 > g.wgid then some 2 else if c.2 then some 1 else some 0

/-- The counter has reached the ticket (R227): ABANDONED_TICKET, or the status is written and the mark consumed; an ORDA at
its own ticket releases at its scope and advances the counter. -/
def State.endTicket (s : State) (x : Issue) (e : Mask) (f : M) (advance : Bool) (status : Nat) (st : Sticky) : State :=
  if status = 1 && (dstOf f).isNone then s.raiseTrap x 0x10 0 e 0
  else
    let s := if status = 1 then s.updLaunch x.wg.launch fun l => { l with mark := false } else s
    let s := if advance && status ≤ 1 then
        let s := (s.perform x.core f.scope.toNat fun _ => true).updWg x.wave.wg fun g => { g with ticket := true }
        s.passTicket x.wg.launch false
      else s
    s.finishHold x [] [] (sclPuts f status) st

/-- ORDW and ORDA at issue. -/
def State.ticket (s : State) (i : Instr) (f : M) (advance : Bool) (x : Issue) (e : Mask) : State :=
  s.gated x [] (sclDsts f) fun st =>
    match s.ticketStatus x.wg with
    | some k => s.endTicket x e f advance k st
    | none => s.holdWave x i e 0 st

/-- ORDW (R227). -/
def execOrdw (f : M) (s : State) : Host.Outcome State Fault Refusal :=
  s.run (.ordw f) f.g fun x e => s.ticket (.ordw f) f false x e

/-- ORDA (R227, R228). -/
def execOrda (f : M) (s : State) : Host.Outcome State Fault Refusal :=
  s.run (.orda f) f.g fun x e => s.ticket (.orda f) f true x e

/-! Quiescence domains. -/

/-- Whether a root may be named by a context: its number is in range and it is granted (R229, R329). -/
def State.rootGranted (s : State) (d ctx : Nat) : Bool := d ≤ 1023 && (s.root d).granted && (s.root d).ctx == ctx

/-- The wave's whole weight in a root returns to it directly, once its writes are performed (R230, R292, R334). -/
def State.returnOwn (s : State) (x : Issue) (d : Nat) : State :=
  match x.wave.weight with
  | some a =>
    if a.root = d then
      let s := s.perform x.core (s.root d).scope fun _ => true
      let s := s.updWave x.w fun y => { y with weight := none }
      (s.applyClock ⟨d, a.w, false, s.placeOf x.core⟩).flushPool x.core
    else s
  | none => s

/-- WAITQ (R230). -/
def execWaitq (f : M) (s : State) : Host.Outcome State Fault Refusal :=
  s.run (.waitq f) f.g fun x e =>
    let d := s.opnd x .n32 f.base 0
    let reads := x.addrReads (.waitq f) f e
    s.gated x reads (sclDsts f) fun st =>
      if !(s.rootGranted d x.wg.ctx && (s.root d).isOpen) then
        (s.returnOwn x d).finish x reads (x.addrRels (.waitq f) f e) (sclPuts f 3) st
      else
        let s := (s.holdWave x (.waitq f) e (BitVec.ofNat 64 d) st).returnOwn x d
        if (s.root d).o = 0 then s.releaseWaiters d else s

/-- QOPEN (R229, R328). -/
def execQopen (f : M) (s : State) : Host.Outcome State Fault Refusal :=
  s.run (.qopen f) f.g fun x e =>
    let d := s.opnd x .n32 f.base 0
    let w := s.opnd x .n64 f.index 0
    let reads := x.addrReads (.qopen f) f e
    s.gated x reads (sclDsts f) fun st =>
      let fin (s : State) (status : Nat) : State := s.finish x reads (x.addrRels (.qopen f) f e) (sclPuts f status) st
      if !s.rootGranted d x.wg.ctx || w > 2 ^ 62 then fin s 3
      else if x.wave.weight.isSome then fin s 2
      else if (s.root d).isOpen then fin s 1
      else
        let r := s.root d
        let o := if w = 0 then 2 ^ 62 else w
        let s := s.setRoot d { r with
          isOpen := true, o := o, scope := f.scope.toNat, place := s.placeOf x.core, abort := false, err := r.late
          late := false, foreign := false }
        fin (s.updWave x.w fun y => { y with weight := some ⟨d, o⟩ }) 0

/-- QCLOSE (R231, R328). -/
def execQclose (f : M) (s : State) : Host.Outcome State Fault Refusal :=
  s.run (.qclose f) f.g fun x e =>
    let d := s.opnd x .n32 f.base 0
    let reads := x.addrReads (.qclose f) f e
    s.gated x reads (sclDsts f) fun st =>
      let fin (s : State) (status : Nat) : State := s.finish x reads (x.addrRels (.qclose f) f e) (sclPuts f status) st
      let r := s.root d
      if !s.rootGranted d x.wg.ctx then fin s 3
      else if !r.isOpen then fin s 2
      else if r.o != 0 then fin s 1
      else fin (s.setRoot d { r with isOpen := false, abort := false, err := false, foreign := false }) 0

/-! The end of a hold. -/

/-- Whether a wave's hold can end (R194). -/
def State.holdOver (s : State) (w : Nat) : Bool :=
  match s.issueOf w with
  | none => false
  | some x =>
    match x.wave.hold with
    | none => false
    | some h =>
      match h.instr with
      | .bar _ | .barc _ | .waitq _ | .mwait _ => h.done
      | .fence _ => x.wave.quiet
      | .waittl f => (s.timeline (x.waitLine f)).heldWait (s.waitNumber x f) != .waits
      | .ordw _ | .orda _ => (s.ticketStatus x.wg).isSome
      | _ => false

/-- HOLD_END (R194): the held instruction retires with its result, or traps. -/
def execHoldEnd (w : Nat) (s : State) : Host.Outcome State Fault Refusal :=
  if !s.holdOver w then .fault .notEnabled
  else
    match s.issueOf w with
    | none => .fault .notEnabled
    | some x =>
      match x.wave.hold with
      | none => .fault .notEnabled
      | some h =>
        match h.instr with
        | .bar f | .barc f => .next (s.finishHold x [] [] (sclPuts f h.arg.toNat) 0)
        | .fence f => .next ((s.perform x.core f.scope.toNat fun _ => true).finishHold x [] [] [] 0)
        | .mwait f =>
          let s := s.settleWatch x
          .next (if h.bad then s.raiseTrap x 6 (match x.wave.watch with | some a => a.addr | none => 0) h.exec 0
            else s.endMwait x h.exec f h.arg 0)
        | .waitq f =>
          .next (s.finishHold x (x.addrReads (.waitq f) f h.exec) (x.addrRels (.waitq f) f h.exec)
            (sclPuts f (h.arg.toNat % 256)) (stickyIf (h.arg.toNat ≥ 256) .scopemis))
        | .waittl f =>
          (match (s.timeline (x.waitLine f)).heldWait (s.waitNumber x f) with
           | .fault n => .next (s.raiseTrap x 0x0F (BitVec.ofNat 64 n) h.exec 0)
           | _ => .next (s.finishHold x (x.addrReads (.waittl f) f h.exec) (x.addrRels (.waittl f) f h.exec) [] 0))
        | .ordw f => .next (s.endTicket x h.exec f false ((s.ticketStatus x.wg).getD 2) 0)
        | .orda f => .next (s.endTicket x h.exec f true ((s.ticketStatus x.wg).getD 2) 0)
        | _ => .fault .notEnabled

end Sys2Proof.Machine
end

