-- ==== Sys2Proof/Machine/Atomics.lean ====
section
/-! DEFINITION. Atomics, reductions and exact accumulators (spec/07 R213 to R217). -/

namespace Sys2Proof.Machine

/-- The larger or smaller of two FP32 words by R215. -/
def atomicPick (max : Bool) (m x : Nat) : Nat :=
  let a := decodeFloat fp32 m
  let b := decodeFloat fp32 x
  if isNanNum b then m
  else if isNanNum a then x
  else if max then (if orderedLt a b then x else m) else (if orderedLt b a then x else m)

/-- The new value of an atomic step from the old value, the operand and the compare value (R213). -/
def atomicStep (op : Nat) (t : Ty) (m x cmp : Nat) : Nat :=
  let w := 2 ^ tyWidth t
  match op with
  | 0 => (m + x) % w
  | 1 => if rdInt t x < rdInt t m then x else m
  | 2 => if rdInt t m < rdInt t x then x else m
  | 3 => m &&& x
  | 4 => m ||| x
  | 5 => m ^^^ x
  | 6 => x
  | 7 => if m = cmp then x else m
  | 8 => if m ≥ x then 0 else m + 1
  | 9 => if m = 0 || m > x then x else m - 1
  | 10 => (perElem3 t (fun f a b _ => fAdd f .rne false a b) m x 0).1
  | 11 => atomicPick false m x
  | _ => atomicPick true m x

/-- The scope of the point at which an atomic step is performed (R347): a die's L2 at DIE scope or narrower. -/
def atomicScope (scope : Nat) : Nat := if scope ≤ 3 then 3 else scope

/-- The line is first made coherent with every other copy of it, at DIE scope with those of the other die (R347, R278). -/
def State.gatherLoc (s : State) (core scope : Nat) (c : Loc) (n : Nat) : State :=
  match c with
  | .mem pa _ => if c.scope scope ≤ 3 then s.gatherDies core pa n else s.gather pa n
  | _ => s

/-- One atomic step at a location of `n` bytes: the old value and whether it was uncorrectable; an uncorrectable location is
left unchanged (R201). Another package is sent the operation with its operands (R416). -/
def State.stepLoc (s : State) (x : Issue) (scope n op : Nat) (args : List Byte) (p : LaneLoc) (new : Nat → Nat) :
    State × Nat × Bool :=
  match p.loc with
  | .far home va => (s.send (.request home va n args (some op)), s.farNat va n, Config.remotePoisons s.tick va)
  | _ =>
    let s := s.gatherLoc x.core scope p.loc n
    let r := s.readLoc x scope p.loc n
    if r.1.badLoc x.core scope p.loc n then (r.1, r.2, true) else (r.1.writeLoc x scope p.addr p.loc n (new r.2), r.2, false)

/-- The steps of all lanes, one after another in lane order (R198). -/
def State.stepLanes (s : State) (x : Issue) (scope n op : Nat) (args : Nat → List Byte) (new : Nat → Nat → Nat) :
    List LaneLoc → State × List (LaneLoc × Nat × Bool)
  | [] => (s, [])
  | p :: l =>
    let r := s.stepLoc x scope n op (args p.lane) p (new p.lane)
    let t := r.1.stepLanes x scope n op args new l
    (t.1, (p, r.2) :: t.2)

/-- An atomic or a reduction (R213, R214). `ret` says that the old value is returned as a long-latency result. -/
def State.atomic (s : State) (x : Issue) (e : Mask) (i : Instr) (f : M) (sp : Space) (ret : Bool) : State :=
  let t := f.ty
  let n := if t.is64 then 8 else 4
  let k := n / 4
  let all := atomicRegs f.aop t
  let d := f.data.toNat
  let step (l m : Nat) : Nat :=
    atomicStep f.aop t m (s.dataVal x d k l) (if f.aop = 7 then s.dataVal x (d + k) k l else 0)
  s.access x e ⟨sp, ⟨true, true, false⟩, n, n, false, x.addrReads i f e ++ x.dataReads d all e,
      if ret then dataRegs d k else []⟩
    (s.laneAddrs x i f e) (fun m => x.addrRels i f m ++ x.dataRels d all f.last m)
    fun s l =>
      let s := s.releaseBefore x f
      let at' := atomicScope f.scope.toNat
      let r := s.stepLanes x at' n f.aop (fun k => bytesOf (4 * all) (s.dataVal x d all k)) step l
      let acq := r.1.acquireLanes x f at' n l
      let s := r.1.releaseAfter x f at' n l
      if ret then
        let o := LLOp.of (x.laneWrites d k (lanesOf l) (r.2.map fun p => (p.1.lane, p.2.1)))
        .done s 0 [.later { o.withBad r.2 with sticky := acq }]
      else .done s 0 []

/-- ATOMG (R214). -/
def execAtomg (f : M) (s : State) : Host.Outcome State Fault Refusal :=
  s.run (.atomg f) f.g fun x e => s.atomic x e (.atomg f) f .global true

/-- ATOMS (R214). -/
def execAtoms (f : M) (s : State) : Host.Outcome State Fault Refusal :=
  s.run (.atoms f) f.g fun x e => s.atomic x e (.atoms f) f .spad true

/-- ATOMX (R214). -/
def execAtomx (f : M) (s : State) : Host.Outcome State Fault Refusal :=
  s.run (.atomx f) f.g fun x e => s.atomic x e (.atomx f) f .remote true

/-- REDG (R214). -/
def execRedg (f : M) (s : State) : Host.Outcome State Fault Refusal :=
  s.run (.redg f) f.g fun x e => s.atomic x e (.redg f) f .global false

/-- REDS (R214). -/
def execReds (f : M) (s : State) : Host.Outcome State Fault Refusal :=
  s.run (.reds f) f.g fun x e => s.atomic x e (.reds f) f .spad false

/-- The object after one lane's value is added: both halves of a packed type, the lower first (R216). -/
def xredStep (t : Ty) (v m : Nat) : Nat :=
  let o := XObj.ofBytes m
  match fmtOf t with
  | none => m
  | some f =>
    if isPacked t then (xAdd f (xAdd f o (v % 65536)) (v / 65536 % 65536)).toBytes
    else (xAdd f o (v % 2 ^ (1 + f.eb + f.fb))).toBytes

/-- XRED (R216). -/
def execXred (f : M) (s : State) : Host.Outcome State Fault Refusal :=
  s.run (.xred f) f.g fun x e =>
    let d := f.data.toNat
    s.access x e ⟨.global, ⟨true, true, false⟩, 64, 64, false, x.addrReads (.xred f) f e ++ x.dataReads d 1 e, []⟩
      (s.laneAddrs x (.xred f) f e) (fun m => x.addrRels (.xred f) f m ++ x.dataRels d 1 f.last m)
      fun t l =>
        let t := t.releaseBefore x f
        let at' := atomicScope f.scope.toNat
        let r := t.stepLanes x at' 64 13 (fun k => bytesOf 4 (s.dataVal x d 1 k)) (fun k m => xredStep f.ty (s.dataVal x d 1 k) m) l
        .done (r.1.releaseAfter x f at' 64 l) 0 []

/-- XRD (R217): the rounded value, whose bits are set when the result becomes visible, or the 64 bytes. An enabled condition
is raised at the instruction, as R129 raises those of the other long-latency results (log 16); uncorrectable data has no condition. -/
def execXrd (f : M) (s : State) : Host.Outcome State Fault Refusal :=
  s.run (.xrd f) f.g fun x e =>
    let raw := f.width == 1
    let k := if raw then 16 else 1
    let read (m : Nat) : Nat × Sticky := if raw then (m, 0) else xRead (rndOfNat f.cache.toNat) (XObj.ofBytes m)
    let lanes := s.laneAddrs x (.xrd f) f e
    let r := s.reachAll x .global ⟨true, false, false⟩ 64 lanes
    let own (p : Nat × DWord × Reach) : Sticky := match p.2.2 with
      | .lands c =>
        let q := s.readLoc x f.scope.toNat c 64
        if q.1.badLoc x.core f.scope.toNat c 64 then 0 else (read q.2).2
      | _ => 0
    let due := maskOf fun l => r.2.any fun p => p.1 == l && arithEnabled x.wave.trapen (own p)
    let ok := lanes.all (fun p => p.2.toNat % 64 == 0) && r.2.all fun p => p.2.2 != .prot
    let reads := x.addrReads (.xrd f) f e
    let body (s : State) : State :=
      s.access x e ⟨.global, ⟨true, false, false⟩, 64, 64, false, reads, dataRegs f.data.toNat k⟩ lanes
        (x.addrRels (.xrd f) f)
        fun s l =>
          let r := s.readLanes x f.scope.toNat 64 l
          let vals := r.2.map fun p => (p.1.lane, if p.2.2 then (0, 0) else read p.2.1)
          let o := LLOp.of (x.laneWrites f.data.toNat k (lanesOf l) (vals.map fun p => (p.1, p.2.1)))
          .done r.1 0 [.later { o.withBad r.2 with sticky := stickyAll (vals.map (·.2.2)) ||| r.1.acquireLanes x f f.scope.toNat 64 l }]
    if due != 0 && ok && !x.cl.handler then
      s.gated x reads (dataRegs f.data.toNat k) fun st => s.raiseTrap x 0x0B 0 due (st ||| stickyAll (r.2.map own))
    else body s

end Sys2Proof.Machine
end

