-- ==== Sys2Proof/Machine/Copy.lean ====
section
/-! DEFINITION. The copy engine and the fabric ports at work (spec/08 R246 to R248, R255, R256): segments, packets, and the
completion of operations (R236, R238, R247). -/

namespace Sys2Proof.Machine

/-! Accesses of an engine for the workgroup that issued an operation. -/

/-- The statuses of R238. -/
def stProtection : Nat := 1
def stPageFault : Nat := 2
def stUncorrectable : Nat := 3
def stRefused : Nat := 4
def stKilled : Nat := 5

/-- What an engine's access gives: a value, a failed condition, or a wait on the fault path. -/
inductive Got where
  | value (v : Nat)
  | fail (status addr : Nat)
  | wait (reason addr : Nat)
  deriving DecidableEq, Repr

/-- The scratchpad of the workgroup that issued an operation, while it exists (R439, log 20). -/
def State.opSpad (s : State) (o : Op) (off n : Nat) : Option (Nat × Nat) :=
  match s.wg? o.wg with
  | some g => if off + n ≤ g.spadSize then some (g.core, g.spadBase + off) else none
  | none => none

/-- Read `n` bytes inside one page, as the issuing workgroup's engines see them (R239, R275). -/
def State.enginePart (s : State) (o : Op) (a n : Nat) : State × Got :=
  match s.resolve o.core o.ctx a ⟨true, false, false⟩ with
  | (s, .prot) => (s, .fail stProtection a)
  | (s, .park why) => (s, .wait why a)
  | (s, .remote h va) =>
    if !s.routed h then (s, .fail stRefused a)
    else if Config.remoteDenies s.tick then (s, .fail stProtection a)
    else if Config.remotePoisons s.tick va then (s, .fail stUncorrectable a)
    else (s.send (.request h va n [] none), .value (s.farNat va n))
  | (s, .ok pa u) =>
    let scope := if u then 5 else 1
    let r := s.loadNat o.core scope pa n
    if r.1.poisonedRange o.core scope pa n then (r.1, .fail stUncorrectable a) else (r.1, .value r.2)

/-- Read up to 16 bytes, which may lie in two pages. -/
def State.engineRead (s : State) (o : Op) (sp : Bool) (a n : Nat) : State × Got :=
  if sp then
    match s.opSpad o a n with
    | some (core, off) => (s, .value (cellsNat (s.core core).spad off n))
    | none => (s, .fail stProtection a)
  else
    let k := 4096 - a % 4096
    if n ≤ k then s.enginePart o a n
    else
      match s.enginePart o a k with
      | (s, .value lo) =>
        match s.enginePart o (a + k) (n - k) with
        | (s, .value hi) => (s, .value (lo + hi * 2 ^ (8 * k)))
        | r => r
      | r => r

/-- Write up to 16 bytes inside one granule. An engine's write is performed at SYSTEM scope at once, which is wide enough for each
scope that R236 and R286 ask of a complete operation (log 5). `whole` says that with it the operation has written the whole of the
32-byte granule that ends there (R351). -/
def State.engineWrite (s : State) (o : Op) (sp whole : Bool) (a n v : Nat) : State × Got :=
  if sp then
    match s.opSpad o a n with
    | some (core, off) => (s.updCore core fun c => { c with spad := cellsPut c.spad off n v }, .value 0)
    | none => (s, .fail stProtection a)
  else
    match s.resolve o.core o.ctx a ⟨false, true, false⟩ with
    | (s, .prot) => (s, .fail stProtection a)
    | (s, .park why) => (s, .wait why a)
    | (s, .remote h va) =>
      if !s.routed h then (s, .fail stRefused a)
      else if Config.remoteDenies s.tick then (s, .fail stProtection a)
      else (s.send (.request h va n (leBytes n v) none), .value 0)
    | (s, .ok pa _) =>
      let t := s.storeNat ⟨o.core, o.ctx⟩ 5 a pa n v
      (if whole then t.heal o.core 5 [(pa + n - 32, 32)] else t, .value 0)

/-! Segments. -/

/-- AFILL's bytes from a destination address on (R246). -/
def fillBytes (pattern d n : Nat) : Nat := leNat ((List.range n).map fun k => BitVec.ofNat 8 (bitsOf pattern (8 * ((d + k) % 8)) 8))

/-- How far a segment came: to its end, to a failed condition, or to a wait, with the bytes moved. -/
inductive SegEnd where
  | ok
  | fail (status addr : Nat)
  | wait (reason addr : Nat) (write : Bool) (done : Nat)
  deriving DecidableEq, Repr

/-- Whether `k` bytes from byte `i` of a transfer to `d` end a 32-byte granule that the transfer writes whole. -/
def endsGranule (d i k : Nat) : Bool := (d + i + k) % 32 == 0 && 32 ≤ i + k

/-- Move a segment from byte `i` on, one granule of the destination after another (R246, R287); `fuel` bounds the granules. -/
def State.moveBytes (s : State) (o : Op) (c : CopyShape) (d r n : Nat) : Nat → Nat → State × SegEnd
  | 0, _ => (s, .ok)
  | fuel + 1, i =>
    if i ≥ n then (s, .ok)
    else
      let k := min (16 - (d + i) % 16) (n - i)
      let got := if c.fill then (s, .value (fillBytes c.src (d + i) k)) else s.engineRead o c.ssp (r + i) k
      match got with
      | (s, .fail st a) => (s, .fail st a)
      | (s, .wait why a) => (s, .wait why a false i)
      | (s, .value v) =>
        match s.engineWrite o c.dsp (endsGranule d i k) (d + i) k v with
        | (s, .fail st a) => (s, .fail st a)
        | (s, .wait why a) => (s, .wait why a true i)
        | (s, .value _) => s.moveBytes o c d r n fuel (i + k)

/-- The destination, source and length of an operation's segment `k`. -/
def CopyShape.place (c : CopyShape) (k : Nat) : Nat × Nat × Nat :=
  let g := c.segment k
  ((c.dstRow g.1).toNat + g.2.1, (c.srcRow g.1).toNat + g.2.1, g.2.2)

/-- A segment or packet has ended (R248, R335): it leaves the trellis, its weight returns, since its writes are performed, and a failure
is kept for the operation's status. -/
def State.endSegment (s : State) (i : Nat) (item : Item) (id k : Nat) (bad : Option (Nat × Nat)) (back : Bool) : State :=
  match s.op? id with
  | none => s.dropItem i
  | some o =>
    let worst := match bad, o.worst with
      | some b, some w => if k < w.1 then some (k, b.1, BitVec.ofNat 64 b.2) else some w
      | some b, none => some (k, b.1, BitVec.ofNat 64 b.2)
      | none, w => w
    let s := (s.dropItem i).setOp id { o with finished := o.finished + 1, worst := worst }
    if back then s.giveBack o.core item.weight false else s.flushPool o.core

/-- An item waits on the fault path, or has failed where the ring is not valid (R248, R358). -/
def State.itemFault (s : State) (i : Nat) (ctx core unit reason addr : Nat) (write : Bool) (done : Nat) : State :=
  let r := if reason = reasonUnrouted then (s, none) else s.faultAt ctx addr write false reason core unit 0 s.cmd.pkgId
  r.1.updItem i fun x => { x with fault := r.2, failed := r.2.isNone, faultVa := addr, done := done }

/-- Move a copy segment (or a fabric packet inside the package) from where it stands up to byte `n`, and go on with `next`. After a
FAIL response it ends with PAGE_FAULT at the address that it waited for (R359). -/
def State.moveSegment (s : State) (i : Nat) (item : Item) (id k : Nat) (o : Op) (c : CopyShape) (n : Nat) (next : State → State) :
    State :=
  let p := c.place k
  if item.failed then s.endSegment i item id k (some (stPageFault, item.faultVa)) true
  else
    match s.moveBytes o c p.1 p.2.1 n (p.2.2 / 16 + 2) item.done with
    | (s, .ok) => next s
    | (s, .fail st a) => s.endSegment i item id k (some (st, a)) true
    | (s, .wait why a write done) => s.itemFault i o.ctx o.core unitCopy why a write done

/-- Run a segment to its end. -/
def State.runSegment (s : State) (i : Nat) (item : Item) (id k : Nat) (o : Op) (c : CopyShape) : State :=
  s.moveSegment i item id k o c (c.place k).2.2 fun s => s.endSegment i item id k none true

/-- A copy segment in service that nothing holds back. -/
def State.segmentRunning (s : State) (i : Nat) : Option (Item × Nat × Nat × Op × CopyShape) :=
  match s.item? i with
  | none => none
  | some x =>
    match x.kind, x.place with
    | .segment id k, .service l =>
      if 384 ≤ l && l < 576 && x.fault.isNone then
        match s.op? id with
        | some o => (copyShape o.instr o.blk).map fun c => (x, id, k, o, c)
        | none => none
      else none
    | _, _ => none

/-- COPY_SEGMENT_COMPLETE (R246, R248): the segment moves its bytes; it ends, or waits on the fault path. -/
def execCopySegmentComplete (i : Nat) (s : State) : Host.Outcome State Fault Refusal :=
  match s.segmentRunning i with
  | none => .fault .notEnabled
  | some (x, id, k, o, c) => .next (s.runSegment i x id k o c)

/-- The segment that an operation pushes next, if there is room (R297) and weight (R333). -/
def State.canPush (s : State) (id : Nat) : Option (Op × CopyShape) :=
  match s.op? id with
  | none => none
  | some o =>
    if o.ready || o.pushed ≥ o.segs || o.mustBorrow then none
    else if (s.refusing segmenter (s.classPart o.cls) (s.pathOf (s.classEntry o.cls))).isSome then none
    else (copyShape o.instr o.blk).map fun c => (o, c)

/-- SEGMENT_PUSH (R297, R333). -/
def execSegmentPush (id : Nat) (s : State) : Host.Outcome State Fault Refusal :=
  match s.canPush id with
  | none => .fault .notEnabled
  | some (o, c) => .next ((s.pushSegment segmenter id o c).segBorrow id)

/-! Packets (R255, R256). -/

/-- A packet in service at a port that nothing holds back, and whether it is on its way. -/
def State.packetAt (s : State) (i : Nat) : Option (Item × Nat × Nat × Op × CopyShape) :=
  match s.item? i with
  | none => none
  | some x =>
    match x.kind, x.place with
    | .segment id k, .service l =>
      if 576 ≤ l && x.fault.isNone then
        match s.op? id with
        | some o => (copyShape o.instr o.blk).map fun c => (x, id, k, o, c)
        | none => none
      else none
    | _, _ => none

/-- Read a packet's local bytes, granule by granule. -/
def State.readBytes (s : State) (o : Op) (sp : Bool) (a n : Nat) : Nat → Nat → State × List Byte × SegEnd
  | 0, _ => (s, [], .ok)
  | fuel + 1, i =>
    if i ≥ n then (s, [], .ok)
    else
      let k := min (16 - (a + i) % 16) (n - i)
      match s.engineRead o sp (a + i) k with
      | (s, .fail st x) => (s, [], .fail st x)
      | (s, .wait why x) => (s, [], .wait why x false 0)
      | (s, .value v) =>
        let r := s.readBytes o sp a n fuel (i + k)
        (r.1, leBytes k v ++ r.2.1, r.2.2)

/-- Send a packet (R255, R337): FSEND's carries its bytes and its weight with root and home package, FGET's asks for bytes. A FAIL
response has ended one that waited for a local page (R359). A protected context is confined to its package (R422). -/
def State.sendPacket (s : State) (i : Nat) (x : Item) (id k : Nat) (o : Op) (c : CopyShape) : State :=
  let p := c.place k
  let va := if c.bySrc then p.2.1 else p.1
  if x.failed then s.endSegment i x id k (some (stPageFault, x.faultVa)) true
  else
  match s.homeOf va with
  | none => s.endSegment i x id k (some (stRefused, va)) true
  | some h =>
    if (s.ctx o.ctx).ctl.bit 1 then s.endSegment i x id k (some (stProtection, va)) true
    else if !s.routed h then s.endSegment i x id k (some (stRefused, va)) true
    else if c.bySrc then
      (s.send (.packet i h (BitVec.ofNat 64 va) [] none s.cmd.pkgId)).updItem i fun y => { y with sent := true, waiting := false }
    else
      match s.readBytes o c.ssp p.2.1 p.2.2 (p.2.2 / 16 + 2) 0 with
      | (s, bytes, .ok) =>
        (s.send (.packet i h (BitVec.ofNat 64 va) bytes x.weight s.cmd.pkgId)).updItem i
          fun y => { y with sent := true, waiting := false }
      | (s, _, .fail st a) => s.endSegment i x id k (some (st, a)) true
      | (s, _, .wait why a _ _) => s.itemFault i o.ctx o.core unitPort why a false 0

/-- PACKET_RESEND (R255): the retry-after count has expired, or a local page is there at last. -/
def execPacketResend (i : Nat) (s : State) : Host.Outcome State Fault Refusal :=
  match s.packetAt i with
  | none => .fault .notEnabled
  | some (x, id, k, o, c) => if x.sent then .fault .notEnabled else .next (s.sendPacket i x id k o c)

/-- PACKET_REFUSE (R255): after 64 refusals in a row the packet ends REFUSED. -/
def execPacketRefuse (i _hint : Nat) (s : State) : Host.Outcome State Fault Refusal :=
  match s.packetAt i with
  | none => .fault .notEnabled
  | some (x, id, k, _, c) =>
    if !x.sent then .fault .notEnabled
    else if x.refused + 1 ≥ 64 then
      let p := c.place k
      .next (s.endSegment i x id k (some (stRefused, if c.bySrc then p.2.1 else p.1)) true)
    else
      .next (s.updItem i fun y => { y with sent := false, waiting := true, refused := y.refused + 1 })

/-- Write the bytes that answer an FGET packet, which are free (log 12), granule by granule. -/
def State.fgetBytes (s : State) (o : Op) (c : CopyShape) (now : Nat) (p : Nat × Nat × Nat) : Nat → Nat → State × SegEnd
  | 0, _ => (s, .ok)
  | fuel + 1, j =>
    if j ≥ p.2.2 then (s, .ok)
    else
      let n := min (16 - (p.1 + j) % 16) (p.2.2 - j)
      let v := leNat ((List.range n).map fun b => Config.remoteByte now (p.2.1 + j + b))
      match s.engineWrite o c.dsp (endsGranule p.1 j n) (p.1 + j) n v with
      | (s, .fail st a) => (s, .fail st a)
      | (s, .wait why a) => (s, .wait why a true j)
      | (s, .value _) => s.fgetBytes o c now p fuel (j + n)

/-- How the far side ended a packet that it did not refuse: performed, or not, with a status of R238 (log 12). -/
def farStatus (bySrc : Bool) (now va : Nat) : Option Nat :=
  if Config.remoteDenies now then some stProtection
  else if bySrc && Config.remotePoisons now va then some stUncorrectable
  else none

/-- PACKET_ACK (R256): FSEND's packet is performed at its destination, and its weight has gone with it; FGET's bytes are
written here. A packet that the far side could not perform ends with its status (R248), and its weight returns here. -/
def execPacketAck (i : Nat) (s : State) : Host.Outcome State Fault Refusal :=
  match s.packetAt i with
  | none => .fault .notEnabled
  | some (x, id, k, o, c) =>
    if !x.sent then .fault .notEnabled
    else
      let p := c.place k
      let va := if c.bySrc then p.2.1 else p.1
      match farStatus c.bySrc s.tick va with
      | some st => .next (s.endSegment i x id k (some (st, va)) true)
      | none =>
      if !c.bySrc then .next (s.endSegment i x id k none false)
      else
      match s.fgetBytes o c s.tick p (p.2.2 / 16 + 2) 0 with
      | (s, .ok) => .next (s.endSegment i x id k none true)
      | (s, .fail st a) => .next (s.endSegment i x id k (some (st, a)) true)
      | (s, .wait why a _ _) =>
        .next ((s.updItem i fun y => { y with sent := false, refused := 0 }).itemFault i o.ctx o.core unitPort why a true 0)

/-! The completion of operations. -/

/-- Whether every lower-numbered operation of the issuing wave on the same timeline has been pushed (R246), wherever the wave has been
restored since. -/
def State.lowerPushed (s : State) (o : Op) : Bool :=
  s.ops.all fun p =>
    !(p.2.tl == o.tl && p.2.seq < o.seq && p.2.wg == o.wg && p.2.waveId == o.waveId && p.2.carries &&
      p.2.pushed < p.2.segs && !p.2.ready)

/-- Whether an operation has every effect but those of its completion. -/
def State.opDue (s : State) (o : Op) : Bool :=
  o.ready || (o.carries && o.pushed = o.segs && o.finished = o.segs && (o.segs != 0 || s.lowerPushed o))

/-- The counter passes every number complete in order (R236). -/
def passDone (ahead : List Nat) : Nat → Nat → Nat
  | 0, d => d
  | fuel + 1, d => if ahead.contains (d + 1) then passDone ahead fuel (d + 1) else d

/-- A number of a timeline is complete, with its status, number and address if it is not OK (R236, R238). -/
def Timeline.complete (t : Timeline) (n : Nat) (bad : Option (Nat × DWord)) : Timeline :=
  let ahead := t.ahead ++ [n]
  let d := passDone ahead ahead.length t.done
  let fault := match bad, t.fault with
    | some b, some f => if n < f.2.1 then some (b.1, n, b.2) else some f
    | some b, none => some (b.1, n, b.2)
    | none, f => f
  { t with done := d, ahead := ahead.filter fun k => k > d, fault := fault }

/-- The status of an operation that is not OK (R238, R248). -/
def Op.status? (o : Op) : Option (Nat × DWord) :=
  if o.killed then some (stKilled, 0) else o.worst.map fun w => (w.2.1, w.2.2)

/-- The landing word, as a release that covers the payload (R247): the value, or its complement after a failure. -/
def State.landWord (s : State) (o : Op) (c : CopyShape) : State :=
  match s.opSpad o c.loff 8 with
  | none => s
  | some (core, off) =>
    let v := if o.status?.isSome then ~~~c.lval else c.lval
    let s := s.updCore core fun k => { k with spad := cellsPut k.spad off 8 v.toNat }
    s.recordRelease ⟨o.scope, engineKey, o.wg, s.placeOf o.core⟩ 5 o.core [.spad core off] 8

/-- An operation completes: its landing word, its number, and the weight it still holds. -/
def State.completeOp (s : State) (id : Nat) (o : Op) : State :=
  let s := match copyShape o.instr o.blk with
    | some c => if c.land then s.landWord o c else s
    | none => s
  let s := s.setTimeline o.tl ((s.timeline o.tl).complete o.seq o.status?)
  let s : State := { s with ops := terase s.ops id }
  s.giveBack o.core o.weight o.killed

/-- OPERATION_COMPLETE (R236, R247). -/
def execOperationComplete (id : Nat) (s : State) : Host.Outcome State Fault Refusal :=
  match s.op? id with
  | none => .fault .notEnabled
  | some o => if s.opDue o then .next (s.completeOp id o) else .fault .notEnabled

end Sys2Proof.Machine
end

