-- ==== Sys2Proof/Machine/Tile.lean ====
section
/-! DEFINITION. The tile engine at work (spec/08 R261 to R274): operand elements, the sums of MMA and MMAB, drains, and the
completion of a tile task. -/

namespace Sys2Proof.Machine

/-! Operands (R261). -/

/-- A byte of a record in the operand buffer. -/
def Core.obByte (c : Core) (r : DWord) (k : Nat) : Nat := (cellGet c.obuf (obBase r + k)).toNat

/-- The block scale of element `n`: code 127, 2^0, without scales. -/
def Core.obScale (c : Core) (r : DWord) (n : Nat) : Nat := if obScaled r then c.obByte r (obSoff r + n / obBlock r) else 127

/-- The Q4E block of element `n`. -/
def Core.obQ4e (c : Core) (r : DWord) (n : Nat) : List Num × Bool :=
  q4eDecode ((List.range 10).map fun k => c.obByte r (10 * (n / 16) + k))

/-- Element `n` of a float record, exactly. -/
def Core.obNum (c : Core) (r : DWord) (n : Nat) : Num :=
  match obFmt r with
  | 0 => decodeFloat bfl16 (c.obByte r (2 * n) + 256 * c.obByte r (2 * n + 1))
  | 1 => decodeFloat fp16 (c.obByte r (2 * n) + 256 * c.obByte r (2 * n + 1))
  | 2 => scaledElem fE4M3 (c.obScale r n) (c.obByte r n)
  | 3 => scaledElem fE5M2 (c.obScale r n) (c.obByte r n)
  | 4 => scaledElem fE2M1 (c.obScale r n) (c.obByte r (n / 2) / 16 ^ (n % 2) % 16)
  | _ => (c.obQ4e r n).1.getD (n % 16) (.fin false 0 0)

/-- Element `n` of an integer record. -/
def Core.obInt (c : Core) (r : DWord) (n : Nat) : Int :=
  if obFmt r = 6 then signedOf 8 (c.obByte r n) else (c.obByte r n : Nat)

/-- Element `n` of a binary record. -/
def Core.obBit (c : Core) (r : DWord) (n : Nat) : Bool := bitOf (c.obByte r (n / 8)) (n % 8)

/-- Whether elements from an offset meet a Q4E block with a third escape (R267). -/
def Core.obFmtErr (c : Core) (r : DWord) (off n : Nat) : Bool :=
  obFmt r == 5 && (List.range ((n + 15) / 16)).any fun k => (c.obQ4e r (off + 16 * k)).2

/-! Accumulators. -/

/-- Columns of an accumulator. -/
def accCols : Nat := 128

/-- A cell of an accumulator; an unlisted one is 0. -/
def Acc.cell (a : Acc) (row col : Nat) : Word := (tget a.cells (row * accCols + col)).getD 0

/-- An accumulator with the cells of a window replaced. -/
def Acc.setWindow (a : Acc) (row col m n : Nat) (f : Nat → Nat → Word) : Acc :=
  let v (p : Nat) : Word :=
    let i := p / accCols
    let j := p % accCols
    if row ≤ i && i < row + m && col ≤ j && j < col + n then f (i - row) (j - col) else (tget a.cells p).getD 0
  { a with cells := ((List.range (accCols * accCols)).map fun p => (p, v p)).filter fun p => p.2 != 0 }

/-! MMA and MMAB (R265, R266). -/

/-- The fields of an MMA or MMAB with its block and records. -/
structure MmaTask where
  acc : Nat
  m : Nat
  n : Nat
  k : Nat
  a : DWord
  b : DWord
  aoff : Nat
  boff : Nat
  row : Nat
  col : Nat
  deriving DecidableEq, Repr

def mmaTask (f : E) (blk : List DWord) : MmaTask :=
  let imm := f.imm.toNat
  let v := (blk.getD 0 0).toNat
  { acc := bitsOf imm 0 2, m := windowSize (bitsOf imm 10 2), n := windowSize (bitsOf imm 12 2), k := 64 * 2 ^ bitsOf imm 14 2,
    a := blk.getD 1 0, b := blk.getD 2 0, aoff := bitsOf v 0 21, boff := bitsOf v 21 21, row := 32 * bitsOf v 42 2,
    col := 32 * bitsOf v 44 2 }

/-- The sums of the 64-element steps of an element, those of a stopped task first (R269). -/
def MmaTask.steps (t : MmaTask) (c : Core) (kept : List Nat) (i j : Nat) : List (Nat × Sticky) :=
  (List.range (t.k / 64)).map fun p =>
    match kept[p]? with
    | some v => (v, 0)
    | none =>
      mmaStep ((List.range 64).map fun k => c.obNum t.a (t.aoff + i * t.k + 64 * p + k))
        ((List.range 64).map fun k => c.obNum t.b (t.boff + j * t.k + 64 * p + k))

/-- A floating element after the task, with the bits of its roundings. -/
def MmaTask.float (t : MmaTask) (c : Core) (kept : List Nat) (i j : Nat) : Nat × Sticky :=
  let g := t.steps c kept i j
  let r := mmaFinish ((c.accs.getD t.acc Acc.reset).cell (t.row + i) (t.col + j)).toNat (g.map (·.1))
  (r.1, stickyAll (g.map (·.2)) ||| r.2)

/-- What a step of a stopped integer or binary task keeps counts as its sum (R269). -/
def MmaTask.whole (t : MmaTask) (kept : List Nat) (term : Nat → Int) : Int :=
  ((kept.map fun (v : Nat) => (v : Int)) ++ (List.range (t.k - 64 * kept.length)).map fun k => term (64 * kept.length + k)).sum

/-- An integer element after the task (R124). -/
def MmaTask.int (t : MmaTask) (c : Core) (kept : List Nat) (i j : Nat) : Nat :=
  wrapInt 32 (((c.accs.getD t.acc Acc.reset).cell (t.row + i) (t.col + j)).toNat +
    t.whole kept fun k => c.obInt t.a (t.aoff + i * t.k + k) * c.obInt t.b (t.boff + j * t.k + k))

/-- A binary element after the task. -/
def MmaTask.binary (t : MmaTask) (c : Core) (kept : List Nat) (band : Bool) (i j : Nat) : Nat :=
  wrapInt 32 (((c.accs.getD t.acc Acc.reset).cell (t.row + i) (t.col + j)).toNat +
    t.whole kept fun k =>
      let p := c.obBit t.a (t.aoff + i * t.k + k)
      let q := c.obBit t.b (t.boff + j * t.k + k)
      (bit1 (if band then p && q else p != q) : Nat))

/-- The status bits that a floating task adds (R267). -/
def accBits (vals : List (Nat × Sticky)) (fmterr : Bool) : BitVec 4 :=
  let any (p : Num → Bool) : Bool := vals.any fun v => p (decodeFloat fp32 v.1)
  BitVec.ofNat 4 (bit1 (any isNanNum) + 2 * bit1 (any isInfNum) +
    4 * bit1 (vals.any fun v => v.2 &&& Sticky.overflow != 0) + 8 * bit1 fmterr)

/-- Kept sums of element (i, j) of a stopped task. -/
def Core.keptSums (c : Core) (op n i j : Nat) : List Nat :=
  match c.partials.find? fun p => p.op == op with
  | some p => p.sums.getD (i * n + j) []
  | none => []

/-- The core after an MMA or MMAB (R266). -/
def Core.runMma (c : Core) (op : Nat) (t : MmaTask) (binary band : Bool) : Core :=
  let acc := c.accs.getD t.acc Acc.reset
  let integer := obFmt t.a ≥ 6
  let rows := (List.range t.m).map fun i => (List.range t.n).map fun j =>
    let kept := c.keptSums op t.n i j
    if binary then (t.binary c kept band i j, (0 : Sticky))
    else if integer then (t.int c kept i j, 0)
    else t.float c kept i j
  let put := acc.setWindow t.row t.col t.m t.n fun i j => BitVec.ofNat 32 ((rows.getD i []).getD j (0, 0)).1
  let bits := if binary || integer then 0
    else accBits rows.flatten (c.obFmtErr t.a t.aoff (t.m * t.k) || c.obFmtErr t.b t.boff (t.n * t.k))
  { c with accs := lsetD Acc.reset c.accs t.acc { put with status := acc.status ||| bits } }

/-! MDRAIN (R271 to R274). -/

/-- The fields of an MDRAIN with its block. -/
structure Drain where
  acc : Nat
  ofmt : Nat
  sat : Bool
  rnd : Rnd
  qb : Bool
  m : Nat
  n : Nat
  amax : Bool
  scope : Nat
  dst : Nat
  pitch : Nat
  row : Nat
  col : Nat
  soff : Nat
  spitch : Nat
  word : Nat
  deriving DecidableEq, Repr

def drainOf (f : E) (blk : List DWord) : Drain :=
  let imm := f.imm.toNat
  let d := (blk.getD 0 0).toNat
  let sc := (blk.getD 1 0).toNat
  { acc := bitsOf imm 0 2, ofmt := bitsOf imm 2 4, sat := bitOf imm 6, rnd := rndOfNat (bitsOf imm 7 2), qb := bitOf imm 9,
    m := windowSize (bitsOf imm 10 2), n := windowSize (bitsOf imm 12 2), amax := bitOf imm 14, scope := bitsOf f.aux.toNat 4 3,
    dst := bitsOf d 0 20, pitch := bitsOf d 20 18, row := 32 * bitsOf d 38 2, col := 32 * bitsOf d 40 2,
    soff := bitsOf sc 0 20, spitch := bitsOf sc 20 18, word := (blk.getD 2 0).toNat }

/-- The float format of a drain format code. -/
def drainFmt (ofmt : Nat) : Fmt :=
  match ofmt with
  | 1 => bfl16
  | 2 => fp16
  | 3 => fE4M3
  | 4 => fE5M2
  | 5 => fE2M1
  | _ => fp32

/-- Two 4-bit elements to a byte, the lower column low (R272). -/
def pairNibbles : List Nat → List Nat
  | a :: b :: l => (a + 16 * b) :: pairNibbles l
  | l => l

/-- Elements packed as in R261. -/
def packElems (ofmt : Nat) (l : List Nat) : List Nat :=
  match ofmt with
  | 1 | 2 => (l.map fun v => [v % 256, v / 256]).flatten
  | 5 => pairNibbles l
  | _ => l

/-- Sixteen elements from a position. -/
def blockAt (l : List Num) (j : Nat) : List Num := (l.drop (16 * j)).take 16

/-- A row of the window as bytes, its block scales, and the bits of its conversions (R272). -/
def Drain.bytes (d : Drain) (x : List Word) : List Nat × List Nat × Sticky :=
  let nums := x.map fun w => decodeFloat fp32 w.toNat
  let f := drainFmt d.ofmt
  if d.ofmt = 0 || d.ofmt = 7 then ((x.map fun w => (leBytes 4 w.toNat).map BitVec.toNat).flatten, [], 0)
  else if d.ofmt = 6 then
    let r := (List.range (d.n / 16)).map fun j => q4eEncode (blockAt nums j)
    ((r.map (·.1)).flatten, [], stickyAll (r.map (·.2)))
  else if d.qb then
    let codes := (List.range (d.n / 16)).map fun j => blockScale f (blockAt nums j)
    let r := (List.range d.n).map fun c => quantiseElement f (codes.getD (c / 16) 0) (nums.getD c (.fin false 0 0))
    (packElems d.ofmt (r.map (·.1)), codes, stickyAll (r.map (·.2)))
  else
    let r := nums.map fun v => convertFloat f (if d.ofmt ≤ 2 then d.rnd else .rne) d.sat v
    (packElems d.ofmt (r.map (·.1)), [], stickyAll (r.map (·.2)))

/-- Whether a cell is not delivered as the same special value (R274). -/
def Drain.special (d : Drain) (x : Num) : Bool :=
  match d.ofmt with
  | 0 | 7 => false
  | 1 | 2 => isInfNum x && d.sat
  | 3 => isInfNum x
  | 4 => isInfNum x && (d.sat || d.qb)
  | 5 => isInfNum x || (isNanNum x && !d.qb)
  | _ => isInfNum x

/-- The largest magnitude of the window as FP32 (R273, R274). -/
def Drain.largest (d : Drain) (cells : List Word) : Nat :=
  if d.ofmt = 7 then
    (convertFloat fp32 .rne false (intNum ((cells.map fun w => w.toInt.natAbs).foldl max 0 : Nat))).1
  else (convertFloat fp32 .rne false ((cells.map fun w => decodeFloat fp32 w.toNat).foldl maxAbs (.fin false 0 0))).1

/-- The window's rows. -/
def Drain.window (d : Drain) (a : Acc) : List (List Word) :=
  (List.range d.m).map fun r => (List.range d.n).map fun c => a.cell (d.row + r) (d.col + c)

/-- Store bytes in the scratchpad of an operation's workgroup; nothing where it has ended (log 20). -/
def State.spadStore (s : State) (o : Op) (off : Nat) (l : List Nat) : State :=
  match s.opSpad o off l.length with
  | some (core, a) => s.updCore core fun c => { c with spad := cellsPut c.spad a l.length (leNat (l.map (BitVec.ofNat 8))) }
  | none => s

/-- The atomic maximum of AMAX (R273). Like every engine's write it is performed at SYSTEM scope, which contains its aux scope and the
selector's (R285, log 5). -/
def State.drainMax (s : State) (o : Op) (d : Drain) (v : Nat) : State × Got :=
  match s.resolve o.core o.ctx d.word ⟨true, true, false⟩ with
  | (s, .prot) => (s, .fail stProtection d.word)
  | (s, .park why) => (s, .wait why d.word)
  | (s, .remote h va) =>
    if !s.routed h then (s, .fail stRefused d.word)
    else if Config.remoteDenies s.tick then (s, .fail stProtection d.word)
    else if Config.remotePoisons s.tick va then (s, .fail stUncorrectable d.word)
    else (s.send (.request h va 4 (leBytes 4 v) (some 12)), .value 0)
  | (s, .ok pa _) =>
    let s := s.gather pa 4
    if s.poisonedRange o.core 5 pa 4 then (s, .fail stUncorrectable d.word)
    else
      let old := s.peekNat o.core 5 pa 4
      let new := atomicPick true old v
      (if new = old then s else s.storeNat ⟨o.core, o.ctx⟩ 5 d.word pa 4 new, .value 0)

/-- The readback of MDRAIN (R274). DESIGN CHOICE (log 81): CLAMP is the SATURATE of the converted elements, so an element of E2M1 with
QB = 0 and SAT = 0 that is delivered as ±6.0 sets it too. -/
def Drain.readback (d : Drain) (cells : List Word) (status : BitVec 4) (st : Sticky) : DWord :=
  BitVec.ofNat 64 (d.largest cells + status.toNat * 2 ^ 32 + bit1 (st &&& Sticky.saturate != 0) * 2 ^ 36 +
    bit1 (cells.any fun w => d.special (decodeFloat fp32 w.toNat)) * 2 ^ 37)

/-! A tile task. -/

/-- A readback with its value. -/
def LLOp.known (o : LLOp) (v : DWord) : LLOp :=
  { o with op := none, done := true, writes := o.writes.map fun lw => { lw with lanes := scalarLanes v } }

/-- The readback of an operation is known: the long-latency operation that waits for it completes (R39, R274). -/
def State.fillReadback (s : State) (id : Nat) (v : DWord) : State :=
  match s.waves.find? fun p => p.2.ll.any fun o => o.op == some id with
  | none => s
  | some (w, x) =>
    let s := s.setWave w { x with ll := x.ll.map fun o => if o.op == some id then o.known v else o }
    s.showAll w (fun o => o.done && o.flags.isEmpty) x.ll.length

/-- A tile operation is done but for its completion: its item leaves the trellis, ranges and sums that it kept are free. -/
def State.endTile (s : State) (i id : Nat) (bad : Option (Nat × Nat)) : State :=
  match s.op? id with
  | none => s.dropItem i
  | some o =>
    let s := (s.dropItem i).setOp id { o with ready := true, worst := bad.map (fun b => (0, b.1, BitVec.ofNat 64 b.2)) }
    let s := s.updCore o.core fun c => { c.freeRanges id with partials := c.partials.filter fun p => p.op != id }
    s.endTiles o.wg o.core

/-- Bytes of the scratchpad of an operation's workgroup as a number; 0 where it has ended (log 20). -/
def State.spadNat (s : State) (o : Op) (off n : Nat) : Nat :=
  match s.opSpad o off n with
  | some (core, a) => cellsNat (s.core core).spad a n
  | none => 0

/-- Copy scratchpad bytes into the operand buffer. -/
def State.toBuffer (s : State) (o : Op) (src dst n : Nat) : State :=
  let v := s.spadNat o src n
  s.updCore o.core fun c => { c with obuf := cellsPut c.obuf dst n v }

/-- The effect of MDRAIN. An item waits where the maximum word's page is not present. -/
def State.runDrain (s : State) (i id : Nat) (x : Item) (o : Op) (d : Drain) : State :=
  let acc := (s.core o.core).accs.getD d.acc Acc.reset
  let rows := d.window acc
  let out := rows.map fun r => d.bytes r
  let s := (List.range d.m).foldl (fun s r =>
    let b := out.getD r ([], [], 0)
    let s := s.spadStore o (d.dst + r * d.pitch) b.1
    if d.qb then s.spadStore o (d.soff + r * d.spitch) b.2.1 else s) s
  let fin (s : State) (bad : Option (Nat × Nat)) : State :=
    (s.fillReadback id (d.readback rows.flatten acc.status (stickyAll (out.map fun b => b.2.2)))).endTile i id bad
  if !d.amax then fin s none
  else if x.failed then fin s (some (stPageFault, x.faultVa))
  else
    match s.drainMax o d (d.largest rows.flatten) with
    | (s, .value _) => fin s none
    | (s, .fail st a) => fin s (some (st, a))
    | (t, .wait why a) => t.itemFault i o.ctx o.core 4 why a true 0

/-- The effect of a tile operation (R262). -/
def State.runTile (s : State) (i id : Nat) (x : Item) (o : Op) : State :=
  let b (k : Nat) : DWord := o.blk.getD k 0
  match o.instr with
  | .oload _ =>
    (s.toBuffer o (b 0).toNat (obBase (b 2) + bitsOf (b 1).toNat 0 19) (bitsOf (b 1).toNat 20 19)).endTile i id none
  | .ogath _ =>
    let g := gatherOf (b 0).toNat (b 1).toNat (b 2).toNat
    ((lanesIn o.exec).foldl (fun s l => s.toBuffer o (g.src (laneOf o.rows l)) (obBase (b 3) + g.dst l) g.bytes) s).endTile i id
      none
  | .mma f => (s.updCore o.core fun c => c.runMma id (mmaTask f o.blk) false false).endTile i id none
  | .mmab f => (s.updCore o.core fun c => c.runMma id (mmaTask f o.blk) true (f.aux.toNat % 2 = 1)).endTile i id none
  | .mzero f =>
    (s.updCore o.core fun c => { c with
      accs := lsetD Acc.reset c.accs (f.imm.toNat % 4) { c.accs.getD (f.imm.toNat % 4) Acc.reset with status := 0, cells := [] } }
      ).endTile i id none
  | .mdrain f => s.runDrain i id x o (drainOf f o.blk)
  | _ => s.endTile i id none

/-- The task in service of a core's tile engine that nothing holds back. -/
def State.tileRunning (s : State) (core : Nat) : Option (Nat × Item × Nat × Op) :=
  match s.inService (tileLeaf core) with
  | (i, x) :: _ =>
    match x.kind with
    | .tile id => if x.fault.isNone then (s.op? id).map fun o => (i, x, id, o) else none
    | _ => none
  | [] => none

/-- TILE_TASK_COMPLETE (R266 to R273). -/
def execTileTaskComplete (core : Nat) (s : State) : Host.Outcome State Fault Refusal :=
  match s.tileRunning core with
  | none => .fault .notEnabled
  | some (i, x, id, o) => .next (s.runTile i id x o)

end Sys2Proof.Machine
end

