-- ==== Sys2Proof/Machine/Switch.lean ====
section
/-! DEFINITION. Context switch (spec/13 R377 to R386, spec/02 R68, R69, spec/14 R395): safe points, the record of a workgroup in
its save slot, what a switch frees, and what a restore checks and reinstalls. -/

namespace Sys2Proof.Machine

/-! Safe points (R377). -/

/-- Whether an operation reads or writes the scratchpad of its workgroup, its landing word included. -/
def Op.usesSpad (o : Op) : Bool :=
  match copyShape o.instr o.blk with
  | some c => c.dsp || c.ssp || c.land
  | none => false

/-- Whether a wave stands at a safe point. A hold whose effect is complete ends first. -/
def State.safePoint (s : State) (w : Nat) (x : Wave) : Bool :=
  let q := s.seq (seqOfWave w)
  let frozen := match q.frozen with | some _ => true | none => false
  !s.allocating w && !x.readback &&
  (match x.hold with
   | some h =>
     !h.done && !s.holdOver w &&
     (match h.instr with
      | .bar _ | .barc _ | .mwait _ | .waittl _ | .ordw _ | .orda _ | .waitq _ => true
      | _ => false)
   | none =>
     match x.stall with
     | some t => !t.borrow
     | none => (x.clause.isNone && q.active != some w) || (q.active == some w && frozen))

/-- Whether a tile task can stop at a K-step (R269). -/
def Op.hasSteps (o : Op) : Bool := match o.instr with | .mma _ | .mmab _ => true | _ => false

/-- Whether a workgroup can be saved: its waves stand at safe points, no engine works on its scratchpad, and no tile item of
it is on its way to the leaf (R377, R380). A landing word is written when its operation completes. -/
def State.canSave (s : State) (u : Nat) (g : Wg) : Bool :=
  (g.keys.all fun k => match s.wave? k with | some x => s.safePoint k x | none => true) &&
  !(s.ops.any fun p => p.2.wg == u && p.2.usesSpad) &&
  !(s.trl.items.any fun p => match p.2.kind, p.2.place with
    | .tile k, .toLeaf _ => (match s.op? k with | some o => o.wg == u | none => false)
    | _, _ => false) &&
  (match s.tileRunning g.core with
   | some (_, _, _, o) => o.wg != u || o.hasSteps
   | none => (s.inService (tileLeaf g.core)).all fun p => match p.2.kind with
     | .tile k => (match s.op? k with | some o => o.wg != u | none => true)
     | _ => true)

/-- The resident workgroups that are switched out together: a deterministic share of the core (R395), a cluster-bound group
(R378), or the workgroup alone. -/
def State.switchSet (s : State) (u : Nat) (g : Wg) : List (Nat × Wg) :=
  if g.det then
    let grouped := match s.launch? g.launch with | some l => recHasCluster l.record | none => false
    s.wgs.filter fun p => p.2.launch == g.launch &&
      (if grouped then clusterOfCore p.2.core == clusterOfCore g.core else p.2.core == g.core)
  else s.groupOf u g

/-! Save slots (R379). -/

def saveSlots (c : Context) : Nat := if c.save.bit 0 then 2 ^ min 12 (c.save.fld 1 4) else 0
def saveBase (c : Context) (slot : Nat) : Nat := c.save.fld 22 30 * 2 ^ 22 + 2 ^ 22 * slot

/-- Whether the save path serves a context in a slot: neither of the slot's frames is another context's protected one (R423). -/
def State.slotServed (s : State) (c slot : Nat) : Bool :=
  let base := saveBase (s.ctx c) slot
  s.frameAllows c base && s.frameAllows c (base + 2 ^ 21)

/-- The free slots of a context that the save path serves it in. -/
def State.freeSlotsOf (s : State) (c : Nat) : List Nat :=
  (List.range (saveSlots (s.ctx c))).filter fun k => !(s.ctx c).saved.contains k && s.slotServed c k

/-- Whether each workgroup of a set has a free slot. -/
def State.slotsFor (s : State) (l : List (Nat × Wg)) : Bool :=
  l.all fun p => (l.filter fun q => q.2.ctx == p.2.ctx).length ≤ (s.freeSlotsOf p.2.ctx).length

/-! A tile task that stops (R269). -/

/-- The sums of the first `n` steps of an element. -/
def MmaTask.keep (t : MmaTask) (c : Core) (binary band : Bool) (kept : List Nat) (n i j : Nat) : List Nat :=
  let term (k : Nat) : Int :=
    if binary then
      let p := c.obBit t.a (t.aoff + i * t.k + k)
      let q := c.obBit t.b (t.boff + j * t.k + k)
      (bit1 (if band then p && q else p != q) : Nat)
    else c.obInt t.a (t.aoff + i * t.k + k) * c.obInt t.b (t.boff + j * t.k + k)
  if binary || obFmt t.a ≥ 6 then
    (List.range n).map fun p => match kept[p]? with
      | some v => v
      | none => wrapInt 32 ((List.range 64).map fun k => term (64 * p + k)).sum
  else ((t.steps c kept i j).take n).map (·.1)

/-- The steps complete when a task stops: any number from those kept up to all but the last (log 3). -/
def stopStep (now kept total : Nat) : Nat := kept + Config.choose now % (total - kept)

/-- A core whose task has stopped: the sums kept, and an overflow of their roundings (R267). -/
def Core.stopMma (c : Core) (op : Nat) (t : MmaTask) (binary band : Bool) (now : Nat) : Core × Nat :=
  let had := match c.partials.find? fun p => p.op == op with | some p => p.steps | none => 0
  let n := stopStep now had (t.k / 64)
  let idx := ((List.range t.m).map fun i => (List.range t.n).map fun j => (i, j)).flatten
  let sums := idx.map fun p => t.keep c binary band (c.keptSums op t.n p.1 p.2) n p.1 p.2
  let wide := !binary && obFmt t.a < 6 && idx.any fun p =>
    ((t.steps c (c.keptSums op t.n p.1 p.2) p.1 p.2).take n).any fun v => v.2 &&& Sticky.overflow != 0
  let acc := c.accs.getD t.acc Acc.reset
  ({ c with
      partials := (c.partials.filter fun p => p.op != op) ++ [⟨op, n, sums⟩]
      accs := lsetD Acc.reset c.accs t.acc { acc with status := acc.status ||| (if wide then 4 else 0) } }, n)

/-- The task in service of a core stops at its next K-step. -/
def State.stopTile (s : State) (i id : Nat) (o : Op) : State :=
  let r := match o.instr with
    | .mma f => (s.core o.core).stopMma id (mmaTask f o.blk) false false s.tick
    | .mmab f => (s.core o.core).stopMma id (mmaTask f o.blk) true (f.aux.toNat % 2 = 1) s.tick
    | _ => (s.core o.core, 0)
  (s.setCore o.core r.1).updItem i fun x => { x with done := r.2 }

/-! The record (R381 to R385). -/

/-- A piece of a record: offset, bytes, value. -/
abbrev Piece := Nat × Nat × Nat

def stateCode : EState → Nat
  | .ready => 0
  | .resume => 1
  | .parked => 2
  | .joined => 3
  | .trapped => 4

def stateOf : Nat → EState
  | 0 => .ready
  | 1 => .resume
  | 2 => .parked
  | 3 => .joined
  | _ => .trapped

/-- A frontier entry record (R384). -/
def entryRecord (e : Entry) : Nat :=
  e.pc % 2 ^ 60 + e.index % 16 * 2 ^ 60 + e.mask.toNat * 2 ^ 64 + e.prio.getD 0 % 4096 * 2 ^ 96 + stateCode e.st * 2 ^ 108 +
  (match e.mac with | some m => m.next % 32 * 2 ^ 111 + 2 ^ 116 | none => 0) + 2 ^ 117

/-- Entries from an offset. -/
def entryPieces (off : Nat) (l : List Entry) : List Piece :=
  (List.range l.length).filterMap fun k => (l[k]?).map fun e => (off + 16 * k, 16, entryRecord e)

/-- The lanes of a register as bytes. -/
def lanesNat (l : Lanes) : Nat := (List.range 32).foldl (fun a k => a + (laneOf l k).toNat * 2 ^ (32 * k)) 0

/-- SR_STATUS of a wave. -/
def Wave.statusWord (x : Wave) (g : Wg) : Nat :=
  x.sticky.toNat + bit1 x.inTrap * 2 ^ 16 + bit1 g.det * 2 ^ 17 + bit1 g.prot * 2 ^ 18

/-- The trap state (R385): that of the trap it waits with, else that of its latest handler. -/
def Wave.trapPieces (x : Wave) : List Piece :=
  let t := x.queued.getD x.trap
  [(0x500, 1, t.cause), (0x508, 8, t.idx), (0x510, 8, t.pc), (0x518, 8, t.addr.toNat), (0x520, 8, t.mask.toNat),
   (0x528, 1, bit1 x.inTrap + 2 * bit1 x.queued.isSome)]

/-- A wave record (R383). -/
def Wave.record (x : Wave) (g : Wg) (bank : List Lanes) (slice turn : Nat) : List Piece :=
  let weight := match x.weight with | some w => [(0x40, 8, w.root + 2 ^ 16), (0x48, 8, w.w)] | none => []
  let watch := match x.watch with
    | some a => [(0x58, 8, a.addr.toNat), (0x60, 8, a.scope + 8), (0x68, 8, a.last.toNat)]
    | none => []
  [(0x00, 8, x.statusWord g), (0x08, 8, x.trapen.toNat), (0x10, 8, x.spills.toNat), (0x18, 8, x.retired.toNat)] ++
  ((List.range 7).map fun k => (0x20 + 4 * k, 4, (x.preds.getD k 0).toNat)) ++ weight ++
  [(0x50, 8, slice)] ++ watch ++ [(0x70, 8, turn)] ++ entryPieces 0x100 x.frontier ++ entryPieces 0x300 x.handlers ++ x.trapPieces ++
  ((x.v.map fun p =>
    [(0x600 + p.1, 1, 1), (0x800 + 4 * p.1, 4, p.2.released.toNat), (0xC00 + 4 * p.1, 4, p.2.poison.toNat),
     (0x2000 + 128 * p.1, 128, lanesNat p.2.lanes)]).flatten) ++
  ((x.s.map fun p =>
    [(0x700 + p.1, 1, 1 + 2 * bit1 (p.2.poison != 0)),
     (0x1800 + 8 * p.1, 8, (dwordOf (laneOf p.2.lanes 0) (laneOf p.2.lanes 1)).toNat)]).flatten) ++
  ((List.range 16).filterMap fun k => (bank[k]?).map fun t => (0x1000 + 128 * k, 128, lanesNat t))

/-- Pieces moved by an offset. -/
def shiftPieces (off : Nat) (l : List Piece) : List Piece := l.map fun p => (off + p.1, p.2)

/-- The bytes of a byte memory in [a, a + n) as pieces at `off`. -/
def cellPieces (m : List Host.Cell) (a n off : Nat) : List Piece :=
  (m.filter fun c => a ≤ c.1 && c.1 < a + n).map fun c => (off + (c.1 - a), 1, c.2.toNat)

/-- The header (R382). -/
def Wg.header (g : Wg) (busy : Bool) : List Piece :=
  [(0, 8, 1 + (g.nwaves - 1) % 32 * 2 ^ 16 + g.carve % 8 * 2 ^ 21 + bit1 g.det * 2 ^ 24 + bit1 g.ticket * 2 ^ 25 +
      bit1 busy * 2 ^ 26 + g.spadSize % 2 ^ 32 * 2 ^ 32),
   (8, 8, g.launch), (16, 8, g.wgid % 2 ^ 32 + g.member % 2 ^ 9 * 2 ^ 32), (24, 8, g.ctx + g.core * 2 ^ 16)]

/-- Bits of SR_WAVEIDs. -/
def idBits (l : List Nat) : Nat := l.foldl (fun a id => a + 2 ^ id) 0

/-- The withdrawn tile items of a workgroup in their order (R380). -/
def State.withdrawnOf (s : State) (u : Nat) : List (Nat × Item) :=
  sortBy (fun p => p.2.order) (s.trl.items.filter fun p => p.2.place == .withdrawn && (match p.2.kind with
    | .tile k => (match s.op? k with | some o => o.wg == u | none => false)
    | _ => false))

/-- A withdrawn tile item's 64 bytes: item words with the rank in the free half of word 7, instruction word, block values. -/
def tilePiece (off : Nat) (x : Item) (o : Op) : List Piece :=
  ((List.range 8).map fun k => (off + 4 * k, 4, (x.words.getD k 0).toNat + (if k = 7 then x.rank % 65536 * 65536 else 0))) ++
  [(off + 32, 8, ((encode o.instr).headD 0).toNat)] ++ (List.range 3).map fun k => (off + 40 + 8 * k, 8, (o.blk.getD k 0).toNat)

/-- The partial sums of a stopped task: step p at 64 KiB × p, element by element. -/
def partialPieces (p : Partial) : List Piece :=
  ((List.range p.sums.length).map fun e => (List.range p.steps).map fun k =>
    (0x8000 + 0x10000 * k + 4 * e, 4, (p.sums.getD e []).getD k 0)).flatten

/-- The record of a workgroup but for its waves. -/
def State.wgRecord (s : State) (u : Nat) (g : Wg) : List Piece :=
  let c := s.core g.core
  let tiles := s.withdrawnOf u
  let stopped := c.partials.filter fun p => match s.op? p.op with | some o => o.wg == u | none => false
  g.header (!stopped.isEmpty) ++
  ((List.range 32).map fun n => (0x40 + 8 * n, 8, (g.grp.getD n 0).toNat)) ++
  ((List.range 32).filterMap fun n => (g.claims.getD n none).map fun id => (0x140 + n, 1, id % 32 + 128)) ++
  ((List.range 8).map fun k => (0x160 + 8 * k, 8, (g.tlsel.getD k 0).toNat)) ++
  [(0x1A0, 8, idBits g.bar + idBits (g.barc.map (·.1)) * 2 ^ 32)] ++
  ((c.obs.filter fun p => p.2.valid && p.2.wg == u).map fun p => (0x200 + 8 * p.1, 8, p.2.word.toNat)) ++
  ((List.range 4).filterMap fun k =>
    let a := c.accs.getD k Acc.reset
    if a.wg == some u then some (0x280 + 8 * k, 8, 1 + 2 * a.status.toNat) else none) ++
  ((List.range tiles.length).map fun k => match tiles[k]? with
    | some (_, x) => (match x.kind with
      | .tile id => (match s.op? id with | some o => tilePiece (0x400 + 64 * k) x o | none => [])
      | _ => [])
    | none => []).flatten ++
  (stopped.map partialPieces).flatten ++
  ((List.range 4).map fun k =>
    let a := c.accs.getD k Acc.reset
    if a.wg == some u then a.cells.map fun p => (0x40000 + 0x10000 * k + 4 * p.1, 4, p.2.toNat) else []).flatten ++
  ((c.obs.filter fun p => p.2.wg == u).map fun p =>
    cellPieces c.obuf (obBase p.2.word) (obLen p.2.word) (0x80000 + obBase p.2.word)).flatten ++
  cellPieces c.spad g.spadBase g.spadSize 0xC0000

/-- A slot filled with a record: zero but for its pieces, at DEVICE scope (R380, R381). -/
def State.writeRecord (s : State) (base : Nat) (l : List Piece) : State :=
  let n := 2 ^ 22
  let s := s.setMem { s.mem with
    cells := cellsClear s.mem.cells base n
    narrow := s.mem.narrow.filter fun b => b.pa < base || base + n ≤ b.pa
    poisoned := s.mem.poisoned.filter fun g => 32 * g < base || base + n ≤ 32 * g
    garbled := ungarble s.mem.garbled base n }
  l.foldl (fun s p => s.sysPut (base + p.1) p.2.1 p.2.2) s

/-! Saving. -/

/-- A wave as its record holds it: pending results visible, the interrupted clause an entry that resumes (R377, R380). -/
def Wave.parkedForSave (x : Wave) : Wave :=
  let x := match x.clause with
    | some c => x.setEntries c.handler (x.entries c.handler ++ [c.entry c.lanes .resume none])
    | none => x
  let drain (t : Table Reg) : Table Reg := t.map fun (p : Nat × Reg) => (p.1, { p.2 with pend := 0 })
  { x with clause := none, hold := none, stall := none, passing := [], pause := none, window := [], v := drain x.v, s := drain x.s }

/-- The tile items of a workgroup leave its core's leaf in leaf order, behind a task that stops (R380). -/
def State.withdrawTiles (s : State) (u : Nat) (g : Wg) : State :=
  let l := tileLeaf g.core
  let mine (i : Nat) : Bool := match s.item? i with
    | some x => (match x.kind with | .tile k => (match s.op? k with | some o => o.wg == u | none => false) | _ => false)
    | none => false
  let s := match s.tileRunning g.core with
    | some (i, _, id, o) =>
      if o.wg == u then (s.stopTile i id o).updItem i fun x => { x with place := .withdrawn, order := 0 } else s
    | none => s
  let leaf := s.leaf l
  let out := (rankOrder leaf.hzn leaf.entries).filterMap fun e => match e.ref with
    | .item i => if mine i then some (i, e.rank) else none
    | .child _ => none
  let s := s.setLeaf l { leaf with entries := leaf.entries.filter fun e => match e.ref with
    | .item i => !mine i
    | .child _ => true }
  (List.range out.length).foldl (fun s k => match out[k]? with
    | some (i, rank) => s.updItem i fun x => { x with place := .withdrawn, order := k + 1, rank := rank }
    | none => s) s

/-- The offset of the slice that a workgroup's wave draws on (R211). -/
def State.sliceOffset (s : State) (g : Wg) (id : Nat) : Nat :=
  if g.det then (tget (s.core g.core).slices (sliceKey g.launch (g.sliceNo id))).getD 0 else 0

/-- Rotation state of a wave (R395). -/
def Core.turnWord (c : Core) (slot : Nat) : Nat :=
  if c.rota.contains slot then
    let at' := (c.rota.takeWhile fun x => x != slot).length
    at' + 32 * bit1 (at' == c.pos)
  else 0

/-- Save one workgroup into a slot and free what it held (R380, steps 2 to 5); `turn` gives the rotation state of its waves as it stood
before any workgroup of the share left (R395). The stores of its core are performed, since it may come back elsewhere (R276). -/
def State.saveWg (s : State) (u : Nat) (slot : Nat) (turn : Nat → Nat) : State × Option Saved :=
  match s.wg? u with
  | none => (s, none)
  | some g =>
    let s := (g.keys.foldl (fun s k => s.showEvery k) s).perform g.core 5 fun _ => true
    let s := s.withdrawTiles u g
    let c := s.core g.core
    let waves := g.keys.filterMap fun k => (s.wave? k).map fun x => (k, x.parkedForSave)
    let bankOf (k : Nat) : List Lanes := let q := s.seq (seqOfWave k); if q.owner == some k then q.bank else []
    let record := s.wgRecord u g ++ (waves.map fun p =>
      shiftPieces (0x180000 + 0xA000 * p.2.waveId)
        (p.2.record g (bankOf p.1) (s.sliceOffset g p.2.waveId) (turn p.1))).flatten
    let s := (s.writeRecord (saveBase (s.ctx g.ctx) slot) record).dropReleases g.core g.spadBase g.spadSize
    let s := s.updCtx g.ctx fun k => { k with saved := k.saved ++ [slot] }
    let ghosts := (c.obs.filter fun p => !p.2.valid && p.2.wg == u).map (·.2)
    let s := g.keys.foldl (fun s k =>
      ((((s.dropWave k).ungrant k).updSeq (seqOfWave k) fun q => q.forget k).updCore g.core fun c => c.leaveRota (slotOfWave k)).leavePools k) s
    let s := s.updCore g.core fun c => { c with
      spad := cellsClear c.spad g.spadBase (alignUp g.spadSize 512)
      obs := c.obs.filter fun p => p.2.wg != u
      obuf := (c.obs.filter fun p => p.2.wg == u).foldl (fun m p => cellsClear m (obBase p.2.word) (obLen p.2.word)) c.obuf
      accs := c.accs.map fun a => if a.wg == some u then Acc.reset else a
      partials := c.partials.filter fun p => match s.op? p.op with | some o => o.wg != u | none => true }
    let s : State := { s with wgs := terase s.wgs u }
    (s.flushPool g.core,
     some ⟨u, { g with bar := [], barc := [], switching := false }, waves.map (·.2), ghosts⟩)

/-! Restoring (R386). -/

/-- Bits [lo + n - 1 : lo] at an offset of a record. -/
def State.recBits (s : State) (base off lo n : Nat) : Nat := bitsOf (s.sysNat (base + off) 8) lo n

/-- The frontier from an offset. `kept` holds what no record holds: the fault record that an entry waits on, its addresses, and
the operations of its expansion. -/
def State.readEntries (s : State) (at' : Nat) (kept : List Entry) : List Entry :=
  (List.range 32).filterMap fun k =>
    let v := s.sysNat (at' + 16 * k) 16
    let old := kept[k]?
    if !bitOf v 117 then none
    else
      let st := stateOf (bitsOf v 108 3)
      let answered := st == .parked && (match old with | some e => e.st == .resume | none => true)
      let mac := match old with
        | some e => if bitOf v 116 then e.mac.map fun m => { m with next := bitsOf v 111 5 } else none
        | none => none
      some
        { pc := bitsOf v 0 60, prio := match old with | some e => e.prio.map fun _ => bitsOf v 96 12 | none => some (bitsOf v 96 12), mask := BitVec.ofNat 32 (bitsOf v 64 32)
          st := if answered then .resume else st, index := bitsOf v 60 4, mac := mac, count := match old with | some e => e.count | none => 0
          fault := if answered then none else (match old with | some e => e.fault | none => none)
          failed := match old with | some e => e.failed | none => false
          addrs := match old with | some e => e.addrs | none => [] }

/-- Whether 32 entry records hold states and operation indexes in range, and disjoint masks. -/
def State.entriesOk (s : State) (at' : Nat) (kept : List Entry) (disjoint : Bool) : Bool :=
  let l := (List.range 32).filterMap fun k =>
    let v := s.sysNat (at' + 16 * k) 16
    if bitOf v 117 then some (k, v) else none
  (l.all fun p => bitsOf p.2 108 3 ≤ 4 && (!bitOf p.2 116 || (match kept[p.1]? with
    | some e => (match e.mac with | some m => bitsOf p.2 111 5 < m.ops.length | none => false)
    | none => false))) &&
  (!disjoint || l.all fun p => l.all fun q => p.1 == q.1 || bitsOf p.2 64 32 &&& bitsOf q.2 64 32 == 0)

/-- Whether a cause byte keeps R13 and R385. -/
def causeOk (c : Nat) (bits : Nat) : Bool := (c ≤ 0x10 && c != 0x0C) && (c != 0 || bits % 4 == 0)

/-- Offset of the record of a wave. -/
def waveAt (base id : Nat) : Nat := base + 0x180000 + 0xA000 * id

/-- Whether the record of a workgroup is free of uncorrectable data but for its registers, whose lanes are restored poisoned (R375,
log 75), and stands in frames that the save path serves the context in (R423). -/
def State.recordSound (s : State) (base : Nat) (v : Saved) : Bool :=
  let values (off : Nat) : Bool := 0x180000 ≤ off && v.waves.any fun x =>
    let a := 0x180000 + 0xA000 * x.waveId
    a + 0x1800 ≤ off && off < a + 0xA000
  s.frameAllows v.wg.ctx base && s.frameAllows v.wg.ctx (base + 2 ^ 21) &&
  s.mem.poisoned.all fun g => !(base ≤ 32 * g && 32 * g < base + 2 ^ 22) || values (32 * g - base) || !s.sysPoisoned (32 * g)

/-- The checks of R386 on one record. -/
def State.recordOk (s : State) (base : Nat) (v : Saved) : Bool :=
  s.recordSound base v &&
  s.recBits base 0 0 16 == 1 && s.sysNat (base + 8) 8 == v.wg.launch && s.recBits base 16 0 32 == v.wg.wgid % 2 ^ 32 &&
  s.recBits base 24 0 16 == v.wg.ctx &&
  v.waves.all fun x =>
    let a := waveAt base x.waveId
    s.entriesOk (a + 0x100) x.frontier true && s.entriesOk (a + 0x300) x.handlers false &&
    causeOk (s.sysNat (a + 0x500) 1) (s.sysNat (a + 0x528) 1)

/-- Lanes of a 128-byte register. -/
def State.recLanes (s : State) (a : Nat) : Lanes := mkLanes fun l => BitVec.ofNat 32 (s.sysNat (a + 4 * l) 4)

/-- The lanes of a recorded vector register whose bytes are uncorrectable (R375). -/
def State.recBad (s : State) (a : Nat) : Mask := maskOf fun l => s.sysPoisoned (a + 4 * l)

/-- The registers of a file: a recorded one stands in the spill slot (R69). One of `kept` that had not been filled since the launch or
SPAWN initialised it still has not (R67). -/
def State.readRegs (s : State) (a : Nat) (f : RegFile) (kept : Table Reg) : Table Reg :=
  let home (n : Nat) : Home := .spilled (match tget kept n with | some r => r.home == .spilled true | none => false)
  match f with
  | .vec => (List.range 256).filterMap fun n =>
    if s.sysNat (a + 0x600 + n) 1 % 2 = 0 then none
    else some (n, ⟨home n, BitVec.ofNat 32 (s.sysNat (a + 0x800 + 4 * n) 4), s.recLanes (a + 0x2000 + 128 * n),
      BitVec.ofNat 32 (s.sysNat (a + 0xC00 + 4 * n) 4) ||| s.recBad (a + 0x2000 + 128 * n), 0, 0⟩)
  | .scl => (List.range 64).filterMap fun n =>
    let b := s.sysNat (a + 0x700 + n) 1
    if b % 2 = 0 then none
    else some (n, ⟨home n, 0, scalarLanes (BitVec.ofNat 64 (s.sysNat (a + 0x1800 + 8 * n) 8)),
      if bitOf b 1 || s.sysPoisoned (a + 0x1800 + 8 * n) then allLanes else 0, 0, 0⟩)

/-- The trap of a record. -/
def State.readTrap (s : State) (a : Nat) : TrapInfo :=
  ⟨s.sysNat (a + 0x500) 1, s.sysNat (a + 0x510) 8, s.sysNat (a + 0x508) 8, BitVec.ofNat 64 (s.sysNat (a + 0x518) 8),
   BitVec.ofNat 32 (s.sysNat (a + 0x520) 8)⟩

/-- A wave from its record (R383). -/
def State.readWave (s : State) (base : Nat) (x : Wave) : Wave :=
  let a := waveAt base x.waveId
  let d (off : Nat) : DWord := BitVec.ofNat 64 (s.sysNat (a + off) 8)
  let bits := s.sysNat (a + 0x528) 1
  let status := d 0
  { x with
    v := s.readRegs a .vec x.v, s := s.readRegs a .scl x.s, window := []
    preds := (List.range 7).map fun k => BitVec.ofNat 32 (s.sysNat (a + 0x20 + 4 * k) 4)
    sticky := status.setWidth _, trapen := d 0x08, spills := d 0x10, retired := d 0x18
    weight := if (d 0x40).bit 16 then some ⟨(d 0x40).fld 0 10, (d 0x48).toNat⟩ else none
    watch := if (d 0x60).bit 3 then some ⟨d 0x58, (d 0x60).fld 0 3, d 0x68⟩ else none
    frontier := s.readEntries (a + 0x100) x.frontier, handlers := s.readEntries (a + 0x300) x.handlers
    inTrap := bitOf bits 0, queued := if bitOf bits 1 then some (s.readTrap a) else none
    trap := if bitOf bits 1 then x.trap else s.readTrap a }

/-- The bytes of memory in [a, a + n) as byte cells at `off`. In plain local memory only the listed ones need a look: the others are 0. -/
def State.readCells (s : State) (a n off : Nat) (m : List Host.Cell) : List Host.Cell :=
  let own := match s.target a with | .hbm _ | .host => true | _ => false
  let listed := if own && !(s.mem.garbled.any fun g => a < g.start + g.len && g.start < a + n) then
      ((s.mem.cells.map (·.1)) ++ s.mem.narrow.map (·.pa)).filter fun p => a ≤ p && p < a + n
    else (List.range n).map (a + ·)
  listed.foldl (fun m p => cellPut m (off + (p - a)) (s.sysByte p)) m

/-- The operand-buffer words, accumulators and ranges that a record asks for. -/
def State.recordObs (s : State) (base : Nat) : List (Nat × DWord) :=
  (List.range 16).filterMap fun k =>
    let w : DWord := BitVec.ofNat 64 (s.sysNat (base + 0x200 + 8 * k) 8)
    if w.bit 56 then some (k, w) else none

def rangesOverlap (a b : DWord) : Bool := obBase a < obBase b + obLen b && obBase b < obBase a + obLen a

/-- What two records both ask of one core: a reservation record, an operand-buffer range, or an accumulator. -/
def State.recordsClash (s : State) (a : Nat) (v : Saved) (b : Nat) (u : Saved) : Bool :=
  let words (base : Nat) (v : Saved) : List DWord := (s.recordObs base).map (·.2) ++ v.ranges.map (·.word)
  ((s.recordObs a).any fun p => (s.recordObs b).any fun q => p.1 == q.1) ||
  ((words a v).any fun w => (words b u).any fun z => rangesOverlap w z) ||
  (List.range 4).any fun k => bitOf (s.sysNat (a + 0x280 + 8 * k) 8) 0 && bitOf (s.sysNat (b + 0x280 + 8 * k) 8) 0

/-- Whether a core has free what the record holds there: its reservation records with their ranges, and its accumulators. -/
def State.recordFree (s : State) (base core : Nat) (v : Saved) : Bool :=
  let c := s.core core
  let words := (s.recordObs base).map (·.2) ++ v.ranges.map (·.word)
  ((s.recordObs base).all fun p => (match tget c.obs p.1 with | some r => !r.valid | none => true)) &&
  (c.obs.all fun p => words.all fun w => !rangesOverlap p.2.word w) &&
  (List.range 4).all fun k => !(bitOf (s.sysNat (base + 0x280 + 8 * k) 8) 0 && (c.accs.getD k Acc.reset).wg.isSome)

/-- The core after the tile state of a record is reloaded (R386). -/
def State.readTiles (s : State) (base : Nat) (v : Saved) (c : Core) : Core :=
  let words := (s.recordObs base).map (·.2) ++ v.ranges.map (·.word)
  let obs := (s.recordObs base).foldl (fun t p => tput t p.1 ⟨p.2, v.uid, true, []⟩) c.obs
  let obs := v.ranges.foldl (fun (t : Table ObRec) r => tput t ((tkeys t).foldl max 15 + 1) r) obs
  let acc (k : Nat) : Acc :=
    let w := s.sysNat (base + 0x280 + 8 * k) 8
    if !bitOf w 0 then c.accs.getD k Acc.reset
    else ⟨some v.uid, BitVec.ofNat 4 (bitsOf w 1 4), (List.range 16384).filterMap fun p =>
      let x : Word := BitVec.ofNat 32 (s.sysNat (base + 0x40000 + 0x10000 * k + 4 * p) 4)
      if x = 0 then none else some (p, x)⟩
  { c with
    obs := obs
    obuf := words.foldl (fun m w => s.readCells (base + 0x80000 + obBase w) (obLen w) (obBase w) m) c.obuf
    accs := (List.range 4).map acc }

/-- The partial sums of the stopped task of a record. -/
def State.readPartial (s : State) (base id : Nat) (x : Item) (o : Op) : List Partial :=
  if x.done = 0 then []
  else
    match o.instr with
    | .mma f | .mmab f =>
      let t := mmaTask f o.blk
      [⟨id, x.done, (List.range (t.m * t.n)).map fun e => (List.range x.done).map fun k =>
        s.sysNat (base + 0x8000 + 0x10000 * k + 4 * e) 4⟩]
    | _ => []

end Sys2Proof.Machine
end

