-- ==== Sys2Proof/Machine/Service.lean ====
section
/-! DEFINITION. The engines behind the leaves (spec/10 R312, R316 to R320): decanting, the start of workgroups and tasks (R15,
R251, R332, R402), pops, pre-emption, switches and restores (spec/13 R380, R386). -/

namespace Sys2Proof.Machine

/-! Weight (R332, R333). -/

/-- The command die and the dispatch engine borrow at once: the grant comes back in the same step (log 3). -/
def State.borrowNow (s : State) (w : Weight) : State × Weight := (s.applyBorrow w.root, { w with w := w.w + 2 ^ 32 })

/-- The weight that the next workgroup of a launch takes, and what the launch item keeps (R332). -/
def State.launchShare (s : State) (w : Option Weight) (last : Bool) : State × Option Weight × Option Weight :=
  match w with
  | none => (s, none, none)
  | some w =>
    if last then (s, some w, none)
    else
      let r := if w.w = 1 then s.borrowNow w else (s, w)
      (r.1, some { r.2 with w := r.2.w / 2 }, some { r.2 with w := r.2.w - r.2.w / 2 })

/-- The weight of wave `k` of `n` (R332). -/
def waveShare (w : Option Weight) (n k : Nat) : Option Weight :=
  w.map fun w => { w with w := if k = 0 then w.w - (n - 1) * (w.w / n) else w.w / n }

/-! Starting work (R15, R51, R52). -/

/-- A register that the launch record or SPAWN initialises (R52). -/
def initReg (v : DWord) : Reg := ⟨.spilled true, 0, scalarLanes v, 0, 0, 0⟩

/-- A wave at its start. -/
def Wave.start (wg id pc : Nat) (prio : Option Nat) (init : List DWord) (w : Option Weight) (due : Option DWord) : Wave :=
  { wg := wg, waveId := id, v := []
    s := (List.range init.length).map fun k => (k, initReg (init.getD k 0))
    window := [], preds := List.replicate 7 0, ll := [], frontier := [⟨pc, prio, allLanes, .ready, 0, none, none, false, [], 0⟩]
    handlers := [], clause := none, sticky := 0, trapen := 0, inTrap := false, queued := none, trap := ⟨0, 0, 0, 0, 0⟩
    spills := 0, retired := 0, weight := w, watch := none, hold := none, stall := none, passing := [], pause := none
    due := match due with | some a => [⟨false, 0x0F, a, allLanes⟩] | none => [] }

/-- Free wave slots of a core, lowest first. -/
def State.freeSlots (s : State) (core : Nat) : List Nat :=
  (List.range 32).filter fun k => (s.wave? (32 * core + k)).isNone

/-- A core changes its carve-out setting: its L1 is empty and its scratchpad zero (R344). -/
def State.setCarve (s : State) (core code : Nat) : State :=
  if (s.core core).carve = code then s
  else (s.widenAll (fun n => n.core == some core) 3).updCore core fun c => { c with carve := code, spad := [] }

/-- A workgroup becomes resident: its waves take the lowest free slots, and in deterministic mode the end of the list. -/
def State.startWg (s : State) (u : Nat) (g : Wg) (pc : Nat) (init : List DWord) (w : Option Weight) (due : Option DWord) :
    State :=
  let s := s.setCarve g.core g.carve
  let slots := (s.freeSlots g.core).take g.nwaves
  let s := s.setWg u { g with waves := slots.map some }
  let prio := s.prioAt g.core g.ctx pc
  let s := (List.range slots.length).foldl (fun s k => match slots[k]? with
    | some slot => s.setWave (32 * g.core + slot) (Wave.start u k pc prio init (waveShare w g.nwaves k) due)
    | none => s) s
  if g.det then s.updCore g.core fun c => { c with rota := c.rota ++ slots } else s

/-- Whether work of a class on a core is a borrower (R314). -/
def State.isBorrower (s : State) (cls core : Nat) : Bool :=
  match s.reserveSet core with
  | some k => s.classBorrows cls k
  | none => false

/-- What every workgroup starts with. -/
def Wg.fresh (core ctx launch wgid : Nat) : Wg :=
  { core := core, wgid := wgid, member := 0, launch := launch, ctx := ctx, task := false, depth := 0, spawnOp := none, cls := 0
    carve := 0, overcommit := 16, det := false, prot := false, borrower := false, vregs := 0, sregs := 0, nwaves := 1, waves := []
    grp := List.replicate 32 0, claims := List.replicate 32 none, tlsel := List.replicate 8 0, levels := List.replicate 8 0
    extents := List.replicate 8 1, nlevels := 2, seed := 0, spadBase := 0, spadSize := 0, bar := [], barc := [], ticket := false
    killed := false, words := [], leafRank := 0, leafOrder := 0, switching := false }

/-- A workgroup of a launch (R21, R401, R402). -/
def State.launchWg (s : State) (l : Launch) (core wgid : Nat) (x : Item) (base : Nat) : Wg :=
  let r := l.record
  { Wg.fresh core l.ctx l.id wgid with
    member := wgid % recMembers r, cls := x.cls, carve := recCarve r, overcommit := recOvercommit r, det := recDet r
    prot := (s.ctx l.ctx).ctl.bit 1, borrower := s.isBorrower x.cls core, vregs := recVregs r, sregs := recSregs r
    nwaves := recExtent r 1, tlsel := (List.range 8).map fun k => BitVec.ofNat 16 (recTlSel r k)
    levels := (List.range 8).map fun k => if k < 2 then 0 else recLevel r wgid k
    extents := (List.range 8).map (recExtent r), nlevels := recLevels r, seed := BitVec.ofNat 64 (recSeed r)
    spadBase := if recSpad r = 0 then 0 else base, spadSize := recSpad r, words := x.words, leafRank := x.rank, leafOrder := x.order }

/-- The task of a SPAWN (R251). It is alone in its group, as member 0 (R196). -/
def State.taskWg (s : State) (id core : Nat) (o : Op) (g : Wg) (words : List (BitVec 32)) (rank order base : Nat) : Wg :=
  let foot := (o.blk.getD 1 0).toNat
  { g with
    core := core, member := 0, task := true, depth := g.depth + 1, spawnOp := some id, cls := o.cls
    borrower := s.isBorrower o.cls core || (g.borrower && g.core == core)
    vregs := bitsOf foot 0 9, sregs := bitsOf foot 9 7, nwaves := 1, waves := [], grp := List.replicate 32 0
    claims := List.replicate 32 none, spadBase := if bitsOf foot 16 20 = 0 then 0 else base, spadSize := bitsOf foot 16 20
    bar := [], barc := [], ticket := false, killed := false, words := words, leafRank := rank, leafOrder := order
    switching := false }

/-- Initial s0 and s1 of a task, as far as its footprint reaches (R251). -/
def Op.taskInit (o : Op) (sregs : Nat) : List DWord := [o.blk.getD 2 0, o.blk.getD 3 0].take sregs

/-- A start for an allocation on a core (R345). -/
def State.spadStart (s : State) (core : Nat) (d : Demand) (skip : Option Nat) : Option Nat :=
  if d.spad = 0 then some 0 else lowestRange (usedRanges (s.occupants core skip [])) (carveBytes d.carve) d.length

/-- A dispatch item becomes resident work on its core. -/
def State.startItem (s : State) (i core : Nat) (x : Item) : State :=
  match x.kind with
  | .workgroup id wgid =>
    (match s.launch? id with
     | some l =>
       match (match x.spad with | some b => some b | none => s.spadStart core l.demand (some i)) with
       | some b =>
         let g := s.launchWg l core wgid x b
         let r := (s.dropItem i).fresh
         let w := match x.weight with
           | some a => if a.w < g.nwaves then r.2.borrowNow a else (r.2, a)
           | none => (r.2, ⟨0, 0⟩)
         let init := (List.range (min 6 g.sregs)).map fun k => (BitVec.ofNat 64 (recScalar l.record k) : DWord)
         w.1.startWg r.1 g (recProgram l.record) init (x.weight.map fun _ => w.2) x.decantFail
       | none => s
     | none => s)
  | .task o =>
    (match s.op? o, s.demandOf x with
     | some p, some d =>
       match p.spawner, (match x.spad with | some b => some b | none => s.spadStart core d (some i)) with
       | some g, some b =>
         let t := s.taskWg o core p g x.words x.rank x.order b
         let r := (s.dropItem i).fresh
         r.2.startWg r.1 t (p.blk.getD 0 0).toNat (p.taskInit t.sregs) x.weight none
       | _, _ => s
     | _, _ => s)
  | _ => s

/-! Decanting (R316). -/

/-- Decant regions of a dispatch item: address, bytes, offset. -/
def State.regionsOf (s : State) (x : Item) : List (Nat × Nat × Nat) :=
  match x.kind with
  | .workgroup id _ =>
    (match s.launch? id with
     | some l => (List.range (recDCount l.record)).map (recDecant l.record)
     | none => [])
  | _ => []

/-- The core of a dispatch leaf that an item stands in. -/
def Item.leafCore (x : Item) : Option Nat :=
  match x.place with
  | .leaf l => if l < 192 then some l else none
  | _ => none

/-- The head item of a leaf. -/
def State.headOf (s : State) (l : Nat) : Option (NEntry × Nat × Item) :=
  match (s.leaf l).head? with
  | some e => (match e.ref with
    | .item i => (s.item? i).map fun x => (e, i, x)
    | .child _ => none)
  | none => none

/-- Whether a core admits the item at its leaf (R313). -/
def State.admitsItem (s : State) (i core : Nat) (x : Item) : Bool :=
  match s.demandOf x with
  | some d => s.admits core d (some i) [] []
  | none => false

/-- The SR_WGID that a launch's placement maps to a core, the least from `n` on (R313, R442); `fuel` bounds the search. -/
def mappedFrom (r : Nat) (set : List Nat) (core : Nat) : Nat → Nat → Option Nat
  | 0, _ => none
  | fuel + 1, n =>
    let m := recMembers r
    let target :=
      if recHasCluster r then
        let ks := (List.range 16).filter fun k => set.any fun c => clusterOfCore c == k
        match staticCore ks (n / m) with
        | some k => staticCore (set.filter fun c => clusterOfCore c == k) (n % m)
        | none => none
      else staticCore set n
    if target == some core then some n else mappedFrom r set core fuel (n + 1)

/-- The items of a launch's workgroups that have been released to a core and are not resident, by SR_WGID. -/
def State.releasedTo (s : State) (id core : Nat) : List (Nat × Nat × Item) :=
  sortBy (·.2.1) (s.trl.items.filterMap fun p => match p.2.kind with
    | .workgroup k wgid => if k == id && p.2.atDispatch core then some (p.1, wgid, p.2) else none
    | _ => none)

/-- The deterministic launch whose work a core runs (R389). -/
def State.detLaunch (s : State) (core : Nat) : Option Nat :=
  ((s.wgs.find? fun p => p.2.core == core && p.2.det).map fun p => p.2.launch)

/-- The next workgroup that a round boundary of a core would admit (R391): its SR_WGID, and its item once released. -/
def State.boundaryNext (s : State) (core : Nat) : Option (Launch × Nat × Option (Nat × Item)) :=
  match s.detLaunch core with
  | none => none
  | some id =>
    match s.launch? id with
    | none => none
    | some l =>
      match s.releasedTo id core with
      | p :: _ => some (l, p.2.1, some (p.1, p.2.2))
      | [] =>
        (mappedFrom l.record (l.permitted.getD []) core (recCount l.record - l.released) l.released).map fun n => (l, n, none)

/-- Whether a dispatch item is a workgroup of a deterministic launch. -/
def State.detItem (s : State) (x : Item) : Option Nat :=
  match x.kind with
  | .workgroup id _ => (match s.launch? id with | some l => if recDet l.record then some id else none | none => none)
  | _ => none

/-- The item that a dispatch engine starts when its head's turn comes: in deterministic mode the lowest SR_WGID released to the
core (R437). -/
def State.headNext (s : State) (core : Nat) : Option Nat :=
  match s.headOf (dispatchLeaf core) with
  | some (_, i, x) =>
    (match s.detItem x with
     | some id => ((s.releasedTo id core).head?).map (·.1)
     | none => some i)
  | none => none

/-- Whether the item may decant now: it stands among its leaf's first D entries under the core's setting, or it is the one to be
started next and the core admits it. -/
def State.mayDecant (s : State) (i : Nat) (x : Item) : Option (Nat × Nat × Demand) :=
  match x.leafCore, s.demandOf x with
  | some c, some d =>
    let l := s.leaf (dispatchLeaf c)
    let among := ((rankOrder l.hzn l.entries).take l.depth).any fun e => e.ref == .item i
    let head := s.headNext c == some i || (match s.boundaryNext c with | some (_, _, some (j, _)) => j == i | _ => false)
    let launchItem := match x.kind with | .workgroup _ _ | .task _ => true | _ => false
    if !launchItem || x.decanting || x.decanted then none
    else if (among && (s.core c).carve == d.carve) || (head && s.admitsItem i c x) then
      (s.spadStart c d (some i)).map fun b => (c, b, d)
    else none
  | _, _ => none

/-- DECANT (R316): the allocation, and the start of the copies; without regions the item is decanted. -/
def execDecant (i : Nat) (s : State) : Host.Outcome State Fault Refusal :=
  match s.item? i with
  | none => .fault .notEnabled
  | some x =>
    match s.mayDecant i x with
    | none => .fault .notEnabled
    | some (c, b, d) =>
      let none' := (s.regionsOf x).isEmpty
      let s := s.setCarve c d.carve
      .next (s.updItem i fun y => { y with
        spad := if d.spad = 0 then none else some b, spadLen := d.length, decanting := !none', decanted := none', done := 0 })

/-- One granule of a decant region, read at DEVICE scope. -/
def State.stageRead (s : State) (core ctx a n : Nat) : State × Got :=
  match s.resolve core ctx a ⟨true, false, false⟩ with
  | (s, .prot) => (s, .fail stProtection a)
  | (s, .park why) => (s, .wait why a)
  | (s, .remote h va) =>
    if !s.routed h then (s, .fail stRefused a)
    else if Config.remoteDenies s.tick then (s, .fail stProtection a)
    else if Config.remotePoisons s.tick va then (s, .fail stUncorrectable a)
    else (s.send (.request h va n [] none), .value (s.farNat va n))
  | (s, .ok pa u) =>
    let scope := if u then 5 else 4
    let r := s.loadNat core scope pa n
    if r.1.poisonedRange core scope pa n then (r.1, .fail stUncorrectable a) else (r.1, .value r.2)

/-- The granules of the regions, from number `k` on: 16 bytes each. -/
def stageList (l : List (Nat × Nat × Nat)) : List (Nat × Nat × Nat) :=
  (l.map fun r => (List.range (r.2.1 / 16 + 1)).filterMap fun k =>
    let a := r.1 + 16 * k
    let n := min 16 (r.2.1 - 16 * k)
    if n = 0 then none else some (a, n, r.2.2 + 16 * k)).flatten

/-- How decanting came to its end, or where it waits. -/
inductive Staged where
  | done
  | fail (addr : Nat)
  | wait (reason addr k : Nat)
  deriving DecidableEq, Repr

/-- A granule that crosses a page is read in two parts. -/
def State.stageGranule (s : State) (core ctx a n : Nat) : State × Got :=
  let k := 4096 - a % 4096
  if n ≤ k then s.stageRead core ctx a n
  else
    match s.stageRead core ctx a k with
    | (s, .value lo) =>
      match s.stageRead core ctx (a + k) (n - k) with
      | (s, .value hi) => (s, .value (lo + hi * 2 ^ (8 * k)))
      | r => r
    | r => r

/-- Copy granules into the allocation. -/
def State.stage (s : State) (core ctx base k : Nat) : List (Nat × Nat × Nat) → State × Staged
  | [] => (s, .done)
  | g :: rest =>
    match s.stageGranule core ctx g.1 g.2.1 with
    | (s, .value v) =>
      (s.updCore core fun c => { c with spad := cellsPut c.spad (base + g.2.2) g.2.1 v }).stage core ctx base (k + 1) rest
    | (s, .fail _ a) => (s, .fail a)
    | (s, .wait why a) => (s, .wait why a k)

/-- A decanting item whose staging engine nothing holds back. -/
def State.canStage (s : State) (i : Nat) : Option (Item × Nat × Demand) :=
  match s.item? i with
  | some x =>
    if x.decanting && x.fault.isNone then
      match x.leafCore, s.demandOf x with
      | some c, some d => some (x, c, d)
      | _, _ => none
    else none
  | none => none

/-- DECANT_COMPLETE (R316): the regions are copied; a failed condition marks the workgroup, a page that is not present makes the
staging engine wait, and a FAIL response marks it at the address that it waited for (R359). -/
def execDecantComplete (i : Nat) (s : State) : Host.Outcome State Fault Refusal :=
  match s.canStage i with
  | none => .fault .notEnabled
  | some (x, c, d) =>
    let fin (s : State) (bad : Option Nat) : State :=
      s.updItem i fun y => { y with decanting := false, decanted := true, failed := false, decantFail := bad.map (BitVec.ofNat 64) }
    if x.failed then .next (fin s (some x.faultVa))
    else
      match s.stage c d.ctx (x.spad.getD 0) x.done ((stageList (s.regionsOf x)).drop x.done) with
      | (t, .done) => .next (fin t none)
      | (t, .fail a) => .next (fin t (some a))
      | (t, .wait why a k) => .next (t.itemFault i d.ctx c unitStaging why a false k)

/-! Pops (R312). -/

/-- Whether a dispatch item is ready to start but for admission: it is decanted, or declares no region (R316). -/
def State.isDecanted (s : State) (x : Item) : Bool := x.decanted || (!x.decanting && (s.regionsOf x).isEmpty)

/-- Whether resume items of a deterministic share of a core are still out (R395). -/
def State.shareOut (s : State) (id core : Nat) : Bool :=
  s.trl.items.any fun p => match p.2.saved with
    | some v => v.wg.det && v.wg.launch == id && v.wg.core == core
    | none => false

/-- Whether a core can start one of its dispatch items. -/
def State.canStart (s : State) (core i : Nat) (x : Item) : Bool :=
  x.place == .leaf (dispatchLeaf core) && s.isDecanted x && s.admitsItem i core x

/-- Whether a dispatch engine can start its head (R312, R316, R437). A deterministic core takes new work only at its round
boundaries, the first when its list is empty. -/
def State.canDispatch (s : State) (core i : Nat) (x : Item) : Bool :=
  match x.kind with
  | .workgroup _ _ =>
    (match s.detItem x with
     | some id =>
       (s.core core).rota.isEmpty && !s.shareOut id core &&
       (match s.releasedTo id core with | (j, _, y) :: _ => s.canStart core j y | [] => false)
     | none => s.canStart core i x)
  | .task _ => s.canStart core i x
  | .resume _ _ _ => s.admitsItem i core x
  | _ => false

/-- Whether no earlier tile operation of an item's workgroup is incomplete (R262). -/
def State.tileTurn (s : State) (x : Item) : Bool :=
  match x.kind with
  | .tile k =>
    (match s.op? k with
     | some o => s.ops.all fun p => !(p.1 < k && p.2.wg == o.wg && p.2.isTile && !p.2.ready)
     | none => true)
  | _ => true

/-- Whether a leaf's engine can start its head (R262, R312). -/
def State.canPop (s : State) (l i : Nat) (x : Item) : Bool :=
  if l < 192 then s.canDispatch l i x
  else if l < 384 then (s.inService l).isEmpty && s.tileTurn x
  else if l < 576 then (s.inService l).length < 4
  else (s.inService l).length < 16 && !s.cmd.training.contains (l - 576)

/-- The head leaves its leaf for the engine. Items that were to be put back for it stay (R319). -/
def State.popHead (s : State) (l i : Nat) (e : NEntry) : State :=
  let s := s.setLeaf l { (s.leaf l).pop e with fresh := false }
  let s := s.setTrl { s.trl with items := s.trl.items.map fun (p : Nat × Item) =>
    (p.1, if p.2.place == .service l then { p.2 with victim := false } else p.2) }
  s.updItem i fun x => { x with place := .service l, rank := e.rank, order := e.order }

/-- A dispatch item leaves its leaf and starts. -/
def State.startFrom (s : State) (core i : Nat) (x : Item) : State :=
  match (s.leaf (dispatchLeaf core)).entries.find? fun e => e.ref == .item i with
  | some e => (s.popHead (dispatchLeaf core) i e).startItem i core { x with rank := e.rank, order := e.order }
  | none => s

/-- The first round boundary of a deterministic launch on a core (R437): of its workgroups there the lowest starts now, and the
boundary goes on. -/
def State.firstBoundary (s : State) (core id : Nat) : State :=
  match s.releasedTo id core with
  | (j, _, y) :: _ => (s.startFrom core j y).updCore core fun c => { c with pos := 0, boundary := true, edge := false, turn := none }
  | [] => s

/-- A leaf's engine pops its head and starts it. -/
def State.popLeaf (s : State) (l i : Nat) (e : NEntry) (x : Item) : State :=
  if l < 192 then
    match x.kind with
    | .workgroup _ _ => (match s.detItem x with | some id => s.firstBoundary l id | none => s.startFrom l i x)
    | .task _ => s.startFrom l i x
    | _ => s.popHead l i e
  else if l < 576 then s.popHead l i e
  else
    let s := s.popHead l i e
    match s.packetAt i with
    | some (y, id, k, o, c) => s.sendPacket i y id k o c
    | none => s

/-- ENGINE_POP (R312). -/
def execEnginePop (l : Nat) (s : State) : Host.Outcome State Fault Refusal :=
  match s.headOf l with
  | none => .fault .notEnabled
  | some (e, i, x) => if s.canPop l i x then .next (s.popLeaf l i e x) else .fault .notEnabled

/-! Pre-emption at the leaves (R317 to R320). -/

/-- The operation of a tile item of a workgroup. -/
def State.tileOf (s : State) (u : Nat) (e : NEntry) : Option Nat :=
  match e.ref with
  | .item i =>
    (match s.item? i with
     | some x => (match x.kind with
       | .tile k => (match s.op? k with | some o => if o.wg == u then some k else none | none => none)
       | _ => none)
     | none => none)
  | .child _ => none

/-- The tile items of a workgroup take the places that they hold together in their leaf in the order of issue (R262): what comes back to
the leaf does not start behind a later operation. -/
def State.orderTiles (s : State) (l u : Nat) : State :=
  let y := s.leaf l
  let mine := (rankOrder y.hzn y.entries).filter fun e => (s.tileOf u e).isSome
  let refs := (sortBy (fun e => (s.tileOf u e).getD 0) mine).map (·.ref)
  s.setLeaf l { y with entries := y.entries.map fun e =>
    match refs[(mine.takeWhile fun a => a.order != e.order).length]? with
    | some r => { e with ref := r }
    | none => e }

/-- The workgroup of a tile item. -/
def State.tileWg (s : State) (x : Item) : Option Nat :=
  match x.kind with
  | .tile k => (s.op? k).map (·.wg)
  | _ => none

/-- Put a victim back in its leaf with its rank and push order (R320), a tile task before the later ones of its workgroup (R262). It has
been passed over no times yet and is not promoted (log 80). -/
def State.putBack (s : State) (l i : Nat) : State :=
  match s.item? i with
  | none => s
  | some x =>
    let y := s.leaf l
    let s := s.setLeaf l { y with entries := sortBy (·.order) (y.entries ++ [⟨.item i, x.rank, x.order, 0, false⟩]), preempts := y.preempts + 1 }
    let s := s.updItem i fun x => { x with place := .leaf l, victim := false }
    match s.tileWg x with | some u => s.orderTiles l u | none => s

/-- A victim of a tile or copy leaf that can be stopped: nothing holds it back. -/
def State.victimOf (s : State) (l : Nat) : Option (Nat × Item) :=
  (s.inService l).find? fun p => p.2.victim && p.2.fault.isNone

/-- Bytes of a segment up to the 4 KiB boundary of its destination at or behind a point (R246). -/
def stopPoint (d done : Nat) : Nat := alignUp (d + done) 4096 - d

/-- Stop a victim at its safe point, if it has one before its end: pop the head, then put the victim back (R318, R319). A head that waits
for an earlier tile operation of its workgroup does not start, and the victim goes on (R262, R272). -/
def State.stopVictim (s : State) (l i : Nat) (x : Item) : State :=
  let swap (s : State) : State :=
    match s.headOf l with
    | some (e, j, y) => (s.updItem i fun v => { v with place := .toLeaf l }).popLeaf l j e y |>.putBack l i
    | none => s.updItem i fun v => { v with victim := false }
  if l < 384 then
    match s.tileRunning (l - 192) with
    | some (_, _, id, o) =>
      let starts := match s.headOf l with | some (_, _, y) => s.tileTurn y | none => false
      if o.hasSteps && starts then swap (s.stopTile i id o) else s.updItem i fun v => { v with victim := false }
    | none => s
  else
    match s.segmentRunning i with
    | none => s
    | some (_, id, k, o, c) =>
      let p := c.place k
      let stop := stopPoint p.1 x.done
      if stop ≥ p.2.2 then s.runSegment i x id k o c
      else s.moveSegment i x id k o c stop fun s => swap (s.updItem i fun v => { v with done := stop })

/-- Whether a leaf's margin lets a victim go for the head (R317). -/
def Leaf.marginOk (y : Leaf) (victim head : Nat) : Bool :=
  y.margin != 0xFFFF && rankKey y.hzn victim > rankKey y.hzn head + y.margin

/-- Workgroups popped from a core's dispatch leaf in descending key, the one pushed last first among equals. -/
def State.victims (s : State) (core : Nat) : List (Nat × Wg) :=
  let h := (s.leaf (dispatchLeaf core)).hzn
  (sortBy (fun p => rankKey h p.2.leafRank * 2 ^ 64 + p.2.leafOrder)
    (s.wgs.filter fun p => p.2.core == core && !p.2.switching)).reverse

/-- The first workgroups of a list, each with those that leave with it, whose leaving lets the core admit the demand (R315,
R317). `gone` leave already. -/
def State.enough (s : State) (core : Nat) (d : Demand) (skip : Option Nat) : List (Nat × Wg) → List (Nat × Wg) → Option (List (Nat × Wg))
  | [], gone => if s.admits core d skip [] (gone.map (·.1)) then some gone else none
  | v :: rest, gone =>
    if s.admits core d skip [] (gone.map (·.1)) then some gone
    else s.enough core d skip rest (gone ++ (s.switchSet v.1 v.2).filter fun p => !(gone.any fun q => q.1 == p.1))

/-- NOSLOT counts in each context that lacks a slot for its workgroups of a set (R379). -/
def State.countNoslot (s : State) (l : List (Nat × Wg)) : State :=
  ((l.map (·.2.ctx)).eraseDups.filter fun c => !s.slotsFor (l.filter fun p => p.2.ctx == c)).foldl
    (fun s c => s.updCtx c fun k => { k with noslot := k.noslot + 1 }) s

/-- A switch is asked of workgroups that each have a slot; without one NOSLOT counts and none is chosen (R379). -/
def State.askSwitch (s : State) (l : List (Nat × Wg)) : State :=
  let l := l.filter fun p => !p.2.switching
  if s.slotsFor l then l.foldl (fun s p => s.updWg p.1 fun g => { g with switching := true }) s
  else s.countNoslot l

/-- The evaluation of pre-emption for the head of a leaf (R317). -/
def State.evaluate (s : State) (l i : Nat) (e : NEntry) (x : Item) : State :=
  let y := s.leaf l
  if l < 192 then
    match s.demandOf x with
    | none => s
    | some d =>
      let vs := (s.victims l).filter fun p => y.marginOk p.2.leafRank e.rank
      let gone := s.wgs.filter fun p => p.2.core == l && p.2.switching
      match s.enough l d (some i) vs gone with
      | some out => if vs.isEmpty then s else s.askSwitch out
      | none => s
  else if l < 576 then
    match (sortBy (fun p => rankKey y.hzn p.2.rank * 2 ^ 64 + p.2.order) (s.inService l)).getLast? with
    | some (v, z) => if y.marginOk z.rank e.rank && s.tileTurn x then s.updItem v fun z => { z with victim := true } else s
    | none => s
  else s

/-- LEAF_PREEMPT (R317 to R319): a victim chosen before stops at its safe point, or a new head that cannot start chooses one. -/
def execLeafPreempt (l : Nat) (s : State) : Host.Outcome State Fault Refusal :=
  match s.headOf l with
  | none => .fault .notEnabled
  | some (e, i, x) =>
    match s.victimOf l with
    | some (v, z) => .next (s.stopVictim l v z)
    | none =>
      if !(s.leaf l).fresh || s.canPop l i x then .fault .notEnabled
      else
        let s := s.setLeaf l { s.leaf l with fresh := false }
        .next (s.evaluate l i e x)

/-! Switching out (R380). -/

/-- The point of the rotation at which a deterministic share can leave: at a boundary, after its admissions and before the next turn
(R395). -/
def State.atBoundary (s : State) (core : Nat) : Bool :=
  (s.core core).edge &&
  !((List.range 4).any fun k => (s.seq (4 * core + k)).active.isSome)

/-- Whether the set that a switch takes can leave now (R377, R378, R395). -/
def State.canSwitch (s : State) (u : Nat) : Option (List (Nat × Wg)) :=
  match s.wg? u with
  | none => none
  | some g =>
    let set := s.switchSet u g
    if g.switching && (set.all fun p => s.canSave p.1 p.2 && (!p.2.det || s.atBoundary p.2.core)) then some set else none

/-- The resume item of a switched-out workgroup, with the words of the item that it replaces (R298, R318), pushed if it finds
room; otherwise it waits outside the queues (log 48). -/
def State.pushResume (s : State) (v : Saved) (slot : Nat) : State :=
  let r := s.fresh
  (r.2.setItem r.1 { Item.of (.resume v.wg.ctx slot v.wg.core) v.wg.words v.wg.ctx v.wg.cls (s.classEntry v.wg.cls)
    (s.classPart v.wg.cls) none with saved := some v, place := .withdrawn }).enterResume r.1

/-- Pop the head of a core's dispatch leaf if it can start now (R319). -/
def State.tryDispatch (s : State) (core : Nat) : State :=
  match s.headOf (dispatchLeaf core) with
  | some (e, i, x) => if s.canDispatch core i x then s.popLeaf (dispatchLeaf core) i e x else s
  | none => s

/-- SWITCH_OUT (R380): every workgroup of the set is saved, the resume items are pushed, so that the workgroups of a deterministic share
that stay behind wait for it (R437), and the head of each leaf starts. Without a slot for each the switch does not take place
(R379). -/
def execSwitchOut (u : Nat) (s : State) : Host.Outcome State Fault Refusal :=
  match s.canSwitch u with
  | none => .fault .notEnabled
  | some set =>
    if !s.slotsFor set then
      .next (set.foldl (fun s p => s.updWg p.1 fun g => { g with switching := false }) (s.countNoslot set))
    else
      let turn (k : Nat) : Nat := (s.core (coreOfWave k)).turnWord (slotOfWave k)
      let r := set.foldl (fun (a : State × List (Saved × Nat)) p =>
        let slot := (a.1.freeSlotsOf p.2.ctx).headD 0
        match a.1.saveWg p.1 slot turn with
        | (s, some v) =>
          let y := s.leaf (dispatchLeaf p.2.core)
          (s.setLeaf (dispatchLeaf p.2.core) { y with preempts := y.preempts + 1 }, a.2 ++ [(v, slot)])
        | (s, none) => (s, a.2)) (s, [])
      let s := r.2.foldl (fun s v => s.pushResume v.1 v.2) r.1
      .next ((set.map (·.2.core)).eraseDups.foldl (fun s c => s.tryDispatch c) s)

/-! Restoring (R386, R395). -/

/-- The items that a restore returns together: a deterministic share of a core, a cluster-bound group, or one workgroup. -/
def State.restoreSet (s : State) (i : Nat) (v : Saved) : List (Nat × Saved) :=
  if v.wg.det then s.trl.items.filterMap fun p => match p.2.saved with
    | some u => if u.wg.det && u.wg.launch == v.wg.launch && u.wg.core == v.wg.core then some (p.1, u) else none
    | none => none
  else s.resumeGroup i v

/-- The core and slot of a resume item that its dispatch engine has popped. -/
def Item.popped? (x : Item) : Option (Nat × Nat) :=
  match x.kind, x.place with
  | .resume _ slot _, .service l => some (l, slot)
  | _, _ => none

/-- Slots for restored waves, by position in their list: waves in a handler first, each on a sequencer that runs none (R45). -/
def State.restoreSlots (s : State) (core : Nat) (handlers : List Bool) : Option (List (Nat × Nat)) :=
  let owned (k : Nat) : Bool := (s.seq (4 * core + k)).owner.isSome
  let order := (List.range handlers.length).filter (fun k => handlers.getD k false) ++
    (List.range handlers.length).filter fun k => !handlers.getD k false
  let r := order.foldl (fun (a : List Nat × List Nat × List (Nat × Nat)) k =>
    let inH := handlers.getD k false
    match a.1.find? fun slot => !inH || !(owned (slot / 8) || a.2.1.contains (slot / 8)) with
    | some slot => (a.1.filter fun x => x != slot, if inH then a.2.1 ++ [slot / 8] else a.2.1, a.2.2 ++ [(k, slot)])
    | none => a) (s.freeSlots core, [], [])
  if r.2.2.length == handlers.length then some r.2.2 else none

/-- A member of a restore: its item, its record, and the core and slot that it has been popped with. -/
abbrev Member := Nat × Saved × Nat × Nat

def State.memberBase (s : State) (p : Member) : Nat := saveBase (s.ctx p.2.1.wg.ctx) p.2.2.2
def State.memberOk (s : State) (p : Member) : Bool := s.recordOk (s.memberBase p) p.2.1

/-- The slots of the waves that a restore brings to a core, by item and position in its record: those of every workgroup whose record
passes the checks are chosen together, so that none takes what another's handler needs (R45, R386). -/
def State.restorePlan (s : State) (set : List Member) (core : Nat) : Option (List ((Nat × Nat) × Nat)) :=
  let keys := ((set.filter fun p => p.2.2.1 == core && s.memberOk p).map fun p =>
    (List.range p.2.1.waves.length).map fun k => (p.1, k)).flatten
  let flags := ((set.filter fun p => p.2.2.1 == core && s.memberOk p).map fun p => p.2.1.waves.map (·.inTrap)).flatten
  (s.restoreSlots core flags).map fun l => l.filterMap fun r => keys[r.1]?.map fun k => (k, r.2)

/-- The slots of one item's waves in a plan. -/
def planOf (l : List ((Nat × Nat) × Nat)) (i : Nat) : List (Nat × Nat) :=
  l.filterMap fun r => if r.1.1 == i then some (r.1.2, r.2) else none

/-- The set of a restore with the core and record of each, once all have been admitted and their tile state has room. -/
def State.canRestore (s : State) (i : Nat) : Option (List Member) :=
  match s.item? i with
  | none => none
  | some x =>
    match x.saved with
    | none => none
    | some v =>
      let set := (s.restoreSet i v).filterMap fun p => match s.item? p.1 with
        | some y => y.popped?.map fun c => (p.1, p.2, c.1, c.2)
        | none => none
      if set.length == (s.restoreSet i v).length && (set.any fun p => p.1 == i) &&
          (set.all fun p => !s.memberOk p || (s.recordFree (s.memberBase p) p.2.2.1 p.2.1 && (s.restorePlan set p.2.2.1).isSome &&
            set.all fun q => q.1 == p.1 || q.2.2.1 != p.2.2.1 || !s.memberOk q ||
              !s.recordsClash (s.memberBase p) p.2.1 (s.memberBase q) q.2.1)) then some set else none

/-- A refused record kills its workgroup, which is not resident (R386, R431). -/
def State.killSaved (s : State) (i : Nat) (v : Saved) (slot cause : Nat) (restore : Bool) : State :=
  let s := s.updCtx v.wg.ctx fun c => { c with
    kill := killRecord v.wg.wgid cause false restore, saved := c.saved.filter fun k => k != slot }
  let tiles := (s.withdrawnOf v.uid).map (·.1)
  let s := tiles.foldl (fun s j => s.dropItem j) s
  let s := (s.removeItem i).setWg v.uid { v.wg with killed := true, waves := [], spadSize := 0 }
  let s := s.killOpsOf v.uid
  let s := v.waves.foldl (fun s x => s.giveBack v.wg.core x.weight true) s
  (s.endWg v.uid).flushPool v.wg.core

/-- The withdrawn tile items of a workgroup are pushed again at the tile leaf of its core in their order, with their ranks (R386); they
start in that order (R262). They do not arrive as new heads: no pre-emption is evaluated for them (R317, log 80). -/
def State.returnTiles (s : State) (u core : Nat) : State :=
  let l := tileLeaf core
  ((s.withdrawnOf u).foldl (fun s p =>
    let y := s.leaf l
    (s.setLeaf l { y with entries := y.entries ++ [⟨.item p.1, p.2.rank, y.nextOrder, 0, false⟩], nextOrder := y.nextOrder + 1 }
      ).updItem p.1 fun x => { x with place := .leaf l, order := y.nextOrder }) s).orderTiles l u

/-- Restore one workgroup whose record has passed the checks, its waves in slots by position. It ranks at its leaf as the resume item that
was popped there (R315, R317). A borrower's task stays a borrower wherever it returns (R314, log 80). -/
def State.restoreWg (s : State) (i : Nat) (v : Saved) (core slot base : Nat) (slots : List (Nat × Nat)) : State :=
  match s.spadStart core v.wg.demand (some i) with
  | none => s
  | some b =>
    let s := s.setCarve core v.wg.carve
    let parts := ((s.withdrawnOf v.uid).map fun p => match p.2.kind with
      | .tile id => (match s.op? id with | some o => s.readPartial base id p.2 o | none => [])
      | _ => []).flatten
    let waves := v.waves.map (s.readWave base)
    let key (x : Item) : Nat × Nat := (x.rank, x.order)
    let at' := match s.item? i with | some x => key x | none => (v.wg.leafRank, v.wg.leafOrder)
    let slot? (k : Nat) : Option Nat := (slots.find? fun p => p.1 == k).map (·.2)
    let spadBase := if v.wg.spadSize = 0 then 0 else b
    let g := { v.wg with
      core := core, spadBase := spadBase, leafRank := at'.1, leafOrder := at'.2, borrower := s.isBorrower v.wg.cls core || (v.wg.task && v.wg.borrower)
      waves := (List.range v.wg.nwaves).map fun id =>
        (((List.range waves.length).find? fun k => (match waves[k]? with | some x => x.waveId == id | none => false)).bind slot?)
      grp := (List.range 32).map fun n => BitVec.ofNat 64 (s.sysNat (base + 0x40 + 8 * n) 8)
      claims := (List.range 32).map fun n =>
        let c := s.sysNat (base + 0x140 + n) 1
        if bitOf c 7 then some (c % 32) else none
      tlsel := (List.range 8).map fun k => BitVec.ofNat 16 (s.sysNat (base + 0x160 + 8 * k) 2)
      ticket := bitOf (s.sysNat base 8) 25 }
    let s := s.updCore core fun c =>
      let c := s.readTiles base v c
      ({ c with
        spad := s.readCells (base + 0xC0000) v.wg.spadSize spadBase c.spad
        partials := c.partials ++ parts } : Core)
    let s := (s.dropItem i).setWg v.uid g
    let s := (List.range waves.length).foldl (fun s k => match waves[k]?, slot? k with
      | some x, some slot =>
        let w := 32 * core + slot
        let bank := (List.range 16).map fun t => s.recLanes (waveAt base x.waveId + 0x1000 + 128 * t)
        let r := s.watchAgain core g x
        let s := r.1.setWave w r.2
        let s := if g.det then s.updCore core fun c => { c with
          slices := tput c.slices (sliceKey g.launch (g.sliceNo x.waveId)) (s.sysNat (waveAt base x.waveId + 0x50) 8) } else s
        if x.inTrap then s.updSeq (seqOfWave w) fun q => { q with owner := some w, bank := bank } else s
      | _, _ => s) s
    let s : State := { s with ops := s.ops.map fun (p : Nat × Op) =>
      (p.1, if p.2.wg == v.uid && p.2.isTile then { p.2 with core := core } else p.2) }
    (s.returnTiles v.uid core).updCtx v.wg.ctx fun c => { c with saved := c.saved.filter fun k => k != slot }

/-- The rotation state of the waves of a share by its records: position and NEXT. -/
def State.turnWords (s : State) (set : List Member) : List (Nat × Bool) :=
  (set.map fun p => p.2.1.waves.map fun x =>
    let w := s.sysNat (waveAt (s.memberBase p) x.waveId + 0x70) 8
    (bitsOf w 0 5, bitOf w 5)).flatten

/-- Whether the positions are 0 to n − 1 without gaps and exactly one wave is next (R395). -/
def turnsOk (l : List (Nat × Bool)) : Bool :=
  ((List.range l.length).all fun k => (l.filter fun p => p.1 == k).length == 1) && (l.filter (·.2)).length == 1

/-- The list of a deterministic core rebuilt from the positions recorded (R395). -/
def State.rebuildRota (s : State) (core : Nat) (turns : List (Nat × Nat × Bool)) : State :=
  let l := sortBy (·.2.1) turns
  s.updCore core fun c => { c with
    rota := l.map (·.1), pos := (l.takeWhile fun p => !p.2.2).length % max 1 l.length, boundary := false, edge := false, turn := none }

/-- RESTORE (R386, R395). -/
def execRestore (i : Nat) (s : State) : Host.Outcome State Fault Refusal :=
  match s.canRestore i with
  | none => .fault .notEnabled
  | some set =>
    let det := set.any fun p => p.2.1.wg.det
    let turns := s.turnWords set
    let good := !det || turnsOk turns
    let r := set.foldl (fun (a : State × List (Nat × Nat × Bool)) p =>
      let v := p.2.1
      let base := s.memberBase p
      if !good || !s.memberOk p then (a.1.killSaved p.1 v p.2.2.2 0 true, a.2)
      else
        let t := a.1.restoreWg p.1 v p.2.2.1 p.2.2.2 base (planOf ((s.restorePlan set p.2.2.1).getD []) p.1)
        let mine := match t.wg? v.uid with
          | some g => v.waves.filterMap fun x => (g.waves.getD x.waveId none).map fun slot =>
            let w := t.sysNat (waveAt base x.waveId + 0x70) 8
            (slot, bitsOf w 0 5, bitOf w 5)
          | none => []
        (t, a.2 ++ mine)) (s, [])
    let core := match set.head? with | some p => p.2.2.1 | none => 0
    .next (if det && !r.2.isEmpty then r.1.rebuildRota core r.2 else r.1)

end Sys2Proof.Machine
end

