-- ==== Sys2Proof/Machine/Dram.lean ====
section
/-! DEFINITION. The DRAM channels (spec/12 R364 to R366): requests that miss the memory-side cache, their classes and deadlines,
and the choice of a channel. Which accesses miss, and on which channel, is free (log 3, log 21). -/

namespace Sys2Proof.Machine

/-- Class and slack of a context's requests of a class (CTX_QOS, R365). -/
def State.qosOf (s : State) (ctx cls : Nat) : Nat × Nat := (cls, (s.ctx ctx).qos.fld (8 + 12 * cls) 12)

/-- A request arrives at a channel (R366): its deadline is the channel's clock plus the slack. -/
def State.dramArrive (s : State) (ch who : Nat) (q : Nat × Nat) : State :=
  let c := s.channel ch
  let now : BitVec 32 := c.clock + BitVec.ofNat 32 (Config.clocks s.tick)
  let r : DramReq := ⟨who, q.1, now + BitVec.ofNat 32 q.2⟩
  s.setCmd { s.cmd with channels := tput s.cmd.channels ch { clock := now, reqs := c.reqs ++ [r] } }

/-- Whether an opcode accesses memory outside the scratchpads: global, bound and expanded loads and stores, PFG, LDC, LLOCK and LUNLK,
CFLUSH, CINV, HALLOC and HFREE, global atomics and reductions, XRED and XRD, SYACQ, SYREL, SYBIND's translation, MWATCH and MWAIT. -/
def reachesDram (op : Nat) : Bool :=
  [0x80, 0x83, 0x84, 0x85, 0x86, 0x88, 0x8B, 0x8C, 0x90, 0x91, 0x92, 0x93, 0x94, 0x95, 0x98, 0x9B, 0x9D, 0x9E, 0xA3, 0xA4, 0xA5, 0xA6, 0xA7].contains op

/-- A requester with class and slack (R365). -/
abbrev Requester := Nat × Nat × Nat

/-- The requests of a unit of a core through a context's translation: its own, and those of the page walks, which count for the core
(R365, R366). -/
def withWalks (core : Nat) (r : Requester) : List Requester := [r, (core, 3, 0)]

/-- The accesses of a core's waves for a context, with its WCLASS. -/
def State.classedRequests (s : State) (core ctx : Nat) : List Requester :=
  withWalks core (core, s.qosOf ctx ((s.ctx ctx).qos.fld 0 2))

/-- The wave accesses of a wave. -/
def State.waveRequests (s : State) (w : Nat) : List Requester :=
  match s.wave? w with
  | some x => (match s.wg? x.wg with
    | some g => s.classedRequests (coreOfWave w) g.ctx
    | none => [])
  | none => []

/-- The local accesses of a copy operation, with the instruction's SVC. -/
def State.copyRequests (s : State) (o : Op) : List Requester :=
  withWalks o.core (192 + o.core, s.qosOf o.ctx (match o.word? with | some f => bitsOf f.imm.toNat 4 2 | none => 0))

/-- The same for an item that is a segment or packet. -/
def State.itemRequests (s : State) (i : Nat) : List Requester :=
  match (s.item? i).bind Item.segmentOf? with
  | some id => (match s.op? id with | some o => s.copyRequests o | none => [])
  | none => []

/-- The accesses of a unit that the table does not name, the command die or an instruction cache: their class and slack are free, and they
count for no requester of R366 (log 21). -/
def State.otherRequests (s : State) : List Requester := [(595, Config.otherClass s.tick % 4, Config.otherSlack s.tick % 4096)]

/-- The walk that an instruction fetch of a sequencer makes before its line is asked for. -/
def fetchWalks (q : Nat) : List Requester := [(q / 4, 3, 0)]

/-- Who makes the accesses of an action, with class and slack (R364, R365): `w` is the wave that issues an instruction. AMAX's maximum is
an atomic of the wave's core (R273, log 21). -/
def State.requestersOf (s : State) (w : Option Nat) (i : Instr) : List Requester :=
  match w with
  | some w => if reachesDram (opcodeOf i) then s.waveRequests w else []
  | none =>
    match i with
    | .holdEnd w | .mwaitTimeout w => s.waveRequests w
    | .icacheLineArrival k _ _ => (12 * k, 3, 0) :: s.otherRequests
    | .copySegmentComplete k | .packetAck k | .packetResend k => s.itemRequests k
    | .enginePop l => if l < 576 then [] else (match s.headOf l with | some (_, k, _) => s.itemRequests k | none => [])
    | .leafPreempt l => if l < 384 then [] else (match s.victimOf l with | some (k, _) => s.itemRequests k | none => [])
    | .tileTaskComplete c => (match s.tileRunning c with
      | some (_, _, _, o) => (match o.instr with | .mdrain _ => s.classedRequests c o.ctx | _ => [])
      | none => [])
    | .decantComplete k => (match s.item? k with
      | some x => (match x.place with | .leaf l => withWalks (l % 192) (384 + l % 192, 3, 0) | _ => [])
      | none => [])
    | .spillWriteComplete c _ | .fillComplete c _ => [(c, 3, 0)]
    | .remoteRequest r => [(576 + r.port, s.qosOf r.ctx r.cls), (576 + r.port, 3, 0)]
    | .hostAccess _ => [(592, 2, 256)]
    | .rackChunk => [(593, 0, 4095)]
    | .faultRecordWrite _ | .switchOut _ | .restore _ | .hostQueueDoorbell _ _ | .caskPacketRun _ | .outputDigest _ | .vintageRecordWrite
    | .completionEntryWrite _ | .eventRingWrite | .mgmtDoorbell _ | .progloadTrellisSlot _ _ _ | .progloadLeaf _ _ _
    | .progloadCaskSlot _ _ _ => s.otherRequests
    | _ => []

/-- The lines of a requester that miss, each on its channel, each with the write-back that may follow (R364). -/
def State.dramMisses (s : State) (n : Nat) (r : Requester) : State :=
  (List.range (Config.memSideMisses s.tick n)).foldl (fun s k =>
    let ch := Config.channelOf s.tick n k % 384
    let s := s.dramArrive ch r.1 r.2
    if Config.writesBack s.tick n k then s.dramArrive ch 594 (0, 4095) else s) s

/-- The requests of an action on their channels. -/
def State.dramArrivals (s : State) (l : List Requester) : State :=
  ((List.range l.length).zip l).foldl (fun s p => s.dramMisses p.1 p.2) s

/-- Clocks by which a deadline has passed, if it has (R366). -/
def DramReq.late (r : DramReq) (clock : BitVec 32) : Option Nat :=
  let d := (clock - r.deadline).toNat
  if 0 < d && d < 2 ^ 31 then some d else none

/-- The order of deadlines within their window, seen from the channel's clock. -/
def DramReq.urgency (r : DramReq) (clock : BitVec 32) : Nat := (r.deadline - clock + 0x80000000#32).toNat

/-- The position of the request that a channel takes among those that DRAM timing allows: one that is 65,536 clocks late first, the oldest
deadline before others; else the highest class, the earliest deadline, the earliest arrival (R366). -/
def Channel.next (c : Channel) (allowed : Nat → Bool) : Option Nat :=
  let all := (List.range c.reqs.length).filter allowed
  let get (k : Nat) : DramReq := c.reqs.getD k ⟨0, 0, 0⟩
  let aged := all.filter fun k => match (get k).late c.clock with | some d => d ≥ 65536 | none => false
  match leastBy (fun k => (get k).urgency c.clock) aged with
  | some k => some k
  | none => leastBy (fun k => (3 - (get k).cls) * 2 ^ 33 + (get k).urgency c.clock) all

/-- A channel's clock goes on, and it takes the next request that timing allows; one that issues after its deadline counts as missed
against its requester (R366). -/
def State.dramIssue (s : State) (ch : Nat) (c : Channel) (allowed : Nat → Bool) : State :=
  let put (s : State) (c : Channel) : State := s.setCmd { s.cmd with channels := tput s.cmd.channels ch c }
  match c.next allowed with
  | none => put s c
  | some k =>
    let s := put s { c with reqs := dropAt c.reqs k }
    match c.reqs[k]? with
    | some r =>
      let missed := (tget s.cmd.hbmMiss r.who).getD 0
      if (r.late c.clock).isSome then s.setCmd { s.cmd with hbmMiss := tput s.cmd.hbmMiss r.who (missed + 1) } else s
    | none => s

/-- DRAM_REQUEST_ISSUE (R366). Which requests the timing allows is free; while it allows none, only the clock goes on. -/
def execDramRequestIssue (ch : Nat) (s : State) : Host.Outcome State Fault Refusal :=
  let c := s.channel ch
  if c.reqs.isEmpty then .fault .notEnabled
  else .next (s.dramIssue ch { c with clock := c.clock + 1 + BitVec.ofNat 32 (Config.clocks s.tick) } (Config.dramAllows s.tick))

end Sys2Proof.Machine
end

