-- ==== Sys2Proof/Machine/Cask.lean ====
section
/-! DEFINITION. Cask programs (spec/15 R407, R408): the checks of a load and a run on one packet. -/

namespace Sys2Proof.Machine

/-- Fields of an operation (R407). -/
def caskOp (x : Nat) : Nat := bitsOf x 26 6
def caskD (x : Nat) : Nat := bitsOf x 22 4
def caskA (x : Nat) : Nat := bitsOf x 18 4
def caskB (x : Nat) : Nat := bitsOf x 14 4
def caskImm (x : Nat) : Nat := bitsOf x 0 14

/-- Repetitions and body length of a loop. -/
def loopN (x : Nat) : Nat := bitsOf x 6 8
def loopK (x : Nat) : Nat := bitsOf x 0 6

/-! The checks of a load (R408). -/

/-- Whether the opcode is assigned, the fields it does not name are 0 and a command's code is known. -/
def caskOpcodeOk (x : Nat) : Bool :=
  let d := caskD x == 0
  let a := caskA x == 0
  let b := caskB x == 0
  let i := caskImm x == 0
  match caskOp x with
  | 0x01 => a
  | 0x02 => d
  | 0x03 => a && b
  | 0x04 | 0x05 | 0x06 | 0x07 | 0x0A | 0x0B => i
  | 0x08 | 0x09 => b
  | 0x0C => a && b
  | 0x0D => d && b
  | 0x0E => d && b
  | 0x0F => d && a && b
  | 0x10 | 0x12 => d && a && b && i
  | 0x11 => d && caskImm x ≤ 2
  | _ => false

/-- Whether an operation's access lies in its packet, record or queue words. -/
def caskAccessOk (x : Nat) : Bool :=
  match caskOp x with
  | 0x01 => caskImm x + 2 ^ caskB x ≤ 64
  | 0x02 => caskImm x + 2 ^ caskB x ≤ 256
  | 0x0C | 0x0D => caskImm x ≤ 7
  | _ => true

/-- Bodies of the loops of a program: first position and the one behind the last. -/
def caskBodies (l : List Nat) : List (Nat × Nat) :=
  (List.range l.length).filterMap fun p =>
    let x := l.getD p 0
    if caskOp x = 0x0F then some (p + 1, p + 1 + loopK x) else none

/-- Whether the flow from the operation at a position is sound. -/
def caskFlowOk (l : List Nat) (p : Nat) : Bool :=
  let x := l.getD p 0
  let bodies := caskBodies l
  let inside (b : Nat × Nat) (q : Nat) : Bool := b.1 ≤ q && q < b.2
  match caskOp x with
  | 0x0E =>
    let t := p + 1 + caskImm x
    caskImm x != 0 && t < l.length &&
    bodies.all fun b => if inside b p then t ≤ b.2 else !inside b t
  | 0x0F => loopN x != 0 && loopK x != 0 && p + loopK x < l.length && bodies.all fun b => !inside b p
  | _ => true

/-- The status of a cask program load (R408). -/
def caskStatus (l : List Nat) : Nat :=
  if l.length > 128 then 5
  else if !l.all caskOpcodeOk then 1
  else if !l.all caskAccessOk then 2
  else if !(List.range l.length).all (caskFlowOk l) then 3
  else if (match l.getLast? with | some x => caskOp x != 0x12 | none => true) then 4
  else 0

/-! A run (R407, R408). -/

/-- A run in progress: position, registers, the staging record, the queue words, the loop's first position, the one behind its
last and the repetitions left. -/
structure CaskRun where
  pos : Nat
  regs : List Nat
  staging : Nat
  q : List DWord
  loop : Option (Nat × Nat × Nat)
  acts : List CaskAct
  deriving DecidableEq, Repr

/-- How a run ends: with its acts and queue words, or over its budget. -/
inductive CaskEnd where
  | done (acts : List CaskAct) (q : List DWord)
  | budget
  deriving DecidableEq, Repr

/-- A register. -/
def CaskRun.reg (r : CaskRun) (n : Nat) : Nat := r.regs.getD n 0
def CaskRun.setReg (r : CaskRun) (n v : Nat) : CaskRun := { r with regs := lset r.regs n (v % 2 ^ 64) }

/-- The bytes [at, at + n) of a number replaced. -/
def putBytes (x at' n v : Nat) : Nat := x - bitsOf x (8 * at') (8 * n) * 2 ^ (8 * at') + v % 2 ^ (8 * n) * 2 ^ (8 * at')

/-- The next position: at the end of a loop's body its repetitions go on. -/
def CaskRun.goto (r : CaskRun) (p : Nat) : CaskRun :=
  match r.loop with
  | some (a, b, n) =>
    if p = b then (if n > 1 then { r with pos := a, loop := some (a, b, n - 1) } else { r with pos := p, loop := none })
    else { r with pos := p }
  | none => { r with pos := p }

/-- One operation other than `end`. -/
def CaskRun.step (r : CaskRun) (packet x : Nat) : CaskRun :=
  let d := caskD x
  let a := r.reg (caskA x)
  let b := r.reg (caskB x)
  let imm := caskImm x
  let next (r : CaskRun) : CaskRun := r.goto (r.pos + 1)
  match caskOp x with
  | 0x01 => next (r.setReg d (bitsOf packet (8 * imm) (8 * 2 ^ caskB x)))
  | 0x02 => next { r with staging := putBytes r.staging imm (2 ^ caskB x) a }
  | 0x03 => next (r.setReg d (wrapInt 64 (signedOf 14 imm)))
  | 0x04 => next (r.setReg d (a + b))
  | 0x05 => next (r.setReg d (a + 2 ^ 64 - b))
  | 0x06 => next (r.setReg d (a &&& b))
  | 0x07 => next (r.setReg d (a ||| b))
  | 0x08 => next (r.setReg d (a * 2 ^ (imm % 64)))
  | 0x09 => next (r.setReg d (a / 2 ^ (imm % 64)))
  | 0x0A => next (r.setReg d (bit1 (a == b)))
  | 0x0B => next (r.setReg d (bit1 (a < b)))
  | 0x0C => next (r.setReg d (r.q.getD imm 0).toNat)
  | 0x0D => next { r with q := lset r.q imm (BitVec.ofNat 64 a) }
  | 0x0E => if a = 0 then r.goto (r.pos + 1 + imm) else next r
  | 0x0F => { r with pos := r.pos + 1, loop := some (r.pos + 1, r.pos + 1 + loopK x, loopN x) }
  | 0x10 => next { r with acts := r.acts ++ [.launch r.staging] }
  | 0x11 => next { r with acts := r.acts ++ [.cmd imm a b] }
  | _ => next r

/-- Launches that a run has recorded. -/
def CaskRun.launches (r : CaskRun) : Nat :=
  (r.acts.filter fun a => match a with | .launch _ => true | .cmd _ _ _ => false).length

/-- Run to `end` with at most `fuel` operations and four launches (R408). -/
def caskRun (prog : List Nat) (packet : Nat) : Nat → CaskRun → CaskEnd
  | 0, _ => .budget
  | fuel + 1, r =>
    let x := prog.getD r.pos 0
    if caskOp x = 0x12 then .done r.acts r.q
    else if caskOp x = 0x10 && r.launches ≥ 4 then .budget
    else caskRun prog packet fuel (r.step packet x)

end Sys2Proof.Machine
end

