-- ==== Sys2Proof/Machine/Rotation.lean ====
section
/-! DEFINITION. The rotation of a deterministic core (spec/14 R390 to R393): turns, and round boundaries. -/

namespace Sys2Proof.Machine

/-- The wave at the rotation's position. -/
def State.turnWave (s : State) (core : Nat) : Option Nat :=
  ((s.core core).rota[(s.core core).pos]?).map fun slot => 32 * core + slot

/-- A wave slot takes its turn: the next position, behind the last wave a round boundary (R391). -/
def Core.nextTurn (slot : Nat) (c : Core) : Core :=
  if c.pos + 1 ≥ c.rota.length then { c with pos := 0, boundary := true, edge := false, turn := some slot }
  else { c with pos := c.pos + 1, edge := false, turn := some slot }

/-- Whether a wave's turn is skipped (R390): it is held, stalled, queued, or has no issuable entry. A hold that is over ends first. -/
def State.turnSkips (s : State) (w : Nat) : Bool :=
  match s.wave? w with
  | none => true
  | some x =>
    (x.hold.isSome && !s.holdOver w) || x.queued.isSome ||
    (match x.stall with | some t => !t.borrow && !s.stallOver w t | none => false) ||
    (x.clause.isNone && x.head?.isNone)

/-- The wave whose turn is not over: it waits for a flag, a fill, a fetch or a borrow grant (R390). A clause that has been held or stalled
goes on in a later turn of its wave (log 79). -/
def State.midTurn? (s : State) (core : Nat) : Option Nat :=
  match (s.core core).turn with
  | none => none
  | some slot =>
    let w := 32 * core + slot
    if (s.seq (seqOfWave w)).turn == some w then some w else none

/-- A wave's turn begins. -/
def State.openTurn (s : State) (w : Nat) : State := s.updSeq (seqOfWave w) fun q => { q with turn := some w }

/-! Round boundaries (R391, R393). -/

/-- What step 1 of a boundary does next: it admits an item, waits for one, or has ended. -/
inductive BoundaryStep where
  | take (i : Nat) (x : Item)
  | wait
  | ended
  deriving DecidableEq, Repr

/-- Step 1 of R391: the next workgroup mapped to the core, if it fits. -/
def State.boundaryStep (s : State) (core : Nat) : BoundaryStep :=
  match s.boundaryNext core with
  | none => .ended
  | some (l, _, some (i, x)) =>
    if !s.admits core l.demand (some i) [] [] then .ended else if s.canStart core i x then .take i x else .wait
  | some (l, _, none) => if s.admits core l.demand none [] [] then .wait else .ended

/-- The task of one stalled SPAWN, if it fits: the SPAWN issues and retires, and the task joins the list (R393). -/
def State.admitTask (s : State) (w : Nat) (f : E) (e : Mask) (st : Sticky) : Option State :=
  match s.issueOf w with
  | none => none
  | some x =>
    let foot := s.blk x f 1
    let d : Demand :=
      { launch := x.wg.launch, ctx := x.wg.ctx, waves := 1, vregs := bitsOf foot 0 9, sregs := bitsOf foot 9 7
        spad := bitsOf foot 16 20, carve := x.wg.carve, overcommit := x.wg.overcommit, det := true }
    let t := s.timeline (x.lineOf f)
    if !s.admits x.core d none [] [] || t.issued + 1 - t.done > 1024 then none
    else
      let s := match x.wave.weight with
        | some a =>
          if a.w = 1 then
            let r := s.borrowNow a
            r.1.updWave w fun y => { y with weight := some r.2 }
          else s
        | none => s
      match (s.updWave w fun y => { y with stall := none }).issueOf w with
      | none => none
      | some x =>
        let q := (s.updWave w fun y => { y with stall := none }).spawnStart x e f
        let r := (q.1.spawnEnd x e f q.2.2.seq st, q.2.1)
        match r.1.op? r.2, r.1.spadStart x.core d none with
        | some o, some b =>
          let g := { x.wg with levels := lset x.wg.levels 1 x.level1 }
          let words := o.words r.1.cmd.pkgId (bitsOf foot 0 9 + 512 * bitsOf foot 9 7) 0
          let task := r.1.taskWg r.2 x.core o g words 0 0 b
          let u := (r.1.setOp r.2 { o with weight := none }).fresh
          some (u.2.startWg u.1 task (o.blk.getD 0 0).toNat (o.taskInit task.sregs) o.weight none)
        | _, _ => none

/-- Step 2 of R391: the tasks of stalled SPAWNs in list order, up to the first that does not fit. -/
def State.admitTasks (s : State) (core : Nat) : List Nat → State
  | [] => s
  | slot :: rest =>
    match s.wave? (32 * core + slot) with
    | none => s.admitTasks core rest
    | some x =>
      match x.stall with
      | none => s.admitTasks core rest
      | some t =>
        match t.det with
        | none => s.admitTasks core rest
        | some (f, e, st) =>
          match s.admitTask (32 * core + slot) f e st with
          | some s => s.admitTasks core rest
          | none => s

/-- Whether the turn of a deterministic core can be taken: nothing issues; at a boundary, no item is waited for; a clause in the
middle of its turn goes on first; a wave that waits for its turn's end keeps it. -/
def State.canDetTurn (s : State) (core : Nat) : Bool :=
  s.detCore core &&
  !((List.range 4).any fun k => (s.seq (4 * core + k)).active.isSome) &&
  (match s.midTurn? core with
   | some w => s.ready w
   | none =>
     if (s.core core).boundary then s.boundaryStep core != .wait
     else
       match s.turnWave core with
       | some w => s.turnSkips w || s.ready w
       | none => true)

/-- DET_TURN (R390, R391). -/
def execDetTurn (core : Nat) (s : State) : Host.Outcome State Fault Refusal :=
  if !s.canDetTurn core then .fault .notEnabled
  else
    match s.midTurn? core with
    | some w => .next (s.issueClause w)
    | none =>
      if (s.core core).boundary then
        match s.boundaryStep core with
        | .take i x => .next (s.startFrom core i x)
        | _ => .next ((s.admitTasks core (s.core core).rota).updCore core fun c => { c with boundary := false, edge := true })
      else
        match s.turnWave core with
        | some w =>
          let go := s.updCore core (Core.nextTurn (slotOfWave w))
          .next (if s.turnSkips w then go else (go.openTurn w).issueClause w)
        | none => .next (s.updCore core fun c => { c with pos := 0, boundary := true, edge := false })

end Sys2Proof.Machine
end

