-- ==== Sys2Proof/Machine/Release.lean ====
section
/-! DEFINITION. The trellis at work (spec/10): pushes and insertions (R299, R300), releases (R311, R298), arrivals at leaves
(R312), reserve-set pre-emption (R315), and probe tokens (R321, R322). -/

namespace Sys2Proof.Machine

/-! Pushes (R299, R300). -/

/-- Whether an item is the first of those that wait at a node, in arrival order. -/
def State.firstAt (s : State) (n i : Nat) (x : Item) : Bool :=
  s.trl.items.all fun p => match p.2.place with
    | .tree (m :: _) => m != n || p.1 == i || x.order < p.2.order
    | _ => true

/-- An item or its reference is ranked and inserted at a node, and arrives at the next. -/
def State.arriveAt (s : State) (i n : Nat) (rest : List Nat) (x : Item) (ref : NRef) : State :=
  let r := s.rankAt n x.words
  let t := (r.1.insertAt n ref r.2).fresh
  t.2.updItem i fun y => { y with place := .tree rest, order := t.1 }

/-- The node that an item's reference waits at, if it is the first there. -/
def State.waitingAt (s : State) (i : Nat) : Option (Nat × List Nat × Item) :=
  match s.item? i with
  | some x =>
    (match x.place with
     | .tree (n :: rest) => if s.firstAt n i x then some (n, rest, x) else none
     | _ => none)
  | none => none

/-- TRELLIS_PUSH (R299): the entry node. A resume item that waits outside the queues takes its entries first (log 48). -/
def execTrellisPush (i : Nat) (s : State) : Host.Outcome State Fault Refusal :=
  match s.waitingAt i with
  | some (n, rest, x) => if n = x.entry then .next (s.arriveAt i n rest x (.item i)) else .fault .notEnabled
  | none => if (s.resumeWaiting i).isSome then .next (s.enterResume i) else .fault .notEnabled

/-- The child through which an item reaches an ancestor. -/
def State.childTowards (s : State) (entry n : Nat) : Nat := ((s.pathOf entry).takeWhile fun m => m != n).getLastD entry

/-- ANCESTOR_INSERT (R299). -/
def execAncestorInsert (i node : Nat) (s : State) : Host.Outcome State Fault Refusal :=
  match s.waitingAt i with
  | some (n, rest, x) =>
    if n = node && n != x.entry then .next (s.arriveAt i n rest x (.child (s.childTowards x.entry n))) else .fault .notEnabled
  | none => .fault .notEnabled

/-! Releases (R311, R298, R442). -/

/-- The entries of a release leave their nodes; a launch item with workgroups to come keeps them (R298). -/
def State.popSteps (s : State) (keep : Bool) (steps : List (Nat × NEntry)) : State :=
  steps.foldl (fun s p => s.setNode p.1 ((s.node p.1).pop p.2 keep)) s

/-- An item of a top node goes to a leaf. Beyond 256 entries it takes the reserve entry granted to the node; a grant that it did not
need is gone too (R322). -/
def State.toLeaf (s : State) (top i l : Nat) : State :=
  let y := s.leaf l
  let s := if s.leafLoad l ≥ 256 then s.setLeaf l { y with rbusy := true, resv := y.resv + 1 } else s
  let r := (s.setTrl { s.trl with grants := s.trl.grants.filter fun g => g != (queueOfLeaf l, top) }).fresh
  r.2.updItem i fun x => { x with place := .toLeaf l, order := r.1 }

/-- The dispatch item of a released workgroup (R298). -/
def Item.workgroup (x : Item) (id wgid : Nat) (w : Option Weight) : Item :=
  let words := lset (lset x.words 2 (BitVec.ofNat 32 wgid)) 7
    (BitVec.ofNat 32 ((x.words.getD 7 0).toNat / 65536 * 65536 + 1))
  { Item.of (.workgroup id wgid) words x.ctx x.cls x.entry x.part w with place := .tree [] }

/-- Workgroups of a launch move to their leaves, each with its share of the weight (R332). -/
def State.releaseWgs (s : State) (i id count : Nat) : List (Nat × Nat) → State
  | [] => s
  | (wgid, leaf) :: rest =>
    match s.item? i with
    | none => s
    | some x =>
      let r := s.launchShare x.weight (wgid + 1 = count)
      let t := (r.1.updItem i fun y => { y with weight := r.2.2 }).fresh
      ((t.2.setItem t.1 (x.workgroup id wgid r.2.1)).toLeaf (s.topOf x.entry) t.1 leaf).releaseWgs i id count rest

/-- A launch item releases its next workgroup or group. -/
def State.releaseLaunch (s : State) (i : Nat) (x : Item) (id : Nat) (steps : List (Nat × NEntry)) (ls : List Nat) : State :=
  match s.launch? id with
  | none => s
  | some l =>
    let group := l.nextGroup
    let count := recCount l.record
    let last := l.released + group.length ≥ count
    let set := s.launchSet l x
    let s := (s.popSteps (!last) steps).setLaunch id { l with released := l.released + group.length, permitted := some set }
    let s := (s.releaseWgs i id count (group.zip ls)).updLaunch id fun y => (group.zip ls).foldl (fun y p => y.onDie p.1 p.2) y
    if last then (s.freePart x.part (s.pathOf x.entry).length).dropItem i else s

/-- One item leaves the inner nodes for a leaf. -/
def State.releaseOne (s : State) (i : Nat) (x : Item) (steps : List (Nat × NEntry)) (leaf : Nat) : State :=
  ((s.popSteps false steps).freePart x.part (s.pathOf x.entry).length).toLeaf (s.topOf x.entry) i leaf

/-- A top node's release of the item that ends its descent. -/
def State.release (s : State) (top i : Nat) (x : Item) (steps : List (Nat × NEntry)) : State :=
  match s.destinations i x with
  | none => s
  | some ls =>
    match x.kind, x.saved with
    | .launch id, _ => s.releaseLaunch i x id steps ls
    | _, some v =>
      ((s.resumeGroup i v).zip ls).foldl (fun s p => match s.item? p.1.1, s.descend (fun j => j == p.1.1) 512 top with
        | some y, some st => s.releaseOne p.1.1 y st p.2
        | _, _ => s) s
    | _, none => (match ls.head? with | some l => s.releaseOne i x steps l | none => s)

/-- The item of the last entry of a descent. -/
def stepsItem (l : List (Nat × NEntry)) : Option Nat :=
  match l.getLast? with
  | some (_, e) => (match e.ref with | .item i => some i | .child _ => none)
  | none => none

/-- What a top node releases next (R311). -/
def State.nextRelease (s : State) (n : Nat) : Option (Nat × Item × List (Nat × NEntry)) :=
  if !(s.node n).isTop then none
  else
    match s.descend s.eligible 512 n with
    | none => none
    | some steps =>
      match stepsItem steps with
      | some i => (s.item? i).map fun x => (i, x, steps)
      | none => none

/-- TOP_NODE_RELEASE (R311). -/
def execTopNodeRelease (n : Nat) (s : State) : Host.Outcome State Fault Refusal :=
  match s.nextRelease n with
  | some (i, x, steps) => .next (s.release n i x steps)
  | none => .fault .notEnabled

/-! Arrivals at a leaf (R312). -/

/-- The rank of the latest tile item of a workgroup in a leaf, in the leaf's order. -/
def State.lastTileRank (s : State) (y : Leaf) (u : Nat) : Option Nat :=
  let mine := (rankOrder y.hzn y.entries).filter fun e => !e.promoted && match e.ref with
    | .item i => (match s.item? i with
      | some x => (match x.kind with | .tile o => (match s.op? o with | some p => p.wg == u | none => false) | _ => false)
      | none => false)
    | .child _ => false
  mine.getLast?.map (·.rank)

/-- The rank of an item at its leaf: a tile item does not come before an earlier one of its workgroup (R262, R312). -/
def State.leafRank (s : State) (y : Leaf) (x : Item) (rank : Nat) : Nat :=
  match x.kind with
  | .tile o =>
    (match s.op? o with
     | some p => (match s.lastTileRank y p.wg with
       | some r => if rankKey y.hzn rank < rankKey y.hzn r then r else rank
       | none => rank)
     | none => rank)
  | _ => rank

/-- An item on its way to a leaf that arrives next there. -/
def State.arriving (s : State) (i : Nat) : Option (Nat × Item) :=
  match s.item? i with
  | some x =>
    (match x.place with
     | .toLeaf l =>
       if s.trl.items.all fun p => p.2.place != .toLeaf l || p.1 == i || x.order < p.2.order then some (l, x) else none
     | _ => none)
  | none => none

/-- LEAF_INSERT (R312). -/
def execLeafInsert (i : Nat) (s : State) : Host.Outcome State Fault Refusal :=
  match s.arriving i with
  | none => .fault .notEnabled
  | some (l, x) =>
    let r := s.rankAtLeaf l x.words
    let y : Leaf := r.1.leaf l
    let rank := r.1.leafRank y x r.2
    let e : NEntry := ⟨NRef.item i, rank, y.nextOrder, 0, false⟩
    let y : Leaf := { y with entries := y.entries ++ [e], nextOrder := y.nextOrder + 1 }
    let head := match y.head? with | some e => e.ref == NRef.item i | none => false
    let s := r.1.setLeaf l { y with fresh := y.fresh || head }
    .next (s.updItem i fun z => { z with place := .leaf l, rank := rank, order := y.nextOrder - 1 })

/-! Reserve sets (R315). -/

/-- The reserve-set core that a top node's first item waits for, with the borrowers that must leave (R315). -/
def State.reserveVictims (s : State) (n : Nat) : Option (List (Nat × Wg)) :=
  if !(s.node n).isTop then none
  else
    match s.descend (fun _ => true) 512 n with
    | none => none
    | some steps =>
      match stepsItem steps with
      | none => none
      | some i =>
        match s.item? i with
        | none => none
        | some x =>
          match s.demandOf x with
          | none => none
          | some d =>
            let permitted := s.permitted x
            let leaving (c : Nat) : List (Nat × Wg) := s.wgs.filter fun p => p.2.core == c && p.2.switching
            if x.place != .tree [] ||
                (permitted.any fun c => s.admits c d none [] [] || s.admits c d none [] ((leaving c).map (·.1))) then none
            else
              let owned (c : Nat) : Bool := match s.reserveSet c with | some k => s.classOwns x.cls k | none => false
              (permitted.filter owned).findSome? fun c =>
                let vs := (s.victims c).filter fun p => p.2.borrower
                if vs.isEmpty then none else s.enough c d none vs (leaving c)

/-- RESERVE_SET_PREEMPT (R315, R436). -/
def execReserveSetPreempt (n : Nat) (s : State) : Host.Outcome State Fault Refusal :=
  match s.reserveVictims n with
  | some out => .next (s.askSwitch out)
  | none => .fault .notEnabled

/-! Probe tokens (R321, R322). -/

/-- The leaf that a top node is blocked on (R321): it holds no eligible entry, and the first of its items whose leaf has no room
targets that leaf. -/
def State.topBlocked (s : State) (n : Nat) : Option Nat :=
  if (s.nextRelease n).isSome then none
  else
    let waits (i : Nat) : Bool := match s.item? i with
      | some x => x.place == .tree [] && (match s.targets i x with | some ls => !s.roomFor n ls | none => false)
      | none => false
    match s.descend waits 512 n with
    | none => none
    | some steps =>
      match stepsItem steps with
      | none => none
      | some i =>
        match s.item? i with
        | none => none
        | some x => (match s.targets i x with
          | some ls => (ls.find? fun l => !s.leafRoom n l (ls.filter fun y => y == l).length).map queueOfLeaf
          | none => none)

/-- The queue that the stalled wave of the lowest slot of a core waits for. -/
def State.coreBlocked (s : State) (core : Nat) : Option Nat :=
  (s.wavesOf core).findSome? fun p => match p.2.stall with
    | some t => t.queue
    | none => none

/-- The queue that the consuming unit of a queue is blocked on (R321). -/
def State.blockedOf (s : State) (q : Nat) : Option Nat :=
  if q < 512 then s.topBlocked (s.topOf q)
  else if q < 1104 then
    let l := q - 512
    if l ≥ 192 then none
    else match s.headOf l with
      | some (_, i, x) => if s.admitsItem i l x then none else s.coreBlocked l
      | none => none
  else
    ((s.trl.items.filter fun p => p.2.part == q - 1104 && (match p.2.place with | .tree _ => true | _ => false)).map fun p =>
      s.topOf p.2.entry).eraseDups.findSome? s.topBlocked

/-- Waves stalled on a queue, with the step since which each has waited. -/
def State.stalledOn (s : State) (q : Nat) : List (Nat × Nat) :=
  s.waves.filterMap fun p => match p.2.stall with
    | some t => if t.queue == some q then some (p.1, t.since) else none
    | none => none

/-- Top nodes blocked on a leaf. -/
def State.topsOn (s : State) (q : Nat) : List Nat :=
  (tkeys s.trl.nodes).filter fun n => (s.node n).isTop && s.topBlocked n == some q

/-- The top nodes that are blocked on a leaf after a step, each with the step since which it has been (R322). No top node is while every
leaf has room. -/
def State.noteTops (s : State) : State :=
  if s.trl.leaves.all fun p => s.leafLoad p.1 < 256 then
    (if s.trl.blocked.isEmpty then s else s.setTrl { s.trl with blocked := [] })
  else
    let since (n q : Nat) : Nat × Nat × Nat := (s.trl.blocked.find? fun p => p.1 == n && p.2.1 == q).getD (n, q, s.tick)
    let tops := (tkeys s.trl.nodes).filter fun n => (s.node n).isTop
    s.setTrl { s.trl with blocked := tops.filterMap fun n => (s.topBlocked n).map fun q => since n q }

/-- Whether some unit is blocked on a queue. -/
def State.isBlockedOn (s : State) (q : Nat) : Bool :=
  !(s.stalledOn q).isEmpty || (isLeafQueue q && !(s.topsOn q).isEmpty)

/-- Whether a queue sends a probe token: a unit is blocked on it and it has none outstanding. -/
def State.canProbe (s : State) (q : Nat) : Bool :=
  !(s.trl.tokens.any fun t => t.home == q) && s.isBlockedOn q && (s.blockedOf q).isSome

/-- PROBE_TOKEN_SEND (R322). -/
def execProbeTokenSend (q : Nat) (s : State) : Host.Outcome State Fault Refusal :=
  if !s.canProbe q then .fault .notEnabled
  else
    match s.blockedOf q with
    | some n => .next (s.setTrl { s.trl with tokens := s.trl.tokens ++ [⟨q, n, 1⟩] })
    | none => .fault .notEnabled

/-- Whether a queue's reserve entry is in use. -/
def State.reserveBusy (s : State) (q : Nat) : Bool :=
  (s.trl.grants.any fun g => g.1 == q) ||
  (if q < 512 then (s.node q).rbusy else if q < 1104 then (s.leaf (q - 512)).rbusy else (s.part (q - 1104)).rbusy)

/-- A token returns to its queue: the unit blocked on it the longest may take the reserve entry (R322). -/
def State.grantReserve (s : State) (q : Nat) : State :=
  if s.reserveBusy q then s
  else
    let who := if isLeafQueue q then ((leastBy (·.2.2) (s.trl.blocked.filter fun p => p.2.1 == q && (s.topsOn q).contains p.1)).map (·.1))
      else (leastBy (·.2) (s.stalledOn q)).map (·.1)
    match who with
    | some w => s.setTrl { s.trl with grants := s.trl.grants ++ [(q, w)] }
    | none => s

/-- PROBE_TOKEN_ARRIVAL (R322): a token that is home admits one item; another goes on, or is dropped. One whose 16th hop brings it home
admits an item: the rule says both that it is dropped and that it returns, and the model chooses (log 80). -/
def execProbeTokenArrival (k : Nat) (s : State) : Host.Outcome State Fault Refusal :=
  match s.trl.tokens[k]? with
  | none => .fault .notEnabled
  | some t =>
    let rest := s.setTrl { s.trl with tokens := dropAt s.trl.tokens k }
    if t.at' = t.home then .next (rest.grantReserve t.home)
    else if t.hops ≥ 16 then .next rest
    else
      match s.blockedOf t.at' with
      | none => .next rest
      | some n => .next (s.setTrl { s.trl with tokens := lset s.trl.tokens k { t with at' := n, hops := t.hops + 1 } })

end Sys2Proof.Machine
end

