-- ==== Sys2Proof/Machine/Registers.lean ====
section
/-! DEFINITION. The register space (spec/15 R411, R412): what a read of each register gives, and what the management core's
masked write does under each block's own rules (R6, R295, R297, R323 to R329, R358, R367, R374, R404, R419). -/

namespace Sys2Proof.Machine

/-! The map (R411). -/

/-- A register of the register space. `word` counts 8-byte words within a unit. -/
inductive RegName where
  | classA (c : Nat)
  | classB (c : Nat)
  | part (q : Nat)
  | node (n word : Nat)
  | slot (k word : Nat)
  | leaf (x word : Nat)
  | trlCore (c : Nat)
  | qdr (d word : Nat)
  | ctx (c word : Nat)
  | hq (q word : Nat)
  | vtg (word : Nat)
  | mgmt (word : Nat)
  | mem (word : Nat)
  | carve (c : Nat)
  | fab (h : Nat)
  | hmiss (r : Nat)
  | db (q : Nat)
  deriving DecidableEq, Repr

/-- The unit and the word of an offset within a block of `count` units of `size` bytes, of which the first `words` words are
named. -/
def unitOf (off count size words : Nat) : Option (Nat × Nat) :=
  if off / size < count && off % size / 8 < words then some (off / size, off % size / 8) else none

/-- The register at an 8-byte aligned offset; none where the map names none. -/
def regAt (off : Nat) : Option RegName :=
  if off % 8 != 0 then none
  else if off < 0x10000 then some (if off % 16 = 0 then .classA (off / 16) else .classB (off / 16))
  else if off < 0x20000 then (unitOf (off - 0x10000) 256 8 1).map fun p => .part p.1
  else if off < 0x30000 then (unitOf (off - 0x20000) 512 128 16).map fun p => .node p.1 p.2
  else if off < 0x40000 then (unitOf (off - 0x30000) 256 64 8).map fun p => .slot p.1 p.2
  else if off < 0x80000 then (unitOf (off - 0x40000) 592 256 24).map fun p => .leaf p.1 p.2
  else if off < 0x100000 then (unitOf (off - 0x80000) 192 8 1).map fun p => .trlCore p.1
  else if off < 0x200000 then (unitOf (off - 0x100000) 1024 0x40 4).map fun p => .qdr p.1 p.2
  else if off < 0x300000 then (unitOf (off - 0x200000) 1024 0x80 11).map fun p => .ctx p.1 p.2
  else if off < 0x310000 then (unitOf (off - 0x300000) 256 0x40 4).map fun p => .hq p.1 p.2
  else if off < 0x320000 then (unitOf (off - 0x310000) 1 0x10 2).map fun p => .vtg p.2
  else if off < 0x330000 then
    (unitOf (off - 0x320000) 1 0x50 10).bind fun p => if [0, 1, 3, 8, 9].contains p.2 then some (.mgmt p.2) else none
  else if off < 0x340000 then
    (unitOf (off - 0x330000) 1 0xA0 20).bind fun p => if p.2 < 4 || 8 ≤ p.2 then some (.mem p.2) else none
  else if off < 0x350000 then (unitOf (off - 0x340000) 192 8 1).map fun p => .carve p.1
  else if off < 0x360000 then (unitOf (off - 0x350000) 64 8 1).map fun p => .fab p.1
  else if off < 0x1000000 then (unitOf (off - 0x360000) 595 8 1).map fun p => .hmiss p.1
  else (unitOf (off - 0x1000000) 256 0x1000 1).map fun p => .db p.1

/-! Reads. -/

/-- A pointer register: HEAD below TAIL. -/
def ptrWord (head tail : BitVec 32) : Nat := head.toNat + tail.toNat * 2 ^ 32

/-- The two 4-byte words of a list at word `k` of 8 bytes. -/
def pairWord (l : List (BitVec 32)) (k : Nat) : Nat := (l.getD (2 * k) 0).toNat + (l.getD (2 * k + 1) 0).toNat * 2 ^ 32

/-- State words as they read: word 14 holds the horizon and word 15 the count of entries (R307). -/
def stateWords (st : List (BitVec 32)) (hzn count : Nat) : List (BitVec 32) :=
  st.take 14 ++ [BitVec.ofNat 32 hzn, BitVec.ofNat 32 count]

/-- Lines that a context holds locked on a die (CTX_LLQ). -/
def State.locksOn (s : State) (c die : Nat) : Nat := (s.mem.locks.filter fun l => l.ctx == c && l.die == die).length

/-- QDR_CTL (R329). -/
def State.qdrCtl (s : State) (d : Nat) : Nat :=
  let r := s.root d
  bit1 r.isOpen + r.scope * 4 + bit1 r.abort * 2 ^ 5 + bit1 r.err * 2 ^ 6 + bit1 r.late * 2 ^ 7 + bit1 r.granted * 2 ^ 8 +
  r.ctx * 2 ^ 9 + bit1 r.foreign * 2 ^ 26

/-- FW_BANK (R430). -/
def Firmware.word (f : Firmware) : Nat := bit1 f.active + bit1 f.pending * 2 + bit1 f.reverted * 4 + f.svnMin % 2 ^ 16 * 2 ^ 16

/-- HBM_CAPk (R367). -/
def State.capWord (s : State) (k : Nat) : Nat :=
  let l := s.liveLayers k
  popCountNat 16 l.toNat + l.toNat * 2 ^ 5

/-- What a register reads as. -/
def State.readReg (s : State) : RegName → Nat
  | .classA c => (s.classA c).toNat
  | .classB c => (s.classB c).toNat
  | .part q => let p := s.part q; p.limit + p.used * 2 ^ 32 + bit1 p.rbusy * 2 ^ 50
  | .node n w =>
    let x := s.node n
    match w with
    | 0 => x.ctl.toNat
    | 2 => x.hzn
    | 3 => x.pops.toNat
    | 4 => x.count
    | 5 => x.aged.toNat
    | 6 => x.noflow.toNat
    | _ => if w ≥ 8 then pairWord (stateWords x.state x.hzn x.count) (w - 8) else 0
  | .slot k w => pairWord ((tget s.trl.slots k).getD progReset) w
  | .leaf x w =>
    let y := s.leaf x
    match w with
    | 0 => y.ctl.toNat
    | 1 => y.hzn
    | 2 => y.pops.toNat
    | 3 => y.entries.length
    | 4 => y.hstall.toNat
    | 5 => y.dstall.toNat
    | 6 => y.preempts.toNat
    | 7 => y.resv.toNat
    | _ => if w < 16 then pairWord (stateWords y.state y.hzn y.entries.length) (w - 8) else pairWord y.prog (w - 16)
  | .trlCore c => (s.trlCore c).toNat
  | .qdr d w =>
    match w with
    | 0 => s.qdrCtl d
    | 1 => (s.root d).o
    | 2 => s.waiters d % 2 ^ 16 + (s.root d).borrows.toNat * 2 ^ 16
    | _ => (s.root d).discard.toNat
  | .ctx c w =>
    let x := s.ctx c
    match w with
    | 0 => x.ctl.toNat
    | 1 => x.xlt.toNat
    | 2 => x.fring.toNat
    | 3 => ptrWord x.fhead x.ftail
    | 5 => x.qos.toNat
    | 6 => x.trap.toNat
    | 7 => x.kill.toNat
    | 8 => x.save.toNat
    | 9 => x.saved.length + x.noslot.toNat * 2 ^ 16
    | 10 => x.quota + s.locksOn c 0 * 2 ^ 16 + s.locksOn c 1 * 2 ^ 32
    | _ => 0
  | .hq q w =>
    let x := s.queue q
    match w with
    | 0 => x.ring.toNat
    | 1 => ptrWord x.head x.tail
    | 2 => x.ctx.toNat
    | _ => x.cq.toNat
  | .vtg w => if w = 0 then s.host.vtgRing.toNat else ptrWord s.host.vtgHead s.host.vtgTail
  | .mgmt w =>
    match w with
    | 0 => s.host.mgmtRing.toNat
    | 1 => ptrWord s.host.mgmtHead s.host.mgmtTail
    | 3 => s.host.mgmtCq.toNat
    | 8 => s.host.evq.toNat
    | _ => ptrWord s.host.evqHead s.host.evqTail
  | .mem w =>
    match w with
    | 0 => s.cmd.memRefuse.toNat
    | 1 => s.cmd.mapout.toNat
    | 2 => s.cmd.rack.toNat
    | 3 => s.cmd.fw.word
    | _ => s.capWord (w - 8)
  | .carve c => (s.core c).carve
  | .fab h => ((tget s.cmd.fabRoute h).getD 0).toNat
  | .hmiss r => ((tget s.cmd.hbmMiss r).getD 0).toNat
  | .db q => ptrWord (s.queue q).head (s.queue q).tail

/-! Pointers that the outside moves. -/

/-- A doorbell (R405): a TAIL that moves backwards or past HEAD + 2^LOG2N is ignored. -/
def tailAfter (head tail new : BitVec 32) (size : Nat) : BitVec 32 :=
  if (tail - head).toNat ≤ (new - head).toNat && (new - head).toNat ≤ size then new else tail

/-- HOST_QUEUE_DOORBELL's effect (R405). -/
def State.ringQueue (s : State) (q : Nat) (tail : BitVec 32) : State :=
  let x := s.queue q
  s.setQueue q { x with tail := tailAfter x.head x.tail tail (ringSize x.ring) }

/-- MGMT_DOORBELL's effect (R421). -/
def State.ringMgmt (s : State) (tail : BitVec 32) : State :=
  s.setHost { s.host with mgmtTail := tailAfter s.host.mgmtHead s.host.mgmtTail tail (ringSize s.host.mgmtRing) }

/-! The forced root (R342). -/

/-- FORCE: an OPEN root sets ERR, O is 0 and the waiters are released; a CLOSED one is left alone. -/
def State.forceRoot (s : State) (d : Nat) : State :=
  let r := s.root d
  if !r.isOpen then s else (s.setRoot d { r with err := true, o := 0 }).releaseWaiters d

/-! Map-out (R367, R368). -/

/-- STATE of HBM_MAPOUT: 0 IDLE, 1 PENDING, 2 COMMITTING, 3 DONE. -/
def State.mapState (s : State) : Nat := s.cmd.mapout.fld 8 2

def State.setMap (s : State) (stack layer state bits : Nat) : State :=
  s.setCmd { s.cmd with mapout := BitVec.ofNat 64 (stack % 16 + layer % 16 * 16 + state % 4 * 256 + bits % 8 * 1024) }

/-- An event for the event ring (R414), reported over PLDM too (R432). -/
def State.raiseEvent (s : State) (e : Event) : State :=
  (s.setHost { s.host with events := s.host.events ++ [e] }).send (.event e.type e.stack e.layer)

/-- The W1S bits of HBM_MAPOUT as they read: REQUEST, COMMIT and CANCEL as set since the last REQUEST that was not ignored (R6, R367,
log 74). -/
def State.mapBits (s : State) : Nat := s.cmd.mapout.fld 10 3

/-- HBM_MAPOUT with another STATE and with more of its W1S bits set. -/
def State.stepMap (s : State) (state bits : Nat) : State :=
  s.setMap (s.cmd.mapout.fld 0 4) (s.cmd.mapout.fld 4 4) state (s.mapBits ||| bits)

/-- Whether a REQUEST for a layer is ignored: in PENDING and COMMITTING, and for a layer that is not live (R368). -/
def State.requestIgnored (s : State) (stack layer : Nat) : Bool :=
  s.mapState = 1 || s.mapState = 2 || stack ≥ 12 || layer ≥ 16 || !bitOf (s.liveLayers stack).toNat layer

/-- A REQUEST for a layer. -/
def State.mapRequest (s : State) (stack layer : Nat) : State :=
  if s.requestIgnored stack layer then s else (s.setMap stack layer 1 1).raiseEvent ⟨1, stack, layer⟩

/-- A COMMIT: its bit reads as set in every state (R6), and it acts in PENDING (R368). -/
def State.mapCommit (s : State) : State := s.stepMap (if s.mapState = 1 then 2 else s.mapState) 2

/-- A CANCEL, ignored in any state but PENDING (R368). -/
def State.mapCancel (s : State) : State := if s.mapState = 1 then s.stepMap 0 4 else s

/-- A write of HBM_MAPOUT: the fields are taken in IDLE, and in DONE with a REQUEST; then the W1S bits are set but for those that R368
ignores. DESIGN CHOICE (log 74): of more than one of them only the first of REQUEST, COMMIT and CANCEL acts; the manual gives no
order. -/
def State.writeMapout (s : State) (v m : DWord) : State :=
  let set (k : Nat) : Bool := v.bit k && m.bit k
  let mixed := mixDWord s.cmd.mapout v m
  let stack := DWord.fld mixed 0 4
  let layer := DWord.fld mixed 4 4
  let s := if s.mapState = 0 then s.setMap stack layer 0 s.mapBits else s
  let cancels := set 12 && s.mapState = 1
  let more (t : State) (bits : Nat) : State := t.stepMap t.mapState bits
  if set 10 && !s.requestIgnored stack layer then
    (if set 11 then more (s.mapRequest stack layer) 2 else s.mapRequest stack layer)
  else if set 11 then (if cancels then more s.mapCommit 4 else s.mapCommit)
  else if cancels then s.mapCancel
  else s

/-! Masked writes (R412, R421). -/

/-- A register's new value: the bits of `rw` that the write mask names. -/
def writeBits (old new mask : DWord) (rw : Nat) : DWord := mixDWord old new (mask &&& BitVec.ofNat 64 rw)

/-- Bits [hi:lo]. -/
def bitsMask (hi lo : Nat) : Nat := 2 ^ (hi + 1) - 2 ^ lo

/-- A pair of 4-byte words of a list, written under a mask; words 14 and 15 are read-only. -/
def writePair (l : List (BitVec 32)) (k : Nat) (v m : DWord) : List (BitVec 32) :=
  if 2 * k ≥ 14 then l
  else
    let old : DWord := BitVec.ofNat 64 (pairWord l k)
    let new := mixDWord old v m
    lset (lset l (2 * k) (new.truncate 32)) (2 * k + 1) ((new >>> 32).truncate 32)

/-- Whether a node's chain of parents, with a new parent for `n`, comes back to `n` (R295). -/
def State.closesCycle (s : State) (n parent : Nat) : Bool :=
  parent == n || (s.nodesUp 512 parent).contains n

/-- CTL of an inner node (R326): PARENT, TOP, GROUP and V = 0 only while COUNT = 0; no PARENT that would close a cycle. -/
def State.writeNodeCtl (s : State) (n : Nat) (v m : DWord) : State :=
  let x := s.node n
  let busy := x.count != 0
  let new := writeBits x.ctl v m (bitsMask 57 0)
  let keep (c : DWord) (lo k : Nat) : DWord := c.setFld lo k (x.ctl.fld lo k)
  let new := if busy then keep (keep (keep new 0 9) 9 1) 18 4 else new
  let new := if busy && x.ctl.bit 23 then keep new 23 1 else new
  let new := if !DWord.bit new 9 && s.closesCycle n (DWord.fld new 0 9) then keep (keep new 0 9) 9 1 else new
  s.setNode n { x with ctl := new, rbusy := x.rbusy && x.count ≥ DWord.fld new 40 18 }

/-- A limit of a partition (R297): not one that would take the sum of the limits beyond the pool. -/
def State.writePart (s : State) (q : Nat) (v m : DWord) : State :=
  let p := s.part q
  let limit := DWord.fld (writeBits (BitVec.ofNat 64 p.limit) v m (bitsMask 17 0)) 0 18
  let others := ((s.trl.parts.filter fun e => e.1 != q).map fun e => e.2.limit).sum
  if limit + others > 131072 then s else s.setPart q { p with limit := limit, rbusy := p.rbusy && p.used ≥ limit }

/-- The masked write of a register under its block's rules. -/
def State.writeReg (s : State) (r : RegName) (v m : DWord) : State :=
  match r with
  | .classA c => s.setTrl { s.trl with classA := tput s.trl.classA c (writeBits (s.classA c) v m (bitsMask 49 0)) }
  | .classB c => s.setTrl { s.trl with classB := tput s.trl.classB c (writeBits (s.classB c) v m (bitsMask 15 0)) }
  | .part q => s.writePart q v m
  | .node n w =>
    let x := s.node n
    if w = 0 then s.writeNodeCtl n v m
    else if w = 2 then
      (if x.count = 0 then s.setNode n { x with hzn := (writeBits (BitVec.ofNat 64 x.hzn) v m 0xFFFF).toNat } else s)
    else if w ≥ 8 then s.setNode n { x with state := writePair x.state (w - 8) v m }
    else s
  | .leaf n w =>
    let x := s.leaf n
    if w = 0 then
      s.setLeaf n { x with ctl := writeBits x.ctl v m (bitsMask 9 0 + (if n < 192 then bitsMask 13 10 else 0) + bitsMask 45 14) }
    else if w = 1 then
      (if x.entries.isEmpty then s.setLeaf n { x with hzn := (writeBits (BitVec.ofNat 64 x.hzn) v m 0xFFFF).toNat } else s)
    else if 8 ≤ w && w < 16 then s.setLeaf n { x with state := writePair x.state (w - 8) v m }
    else s
  | .trlCore c => s.setTrl { s.trl with cores := tput s.trl.cores c (writeBits (s.trlCore c) v m (bitsMask 4 0)) }
  | .qdr d w =>
    if w != 0 then s
    else
      let r := s.root d
      let new := writeBits (BitVec.ofNat 64 (s.qdrCtl d)) v m (bitsMask 24 8)
      let s := if r.isOpen then s else s.setRoot d { r with granted := DWord.bit new 8, ctx := DWord.fld new 9 16 }
      if v.bit 25 && m.bit 25 then s.forceRoot d else s
  | .ctx c w =>
    match w with
    | 1 => s.updCtx c fun x => { x with xlt := writeBits x.xlt v m (1 + bitsMask 51 15) }
    | 2 => s.updCtx c fun x => { x with fring := writeBits x.fring v m (bitsMask 5 0 + bitsMask 51 12) }
    | 3 => s.updCtx c fun x => { x with
        ftail := (writeBits (BitVec.ofNat 64 (ptrWord x.fhead x.ftail)) v m (bitsMask 63 32) >>> 32).truncate 32 }
    | 4 => let a := v &&& m; s.respondFault c (DWord.fld a 0 48) (DWord.bit a 48)
    | 5 => s.updCtx c fun x => { x with qos := writeBits x.qos v m (bitsMask 1 0 + bitsMask 55 8) }
    | 6 => s.updCtx c fun x => { x with trap := writeBits x.trap v m (1 + bitsMask 59 3) }
    | 7 => s.updCtx c fun x => { x with kill := if v.bit 42 && m.bit 42 then x.kill.setFld 42 1 0 else x.kill }
    | 8 => s.updCtx c fun x => { x with save := writeBits x.save v m (bitsMask 4 0 + bitsMask 51 22) }
    | 10 => s.updCtx c fun x => { x with quota := (writeBits (BitVec.ofNat 64 x.quota) v m 0xFFFF).toNat }
    | _ => s
  | .hq q w =>
    let x := s.queue q
    match w with
    | 0 =>
      let ring := writeBits x.ring v m (bitsMask 8 0 + bitsMask 51 12)
      s.setQueue q { x with ring := ring, entries := if !x.ring.bit 0 && DWord.bit ring 0 then 0 else x.entries }
    | 2 => s.setQueue q { x with ctx := writeBits x.ctx v m (bitsMask 23 0) }
    | 3 => s.setQueue q { x with cq := writeBits x.cq v m (bitsMask 4 0 + bitsMask 51 12) }
    | _ => s
  | .vtg w =>
    if w = 0 then s.setHost { s.host with vtgRing := writeBits s.host.vtgRing v m (bitsMask 5 0 + bitsMask 51 12) }
    else s.setHost { s.host with
      vtgTail := (writeBits (BitVec.ofNat 64 (ptrWord s.host.vtgHead s.host.vtgTail)) v m (bitsMask 63 32) >>> 32).truncate 32 }
  | .mgmt w =>
    match w with
    | 0 =>
      let ring := writeBits s.host.mgmtRing v m (bitsMask 8 0 + bitsMask 51 12)
      s.setHost { s.host with
        mgmtRing := ring, mgmtWritten := if !s.host.mgmtRing.bit 0 && DWord.bit ring 0 then 0 else s.host.mgmtWritten }
    | 1 => s.ringMgmt ((mixDWord (BitVec.ofNat 64 (ptrWord s.host.mgmtHead s.host.mgmtTail)) v m >>> 32).truncate 32)
    | 3 => s.setHost { s.host with mgmtCq := writeBits s.host.mgmtCq v m (bitsMask 4 0 + bitsMask 51 12) }
    | 8 => s.setHost { s.host with evq := writeBits s.host.evq v m (bitsMask 4 0 + bitsMask 51 12) }
    | _ => s.setHost { s.host with
        evqTail := (mixDWord (BitVec.ofNat 64 (ptrWord s.host.evqHead s.host.evqTail)) v m >>> 32).truncate 32 }
  | .mem w =>
    match w with
    | 0 => s.setCmd { s.cmd with memRefuse := writeBits s.cmd.memRefuse v m (bitsMask 31 0) }
    | 1 => s.writeMapout v m
    | 3 => if v.bit 2 && m.bit 2 then s.setCmd { s.cmd with fw := { s.cmd.fw with reverted := false } } else s
    | _ => s
  | .fab h =>
    let old := (tget s.cmd.fabRoute h).getD 0
    s.setCmd { s.cmd with
      fabRoute := tput s.cmd.fabRoute h ((writeBits (BitVec.ofNat 64 old.toNat) v m 0xFFFF).truncate 16) }
  | .slot _ _ | .carve _ | .hmiss _ | .db _ => s

end Sys2Proof.Machine
end

