-- ==== Sys2Proof/Machine/Outside.lean ====
section
/-! DEFINITION. What arrives from outside and what travels: requests of other packages (spec/12 R362, spec/15 R415, R416), the
host over YCL (R411 to R413), doorbells, borrows and returns of weight (spec/11), wider performance (spec/09 R277), layer
map-out (spec/12 R368). -/

namespace Sys2Proof.Machine

/-! Requests of other packages. -/

/-- The unit number of the TLB that the responder's walks fill; the clusters' TLBs have 0 to 15. -/
def responderTlb : Nat := 16

/-- What the responder does with a request (R355, R360, R362). -/
inductive Response where
  | perform (pa : Nat)
  /-- a page here names the memory of a third package (R410) -/
  | forward (home pa : Nat)
  | refuse (hint : Nat)
  | deny
  deriving DecidableEq, Repr

/-- MEM_REFUSE's hints (R362). -/
def State.hintMiss (s : State) : Nat := s.cmd.memRefuse.fld 0 16
def State.hintTransit (s : State) : Nat := s.cmd.memRefuse.fld 16 16

/-- The permissions of a request (R355). -/
def remoteNeed (r : RemoteReq) : Need :=
  match r.kind with
  | .read => ⟨true, false, false⟩
  | .write => ⟨false, true, false⟩
  | _ => ⟨true, true, false⟩

/-- Where a request goes from a physical address (R410, R411, R422). -/
def State.reached (s : State) (r : RemoteReq) (pa : Nat) : Response :=
  match s.target pa with
  | .host => .perform pa
  | .hbm _ => if s.frameAllows r.ctx pa then .perform pa else .deny
  | .remote h => .forward h pa
  | .regs _ | .remoteRegs => .deny

/-- Where a request's page leads once an entry is at hand: a REPLICA or TRANSIT page refuses (R360, R362). -/
def State.respond (s : State) (r : RemoteReq) (e size : Nat) : Response :=
  if bitsOf e 52 2 != 0 then .refuse s.hintTransit
  else if (judge (remoteNeed r) e).isSome then .deny
  else s.reached r (bitsOf e 12 40 * 4096 + r.va.toNat % size)

/-- The responder translates (R362) unless the address is physical (R410): a request that misses the TLBs is refused and its walk fills
the responder's TLB; an absent page writes a record with UNIT 6. -/
def State.answer (s : State) (r : RemoteReq) : State × Response :=
  let va := r.va.toNat
  if r.phys then (s, s.reached r va)
  else if va ≥ 2 ^ 60 then (s, .deny)
  else
    match s.mem.tlb.find? fun t => t.ctx == r.ctx && t.va ≤ va && va < t.va + t.size with
    | some t =>
      if (remoteNeed r).w && !bitOf t.entry 11 then
        match s.walk r.ctx va with
        | .leaf a e size =>
          if (judge (remoteNeed r) e).isNone then
            let p := s.touch a e true
            (p.1, p.1.respond r p.2 size)
          else (s, s.respond r e size)
        | .absent _ => (s, s.respond r t.entry t.size)
      else (s, s.respond r t.entry t.size)
    | none =>
      match s.walk r.ctx va with
      | .absent reason =>
        ((s.faultAt r.ctx va (remoteNeed r).w false reason 0xFF unitResponder 0 r.pkg).1, .refuse s.hintTransit)
      | .leaf a e size =>
        if bitsOf e 52 2 != 0 then (s, .refuse s.hintTransit)
        else
          let p := s.touch a e ((remoteNeed r).w && (judge (remoteNeed r) e).isNone)
          (p.1.setMem { p.1.mem with tlb := tlbAdd p.1.mem.tlb ⟨true, responderTlb, r.ctx, va - va % size, size, p.2⟩ },
            .refuse s.hintMiss)

/-- The record of a release by an agent of another package (R281). -/
def State.remoteRelease (s : State) (r : RemoteReq) (pa n : Nat) : State :=
  match r.rel with
  | some scope => s.recordRelease ⟨scope, remoteKey, 2 ^ 64 + r.pkg, ⟨r.pkg, none⟩⟩ 5 0 [.mem pa false] n
  | none => s

/-- The bytes that a request reads or writes. -/
def remoteLen (r : RemoteReq) : Nat :=
  match r.kind with
  | .write => r.bytes.length
  | .atomic => if r.ty.is64 then 8 else 4
  | _ => r.size

/-- The weight of a performed packet stands in the fabric return table (R335, R337). -/
def State.remoteWeight (s : State) (r : RemoteReq) : State :=
  match r.kind, r.root with
  | .write, some d => s.fabGiveBack r.homePkg ⟨d, r.weight⟩ r.abort
  | _, _ => s

/-- A request goes on to a third package (R410), whose answer is free (log 12), and its data or status comes back with it (log 61). -/
def State.forwardRemote (s : State) (r : RemoteReq) (home pa : Nat) : State :=
  let reads := r.kind != .write
  if !s.routed home then s.send (.reply r.pkg stRefused [])
  else if Config.remoteDenies s.tick then s.send (.reply r.pkg stProtection [])
  else if reads && Config.remotePoisons s.tick pa then s.send (.reply r.pkg stUncorrectable [])
  else
    ((s.send (.request home pa (remoteLen r) r.bytes (if r.kind = .atomic then some r.op else none))).remoteWeight r).send
      (.reply r.pkg 0 (if reads then leBytes (remoteLen r) (s.farNat pa (remoteLen r)) else []))

/-- A performed request, at SYSTEM scope (R410, R415): its data or its acknowledgement goes back; a write that came as a packet
leaves its weight in the fabric return table (R335, R337). Uncorrectable data is never passed on (R351). -/
def State.performRemote (s : State) (r : RemoteReq) (pa : Nat) : State :=
  let who : Who := ⟨0, r.ctx⟩
  match r.kind with
  | .read =>
    let s := s.gather pa r.size
    if s.sysPoisonedRange pa r.size then s.send (.reply r.pkg stUncorrectable [])
    else s.send (.reply r.pkg 0 (leBytes r.size (s.sysNat pa r.size)))
  | .write =>
    (((s.storeNat who 5 r.va.toNat pa r.bytes.length (leNat r.bytes)).remoteRelease r pa r.bytes.length).remoteWeight r).send
      (.reply r.pkg 0 [])
  | .atomic =>
    let n := remoteLen r
    let s := s.gather pa n
    if s.sysPoisonedRange pa n then s.send (.reply r.pkg stUncorrectable [])
    else
      let old := s.sysNat pa n
      let new := atomicStep r.op r.ty old (leNat (r.bytes.take n)) (leNat ((r.bytes.drop n).take n))
      let s := (if new = old then s else s.storeNat who 5 r.va.toNat pa n new).remoteRelease r pa n
      s.send (.reply r.pkg 0 (leBytes n old))
  | .giveBack => s

/-- REMOTE_REQUEST (R362, R416). A RETURN on the control channel reaches its root and is never refused (R334, R337, R338). -/
def execRemoteRequest (r : RemoteReq) (s : State) : Host.Outcome State Fault Refusal :=
  match r.kind, r.root with
  | .giveBack, some d => .next (s.applyClock ⟨d, r.weight, r.abort, ⟨r.pkg, none⟩⟩)
  | .giveBack, none => .next s
  | _, _ =>
    let a := s.answer r
    .next (match a.2 with
      | .perform pa => a.1.performRemote r pa
      | .forward h pa => a.1.forwardRemote r h pa
      | .refuse hint => a.1.send (.refuse r.pkg hint)
      | .deny => a.1.send (.reply r.pkg stProtection []))

/-! The host (R411 to R413). -/

/-- The physical address that a host address reaches: through the window once it is enumerated, else the host's own memory. -/
def State.hostPa (s : State) (addr : Nat) : Nat :=
  match s.cmd.hbase with
  | some b => if b ≤ addr && addr < b + 2 ^ 45 then s.cmd.pkgId * 2 ^ 45 + (addr - b) else 2 ^ 51 + addr % 2 ^ 51
  | none => 2 ^ 51 + addr % 2 ^ 51

/-- Whether the frame of an address is protected: the host may not touch it (R423). -/
def State.protFrame (s : State) (pa : Nat) : Bool := bitOf (s.frameOf pa).toNat 10

/-- A host write of a register: only the pointers that R411 names, by an aligned write of 8 bytes. -/
def State.hostWriteReg (s : State) (r : RegName) (v : Nat) : State :=
  let tail : BitVec 32 := BitVec.ofNat 32 (v / 2 ^ 32)
  match r with
  | .db q => s.ringQueue q tail
  | .vtg 1 => s.setHost { s.host with vtgTail := tail }
  | .mgmt 1 => s.ringMgmt tail
  | .mgmt 9 => s.setHost { s.host with evqTail := tail }
  | _ => s

/-- The bytes of a host access: those of a store, those of its type for an atomic, else its size. -/
def hostLen (a : HostAcc) : Nat :=
  match a.kind with
  | .store => a.bytes.length
  | .atomic => if a.ty.is64 then 8 else 4
  | _ => a.size

/-- Whether a host access returns data. -/
def hostReturns (a : HostAcc) : Bool := a.kind == .load || a.kind == .atomic

/-- A host access of a register (R411): an aligned load or store of 8 bytes; any other reads as zero and writes nothing, an atomic among
them (log 73). -/
def State.hostReg (s : State) (a : HostAcc) (off : Nat) : State :=
  match (if off % 8 == 0 && (hostLen a) == 8 then regAt off else none), a.kind with
  | some r, .load => s.send (.hostData false (leBytes 8 (s.readReg r)))
  | some r, .store => s.hostWriteReg r (leNat a.bytes)
  | _, _ => if hostReturns a then s.send (.hostData false (List.replicate (hostLen a) 0)) else s

/-- The record of a host release, at SYSTEM scope (R281, R413). -/
def State.hostRelease (s : State) (a : HostAcc) (pa : Nat) : State :=
  if a.release then s.recordRelease ⟨5, hostKey, 2 ^ 65, ⟨2 ^ 16, none⟩⟩ 5 0 [.mem pa false] (hostLen a) else s

/-- A host access of memory, at SYSTEM scope (R413): the line is coherent with every copy first. An atomic on an uncorrectable location
leaves it as it is (R201). -/
def State.hostMem (s : State) (a : HostAcc) (pa : Nat) : State :=
  let n := hostLen a
  match a.kind with
  | .load =>
    let s := s.gather pa n
    s.send (.hostData (s.sysPoisonedRange pa n) (leBytes n (s.sysNat pa n)))
  | .store => (s.storeNat ⟨0, 0⟩ 5 pa pa n (leNat a.bytes)).hostRelease a pa
  | .atomic =>
    let s := s.gather pa n
    let old := s.sysNat pa n
    let new := atomicStep a.op a.ty old (leNat (a.bytes.take n)) (leNat ((a.bytes.drop n).take n))
    let t := if s.sysPoisonedRange pa n || new = old then s else s.storeNat ⟨0, 0⟩ 5 pa pa n new
    (t.hostRelease a pa).send (.hostData (s.sysPoisonedRange pa n) (leBytes n old))
  | .fence => s

/-- HOST_ACCESS (R411, R413, R423). A fence orders the host's own accesses, each of which is performed as it comes (R280). -/
def execHostAccess (a : HostAcc) (s : State) : Host.Outcome State Fault Refusal :=
  let pa := s.hostPa a.addr
  .next (if a.kind == .fence then s
    else
      match s.target pa with
      | .regs off => s.hostReg a off
      | _ =>
        if (List.range (hostLen a)).any fun k => s.protFrame (pa + k) then
          let s := s.logError 3 (bitsOf (s.frameOf pa).toNat 0 10) pa
          if hostReturns a then s.send (.hostData false (List.replicate (hostLen a) 0xFF#8)) else s
        else s.hostMem a pa)

/-- HOST_QUEUE_DOORBELL (R405). -/
def execHostQueueDoorbell (q : Nat) (tail : BitVec 32) (s : State) : Host.Outcome State Fault Refusal := .next (s.ringQueue q tail)

/-- MGMT_DOORBELL (R421). -/
def execMgmtDoorbell (tail : BitVec 32) (s : State) : Host.Outcome State Fault Refusal := .next (s.ringMgmt tail)

/-- YCL_LINK_ENUMERATION (R411). -/
def execYclLinkEnumeration (base : Nat) (s : State) : Host.Outcome State Fault Refusal :=
  .next ((s.setCmd { s.cmd with hbase := some base }).send (.event 5 base 0))

/-! Wider performance (R277). -/

/-- WIDER_SCOPE_PERFORM: a narrow byte goes from its L1 to its die's L2, or from the L2 to memory, with what is performed as one with it
(log 5). -/
def execWiderScopePerform (k : Nat) (s : State) : Host.Outcome State Fault Refusal :=
  match s.mem.narrow[k]? with
  | none => .fault .notEnabled
  | some n =>
    .next (s.widenAll (fun m => m == n) (if n.core.isSome then 3 else 5))

/-! Weight on its way (R333, R336 to R338). -/

/-- BORROW_REQUEST (R333): the borrow reaches its root. -/
def execBorrowRequest (k : Nat) (s : State) : Host.Outcome State Fault Refusal :=
  match s.qd.borrows[k]? with
  | none => .fault .notEnabled
  | some b =>
    if b.granted then .fault .notEnabled
    else
      let t := s.applyBorrow b.root
      .next (t.setQd { t.qd with borrows := lset t.qd.borrows k { b with granted := true } })

/-- What a stall still waits for once its borrow is granted: a wave that waited for nothing else issues again, and a deterministic core's
turn stays with it (R333, R390). -/
def Stall.granted (t : Stall) : Option Stall :=
  if t.queue.isNone && t.tl.isNone && !t.copy && t.cls.isNone && t.det.isNone then .none else some { t with borrow := false }

/-- Weight with a granted borrow. -/
def addGrant (w : Option Weight) : Option Weight := w.map fun w => { w with w := w.w + 2 ^ 32 }

/-- BORROW_GRANT (R333). A grant whose creator has been killed returns to the pool of its core with an abort mark (R331, R340). -/
def execBorrowGrant (k : Nat) (s : State) : Host.Outcome State Fault Refusal :=
  match s.qd.borrows[k]? with
  | none => .fault .notEnabled
  | some b =>
    if !b.granted then .fault .notEnabled
    else
      let t := s.setQd { s.qd with borrows := dropAt s.qd.borrows k }
      .next (match b.who with
        | .wave w =>
          match t.wave? w with
          | some x =>
            if weightIn x.weight b.root && (match x.stall with | some c => c.borrow | none => false) then
              t.setWave w { x with weight := addGrant x.weight, stall := x.stall.bind Stall.granted }
            else t.giveBack (coreOfWave w) (some ⟨b.root, 2 ^ 32⟩) true
          | none => t.giveBack (coreOfWave w) (some ⟨b.root, 2 ^ 32⟩) true
        | .op o core =>
          match t.op? o with
          | some x =>
            if weightIn x.weight b.root then t.setOp o { x with weight := addGrant x.weight }
            else t.giveBack core (some ⟨b.root, 2 ^ 32⟩) true
          | none => t.giveBack core (some ⟨b.root, 2 ^ 32⟩) true
        | .gone core => t.giveBack core (some ⟨b.root, 2 ^ 32⟩) true)

/-- ROOT_RETURN (R334, R338). -/
def execRootReturn (k : Nat) (s : State) : Host.Outcome State Fault Refusal :=
  match s.qd.returns[k]? with
  | none => .fault .notEnabled
  | some t => .next ((s.setQd { s.qd with returns := dropAt s.qd.returns k }).applyClock t)

/-- FABRIC_RETURN_FLUSH (R337). -/
def execFabricReturnFlush (k : Nat) (s : State) : Host.Outcome State Fault Refusal :=
  match s.qd.fab[k]? with
  | none => .fault .notEnabled
  | some e => .next ((s.setQd { s.qd with fab := dropAt s.qd.fab k }).send (.giveBack e.pkg e.root e.sum e.abort))

/-- QDR_FORCE (R342). -/
def execQdrForce (d : Nat) (s : State) : Host.Outcome State Fault Refusal := .next (s.respondMgmt (s.forceRoot d) 0)

/-! Layer map-out (R367, R368). -/

/-- HBM_MAPOUT_REQUEST: management software writes STACK, LAYER and REQUEST. -/
def execHbmMapoutRequest (stack layer : Nat) (s : State) : Host.Outcome State Fault Refusal :=
  let v : DWord := BitVec.ofNat 64 (stack % 16 + layer % 16 * 16 + 2 ^ 10)
  .next (s.respondMgmt (s.writeMapout v (BitVec.ofNat 64 (255 + 2 ^ 10))) 0)

/-- HBM_MAPOUT_AUTO_REQUEST: the device itself sets REQUEST for a failing layer. -/
def execHbmMapoutAutoRequest (stack layer : Nat) (s : State) : Host.Outcome State Fault Refusal := .next (s.mapRequest stack layer)

/-- HBM_MAPOUT_COMMIT. -/
def execHbmMapoutCommit (s : State) : Host.Outcome State Fault Refusal := .next (s.respondMgmt s.mapCommit 0)

/-- HBM_MAPOUT_CANCEL. -/
def execHbmMapoutCancel (s : State) : Host.Outcome State Fault Refusal := .next (s.respondMgmt s.mapCancel 0)

/-- HBM_MAPOUT_DONE: the band is re-formed over its remaining layers and all of it is 0x00; its cached copies are gone. -/
def execHbmMapoutDone (s : State) : Host.Outcome State Fault Refusal :=
  if s.mapState != 2 then .fault .notEnabled
  else
    let stack := s.cmd.mapout.fld 0 4
    let layer := s.cmd.mapout.fld 4 4
    let live := s.liveLayers stack &&& BitVec.ofNat 16 (0xFFFF - 2 ^ layer)
    let base := s.cmd.pkgId * 2 ^ 45 + bandSize * layer
    let out (pa : Nat) : Bool := pa < base || base + bandSize ≤ pa
    let s := s.setMem { s.mem with
      cells := cellsClear s.mem.cells base bandSize, poisoned := s.mem.poisoned.filter fun g => out (32 * g)
      garbled := ungarble s.mem.garbled base bandSize
      narrow := s.mem.narrow.filter fun n => out n.pa }
    let s := s.setCmd { s.cmd with live := tput s.cmd.live stack live }
    .next ((s.setMap stack layer 3 s.mapBits).raiseEvent ⟨2, stack, layer⟩)

end Sys2Proof.Machine
end

