-- ==== Sys2Proof/Machine/Sha.lean ====
section
/-! DEFINITION. SHA-256 as FIPS 180-4 specifies it, for the digest of R400. The hash value and the sixteen words of the schedule that are
alive stand in one bit vector each, their first word at the top, and the constants are computed from the primes that define them. -/

namespace Sys2Proof.Machine

/-- The largest number below `r + 2^n` whose `k`-th power is not above `x`, found bit by bit. -/
def rootBits (k x : Nat) : Nat → Nat → Nat
  | 0, r => r
  | n + 1, r => rootBits k x n (if (r + 2 ^ n) ^ k ≤ x then r + 2 ^ n else r)

/-- The first thirty-two bits of the fraction of a prime's `k`-th root. -/
def rootFraction (k p : Nat) : Word := BitVec.ofNat 32 (rootBits k (p * 2 ^ (32 * k)) 40 0)

/-- The first sixty-four primes. -/
def shaPrimes : List Nat := (List.range 312).filter fun p => 2 ≤ p && (List.range p).all fun d => d < 2 || p % d != 0

/-- Word `i` of a vector of words, counted from its end. -/
def wordFromEnd {n : Nat} (v : BitVec n) (i : Nat) : Word := v.extractLsb' (32 * i) 32

/-- The sum of a word rotated by each of some distances. -/
def xorRotations (x : Word) (by' : List Nat) : Word := by'.foldl (fun a n => a ^^^ x.rotateRight n) 0

/-- The hash value and the schedule before a round. -/
abbrev ShaState := BitVec 256 × BitVec 512

/-- One round under a constant: the schedule gives up its oldest word, which the round uses, and takes in a new one. -/
def shaStep (s : ShaState) (k : Word) : ShaState :=
  let v := wordFromEnd s.1
  let w := wordFromEnd s.2
  let chosen := v 1 ^^^ (v 3 &&& (v 2 ^^^ v 1))
  let common := (v 7 &&& v 6) ||| (v 5 &&& (v 7 ||| v 6))
  let t := v 0 + w 15 + k + chosen + xorRotations (v 3) [6, 11, 25]
  let new := w 15 + w 6 + (xorRotations (w 14) [7, 18] ^^^ w 14 >>> 3) + (xorRotations (w 1) [17, 19] ^^^ w 1 >>> 10)
  ((t + common + xorRotations (v 7) [2, 13, 22]) ++ s.1.extractLsb' 160 96 ++ (v 4 + t) ++ s.1.extractLsb' 32 96,
   s.2.extractLsb' 0 480 ++ new)

/-- A number made of eight words, the last of them lowest. -/
def eightWords (f : Nat → Word) : BitVec 256 := BitVec.ofNat 256 ((List.range 8).map fun i => (f i).toNat * 2 ^ (32 * i)).sum

/-- The hash value after a block. -/
def shaBlock (h : BitVec 256) (block : BitVec 512) : BitVec 256 :=
  let r := (shaPrimes.map (rootFraction 3)).foldl shaStep (h, block)
  eightWords fun i => wordFromEnd h i + wordFromEnd r.1 i

/-- The hash value of nothing. -/
def shaStart : BitVec 256 := eightWords fun i => rootFraction 2 (shaPrimes.getD (7 - i) 0)

/-- The blocks of a message as one number: a 1 bit follows the message, and the length in bits ends it. -/
def shaPadded (m : List Byte) (blocks : Nat) : Nat :=
  (m.foldl (fun a b => a * 256 + b.toNat) 0 * 256 + 128) * 256 ^ (64 * blocks - m.length - 1) + 8 * m.length

/-- The digest of a message: a number whose most significant byte is the first digest byte. -/
def sha256 (m : List Byte) : Nat :=
  let n := (m.length + 8) / 64 + 1
  let x := shaPadded m n
  ((List.range n).foldl (fun h i => shaBlock h (BitVec.ofNat 512 (x / 2 ^ (512 * (n - 1 - i))))) shaStart).toNat

/-- The digest as it stands in memory: its first byte is the lowest (R399). -/
def digestBytes (d : Nat) : List Byte := (List.range 32).map fun k => BitVec.ofNat 8 (d / 256 ^ (31 - k))

end Sys2Proof.Machine
end

