-- ==== Sys2Proof/Machine/Queues.lean ====
section
/-! DEFINITION. Host queues and launches (spec/15 R401 to R409, R414; spec/14 R397 to R400): packets, the checks of a launch
record, acceptance, completion, digests, vintage records, completion entries, the event ring. -/

namespace Sys2Proof.Machine

/-! Submitting a launch (R332, R398, R403). -/

/-- BAD_FORMAT: fields marked 0, fields outside their values, levels not declared. -/
def recFormatOk (r : Nat) : Bool :=
  let levels := recLevels r
  let zero (byte lo n : Nat) : Bool := recFld r byte lo n == 0
  let dc := recDCount r
  let oc := recOCount r
  2 ≤ levels && levels ≤ 8 && recPlace r != 3 && recCarve r ≤ 5 && 1 ≤ recExtent r 1 && recExtent r 1 ≤ 32 &&
  recProgram r % 8 == 0 && recProgram r < 2 ^ 60 && recTileMask r % 4 == 0 &&
  zero 8 55 9 && zero 0x18 6 2 && zero 0x18 26 38 && zero 0x68 5 59 && dc ≤ 2 && oc ≤ 4 &&
  ((List.range 6).all fun j =>
    let k := j + 2
    zero (0x20 + 4 * j) 25 7 && 1 ≤ recExtent r k && recExtent r k ≤ 2 ^ 24 &&
    (k < levels || (recExtent r k == 1 && recBind r k == 0))) &&
  ((List.range 2).all fun k => zero (0x78 + 16 * k) 40 24 &&
    (if k < dc then (recDecant r k).2.1 % 16 == 0 && (recDecant r k).2.2 % 16 == 0 else zero (0x70 + 16 * k) 0 128)) &&
  ((List.range 4).all fun k => zero (0x98 + 16 * k) 40 24 && (k < oc || zero (0x90 + 16 * k) 0 128))

/-- R19: bindings of the declared levels lie in CLUSTER to SYSTEM and do not decrease, and the grid is not beyond 2^32. -/
def recBindingOk (r : Nat) : Bool :=
  let ks := (List.range (recLevels r - 2)).map (· + 2)
  (ks.all fun k => 2 ≤ recBind r k && recBind r k ≤ 5) &&
  (ks.all fun k => k + 1 ≥ recLevels r || recBind r k ≤ recBind r (k + 1)) && recCount r ≤ 2 ^ 32

/-- R249's ranges of a footprint. -/
def footprintOk (f : Nat) : Bool :=
  1 ≤ bitsOf f 0 9 && bitsOf f 0 9 ≤ 256 && bitsOf f 9 7 ≤ 64 && bitsOf f 16 20 % 16 == 0 && bitsOf f 16 20 ≤ 720896 &&
  bitsOf f 36 28 == 0

/-- Workgroups of a launch that an empty core holds (R62, R345). -/
def recPerCore (r : Nat) : Nat :=
  let n := recExtent r 1
  let cap (have' each : Nat) : Nat := if each = 0 then 32 else have' / each
  min (min (32 / n) (cap (recOvercommit r * 2048 / 16) (n * recVregs r)))
    (min (cap (recOvercommit r * 1024 / 16) (n * recSregs r)) (cap (carveBytes (recCarve r)) (alignUp (recSpad r) 512)))

/-- Whether a region ends within 2^60. -/
def regionOk (a n : Nat) : Bool := a < 2 ^ 60 && a + n ≤ 2 ^ 60

/-- The status of a launch record for a context (R403). -/
def State.launchStatus (s : State) (ctx r : Nat) : Nat :=
  let d := s.root (recDomain r)
  if !recFormatOk r then 1
  else if !recBindingOk r then 2
  else if recOvercommit r < 16 || recOvercommit r > 32 then 3
  else if !footprintOk (recFootprint r) || recSpad r > carveBytes (recCarve r) ||
      (List.range (recDCount r)).any fun k => (recDecant r k).2.2 + (recDecant r k).2.1 > recSpad r then 4
  else if recPerCore r = 0 || recMembers r > 12 * recPerCore r then 5
  else if !s.classMapped (recClass r) ctx (List.range 192) then 6
  else if (if recQv r then !d.isOpen || !d.granted || d.ctx != ctx || d.o + 2 ^ 48 ≥ 2 ^ 64 else recDomain r != 0) then 7
  else if (List.range (recDCount r)).any (fun k => !regionOk (recDecant r k).1 (recDecant r k).2.1) ||
      (List.range (recOCount r)).any (fun k => !regionOk (recOut r k).1 (recOut r k).2) then 8
  else 0

/-- The words of a wave-launch item (R298). -/
def launchWords (r ctx id : Nat) : List (BitVec 32) :=
  [BitVec.ofNat 32 (recHint r * 2 ^ 8 + recClass r * 2 ^ 16),
   BitVec.ofNat 32 (recExtent r 1 * (recVregs r + 512 * recSregs r)), 0, 0, BitVec.ofNat 32 ctx, 0, BitVec.ofNat 32 id,
   BitVec.ofNat 32 (min (recCount r) 65535)]

/-- A record is submitted (R332, R398, R403): its launch, refused or accepted with its weight and its item pushed; none while the
item finds no room (R297). -/
def State.submit (s : State) (ctx q packet r : Nat) : Option (State × Nat × Nat) :=
  let id := s.host.nextLaunch
  let st := s.launchStatus ctx r
  let cls := recClass r
  let w : Option Weight := if recQv r && st = 0 then some ⟨recDomain r, 2 ^ 48⟩ else none
  let l : Launch :=
    { id := id, ctx := ctx, queue := q, packet := packet, record := r, status := st, weight := none, released := 0
      permitted := none, ticket := 0, mark := false, ended := [], aborted := false, dies := [], complete := st != 0, digest := none
      digestFail := false, digestVa := 0, fault := none, digested := true, written := false }
  let s := s.setHost { s.host with nextLaunch := (id + 1) % 2 ^ 64 }
  let s := s.setLaunch id l
  if st != 0 then some (s.setHost { s.host with vtgQueue := s.host.vtgQueue ++ [id] }, id, st)
  else if (s.refusing commandDie (s.classPart cls) (s.pathOf (s.classEntry cls))).isSome then none
  else
    let s := match w with
      | some w => let d := s.root w.root; s.setRoot w.root { d with o := d.o + 2 ^ 48 }
      | none => s
    some (s.pushItem commandDie (Item.of (.launch id) (launchWords r ctx id) ctx cls (s.classEntry cls) (s.classPart cls) w), id, 0)

/-! Commands (R409). -/

/-- TLCREATE: its status, and the timeline bound with everything 0. -/
def State.tlcreate (s : State) (ctx n : Nat) : State × Nat :=
  if n > 4095 then (s, 0x24)
  else
    let t := s.timeline n
    if t.bound.any fun c => c != ctx then (s, 0x22)
    else if t.issued != t.done then (s, 0x21)
    else (s.setTimeline n { Timeline.reset with bound := some ctx }, 0)

/-- Every cached translation and fetched line of a context in a range is gone; a line on its way needs its page walked again. -/
def Mem.forget (m : Mem) (ctx va n : Nat) : Mem :=
  let hit (l : ILine) : Bool := l.ctx == ctx && 128 * l.line < va + n && va < 128 * l.line + 128
  { m with
    tlb := m.tlb.filter fun t => !(t.ctx == ctx && t.va < va + n && va < t.va + t.size)
    icache := (m.icache.filter fun l => !(hit l && l.words.isSome)).map fun l => if hit l then { l with walked := false } else l }

/-- XINV: its status; the entries leave every TLB. -/
def State.xinv (s : State) (ctx q packet va n : Nat) : State × Nat :=
  if va % 4096 != 0 || n % 4096 != 0 || va + n > 2 ^ 60 then (s, 0x24)
  else
    let s := s.setMem (s.mem.forget ctx va n)
    (s.setCmd { s.cmd with xinvs := s.cmd.xinvs ++ [⟨ctx, va, n, q, packet⟩] }, 0)

/-- Launches of a queue that have not completed. -/
def State.pendingLaunches (s : State) (q : Nat) : List Nat :=
  (s.host.launches.filter fun p => p.2.queue == q && !p.2.complete).map (·.1)

/-- A packet's acts take effect in order, up to a launch whose item finds no room, which stalls there (R297, R409). -/
def State.commit (s : State) (ctx q : Nat) (p : Packet) : List CaskAct → State × Packet
  | [] => (s, { p with acts := [] })
  | .launch r :: rest =>
    match s.submit ctx q p.index r with
    | some (t, id, st) =>
      t.commit ctx q { p with launches := p.launches ++ [id], status := if p.status = 0 then st else p.status } rest
    | none => (s, { p with acts := .launch r :: rest })
  | .cmd code a b :: rest =>
    let r : State × Nat × Nat :=
      match code with
      | 0 => let t := s.tlcreate ctx a; (t.1, t.2, 0)
      | 1 => let t := s.xinv ctx q p.index a b; (t.1, t.2, if t.2 = 0 then 1 else 0)
      | _ => let x := s.queue q; (s.setQueue q { x with drain := x.drain ++ s.pendingLaunches q }, 0, 0)
    r.1.commit ctx q { p with status := if p.status = 0 then r.2.1 else p.status, waiting := p.waiting + r.2.2 } rest

/-! Packets (R405 to R408). -/

/-- Address of the next packet of a queue. -/
def HostQueue.packetAddr (x : HostQueue) : Nat := ringBase x.ring + slotBytes x.ring * (x.head.toNat % ringSize x.ring)

/-- Address of a queue's template (R404). -/
def HostQueue.template (x : HostQueue) : Nat := ringBase x.cq + 16 * cqSize x.cq

/-- STATE of a context (R420). -/
def State.ctxState (s : State) (c : Nat) : Nat := (s.ctx c).ctl.fld 2 3

/-- The packet of a queue that an interpreter stands in: one of its launches waits for room (R297, R409). -/
def HostQueue.inRun (x : HostQueue) : Option Packet := x.packets.find? fun p => !p.acts.isEmpty

/-- Whether packets of a queue's context are interpreted: its number is valid (R419), it is not torn down (R427), and no firmware switch
is under way (R430). -/
def State.serves (s : State) (x : HostQueue) : Bool :=
  x.ctx.fld 0 16 < 1024 && s.ctxState (x.ctx.fld 0 16) < 3 && !s.cmd.fw.trial

/-- Whether a queue has a packet that an interpreter may take: enabled, its slot in the ring (R405), none of its packets under
interpretation, no DRAIN before it (R409). -/
def State.queuePending (s : State) (q : Nat) : Bool :=
  let x := s.queue q
  x.ring.bit 0 && x.head != x.tail && (x.tail - x.head).toNat ≤ ringSize x.ring && s.serves x && x.inRun.isNone &&
  x.drain.all fun id => match s.launch? id with | some l => l.complete | none => true

/-- The queue whose packet the next free interpreter takes: sixteen of them serve the pending queues round-robin in ascending number
(R405). -/
def State.nextQueue (s : State) : Option Nat :=
  let qs := tkeys s.host.queues
  if (s.host.queues.filter fun p => p.2.inRun.isSome).length ≥ 16 then none
  else (qs.filter (s.host.turn ≤ ·) ++ qs.filter (· < s.host.turn)).find? s.queuePending

/-- Whether an interpreter takes a packet of this queue now. -/
def State.queueReady (s : State) (q : Nat) : Bool := s.nextQueue == some q

/-- The run of a queue's next packet (R407, R408): its acts take effect up to a launch without room. -/
def State.runPacket (s : State) (q : Nat) : State :=
  let x := s.queue q
  let p : Packet := ⟨x.head.toNat, [], 0, 0, []⟩
  let s := (s.setHost { s.host with turn := (q + 1) % 256 }).setQueue q { x with head := x.head + 1, drain := [] }
  let put (s : State) (p : Packet) : State := let x := s.queue q; s.setQueue q { x with packets := x.packets ++ [p] }
  match tget s.host.casks (x.ctx.fld 16 8) with
  | none => put s { p with status := 0x23 }
  | some prog =>
    match caskRun (prog.map (·.toNat)) (s.sysNat x.packetAddr 64) 256
        ⟨0, List.replicate 16 0, s.sysNat x.template 256, x.q, none, []⟩ with
    | .budget => put s { p with status := 0x20 }
    | .done acts words =>
      let r := (s.setQueue q { s.queue q with q := words }).commit (x.ctx.fld 0 16) q { p with acts := acts } acts
      put r.1 r.2

/-- The packet that an interpreter stands in goes on with a queue's remaining acts, once its next launch finds room (R297). -/
def State.resumePacket (s : State) (q : Nat) : Option State :=
  let x := s.queue q
  match (if s.serves x then x.inRun else none) with
  | none => none
  | some p =>
    let r := (s.setQueue q { x with packets := x.packets.filter (· != p) }).commit (x.ctx.fld 0 16) q p p.acts
    if r.2 == p then none
    else let y := r.1.queue q; some (r.1.setQueue q { y with packets := y.packets ++ [r.2] })

/-- CASK_PACKET_RUN (R405, R407 to R409): an interpreter takes a packet, or goes on with the one it stands in. -/
def execCaskPacketRun (q : Nat) (s : State) : Host.Outcome State Fault Refusal :=
  if s.queueReady q then .next (s.runPacket q)
  else match s.resumePacket q with
    | some t => .next t
    | none => .fault .notEnabled

/-- XINV_COMPLETE (R356, R409): no access can use the removed entries any more. -/
def execXinvComplete (k : Nat) (s : State) : Host.Outcome State Fault Refusal :=
  match s.cmd.xinvs[k]? with
  | none => .fault .notEnabled
  | some v =>
    let s := s.setCmd { s.cmd with xinvs := dropAt s.cmd.xinvs k }
    let x := s.queue v.queue
    .next (s.setQueue v.queue { x with packets := x.packets.map fun p =>
      if p.index = v.packet then { p with waiting := p.waiting - 1 } else p })

/-! Completion of launches (R397, R400). -/

/-- Whether every workgroup and task of a launch and every operation of theirs has ended. -/
def State.launchIdle (s : State) (id : Nat) : Bool :=
  (s.wgs.all fun p => p.2.launch != id) && (s.ops.all fun p => p.2.launch != id) &&
  s.trl.items.all fun p => (match p.2.kind with | .launch k | .workgroup k _ => k != id | _ => true) &&
    (match p.2.saved with | some v => v.wg.launch != id | none => true)

/-- LAUNCH_COMPLETE (R400): every store of the launch is performed at DEVICE scope, and its record takes its place. -/
def execLaunchComplete (id : Nat) (s : State) : Host.Outcome State Fault Refusal :=
  match s.launch? id with
  | none => .fault .notEnabled
  | some l =>
    if l.complete || !s.launchIdle id then .fault .notEnabled
    else
      let s := s.widenAll (fun n => n.ctx == l.ctx) 5
      let s := s.setLaunch id { l with complete := true, digested := recOCount l.record == 0 }
      .next (s.setHost { s.host with vtgQueue := s.host.vtgQueue ++ [id] })

/-- What reading a part of an output region gives. -/
inductive Digested where
  | bytes (l : List Byte)
  | poison (addr : Nat)
  | fail (addr : Nat)
  | wait (reason addr : Nat)
  deriving DecidableEq, Repr

/-- Bytes of an output region inside one granule, read by the command die at SYSTEM scope through the context's table (R400). -/
def State.digestPart (s : State) (ctx va n : Nat) : State × Digested :=
  if bitOf va 59 && bitsOf va 53 6 != s.cmd.pkgId then
    if (s.ctx ctx).ctl.bit 1 || !s.routed (bitsOf va 53 6) then (s, .fail va)
    else (s.send (.request (bitsOf va 53 6) va n [] none), .bytes ((List.range n).map fun k => Config.remoteByte s.tick (va + k)))
  else
    match s.walk ctx va with
    | .absent reason => (s, .wait reason va)
    | .leaf a e size =>
      if !bitOf e 5 then (s, .fail va)
      else if bitsOf e 52 2 == 2 then (s, .wait 2 va)
      else
        let t := (s.touch a e false).1
        let pa := bitsOf e 12 40 * 4096 + va % size
        match t.target pa with
        | .regs _ | .remoteRegs => (t, .fail va)
        | .remote h =>
          (t.send (.request h pa n [] none), .bytes ((List.range n).map fun k => Config.remoteByte s.tick (pa + k)))
        | _ =>
          if !t.frameAllows ctx pa then (t, .fail va)
          else
            let t := t.gather pa n
            if t.sysPoisonedRange pa n then (t, .poison va) else (t, .bytes (leBytes n (t.sysNat pa n)))

/-- The bytes of a region from an address on; `fuel` bounds its granules. -/
def State.digestRange (s : State) (ctx : Nat) : Nat → Nat → Nat → List Byte → State × Digested
  | 0, _, _, acc => (s, .bytes acc)
  | fuel + 1, va, n, acc =>
    if n = 0 then (s, .bytes acc)
    else
      let k := min (16 - va % 16) n
      match s.digestPart ctx va k with
      | (s, .bytes l) => s.digestRange ctx fuel (va + k) (n - k) (acc ++ l)
      | r => r

/-- The bytes of all declared regions, in declaration order. -/
def State.digestAll (s : State) (ctx : Nat) : List (Nat × Nat) → List Byte → State × Digested
  | [], acc => (s, .bytes acc)
  | r :: rest, acc =>
    match s.digestRange ctx (r.2 / 16 + 2) r.1 r.2 [] with
    | (s, .bytes l) => s.digestAll ctx rest (acc ++ l)
    | x => x

/-- Whether the command die can read a launch's regions now. -/
def Launch.digestDue (l : Launch) : Bool := l.complete && !l.digested && l.fault.isNone

/-- OUTPUT_DIGEST (R400). A FAIL response has ended a digest that waited (R359): it is not computed. -/
def execOutputDigest (id : Nat) (s : State) : Host.Outcome State Fault Refusal :=
  match s.launch? id with
  | none => .fault .notEnabled
  | some l =>
    if !l.digestDue then .fault .notEnabled
    else
      let ended (s : State) (d : Option Nat) : State := s.setLaunch id { l with digested := true, digest := d, digestFail := false }
      if l.digestFail then .next (ended (s.logError 7 l.ctx l.digestVa) none)
      else .next (match s.digestAll l.ctx ((List.range (recOCount l.record)).map (recOut l.record)) [] with
        | (s, .bytes b) => ended s (some (sha256 b))
        | (s, .poison a) => ended (s.logError 4 l.ctx a) none
        | (s, .fail a) => ended (s.logError 7 l.ctx a) none
        | (t, .wait why a) =>
          let r := t.faultAt l.ctx a false false why 0xFF unitDigest 0 t.cmd.pkgId
          match r.2 with
          | some token => r.1.setLaunch id { l with fault := some token, digestVa := a }
          | none => ended (r.1.logError 7 l.ctx a) none)

/-! The vintage ring (R397, R399). -/

/-- Records of the vintage ring; other values of LOG2N act as 8. -/
def vtgSize (r : DWord) : Nat := let n := r.fld 1 5; 2 ^ (if 4 ≤ n && n ≤ 20 then n else 8)

/-- A vintage record as a number of 64 bytes. -/
def Launch.vintage (l : Launch) : Nat :=
  let r := l.record
  let flags := bit1 (recDet r) +
    (if l.status = 0 then bit1 l.digest.isSome * 2 + bit1 l.aborted * 4 else 8) + recOCount r * 2 ^ 8
  l.id + recSeed r * 2 ^ 64 + recCtrBase r * 2 ^ 128 + flags * 2 ^ 192 +
  (match l.digest with | some d => leNat (digestBytes d) * 2 ^ 256 | none => 0)

/-- The launch whose record is next, if its digest is known and the ring has room or is not valid. -/
def State.vintageNext (s : State) : Option (Nat × Launch) :=
  match s.host.vtgQueue with
  | id :: _ =>
    (match s.launch? id with
     | some l =>
       if l.digested && (!s.host.vtgRing.bit 0 || (s.host.vtgHead - s.host.vtgTail).toNat < vtgSize s.host.vtgRing) then
         some (id, l)
       else none
     | none => none)
  | [] => none

/-- VINTAGE_RECORD_WRITE (R397): with a ring that is not valid no record is written. -/
def execVintageRecordWrite (s : State) : Host.Outcome State Fault Refusal :=
  match s.vintageNext with
  | none => .fault .notEnabled
  | some (id, l) =>
    let h := s.host
    let t := if h.vtgRing.bit 0 then
        let t := s.sysPut (ringBase h.vtgRing + 64 * (h.vtgHead.toNat % vtgSize h.vtgRing)) 64 l.vintage
        t.setHost { t.host with vtgHead := h.vtgHead + 1 }
      else s
    .next ((t.setHost { t.host with vtgQueue := t.host.vtgQueue.drop 1 }).setLaunch id { l with written := true })

/-! Completion entries (R406). -/

/-- Whether all launches of a packet are reported and all its commands have completed. -/
def State.packetDone (s : State) (p : Packet) : Bool :=
  p.acts.isEmpty && p.waiting = 0 && p.launches.all fun id => match s.launch? id with | some l => l.written | none => true

/-- Packets that have completed take their places in completion order. -/
def State.reapPackets (s : State) : State :=
  (tkeys s.host.queues).foldl (fun s q =>
    let x := s.queue q
    let now := x.packets.filter s.packetDone
    if now.isEmpty then s
    else s.setQueue q { x with packets := x.packets.filter (fun p => !s.packetDone p), ready := x.ready ++ now }) s

/-- The entry of a packet as a number of 16 bytes. -/
def State.entryOf (s : State) (p : Packet) : Nat :=
  let aborted := p.launches.any fun id => match s.launch? id with | some l => l.status = 0 && l.aborted | none => false
  p.launches.headD 0 +
  (p.index % 2 ^ 32 + p.launches.length * 2 ^ 32 + p.status * 2 ^ 36 + bit1 aborted * 2 ^ 44 + 2 ^ 56) * 2 ^ 64

/-- The place of a queue's next completion entry. -/
def HostQueue.entryAddr (x : HostQueue) : Nat := ringBase x.cq + 16 * (x.entries % cqSize x.cq)

/-- A completion entry that can be written: its place has been consumed. -/
def State.entryDue (s : State) (q : Nat) : Option Packet :=
  let x := s.queue q
  match x.ready with
  | p :: _ => if s.sysNat (x.entryAddr + 15) 1 = 0 then some p else none
  | [] => none

/-- COMPLETION_ENTRY_WRITE (R406): a release of the command die at SYSTEM scope. The launches of the packet are done with. -/
def execCompletionEntryWrite (q : Nat) (s : State) : Host.Outcome State Fault Refusal :=
  match s.entryDue q with
  | none => .fault .notEnabled
  | some p =>
    let x := s.queue q
    let s := (s.sysPut x.entryAddr 16 (s.entryOf p)).recordRelease ⟨5, commandKey, 2 ^ 66, ⟨s.cmd.pkgId, none⟩⟩ 5 0 [.mem x.entryAddr false] 16
    let s := s.setQueue q { x with ready := x.ready.drop 1, entries := x.entries + 1 }
    .next (s.setHost { s.host with launches := s.host.launches.filter fun l => !p.launches.contains l.1 })

/-! The event ring (R414). -/

/-- The 32 bytes of an event; bytes to which the manual gives no content are free (log 23). -/
def State.eventBytes (s : State) (e : Event) : List Byte :=
  let base := s.cmd.pkgId * 2 ^ 45 + bandSize * e.layer
  (List.range 32).map fun k =>
    if k = 0 then BitVec.ofNat 8 e.type
    else if e.type = 1 && (k = 1 || k = 2) then BitVec.ofNat 8 (if k = 1 then e.stack else e.layer)
    else if e.type = 1 && 8 ≤ k && k < 16 then BitVec.ofNat 8 (base / 256 ^ (k - 8))
    else if e.type = 1 && 16 ≤ k && k < 24 then BitVec.ofNat 8 (bandSize / 256 ^ (k - 16))
    else Config.freeByte s.tick k

/-- The event that is next, if the ring has room. -/
def State.eventNext (s : State) : Option Event :=
  match s.host.events with
  | e :: _ => if (s.host.evqHead - s.host.evqTail).toNat < cqSize s.host.evq then some e else none
  | [] => none

/-- EVENT_RING_WRITE (R414). -/
def execEventRingWrite (s : State) : Host.Outcome State Fault Refusal :=
  match s.eventNext with
  | none => .fault .notEnabled
  | some e =>
    let h := s.host
    let t := s.sysPut (ringBase h.evq + 32 * (h.evqHead.toNat % cqSize h.evq)) 32 (leNat (s.eventBytes e))
    .next (t.setHost { t.host with evqHead := h.evqHead + 1, events := h.events.drop 1 })

end Sys2Proof.Machine
end

