-- ==== Sys2Proof/Machine/Kills.lean ====
section
/-! DEFINITION. Kills and resets (spec/16 R431, R434, spec/11 R340, R341): what ends KILLED, and what each reset leaves. -/

namespace Sys2Proof.Machine

/-- Weight of the command die's own returns with an abort mark to its root: no core's pool has it. -/
def State.returnMarked (s : State) (w : Option Weight) : State :=
  match w with
  | some w => s.setQd { s.qd with returns := s.qd.returns ++ [⟨w.root, w.w, true, ⟨s.cmd.pkgId, none⟩⟩] }
  | none => s

/-- A workgroup that has been released and not started is killed, and recorded in CTX_KILL (R228, R374, R399, R431). -/
def State.killReleased (s : State) (id wgid : Nat) : State :=
  let s := s.updLaunch id fun l => { l with aborted := true, ended := l.ended ++ [(wgid, true)] }
  match s.launch? id with
  | some l =>
    let s := s.updCtx l.ctx fun c => { c with kill := killRecord wgid 0 false false }
    if l.ticket == wgid then s.passTicket id true else s
  | none => s

/-- An item ends KILLED (R431). -/
def State.killItem (s : State) (i : Nat) : State :=
  match s.item? i with
  | none => s
  | some x =>
    match x.kind with
    | .launch id => ((s.removeItem i).returnMarked x.weight).updLaunch id fun l => { l with aborted := true }
    | .workgroup id wgid =>
      let core := match x.place with | .leaf l | .toLeaf l | .service l => l | _ => 0
      ((s.removeItem i).giveBack core x.weight true).killReleased id wgid
    | .task o =>
      (match s.op? o with
       | some p => s.updCtx p.ctx fun c => { c with kill := killRecord p.wgid 0 false false }
       | none => s).killOp o |>.removeItem i
    | .segment o _ | .tile o => (s.killOp o).removeItem i
    | .resume _ slot _ => match x.saved with
      | some v => s.killSaved i v slot 0 false
      | none => s.removeItem i

/-- Every item that `p` chooses ends KILLED. -/
def State.killItems (s : State) (p : Item → Bool) : State :=
  ((s.trl.items.filter fun e => p e.2).map (·.1)).foldl (fun s i => s.killItem i) s

/-- Whether an item stands in a leaf or in its engine. -/
def Item.inLeaf (x : Item) (l : Nat) : Bool := x.place == .leaf l || x.place == .service l

/-! Cores (R92, R341, R344, R431, R434). -/

/-- The core's logical number after its reset: a failed core's number goes to the cluster's spare, or to no core; then the reset's
self-test runs (R434). -/
def State.sparedCore (s : State) (c : Nat) : Core × Bool :=
  let x := s.core c
  let spareUsed := (List.range 12).any fun k => (s.core (clusterOfCore c * 12 + k)).spare
  let fails := Config.selfTestFails s.tick c
  let kept : Core := { Core.reset with clock0 := s.unitClock c, owner := x.owner, spare := x.spare, gone := x.gone, failed := fails && !x.gone }
  if !x.failed then (kept, false)
  else if spareUsed then ({ kept with gone := true, failed := false }, true)
  else ({ kept with spare := true }, true)

/-- The core as it comes out of its reset; a number that goes to the spare or to no core is reported (R433, R434). -/
def State.respare (s : State) (c : Nat) : State :=
  let r := s.sparedCore c
  if r.2 then (s.setCore c r.1).logError 5 0 c else s.setCore c r.1

/-- A core reset (R431): what holds weight on it is killed too, its segmenter among them (R341). -/
def State.resetCore (s : State) (c : Nat) : State :=
  let s := ((s.wgs.filter fun p => p.2.core == c).map (·.1)).foldl (fun s u => s.killWg u 0 false false) s
  let s := (List.range 32).foldl (fun s k => s.endWave (32 * c + k) true) s
  let s := s.killItems fun x => x.inLeaf (dispatchLeaf c) || x.inLeaf (tileLeaf c) || x.inLeaf (copyLeaf c)
  let s := ((s.ops.filter fun p => p.2.core == c && p.2.carries && p.2.weight.isSome).map (·.1)).foldl (fun s o => s.killOp o) s
  let s := (s.widenAll (fun n => n.core == some c) 3).flushAll c
  let s := s.setMem { s.mem with tlb := s.mem.tlb.filter fun t => t.cluster || t.unit != c }
  (List.range 4).foldl (fun s k => s.setSeq (4 * c + k) Seq.reset) (s.respare c).pruneFaults

/-- A cluster reset. -/
def State.resetCluster (s : State) (k : Nat) : State :=
  let s := (List.range 12).foldl (fun s j => s.resetCore (12 * k + j)) s
  s.setMem { s.mem with
    tlb := s.mem.tlb.filter fun t => !(t.cluster && t.unit == k), icache := s.mem.icache.filter fun l => l.cluster != k }

/-- A die reset: its L2 is written back but for poisoned lines, and empty; its locks are gone. -/
def State.resetDie (s : State) (d : Nat) : State :=
  let s := (List.range 8).foldl (fun s k => s.resetCluster (8 * d + k)) s
  let bad (n : NarrowByte) : Bool := s.mem.poisoned.any fun g => g / 4 == n.pa / 128 && !goodCopy s.mem.narrow g (.l2 d)
  let s := s.widenAll (fun n => n.core == none && n.die == d && !bad n) 5
  s.setMem { s.mem with
    narrow := s.mem.narrow.filter fun n => !(n.core == none && n.die == d)
    locks := s.mem.locks.filter fun l => l.die != d }

/-! Engines and the trellis. -/

/-- The leaf of an engine. -/
def engineLeaf (k : EngineKind) (u : Nat) : Nat :=
  match k with
  | .tile => tileLeaf u
  | .copy => copyLeaf u
  | .staging => dispatchLeaf u
  | .port => portLeaf u

/-- Work that a staging engine was decanting starts with ENGINE_FAULT, at the address it had come to (R316, R431, log 25). -/
def State.stopStaging (s : State) (core : Nat) : State :=
  s.setTrl { s.trl with items := s.trl.items.map fun (p : Nat × Item) =>
    let x := p.2
    let at' : Nat := match (stageList (s.regionsOf x))[x.done]? with | some g => g.1 | none => 0
    (p.1, if x.decanting && x.place == .leaf (dispatchLeaf core) then
        { x with decanting := false, decanted := true, fault := none, decantFail := some (BitVec.ofNat 64 at') }
      else x) }

/-- An engine reset. -/
def State.resetEngine (s : State) (k : EngineKind) (u : Nat) : State :=
  match k with
  | .staging => (s.stopStaging u).pruneFaults
  | _ => (s.killItems fun x => x.inLeaf (engineLeaf k u)).pruneFaults

/-- A trellis node flush. -/
def State.flushNode (s : State) (n : Nat) : State :=
  let s := s.killItems fun x => match x.place with | .tree _ => (s.pathOf x.entry).contains n | _ => false
  let x := s.node n
  s.setNode n { x with hzn := 0, pops := 0, aged := 0 }

/-! The package. -/

/-- The physical address of a local frame. -/
def State.framePa (s : State) (f : Nat) : Nat := s.cmd.pkgId * 2 ^ 45 + 2 ^ 21 * f

/-- Frames whose contents other keys have encrypted, as they read from now on. -/
def State.garble (s : State) (frames : List Nat) (seed : Nat) : List Garbled :=
  frames.foldl (fun l f => ungarble l (s.framePa f) (2 ^ 21) ++ [⟨s.framePa f, 2 ^ 21, seed⟩]) s.mem.garbled

/-- The frames of a context whose contents its key has encrypted (R424): once the key is gone, no data of them can be decrypted (R427). -/
def State.protectedFrames (s : State) (c : Nat) : List Nat :=
  tkeys (s.cmd.frames.filter fun p => p.2.getLsbD 10 && (p.2 &&& 0x3FF).toNat == c)

/-- A queue that is no longer interpreted: what has not taken effect of the packet that an interpreter stands in never does (log 59). -/
def HostQueue.stopped (x : HostQueue) : HostQueue :=
  { x with ring := x.ring.setFld 0 1 0, packets := x.packets.map fun p => { p with acts := [] } }

/-- A package warm reset. -/
def State.warmReset (s : State) : State :=
  let s := (s.resetDie 0).resetDie 1
  let s := s.killItems fun _ => true
  let s := (s.ops.map (·.1)).foldl (fun s o => s.killOp o) s
  let shut (r : Root) : Root := { r with isOpen := false, o := 0, scope := 0, place := ⟨0, none⟩, abort := false, err := false, late := false, foreign := false }
  let s := s.setQd ⟨s.qd.roots.map fun (p : Nat × Root) => (p.1, shut p.2), [], [], [], []⟩
  let runs (x : Context) : Bool := x.ctl.bit 1 && (x.ctl.fld 2 3 == 1 || x.ctl.fld 2 3 == 2)
  let zeroise (x : Context) : Context := if runs x then { x with ctl := x.ctl.setFld 2 3 4 } else x
  let frames := (tkeys (s.cmd.ctxs.filter fun p => runs p.2)).map s.protectedFrames |>.flatten
  let s := s.setMem { s.mem with garbled := s.garble frames s.tick }
  let s := s.setCmd { s.cmd with
    ctxs := s.cmd.ctxs.map fun (p : Nat × Context) => (p.1, zeroise p.2), keys := [], session := none }
  let s := s.setHost { s.host with queues := s.host.queues.map fun (p : Nat × HostQueue) => (p.1, p.2.stopped) }
  let s := s.setMem { s.mem with binds := [] }
  ({ s with timelines := [], ops := [] } : State).pruneFaults

/-- The cores after a cold reset: the spares and lost numbers of the repair table stay, and the self-test of every core runs, in
ascending order, after the number of one found failed before has gone to its cluster's spare or to no core, which the error log
reports (R434). `r` is the package as the reset leaves it but for its cores. -/
def State.coldCores (r : State) (old : Table Core) : State :=
  let kept : Table Core := old.map fun (p : Nat × Core) =>
    (p.1, { Core.reset with spare := p.2.spare, gone := p.2.gone, failed := p.2.failed })
  (List.range 192).foldl State.respare { r with cores := kept }

/-- The repair tables and what else a cold reset cannot clear: spares, live layers, lane map, firmware banks with the owner
record, the package's number; and DRAM and host memory themselves, whose frames are DIRTY (R368, R428 to R430, R434). -/
def State.coldReset (s : State) : State :=
  let r := State.reset
  let fw : Firmware := { s.cmd.fw with pending := false, reverted := false, trial := false }
  ({ r with
    mem := { r.mem with cells := s.mem.cells, poisoned := s.mem.poisoned, garbled := s.garble (tkeys (s.cmd.frames.filter fun p => p.2.getLsbD 10)) s.tick }
    cmd := { r.cmd with live := s.cmd.live, fw := fw, badLanes := s.cmd.badLanes, rows := s.cmd.rows, pkgId := s.cmd.pkgId }
    host := { r.host with inputs := s.host.inputs, upsets := s.host.upsets, outbox := s.host.outbox }
    tick := s.tick, uid := s.uid } : State).coldCores s.cores

end Sys2Proof.Machine
end

