-- ==== Sys2Proof/Machine/Manage.lean ====
section
/-! DEFINITION. The management core (spec/16 R419 to R428, R431): how a request is read, what each command does and answers, and
the racking engine. -/

namespace Sys2Proof.Machine

/-! Requests (R421, log 10). -/

/-- The engine of a leaf number and its unit (R294). -/
def engineOfLeaf (l : Nat) : Option (EngineKind × Nat) :=
  if l < 192 then some (.staging, l)
  else if l < 384 then some (.tile, l - 192)
  else if l < 576 then some (.copy, l - 384)
  else if l < 592 then some (.port, l - 576)
  else none

/-- A REGWRITE as its event: responses to faults, a lone FORCE and the map-out commands have their own. -/
def regwriteEvent (off : Nat) (v m : DWord) : Instr :=
  let a := v &&& m
  match regAt off with
  | some (.ctx c 4) => if DWord.bit a 48 then .faultFail c (DWord.fld a 0 48) else .faultRetry c (DWord.fld a 0 48)
  | some (.qdr d 0) => if DWord.bit a 25 && m.toNat == 2 ^ 25 then .qdrForce d else .regwrite off v m
  | some (.mem 1) =>
    if DWord.bit a 10 && m.fld 0 8 == 255 then .hbmMapoutRequest (v.fld 0 4) (v.fld 4 4)
    else if DWord.bit a 11 && m.toNat == 2 ^ 11 then .hbmMapoutCommit
    else if DWord.bit a 12 && m.toNat == 2 ^ 12 then .hbmMapoutCancel
    else .regwrite off v m
  | _ => .regwrite off v m

/-- What stands for a request whose code or kind is not known: a write of an offset that names no register, status 1. -/
def badRequest : Instr := .regwrite 7 0 0

/-- A reset by kind and unit. -/
def resetEvent (kind unit : Nat) : Instr :=
  match kind with
  | 2 => .coreReset unit
  | 3 => match engineOfLeaf unit with | some (k, u) => .engineReset k u | none => badRequest
  | 4 => .trellisNodeFlush unit
  | 5 => .clusterReset unit
  | 6 => .dieReset unit
  | 7 => if unit = 0 then .packageWarmReset else badRequest
  | 8 => if unit = 0 then .coldReset else badRequest
  | _ => badRequest

/-- The event of a request: its code and its four operands. -/
def requestEvent (code a b c d : Nat) : Instr :=
  match code with
  | 1 => if b ≤ 1 then .ctxcreate a (b == 1) else badRequest
  | 2 => .ctxgrant a b c
  | 3 => .teardown a
  | 4 => .ctxfree a
  | 5 => match a with | 0 => .waveKill b c | 1 => .workgroupKill b c | _ => badRequest
  | 6 => resetEvent a b
  | 7 => .rootgrant a b
  | 8 => regwriteEvent a (BitVec.ofNat 64 b) (BitVec.ofNat 64 c)
  | 9 => match a with
    | 0 => .progloadTrellisSlot b c d
    | 1 => .progloadLeaf b c d
    | 2 => .progloadCaskSlot b c d
    | _ => badRequest
  | _ => badRequest

/-- The next management request, if one can be executed. -/
def State.mgmtNext (s : State) : Option Instr :=
  if !s.mgmtPending then none
  else
    let at' := s.host.mgmtAddr
    let w (k : Nat) : Nat := s.sysNat (at' + 8 * k) 8
    some (requestEvent (s.sysNat at' 1) (w 1) (w 2) (w 3) (w 4))

/-- A command's end: it is refused with a status, or it has had its effect. -/
def State.manage (s : State) (r : State × Nat) : Host.Outcome State Fault Refusal := .next (s.respondMgmt r.1 r.2)

/-! Contexts (R420, R421). -/

def ctxValid (x : Context) : Bool := x.ctl.bit 0
def ctxProt (x : Context) : Bool := x.ctl.bit 1

/-- A context in another state. -/
def State.setCtxState (s : State) (c st : Nat) : State := s.updCtx c fun x => { x with ctl := x.ctl.setFld 2 3 st }

def State.ctxCreate (s : State) (c : Nat) (prot : Bool) : State × Nat :=
  if c ≥ 1024 || (c == 0 && prot) then (s, 1)
  else if ctxValid (s.ctx c) then (s, 2)
  else
    let ctl := 1 + bit1 prot * 2 + (if prot then 1 else 2) * 4 + (if prot then c * 2 ^ 5 else 0)
    (s.updCtx c fun x => { x with ctl := BitVec.ofNat 64 ctl }, 0)

/-- CTXCREATE. -/
def execCtxcreate (c : Nat) (prot : Bool) (s : State) : Host.Outcome State Fault Refusal := s.manage (s.ctxCreate c prot)

/-- The status of a grant of something owned: it awaits scrubbing when its owner is torn down (R421, R427). -/
def State.ownedStatus (s : State) (owner : Nat) : Nat := let st := s.ctxState owner; if 3 ≤ st && st ≤ 5 then 4 else 3

def frameOwner (f : BitVec 12) : Nat := f.toNat % 1024
def frameDirtyBit (f : BitVec 12) : Bool := f.getLsbD 11
def frameCount : Nat := 393216

def State.setFrame (s : State) (k : Nat) (f : BitVec 12) : State := s.setCmd { s.cmd with frames := tput s.cmd.frames k f }

def State.ctxGrant (s : State) (c kind unit : Nat) : State × Nat :=
  let frame := match s.target unit with
    | .hbm off => if off % 2 ^ 21 = 0 && !s.absent off && unit < 2 ^ 52 then some (off / 2 ^ 21) else none
    | _ => none
  if c ≥ 1024 || kind > 1 || (kind == 0 && unit ≥ 192) || (kind == 1 && frame.isNone) then (s, 1)
  else if s.ctxState c != 1 then (s, 2)
  else if kind = 0 then
    match (s.core unit).owner with
    | some o => (s, s.ownedStatus o)
    | none =>
      ((s.updCore unit fun x => ({ x with owner := some c } : Core)).updCtx c fun x =>
        { x with ctl := x.ctl.setFld 16 8 (x.ctl.fld 16 8 + 1) }, 0)
  else
    let k := frame.getD 0
    let f := s.frame k
    if frameOwner f != 0 then (s, s.ownedStatus (frameOwner f))
    else if frameDirtyBit f then (s, 5)
    else
      ((s.setFrame k (BitVec.ofNat 12 c)).updCtx c fun x => { x with ctl := x.ctl.setFld 24 20 (x.ctl.fld 24 20 + 1) }, 0)

/-- CTXGRANT (R421, R422). -/
def execCtxgrant (c kind unit : Nat) (s : State) : Host.Outcome State Fault Refusal := s.manage (s.ctxGrant c kind unit)

/-- Logical cores and frames that a context owns, ascending (R422). -/
def State.ownedCores (s : State) (c : Nat) : List Nat := tkeys (s.cores.filter fun p => p.2.owner == some c)
def State.ownedFrames (s : State) (c : Nat) : List Nat :=
  if c = 0 then [] else tkeys (s.cmd.frames.filter fun p => frameOwner p.2 == c)

/-- Step 1 of TEARDOWN (R427): everything that the context runs has ended and nothing of it is bound, locked or cached. -/
def State.drainCtx (s : State) (c : Nat) : State :=
  let s := s.setTrl { s.trl with
    classA := s.trl.classA.map fun (p : Nat × DWord) => (p.1, if p.2.fld 18 16 == c then p.2.setFld 9 1 0 else p.2) }
  let off (x : HostQueue) : HostQueue := if x.ctx.fld 0 16 == c then x.stopped else x
  let s := s.setHost { s.host with queues := s.host.queues.map fun (p : Nat × HostQueue) => (p.1, off p.2) }
  let s := ((s.wgs.filter fun p => p.2.ctx == c).map (·.1)).foldl (fun s u => s.killWg u 0 false false) s
  let s := s.killItems fun x => x.ctx == c
  let mine := tkeys (s.ops.filter fun p => p.2.ctx == c)
  let s := mine.foldl (fun s o => s.killOp o) s
  let s := mine.foldl (fun s o => match s.op? o with | some x => s.completeOp o x | none => s) s
  let s := ((s.cmd.faults.filter fun r => r.ctx == c).map (·.token)).foldl (fun s t => s.answerFault c t true) s
  let mineByte (n : NarrowByte) : Bool := frameOwner (s.frameOf n.pa) == c && c != 0
  let s := s.setMem { s.mem with
    locks := s.mem.locks.filter fun l => l.ctx != c, binds := s.mem.binds.filter fun b => b.ctx != c
    narrow := s.mem.narrow.filter fun n => !mineByte n }
  let s : State := { s with timelines := s.timelines.filter fun p => p.2.bound != some c }
  let mine := tkeys (s.qd.roots.filter fun p => p.2.granted && p.2.ctx == c)
  mine.foldl (fun s d => let s := s.forceRoot d; s.setRoot d { s.root d with granted := false }) s

/-- TEARDOWN (R427). Its first two steps end with it; the racking engine takes a protected context from there. -/
def State.tearDown (s : State) (c : Nat) : State × Nat :=
  if c ≥ 1024 then (s, 1)
  else if s.ctxState c != 1 && s.ctxState c != 2 then (s, 2)
  else
    let prot := ctxProt (s.ctx c)
    let s := (s.setCtxState c 3).drainCtx c
    if prot then
      let s := s.setMem { s.mem with garbled := s.garble (s.protectedFrames c) s.tick }
      ((s.setCmd { s.cmd with keys := terase s.cmd.keys ((s.ctx c).ctl.fld 5 10) }).setCtxState c 4, 0)
    else (s.updCtx c fun x => { x with ctl := 0 }, 0)

/-- TEARDOWN. -/
def execTeardown (c : Nat) (s : State) : Host.Outcome State Fault Refusal := s.manage (s.tearDown c)

def State.ctxFree (s : State) (c : Nat) : State × Nat :=
  if c ≥ 1024 then (s, 1)
  else if s.ctxState c != 6 then (s, 2)
  else
    let s := (s.ownedCores c).foldl (fun s k => s.updCore k fun x => ({ x with owner := none } : Core)) s
    let s := (s.ownedFrames c).foldl (fun s k => s.setFrame k (s.frame k &&& 0xC00)) s
    (s.updCtx c fun x => { x with ctl := 0 }, 0)

/-- CTXFREE. -/
def execCtxfree (c : Nat) (s : State) : Host.Outcome State Fault Refusal := s.manage (s.ctxFree c)

/-! Kills and resets (R421, R431). -/

def State.killWaveAt (s : State) (core slot : Nat) : State × Nat :=
  match (if core < 192 && slot < 32 then s.wave? (32 * core + slot) else none) with
  | none => (s, 1)
  | some x =>
    match s.wg? x.wg with
    | none => (s, 1)
    | some g =>
      let s := s.updCtx g.ctx fun c => { c with kill := killRecord g.wgid 0 false false }
      ((s.endWave (32 * core + slot) true).pruneFaults, 0)

/-- WAVE_KILL. -/
def execWaveKill (core slot : Nat) (s : State) : Host.Outcome State Fault Refusal := s.manage (s.killWaveAt core slot)

def State.killWgsAt (s : State) (core wgid : Nat) : State × Nat :=
  let hit := (s.wgs.filter fun p => p.2.core == core && p.2.wgid == wgid).map (·.1)
  if hit.isEmpty then (s, 1) else (hit.foldl (fun s u => s.killWg u 0 false false) s, 0)

/-- WORKGROUP_KILL. -/
def execWorkgroupKill (core wgid : Nat) (s : State) : Host.Outcome State Fault Refusal := s.manage (s.killWgsAt core wgid)

/-- CORE_RESET. -/
def execCoreReset (core : Nat) (s : State) : Host.Outcome State Fault Refusal :=
  s.manage (if core < 192 then (s.resetCore core, 0) else (s, 1))

/-- ENGINE_RESET. -/
def execEngineReset (kind : EngineKind) (unit : Nat) (s : State) : Host.Outcome State Fault Refusal :=
  s.manage (if unit < (if kind == .port then 16 else 192) then (s.resetEngine kind unit, 0) else (s, 1))

/-- TRELLIS_NODE_FLUSH. -/
def execTrellisNodeFlush (node : Nat) (s : State) : Host.Outcome State Fault Refusal :=
  s.manage (if node < 512 then (s.flushNode node, 0) else (s, 1))

/-- CLUSTER_RESET. -/
def execClusterReset (cluster : Nat) (s : State) : Host.Outcome State Fault Refusal :=
  s.manage (if cluster < 16 then (s.resetCluster cluster, 0) else (s, 1))

/-- DIE_RESET. -/
def execDieReset (die : Nat) (s : State) : Host.Outcome State Fault Refusal :=
  s.manage (if die < 2 then (s.resetDie die, 0) else (s, 1))

/-- PACKAGE_WARM_RESET. -/
def execPackageWarmReset (s : State) : Host.Outcome State Fault Refusal := s.manage (s.warmReset, 0)

/-- COLD_RESET: it leaves no request to answer. -/
def execColdReset (s : State) : Host.Outcome State Fault Refusal := .next s.coldReset

/-! Roots, registers, programs (R421). -/

def State.grantRoot (s : State) (d c : Nat) : State × Nat :=
  if d ≥ 1024 || c ≥ 1024 then (s, 1)
  else if (s.root d).isOpen then (s, 2)
  else (s.setRoot d { s.root d with granted := true, ctx := c }, 0)

/-- ROOTGRANT (R329). -/
def execRootgrant (d c : Nat) (s : State) : Host.Outcome State Fault Refusal := s.manage (s.grantRoot d c)

/-- REGWRITE (R412). -/
def execRegwrite (off : Nat) (v m : DWord) (s : State) : Host.Outcome State Fault Refusal :=
  s.manage (match regAt off with
    | some r => (s.writeReg r v m, 0)
    | none => (s, 1))

/-- Words of a program in memory; no check tells more of them apart than `most`. -/
def State.progWords (s : State) (pa count most : Nat) : List (BitVec 32) :=
  (List.range (min count most)).map fun k => BitVec.ofNat 32 (s.sysNat (pa + 4 * k) 4)

/-- The response of a PROGLOAD. -/
def loadStatus (st : Nat) : Nat := if st = 0 then 0 else 0x10 + st

def State.loadSlot (s : State) (slot pa count : Nat) : State × Nat :=
  let prog := s.progWords pa count 17
  if slot ≥ 256 then (s, 1)
  else if progStatus false prog != 0 then (s, loadStatus (progStatus false prog))
  else (s.setTrl { s.trl with slots := tput s.trl.slots slot prog }, 0)

/-- PROGLOAD of a trellis slot (R308). -/
def execProgloadTrellisSlot (slot pa count : Nat) (s : State) : Host.Outcome State Fault Refusal := s.manage (s.loadSlot slot pa count)

def State.loadLeaf (s : State) (leaf pa count : Nat) : State × Nat :=
  let prog := s.progWords pa count 17
  if leaf ≥ 592 then (s, 1)
  else if progStatus true prog != 0 then (s, loadStatus (progStatus true prog))
  else
    let y := s.leaf leaf
    (s.setLeaf leaf { y with prog := prog ++ y.prog.drop prog.length, ctl := y.ctl.setFld 46 4 (prog.length - 1) }, 0)

/-- PROGLOAD of a leaf (R308, R327). -/
def execProgloadLeaf (leaf pa count : Nat) (s : State) : Host.Outcome State Fault Refusal := s.manage (s.loadLeaf leaf pa count)

def State.loadCask (s : State) (slot pa count : Nat) : State × Nat :=
  let prog := s.progWords pa count 129
  let st := caskStatus (prog.map (·.toNat))
  if slot ≥ 256 then (s, 1)
  else if st != 0 then (s, loadStatus st)
  else
    let clear (x : HostQueue) : HostQueue := if x.ctx.fld 16 8 == slot then { x with q := List.replicate 8 0 } else x
    (s.setHost { s.host with
      casks := tput s.host.casks slot prog, queues := s.host.queues.map fun (p : Nat × HostQueue) => (p.1, clear p.2) }, 0)

/-- PROGLOAD of a cask slot (R407, R408). -/
def execProgloadCaskSlot (slot pa count : Nat) (s : State) : Host.Outcome State Fault Refusal := s.manage (s.loadCask slot pa count)

/-! The racking engine (R428). -/

/-- Chunks of a core. -/
def coreChunks : Nat := 648

/-- Chunk `k` of a core is zero: registers, trap banks, operand buffer, accumulators, SRAM, spill slots in turn. -/
def State.scrubCore (s : State) (c k : Nat) : State :=
  if k = 66 || k = 67 then
    (List.range 2).foldl (fun s j => s.updSeq (4 * c + 2 * (k - 66) + j) fun q => { q with bank := [] }) s
  else if 68 ≤ k && k < 132 then s.updCore c fun x => { x with obuf := cellsClear x.obuf (4096 * (k - 68)) 4096 }
  else if 132 ≤ k && k < 196 then
    let a := (k - 132) / 16
    let lo := 1024 * ((k - 132) % 16)
    s.updCore c fun x =>
      let y := x.accs.getD a Acc.reset
      { x with accs := lsetD Acc.reset x.accs a { y with cells := y.cells.filter fun p => p.1 < lo || lo + 1024 ≤ p.1 } }
  else if 196 ≤ k && k < 388 then s.updCore c fun x => { x with spad := cellsClear x.spad (4096 * (k - 196)) 4096 }
  else s

/-- Chunk `k` of a frame is zero, with valid ECC. -/
def State.scrubFrame (s : State) (f k : Nat) : State :=
  let a := s.framePa f + 4096 * k
  let out (pa : Nat) : Bool := pa < a || a + 4096 ≤ pa
  s.setMem { s.mem with
    cells := cellsClear s.mem.cells a 4096, narrow := s.mem.narrow.filter fun n => out n.pa
    poisoned := s.mem.poisoned.filter fun g => out (32 * g), garbled := ungarble s.mem.garbled a 4096 }

/-- RACK_PROGRESS. -/
def State.rackAt (s : State) (phase ctx unit chunk : Nat) : State :=
  s.setCmd { s.cmd with rack := BitVec.ofNat 64 (phase + ctx * 2 ^ 4 + unit * 2 ^ 16 + chunk * 2 ^ 36) }

/-- The context that waits for the racking engine: the lowest ZEROISED one. -/
def State.rackWaiting (s : State) : Option Nat := (tkeys s.cmd.ctxs).find? fun c => s.ctxState c == 4

/-- Frames left DIRTY by a cold reset, from one on. -/
def State.firstDirty (s : State) : Option Nat :=
  if frameDirtyBit s.cmd.frame0 then (List.range (s.cmd.frames.length + 1)).find? fun k => k < frameCount && frameDirtyBit (s.frame k)
  else (s.cmd.frames.find? fun p => frameDirtyBit p.2).map (·.1)

/-- A context's scrub is over. -/
def State.rackDone (s : State) (c : Nat) : State := (s.setCtxState c 6).rackAt 3 0 0 0

/-- After the cores the frames, after the frames the end. -/
def State.rackNext (s : State) (c phase unit chunk : Nat) : State :=
  if phase = 1 && unit < (s.ownedCores c).length then s.rackAt 1 c unit chunk
  else
    let unit := if phase = 1 then 0 else unit
    if unit < (s.ownedFrames c).length then s.rackAt 2 c unit chunk else s.rackDone c

/-- A frame has no chunk left. -/
def State.cleanFrame (s : State) (f : Nat) : State := s.setFrame f (s.frame f &&& 0x3FF)

/-- One chunk of a context's scrub. -/
def State.rackCtx (s : State) (c phase unit chunk : Nat) : State :=
  if phase = 1 then
    match (s.ownedCores c)[unit]? with
    | some k =>
      let s := s.scrubCore k chunk
      if chunk + 1 < coreChunks then s.rackAt 1 c unit (chunk + 1) else s.rackNext c 1 (unit + 1) 0
    | none => s.rackNext c 1 unit 0
  else
    match (s.ownedFrames c)[unit]? with
    | some f =>
      let s := s.scrubFrame f chunk
      if chunk + 1 < 512 then s.rackAt 2 c unit (chunk + 1) else (s.cleanFrame f).rackNext c 2 (unit + 1) 0
    | none => s.rackDone c

/-- One chunk of the scrub after a cold reset: frames in ascending order, with context 0. -/
def State.rackCold (s : State) (f chunk : Nat) : State :=
  let s := s.scrubFrame f chunk
  if chunk + 1 < 512 then s.rackAt 2 0 f (chunk + 1)
  else
    let s := s.cleanFrame f
    match s.firstDirty with
    | some g => s.rackAt 2 0 g 0
    | none => (s.setCmd { s.cmd with frame0 := 0, frames := s.cmd.frames.filter fun p => p.2 != 0 }).rackAt 3 0 0 0

/-- What the racking engine does next: it goes on, takes a context, or takes the DIRTY frames. -/
def State.rackStep (s : State) : Option State :=
  let r := s.cmd.rack
  let phase := r.fld 0 4
  let c := r.fld 4 10
  if phase = 1 || phase = 2 then
    some (if c = 0 then s.rackCold (r.fld 16 19) (r.fld 36 10) else s.rackCtx c phase (r.fld 16 19) (r.fld 36 10))
  else
    match s.rackWaiting with
    | some c => some ((s.setCtxState c 5).rackNext c 1 0 0)
    | none => s.firstDirty.map fun f => s.rackCold f 0

/-- RACK_CHUNK (R428): a chunk is recorded once its writes are performed. -/
def execRackChunk (s : State) : Host.Outcome State Fault Refusal :=
  match s.rackStep with
  | some t => .next t
  | none => .fault .notEnabled

end Sys2Proof.Machine
end

