-- ==== Sys2Proof/Machine/Secure.lean ====
section
/-! DEFINITION. Attestation, key release, firmware, ownership, telemetry and spares (spec/16 R425, R426, R429, R430, R432 to R434).
What a reply holds beyond the words of the manual is free (log 13). -/

namespace Sys2Proof.Machine

/-! SPDM (R425). -/

/-- A reply with a payload that the manual only names. -/
def State.spdmReply (s : State) : State := s.send (.spdm (Config.spdmPayload s.tick))

/-- How far the connection has come. -/
def State.spdmStep (s : State) (n : Nat) : State := s.setCmd { s.cmd with versioned := n }

/-- A request that needs a negotiated connection: without it the reply is an error and nothing changes (log 13). -/
def State.negotiated (s : State) (t : State) : Host.Outcome State Fault Refusal :=
  .next (if s.cmd.versioned = 3 then t.spdmReply else s.spdmReply)

/-- GET_VERSION begins the connection anew. -/
def execGetVersion (s : State) : Host.Outcome State Fault Refusal :=
  .next ((s.setCmd { s.cmd with versioned := 1, session := none }).spdmReply)

/-- GET_CAPABILITIES. -/
def execGetCapabilities (s : State) : Host.Outcome State Fault Refusal :=
  .next ((if s.cmd.versioned = 1 then s.spdmStep 2 else s).spdmReply)

/-- NEGOTIATE_ALGORITHMS. -/
def execNegotiateAlgorithms (s : State) : Host.Outcome State Fault Refusal :=
  .next ((if s.cmd.versioned = 2 then s.spdmStep 3 else s).spdmReply)

/-- GET_DIGESTS. -/
def execGetDigests (s : State) : Host.Outcome State Fault Refusal := s.negotiated s

/-- GET_CERTIFICATE. -/
def execGetCertificate (_slot _offset _length : Nat) (s : State) : Host.Outcome State Fault Refusal := s.negotiated s

/-- CHALLENGE. -/
def execChallenge (_nonce : Nat) (s : State) : Host.Outcome State Fault Refusal := s.negotiated s

/-- The image of a bank: A or B. -/
def Firmware.bank (f : Firmware) (b : Bool) : Option FwImage := if b then f.bankB else f.bankA
def Firmware.setBank (f : Firmware) (b : Bool) (i : Option FwImage) : Firmware :=
  if b then { f with bankB := i } else { f with bankA := i }

/-- The 128 bytes of an image's header, which every signature covers (R429). -/
def imageHeader (i : FwImage) : Nat :=
  i.magic.toNat + i.format.toNat * 2 ^ 64 + i.svn.toNat * 2 ^ 96 + i.bodyLen % 2 ^ 64 * 2 ^ 128 + i.bodyDigest % 2 ^ 384 * 2 ^ 192 +
    i.reserved % 2 ^ 448 * 2 ^ 576

/-- A list with its length, so that lists in a row stay apart. -/
def counted (l : List Nat) : List Nat := l.length :: l

/-- What an index measures (R425), for the context that the request names. -/
def State.measured (s : State) (index c : Nat) : List Nat :=
  let f := s.cmd.fw
  match index with
  | 1 => (match f.bank f.active with | some i => imageHeader i :: i.body | none => []) ++ [Config.bootRom]
  | 2 => (match f.owner with | some (a, b) => [1, a, b] | none => [0]) ++ [f.svnMin]
  | 3 => [s.cmd.pkgId * 2 ^ 45] ++ (List.range 12).map s.capWord ++
      (List.range 64).map fun h => ((tget s.cmd.fabRoute h).getD 0).toNat
  | 4 => (List.range 192).map (fun k => bit1 (s.core k).spare + 2 * bit1 (s.core k).gone) ++
      (List.range 16).map (fun p => (tget s.cmd.badLanes p).getD 0) ++ counted s.cmd.rows ++
      (List.range 12).map fun k => (s.liveLayers k).toNat
  | 5 => (s.ctx c).ctl.toNat :: counted (s.ownedCores c) ++ counted (s.ownedFrames c)
  | 6 => [bit1 f.active, bit1 f.pending] ++ (match f.bank (!f.active) with | some i => [imageHeader i] | none => [])
  | _ => []

/-- The digest that a reply gives for an index. -/
def State.measurement (s : State) (index c : Nat) : Nat := Config.digest384 (s.measured index c)

/-- The indices that a request names: one, or with 0xFF all of them. -/
def indicesOf (index : Nat) : List Nat := if index = 255 then [1, 2, 3, 4, 5, 6] else if 1 ≤ index && index ≤ 6 then [index] else []

/-- GET_MEASUREMENTS: the digests; a session's transcript keeps what they measured. -/
def execGetMeasurements (index c nonce : Nat) (s : State) : Host.Outcome State Fault Refusal :=
  let ks := indicesOf index
  let add (x : Session) : Session := { x with transcript := x.transcript ++ ks.map fun k => ⟨k, c, nonce, s.measured k c⟩ }
  let t := s.setCmd { s.cmd with session := s.cmd.session.map add }
  s.negotiated (ks.foldl (fun t k => t.send (.spdm (s.measurement k c))) t)

/-- KEY_EXCHANGE opens a session, which FINISH secures. -/
def execKeyExchange (_nonce : Nat) (s : State) : Host.Outcome State Fault Refusal :=
  s.negotiated (s.setCmd { s.cmd with session := some ⟨false, []⟩ })

/-- FINISH. -/
def execFinish (s : State) : Host.Outcome State Fault Refusal :=
  s.negotiated (s.setCmd { s.cmd with session := s.cmd.session.map fun x => { x with secured := true } })

/-- END_SESSION. -/
def execEndSession (s : State) : Host.Outcome State Fault Refusal := s.negotiated (s.setCmd { s.cmd with session := none })

/-- Whether a secured session stands. -/
def State.secured (s : State) : Bool := s.cmd.session.any (·.secured)

/-! Key release (R424, R426). -/

/-- The conditions of KEYRELEASE: a secured session, STATE ATTEST, and the latest measurements of indices 1 to 5 for the context in
the transcript, of what still stands. -/
def State.mayRelease (s : State) (c : Nat) : Bool :=
  c < 1024 && s.secured && s.ctxState c == 1 &&
  (match s.cmd.session with
   | some x => (List.range 5).all fun k =>
     (match (x.transcript.filter fun m => m.index == k + 1 && m.ctx == c).getLast? with
      | some m => m.content == s.measured (k + 1) c
      | none => false)
   | none => false)

/-- The context's key is made and its frames are protected; what stood in them decrypts to nothing known (log 26). -/
def State.releaseKey (s : State) (c : Nat) : State :=
  let key := Config.drbgKey s.tick
  let frames := s.ownedFrames c
  let s := s.setMem { s.mem with garbled := s.garble frames key }
  let s := s.setCmd { s.cmd with keys := tput s.cmd.keys ((s.ctx c).ctl.fld 5 10) key }
  (frames.foldl (fun s f => s.setFrame f (s.frame f ||| 0x400)) s).setCtxState c 2

/-- KEYRELEASE (R426): status 0, or 2 and nothing changes. -/
def execKeyrelease (c : Nat) (s : State) : Host.Outcome State Fault Refusal :=
  .next (if s.mayRelease c then (s.releaseKey c).send (.spdm 0) else s.send (.spdm 2))

/-! Firmware (R429, R430). -/

/-- 0x5741_4942_4658_3737. -/
def fwMagic : DWord := 0x5741494246583737

/-- Whether an image is accepted: its header, its four signatures, its body's digest, its SVN; an UNOWNED device accepts none. -/
def Firmware.accepts (f : Firmware) (i : FwImage) : Bool :=
  i.magic == fwMagic && i.format == 1 && i.reserved % 2 ^ 448 = 0 && Config.digest384 i.body % 2 ^ 384 == i.bodyDigest % 2 ^ 384 && f.svnMin ≤ i.svn.toNat &&
  (match f.owner with
   | some (a, b) =>
     Config.signatureOk (Config.makerKey 0) (imageHeader i) (i.sigs.getD 0 0) && Config.signatureOk (Config.makerKey 1) (imageHeader i) (i.sigs.getD 1 0) &&
     Config.signatureOk a (imageHeader i) (i.sigs.getD 2 0) && Config.signatureOk b (imageHeader i) (i.sigs.getD 3 0)
   | none => false)

def State.setFw (s : State) (f : Firmware) : State := s.setCmd { s.cmd with fw := f }

/-- FIRMWARE_IMAGE_UPDATE: in a secured session, into the inactive bank, which a refusal empties. The bank of an image that has
not reported ready is not the inactive one's to write (log 27). -/
def execFirmwareImageUpdate (i : FwImage) (s : State) : Host.Outcome State Fault Refusal :=
  let f := s.cmd.fw
  if !s.secured || f.trial then .next (s.send (.pldm 1))
  else
    let ok := f.accepts i
    let g := { f.setBank (!f.active) (if ok then some i else none) with pending := false }
    .next ((s.setFw g).send (.pldm (if ok then 0 else 1)))

/-- ACTIVATE_FIRMWARE: a verified image waits for a quiet point. -/
def execActivateFirmware (s : State) : Host.Outcome State Fault Refusal :=
  let f := s.cmd.fw
  let ok := s.secured && !f.trial && (f.bank (!f.active)).isSome
  .next ((if ok then s.setFw { f with pending := true } else s).send (.pldm (if ok then 0 else 1)))

/-- Whether the switch can take place: an image is pending, and it is a quiet point, with every interpreter between packets; between two
events no management request is in execution. -/
def State.canSwitchFirmware (s : State) : Bool :=
  s.cmd.fw.pending && !s.cmd.fw.trial && s.host.queues.all fun p => p.2.inRun.isNone

/-- FIRMWARE_SWITCH at a quiet point. -/
def execFirmwareSwitch (s : State) : Host.Outcome State Fault Refusal :=
  let f := s.cmd.fw
  if s.canSwitchFirmware then .next (s.setFw { f with active := !f.active, pending := false, trial := true })
  else .fault .notEnabled

/-- FIRMWARE_READY: the new image's SVN becomes the minimum; the last activation did not fall back. -/
def execFirmwareReady (s : State) : Host.Outcome State Fault Refusal :=
  let f := s.cmd.fw
  if f.trial then
    .next (s.setFw { f with trial := false, reverted := false, svnMin := match f.bank f.active with | some i => i.svn.toNat | none => f.svnMin })
  else .fault .notEnabled

/-- FIRMWARE_REVERT: the old bank is active again, and a PLDM event says so. -/
def execFirmwareRevert (s : State) : Host.Outcome State Fault Refusal :=
  let f := s.cmd.fw
  if f.trial then .next ((s.setFw { f with active := !f.active, trial := false, reverted := true }).send (.event 3 0 0))
  else .fault .notEnabled

/-- CLAIM: with OWN_EN asserted and signed by the new pair; an OWNED device keeps its owner (log 27). -/
def execClaim (rsaKey slhKey sig : Nat) (s : State) : Host.Outcome State Fault Refusal :=
  let a := Config.digest384 [rsaKey]
  let b := Config.digest384 [slhKey]
  let ok := s.cmd.fw.owner.isNone && Config.ownEn s.tick && Config.signatureOk a b sig && Config.signatureOk b a sig
  .next ((if ok then s.setFw { s.cmd.fw with owner := some (a, b) } else s).send (.pldm (if ok then 0 else 1)))

/-- Protected contexts that stand. -/
def State.protectedCtxs (s : State) : List Nat :=
  tkeys (s.cmd.ctxs.filter fun p => ctxProt p.2 && (p.2.ctl.fld 2 3 == 1 || p.2.ctl.fld 2 3 == 2))

/-- TRANSFER: signed by the owner's pair; every protected context is torn down and the device is UNOWNED. -/
def execTransfer (sig : Nat) (s : State) : Host.Outcome State Fault Refusal :=
  match s.cmd.fw.owner with
  | some (a, b) =>
    if Config.signatureOk a b sig && Config.signatureOk b a sig then
      let t := s.protectedCtxs.foldl (fun s c => (s.tearDown c).1) s
      .next ((t.setFw { t.cmd.fw with owner := none }).send (.pldm 0))
    else .next (s.send (.pldm 1))
  | none => .next (s.send (.pldm 1))

/-! Telemetry (R432, R433). -/

/-- The sensors. -/
def isSensor (id : Nat) : Bool :=
  id == 1 || id == 2 || id == 0x10 || id == 0x11 || (0x20 ≤ id && id ≤ 0x2B) || id == 0x30 || (0x40 ≤ id && id ≤ 0x4B) ||
  id == 0x50 || id == 0x60 || id == 0x70

/-- SENSOR_READ: the latest value. -/
def execSensorRead (id : Nat) (s : State) : Host.Outcome State Fault Refusal :=
  .next (if isSensor id then s.send (.pldm ((tget s.cmd.sensors id).getD 0)) else s.send (.event 6 id 0))

/-- Lanes that have failed, and spare cores in use. -/
def State.failedLanes (s : State) : Nat := (s.cmd.badLanes.map (·.2)).sum
/-- Numbers whose core has failed: those that a spare serves, and those left without a core; at most 16 are reported (R432, R434,
log 74). -/
def State.sparesUsed (s : State) : Nat := min 16 (s.cores.filter fun p => p.2.spare || p.2.gone).length

/-- What a sensor takes: the counts of uncorrectable errors, lanes and spares are the machine's own, the rest is measured. -/
def State.sensed (s : State) (id : Nat) (v : Int) : Int :=
  if id = 0x50 then s.cmd.uncorrected else if id = 0x60 then min s.failedLanes 68 else if id = 0x70 then s.sparesUsed else v

/-- SENSOR_UPDATE: an update interval ends. -/
def execSensorUpdate (id : Nat) (v : Int) (s : State) : Host.Outcome State Fault Refusal :=
  .next (if isSensor id then s.setCmd { s.cmd with sensors := tput s.cmd.sensors id (s.sensed id v) } else s)

/-- ERROR_LOG_READ. -/
def execErrorLogRead (s : State) : Host.Outcome State Fault Refusal := .next (s.send (.logRead s.cmd.log))

/-- I3C_DYNAMIC_ADDRESS_ASSIGN. -/
def execI3cDynamicAddressAssign (addr : Nat) (s : State) : Host.Outcome State Fault Refusal :=
  .next (s.setCmd { s.cmd with i3c := some addr })

/-! Links (R434). -/

/-- LANE_FAILURE: a spare lane takes over and the link retrains. -/
def execLaneFailure (port : Nat) (s : State) : Host.Outcome State Fault Refusal :=
  let n := (tget s.cmd.badLanes port).getD 0
  let s := s.setCmd { s.cmd with
    badLanes := tput s.cmd.badLanes port (n + 1)
    training := if s.cmd.training.contains port then s.cmd.training else s.cmd.training ++ [port] }
  .next (s.logError 6 0 port)

/-- LINK_RETRAIN_COMPLETE. -/
def execLinkRetrainComplete (port : Nat) (s : State) : Host.Outcome State Fault Refusal :=
  .next (s.setCmd { s.cmd with training := s.cmd.training.filter fun p => p != port })

end Sys2Proof.Machine
end

