-- ==== Sys2Proof/WellFormed.lean ====
section
/-! DEFINITION. Well-formed instructions: a Traex word that passes steps 5 to 7 of R76 as far as the word decides them
(Machine/Legal.lean), and an event whose unit numbers name units of the package (spec/00 R1). -/

namespace Sys2Proof

/-- The unit numbers of an event lie in the package (R1, R10, R236, R328, R404, R419). -/
def eventRanges (i : Instr) : Bool :=
  match i with
  | .clauseIssue q | .remoteAccessResend q => q < 768
  | .icacheLineArrival c ctx _ => c < 16 && ctx < 1024
  | .yieldRestrictionEnd w | .mwaitTimeout w | .holdEnd w | .longLatencyComplete w _ | .trapEntry w => w < 6144
  | .spillWriteComplete c _ | .fillComplete c _ | .tileTaskComplete c | .detTurn c | .coreReset c => c < 192
  | .waveKill c slot => c < 192 && slot < 32
  | .workgroupKill c _ => c < 192
  | .ancestorInsert _ n | .topNodeRelease n | .reserveSetPreempt n | .trellisNodeFlush n => n < 512
  | .probeTokenSend x => x < 1360
  | .enginePop x | .leafPreempt x | .progloadLeaf x _ _ => x < 592
  | .faultRetry c _ | .faultFail c _ | .ctxcreate c _ | .ctxgrant c _ _ | .teardown c | .ctxfree c | .keyrelease c => c < 1024
  | .rootgrant r c => r < 1024 && c < 1024
  | .qdrForce r => r < 1024
  | .dramRequestIssue c => c < 384
  | .remoteRequest r => r.pkg < 64 && r.port < 16 && r.cls < 4 && r.ctx < 1024 && r.homePkg < 64
  | .hostQueueDoorbell q _ | .caskPacketRun q | .completionEntryWrite q => q < 256
  | .engineReset k u => u < (match k with | .port => 16 | _ => 192)
  | .clusterReset c => c < 16
  | .dieReset d => d < 2
  | .progloadTrellisSlot s _ _ | .progloadCaskSlot s _ _ => s < 256
  | .hbmMapoutRequest s l | .hbmMapoutAutoRequest s l => s < 12 && l < 16
  | .laneFailure p | .linkRetrainComplete p => p < 16
  | _ => true

/-- A well-formed instruction or event. -/
def wellFormed (i : Instr) : Bool := Machine.legal i && eventRanges i

end Sys2Proof
end

