-- ==== Sys2Proof/Machine/Agenda.lean ====
section
/-! DEFINITION. What can happen next, how it is chosen (log 3), and what a step does around it (log 4). -/

namespace Sys2Proof.Machine

/-- An action that the state enables: an internal event, the outside's next input, its dismissal, or a sequencer's next
instruction. -/
inductive Action where
  | event (i : Instr)
  | input (i : Instr)
  | skip
  | issue (q : Nat)
  deriving DecidableEq, Repr

/-- Whether a sequencer can issue the next instruction of its clause. -/
def State.canIssue (s : State) (q : Nat) : Bool :=
  let x := s.seq q
  x.frozen.isNone &&
  (match x.refused with | none => true | some n => n ≥ 64) &&
  (match x.active with
   | some w => (match s.issueOf w with | some _ => true | none => false)
   | none => false)

/-- The sequencers with something to do: those listed and those of resident waves. -/
def State.busySeqs (s : State) : List Nat :=
  (tkeys s.seqs ++ s.waves.map fun p => seqOfWave p.1).eraseDups

/-- The events of a list of numbers that a condition enables. -/
def eventsOf (l : List Nat) (p : Nat → Bool) (f : Nat → Instr) : List Instr := (l.filter p).map f

/-- The positions of a list. -/
def positions {α : Type} (l : List α) : List Nat := List.range l.length

/-- Internal events of issue, registers and long-latency results that the state enables. -/
def State.coreEvents (s : State) : List Instr :=
  eventsOf s.busySeqs s.canClauseIssue Instr.clauseIssue ++
  eventsOf s.busySeqs (fun q => match (s.seq q).refused with | some n => n < 64 | none => false) Instr.remoteAccessResend ++
  (((s.mem.icache.filter fun l => l.words.isNone).map fun l => Instr.icacheLineArrival l.cluster l.ctx l.line)) ++
  ((s.waves.filter fun p => s.pauseOver p.1 p.2).map fun p => Instr.yieldRestrictionEnd p.1) ++
  ((s.waves.filter fun p => p.2.queued.isSome && s.canTrapEntry p.1).map fun p => Instr.trapEntry p.1) ++
  ((s.waves.filter fun p => p.2.hold.isSome && s.holdOver p.1).map fun p => Instr.holdEnd p.1) ++
  ((s.waves.filter fun p => p.2.hold.isSome && (s.mwaitTimeout? p.1).isSome).map fun p => Instr.mwaitTimeout p.1) ++
  ((s.waves.map fun p => eventsOf (positions p.2.ll) (fun k => match p.2.ll[k]? with
      | some o => !o.done && o.op.isNone
      | none => false) (Instr.longLatencyComplete p.1)).flatten) ++
  ((s.cores.map fun p =>
    (if p.2.vpool.spill.isSome then [Instr.spillWriteComplete p.1 .vec] else []) ++
    (if p.2.spool.spill.isSome then [Instr.spillWriteComplete p.1 .scl] else []) ++
    (if p.2.vpool.filling then [Instr.fillComplete p.1 .vec] else []) ++
    (if p.2.spool.filling then [Instr.fillComplete p.1 .scl] else []) ++
    (if s.canDetTurn p.1 then [Instr.detTurn p.1] else [])).flatten) ++
  eventsOf (positions s.cmd.faults) s.canWriteFault Instr.faultRecordWrite ++
  (positions s.mem.narrow).map Instr.widerScopePerform

/-- Queues on which some unit may be blocked. -/
def State.blockingQueues (s : State) : List Nat :=
  (s.waves.filterMap (fun p => p.2.stall.bind fun t => t.queue) ++ (tkeys s.trl.nodes).filterMap fun n =>
    if (s.node n).isTop then s.topBlocked n else none).eraseDups

/-- Whether a leaf's pre-emption has something to do. -/
def State.canPreempt (s : State) (l : Nat) : Bool :=
  match s.headOf l with
  | some (_, i, x) => (s.victimOf l).isSome || ((s.leaf l).fresh && !s.canPop l i x)
  | none => false

/-- Whether a leaf's engine can pop. -/
def State.canPopLeaf (s : State) (l : Nat) : Bool :=
  match s.headOf l with
  | some (_, i, x) => s.canPop l i x
  | none => false

/-- Internal events of items, nodes, leaves and engines that the state enables. -/
def State.trellisEvents (s : State) : List Instr :=
  ((s.trl.items.filterMap fun p => (s.waitingAt p.1).map fun w =>
    if w.1 == p.2.entry then Instr.trellisPush p.1 else Instr.ancestorInsert p.1 w.1)) ++
  eventsOf (tkeys s.trl.items) (fun i => (s.resumeWaiting i).isSome) Instr.trellisPush ++
  eventsOf (tkeys s.trl.nodes) (fun n => (s.nextRelease n).isSome) Instr.topNodeRelease ++
  eventsOf (tkeys s.trl.nodes) (fun n => (s.reserveVictims n).isSome) Instr.reserveSetPreempt ++
  eventsOf (tkeys s.trl.items) (fun i => (s.arriving i).isSome) Instr.leafInsert ++
  eventsOf (tkeys s.trl.leaves) s.canPopLeaf Instr.enginePop ++
  eventsOf (tkeys s.trl.leaves) s.canPreempt Instr.leafPreempt ++
  eventsOf s.blockingQueues s.canProbe Instr.probeTokenSend ++
  (positions s.trl.tokens).map Instr.probeTokenArrival ++
  ((s.trl.items.filter fun p => (s.mayDecant p.1 p.2).isSome).map fun p => Instr.decant p.1) ++
  eventsOf (tkeys s.trl.items) (fun i => (s.canStage i).isSome) Instr.decantComplete ++
  eventsOf (tkeys s.trl.items) (fun i => (s.canRestore i).isSome) Instr.restore ++
  eventsOf (tkeys s.wgs) (fun u => (s.canSwitch u).isSome) Instr.switchOut ++
  eventsOf (tkeys s.trl.items) (fun i => (s.segmentRunning i).isSome) Instr.copySegmentComplete ++
  eventsOf (tkeys s.trl.items) (fun i => match s.packetAt i with | some p => !p.1.sent | none => false) Instr.packetResend ++
  eventsOf (tkeys s.cores ++ (s.ops.map fun p => p.2.core)).eraseDups (fun c => (s.tileRunning c).isSome) Instr.tileTaskComplete ++
  eventsOf (tkeys s.ops) (fun o => (s.canPush o).isSome) Instr.segmentPush ++
  ((s.ops.filter fun p => s.opDue p.2).map fun p => Instr.operationComplete p.1) ++
  eventsOf (positions s.qd.borrows) (fun k => match s.qd.borrows[k]? with | some b => !b.granted | none => false)
    Instr.borrowRequest ++
  eventsOf (positions s.qd.borrows) (fun k => match s.qd.borrows[k]? with | some b => b.granted | none => false)
    Instr.borrowGrant ++
  (positions s.qd.returns).map Instr.rootReturn ++ (positions s.qd.fab).map Instr.fabricReturnFlush

/-- Internal events of the command die and the memory that the state enables. -/
def State.commandEvents (s : State) : List Instr :=
  eventsOf (tkeys s.cmd.channels) (fun c => !(s.channel c).reqs.isEmpty) Instr.dramRequestIssue ++
  eventsOf (tkeys s.host.queues) (fun q => s.queueReady q || (s.resumePacket q).isSome) Instr.caskPacketRun ++
  (positions s.cmd.xinvs).map Instr.xinvComplete ++
  ((s.host.launches.filter fun p => !p.2.complete && s.launchIdle p.1).map fun p => Instr.launchComplete p.1) ++
  ((s.host.launches.filter fun p => p.2.digestDue).map fun p => Instr.outputDigest p.1) ++
  (if s.vintageNext.isSome then [Instr.vintageRecordWrite] else []) ++
  eventsOf (tkeys s.host.queues) (fun q => (s.entryDue q).isSome) Instr.completionEntryWrite ++
  (if s.eventNext.isSome then [Instr.eventRingWrite] else []) ++
  (match s.mgmtNext with | some i => [i] | none => []) ++
  (if s.rackStep.isSome then [Instr.rackChunk] else []) ++
  (if s.canSwitchFirmware then [Instr.firmwareSwitch] else []) ++
  (if s.cmd.fw.trial then [Instr.firmwareReady, Instr.firmwareRevert] else [])

/-- Whether an event comes from outside the package and can come now. A write of the management block's own ring registers comes
from the management core's firmware while no request is there (log 14). -/
def State.accepts (s : State) (i : Instr) : Bool :=
  match i with
  | .hostAccess _ | .hostQueueDoorbell _ _ | .mgmtDoorbell _ | .remoteRequest _ | .hbmMapoutAutoRequest _ _ | .getVersion
  | .getCapabilities | .negotiateAlgorithms | .getDigests | .getCertificate _ _ _ | .challenge _ | .getMeasurements _ _ _
  | .keyExchange _ | .finish | .endSession | .keyrelease _ | .firmwareImageUpdate _ | .activateFirmware | .claim _ _ _
  | .transfer _ | .sensorRead _ | .sensorUpdate _ _ | .errorLogRead | .laneFailure _ | .linkRetrainComplete _
  | .yclLinkEnumeration _ | .i3cDynamicAddressAssign _ | .coldReset => eventRanges i
  | .packetRefuse k _ | .packetAck k => (match s.packetAt k with | some p => p.1.sent | none => false)
  | .regwrite off _ _ => 0x320000 ≤ off && off < 0x330000 && !s.mgmtPending
  | _ => false

/-- The outside's next input: taken, or dismissed. -/
def State.nextInput (s : State) : List Action :=
  match s.host.inputs with
  | [] => []
  | i :: _ => if s.accepts i then [.input i] else [.skip]

/-- Whether an input reaches no memory but the register space. -/
def State.offMemory (s : State) (i : Instr) : Bool :=
  match i with
  | .hostAccess a => (match s.target (s.hostPa a.addr) with | .regs _ => true | _ => false)
  | .remoteRequest _ | .packetAck _ => false
  | _ => true

/-- Everything that can happen next. A sequencer in focus issues first. While a band is re-formed every access to memory waits
(R368), so that only the end of it and what reaches no memory can happen. -/
def State.agenda (s : State) : List Action :=
  match s.focus with
  | some q => if s.canIssue q then [.issue q] else []
  | none =>
    if s.mapState = 2 then
      .event .hbmMapoutDone :: (match s.host.inputs with | i :: _ => if s.offMemory i then s.nextInput else [] | [] => [])
    else
      ((s.coreEvents ++ s.trellisEvents ++ s.commandEvents).map Action.event) ++ s.nextInput ++
      ((s.busySeqs.filter s.canIssue).map Action.issue)

/-- The action that happens: the only one, or the one that the free choice of this tick names (log 3). -/
def State.choice (s : State) : Option Action :=
  match s.agenda with
  | [] => none
  | [a] => some a
  | l => l[Config.choose s.tick % l.length]?

/-- The state without the input that happens. -/
def State.tookInput (s : State) : State := s.setHost { s.host with inputs := s.host.inputs.drop 1 }

/-- What a sequencer's next word is. -/
inductive NextWord where
  /-- an instruction to run with this sequencer in focus -/
  | instr (i : Instr) (s : State)
  /-- the sequencer waits, or the word has raised its trap -/
  | done (s : State)
  deriving Repr

/-- The address of a clause's last word. -/
def Issue.lastVa (x : Issue) : Nat := x.cl.pc + 8 * x.cl.count

/-- A holding instruction may stand before its clause's final control instruction (R194, step 4 of R76): whether that word must be fetched
first, since no look at it tells what it is. -/
def State.awaitsLast (s : State) (x : Issue) (i : Instr) : Bool :=
  isHolding i && x.cl.mac.isNone && x.cl.index + 2 == x.cl.count && (s.peekWord x.core x.wg.ctx x.lastVa).isNone

/-- A fetched instruction runs. A holding one whose clause's last word must be fetched waits for that word's page (R77), and has its trap
where that fetch has one (log 76). -/
def State.runWord (s : State) (q : Nat) (x : Issue) (word : DWord) (i : Instr) : NextWord :=
  if s.awaitsLast x i then
    match s.fetch x.w x.wg.ctx x.lastVa with
    | .word s _ => .instr i { s.keepBody x.w [] with focus := some q }
    | .wait s => .done (s.keepBody x.w [word])
    | .trap s cause => .done ((s.keepBody x.w []).raiseTrap x cause (BitVec.ofNat 64 x.lastVa) x.cl.lanes 0)
  else .instr i { (if isHolding i then s.keepBody x.w [] else s) with focus := some q }

/-- The next instruction of a sequencer's clause or expansion, fetched and decoded (R22, R77, R90, R190). An MDEF whose body is not complete
goes on (R189), as does a holding instruction that has waited for its clause's last word. -/
def State.nextWord (s : State) (q : Nat) : NextWord :=
  match (s.seq q).active with
  | none => .done s
  | some w =>
    match s.issueOf w with
    | none => .done s
    | some x =>
      let va := x.cl.pc + 8 * (x.cl.index + 1)
      let decoded (s : State) (word : DWord) : NextWord :=
        match decode word with
        | .ok i => s.runWord q x word i
        | .error _ => .done (s.raiseTrap x 1 0 x.cl.lanes 0)
      match x.cl.mac with
      | some m => decoded s (m.ops.getD m.next 0)
      | none =>
        match (s.seq q).body with
        | word :: _ => decoded s word
        | [] =>
          match s.fetch w x.wg.ctx va with
          | .word s word => decoded s word
          | .wait s => .done s
          | .trap s cause => .done (s.raiseTrap x cause (BitVec.ofNat 64 va) x.cl.lanes 0)

/-- The clocks of the action of this tick: every unit that counts clocks counts at least one (R5, log 3). -/
def State.clocksNow (s : State) : Nat := 1 + Config.clocks s.tick

/-- The unit that counts a leaf's stalls: a core for its dispatch and tile leaves (R327), else the leaf's own engine. -/
def leafUnit (l : Nat) : Nat := if l < 384 then l % 192 else l

/-- A leaf's stall counts after a step of some clocks (R312, R316, R327): a head that is admitted and not decanted counts in both. -/
def State.stallCount (s : State) (n : Nat) (l : Nat) (y : Leaf) : Leaf :=
  match s.headOf l with
  | none => y
  | some (_, i, x) =>
    if s.canPop l i x then y
    else { y with
      hstall := y.hstall + BitVec.ofNat 64 n
      dstall := if l < 192 && !s.isDecanted x && s.admitsItem i l x then y.dstall + BitVec.ofNat 64 n else y.dstall }

/-- The stall counts of every leaf. -/
def State.countStalls (s : State) : State :=
  if s.trl.leaves.all fun p => p.2.entries.isEmpty then s
  else s.setTrl { s.trl with
    leaves := s.trl.leaves.map fun (p : Nat × Leaf) => (p.1, s.stallCount (s.clocksNow + Config.ownClocks (leafUnit p.1) s.tick) p.1 p.2) }

/-- Lanes of a register in its pool become uncorrectable. -/
def Wave.markLanes (x : Wave) (f : RegFile) (n : Nat) (m : Mask) : Wave :=
  match x.reg? f n with
  | some r => if r.home.phys?.isSome then x.setReg f n { r with poison := r.poison ||| (m &&& ~~~r.released) } else x
  | none => x

/-- Whether a cache holds every byte of a granule, so that what becomes of memory's bytes does not show there. -/
def State.holdsGranule (s : State) (g : Nat) (h : Holder) : Bool :=
  (List.range 32).all fun k => s.mem.narrow.any fun n => n.pa == 32 * g + k && n.holder == h

/-- A granule of HBM is found uncorrectable: it is marked, and the error log says so (R351, R433). -/
def State.markGranule (s : State) (g : Nat) : State :=
  match s.target (32 * g) with
  | .hbm off =>
    if 32 * g ≥ 2 ^ 52 || s.absent off || s.mem.poisoned.contains g then s
    else (s.setMem { s.mem with
        poisoned := s.mem.poisoned ++ [g]
        narrow := s.mem.narrow.map fun n => if n.pa / 32 == g && s.holdsGranule g n.holder then { n with span := max 32 n.span } else n }
      ).countError.logError 1 (frameOwner (s.frameOf (32 * g))) (32 * g)
  | _ => s

/-- The next error that ECC cannot correct comes about (R351, R375, log 69). -/
def State.softErrors (s : State) : State :=
  match s.host.upsets with
  | .granule g :: rest => (s.setHost { s.host with upsets := rest }).markGranule g
  | .lanes w f n m :: rest => ((s.setHost { s.host with upsets := rest }).updWave w fun x => x.markLanes f n m).countError
  | _ => s

/-- What every step does last: the next error that ECC cannot correct comes about, DRAM requests of its action arrive, watched
words are looked at, complete packets take their places, waves that were let pass and are not ready any more are forgotten (R186),
stalls are counted, blocked top nodes noted, nothing is in focus, and a tick has passed. -/
def State.settled (s : State) (r : List Requester) : State :=
  let s := ((s.softErrors.dramArrivals r).wakeWatches.reapPackets.prunePassing).countStalls.noteTops
  { s with tick := s.tick + 1, clocks := s.clocks + BitVec.ofNat 64 s.clocksNow, focus := none }

/-- The state after an outcome, settled. -/
def settleOutcome (r : List Requester) (o : Host.Outcome State Fault Refusal) : Host.Outcome State Fault Refusal :=
  match o with
  | .next s => .next (s.settled r)
  | .fault f => .fault f
  | .refused r => .refused r

/-! Placing a word where the next step fetches it. -/

/-- The clause class in whose only position an opcode may stand (R75). -/
def fittingClass (op : Nat) : Nat := opClass op

/-- The address of the clause that `placeWord` uses. -/
def slotPc : Nat := 0x10000

/-- A workgroup of one wave with a full footprint. -/
def slotWg : Wg :=
  { core := 0, wgid := 0, member := 0, launch := 0, ctx := 0, task := false, depth := 0, spawnOp := none, cls := 0, carve := 0,
    overcommit := 16, det := false, prot := false,
    borrower := false, vregs := 256, sregs := 64, nwaves := 1, waves := [some 0],
    grp := List.replicate 32 0, claims := List.replicate 32 none, tlsel := List.replicate 8 0, levels := List.replicate 8 0,
    extents := [32, 1, 1, 1, 1, 1, 1, 1], nlevels := 2, seed := 0, spadBase := 0, spadSize := 0, bar := [], barc := [],
    ticket := false, killed := false, words := [], leafRank := 0, leafOrder := 0, switching := false }

/-- A wave in the middle of a clause of one instruction. -/
def slotWave (wg op : Nat) : Wave :=
  { wg := wg, waveId := 0, v := [], s := [], window := [], preds := List.replicate 7 0, ll := [], frontier := [],
    handlers := [], sticky := 0, trapen := 0, inTrap := false, queued := none, trap := ⟨0, 0, 0, 0, 0⟩, spills := 0,
    retired := 0, weight := none, watch := none, hold := none, stall := none, passing := [], pause := none,
    due := []
    clause := some
      { pc := slotPc, cls := fittingClass op, count := 1, setA := 15, setB := 15, prio := 0, index := 0, lanes := allLanes,
        handler := false, mac := none, failed := false, addrs := [] } }

/-- The state with a wave on core 0 whose sequencer fetches the word next (log 14). -/
def State.placeWord (s : State) (word : DWord) : State :=
  let op := word.fld 56 8
  let r := s.fresh
  let s := r.2.setWg r.1 slotWg
  let s := s.setWave 0 (slotWave r.1 op)
  let s := s.setSeq 0 { Seq.reset with active := some 0 }
  let words := lset (List.replicate 16 (0 : DWord)) 1 word
  let rest := s.mem.icache.filter fun l => !(l.cluster == 0 && l.ctx == 0 && l.line == slotPc / 128)
  let s := s.setMem { s.mem with icache := ⟨0, 0, slotPc / 128, some words, [], true, false⟩ :: rest }
  { s with focus := some 0 }

end Sys2Proof.Machine
end

