-- ==== Sys2Proof/Machine/Caches.lean ====
section
/-! DEFINITION. Line locks and cache maintenance (spec/07 R207, R208, spec/12 R350). -/

namespace Sys2Proof.Machine

/-- A physical line's address among the lines of 128 bytes. -/
def Loc.line? : Loc → Option Nat
  | .mem pa _ => some (pa / 128)
  | _ => none

/-- Whether a line cannot be locked: its page is uncacheable or its memory is not this package's (R207). -/
def State.notCacheable (s : State) (c : Loc) : Bool :=
  match c with
  | .mem pa u => u || (match s.target pa with | .hbm _ => false | _ => true)
  | _ => true

/-- Lines that a context holds locked on a die (USED_A, USED_B). -/
def State.locksUsed (s : State) (ctx die : Nat) : Nat :=
  (s.mem.locks.filter fun k => k.ctx == ctx && k.die == die).length

/-- Lines locked by any context in the set of a line's slice on a die (R350, log 11). -/
def State.setLocked (s : State) (die line : Nat) : Nat :=
  let slot (x : Nat) : Nat × Nat := (x % 48, Config.l2Set x % 1024)
  (((s.mem.locks.filter fun k => k.die == die && slot k.line == slot line).map (·.line)).eraseDups).length

/-- One lane of LLOCK: the state and its status (R207). -/
def State.lockLine (s : State) (ctx die : Nat) (c : Loc) : State × Nat :=
  if s.notCacheable c then (s, 3)
  else
    match c.line? with
    | none => (s, 3)
    | some line =>
      if s.mem.locks.contains ⟨ctx, die, line⟩ then (s, 1)
      else if s.locksUsed ctx die ≥ (s.ctx ctx).quota then (s, 2)
      else if s.setLocked die line ≥ 8 && !(s.mem.locks.any fun k => k.die == die && k.line == line) then (s, 4)
      else (s.setMem { s.mem with locks := s.mem.locks ++ [⟨ctx, die, line⟩] }, 0)

/-- The lanes of LLOCK in ascending order, each with its status. -/
def State.lockLanes (s : State) (ctx die : Nat) : List LaneLoc → State × List (Nat × Nat)
  | [] => (s, [])
  | p :: l =>
    let r := s.lockLine ctx die p.loc
    let t := r.1.lockLanes ctx die l
    (t.1, (p.lane, r.2) :: t.2)

/-- The access of an instruction that names a line (R197: Align 1). -/
def Issue.lineAccess (x : Issue) (i : Instr) (f : M) (e : Mask) (dsts : List (RegFile × Nat)) : Access :=
  ⟨.global, ⟨true, false, false⟩, 1, 1, false, x.addrReads i f e, dsts⟩

/-- LLOCK (R207). -/
def execLlock (f : M) (s : State) : Host.Outcome State Fault Refusal :=
  s.run (.llock f) f.g fun x e =>
    s.access x e (x.lineAccess (.llock f) f e (dataRegs f.data.toNat 1)) (s.laneAddrs x (.llock f) f e)
      (x.addrRels (.llock f) f)
      fun s l =>
        let r := s.lockLanes x.wg.ctx (dieOfCore x.core) l
        .done r.1 0 [.later (LLOp.of (x.laneWrites f.data.toNat 1 (lanesOf l) r.2))]

/-- LUNLK (R207): a line that the context does not hold stays as it is. -/
def execLunlk (f : M) (s : State) : Host.Outcome State Fault Refusal :=
  s.run (.lunlk f) f.g fun x e =>
    s.access x e (x.lineAccess (.lunlk f) f e []) (s.laneAddrs x (.lunlk f) f e) (x.addrRels (.lunlk f) f)
      fun s l =>
        let lines := l.filterMap fun p => p.loc.line?
        .done (s.setMem { s.mem with locks := s.mem.locks.filter fun k =>
          !(k.ctx == x.wg.ctx && k.die == dieOfCore x.core && lines.contains k.line) }) 0 []

/-- Write a line back from every cache that the scope's agents do not share (R208). -/
def State.flushLine (s : State) (scope : Nat) (c : Loc) : State :=
  match c.line? with
  | some line => s.widenAll (fun n => n.pa / 128 == line) scope
  | none => s

/-- CFLUSH (R208). -/
def execCflush (f : M) (s : State) : Host.Outcome State Fault Refusal :=
  s.run (.cflush f) f.g fun x e =>
    s.access x e (x.lineAccess (.cflush f) f e []) (s.laneAddrs x (.cflush f) f e) (x.addrRels (.cflush f) f)
      fun s l => .done (l.foldl (fun s p => s.flushLine f.scope.toNat p.loc) s) 0 []

/-- The instruction caches within a scope around a core lose the lines that they hold (R77, R208); a line on its way arrives
with what memory then holds. -/
def State.dropCode (s : State) (core scope : Nat) : State :=
  let mine (cluster : Nat) : Bool :=
    if scope ≤ 2 then cluster == clusterOfCore core else if scope = 3 then cluster / 8 == dieOfCore core else true
  s.setMem { s.mem with icache := s.mem.icache.filter fun l => !(mine l.cluster && l.words.isSome) }

/-- CINV (R208). At CLUSTER scope or wider it also invalidates in the instruction cache. -/
def execCinv (f : M) (s : State) : Host.Outcome State Fault Refusal :=
  s.run (.cinv f) f.g fun x e =>
    s.access x e (x.lineAccess (.cinv f) f e []) (s.laneAddrs x (.cinv f) f e) (x.addrRels (.cinv f) f)
      fun s l =>
        let s := l.foldl (fun s p => s.flushLine f.scope.toNat p.loc) s
        .done (if f.scope.toNat ≥ 2 && !l.isEmpty then s.dropCode x.core f.scope.toNat else s) 0 []

end Sys2Proof.Machine
end

