-- ==== Sys2Proof/Machine/Compare.lean ====
section
/-! DEFINITION. The compare, select and predicate instructions (spec/05 R155 to R158). -/

namespace Sys2Proof.Machine

/-- ICMP (R155). -/
def execIcmp (f : VR) (s : State) : Host.Outcome State Fault Refusal := s.alu (.icmp f) f (aluCmp f) false

/-- NCMP (R155). -/
def execNcmp (f : VR) (s : State) : Host.Outcome State Fault Refusal := s.alu (.ncmp f) f (aluCmp f) false

/-- FCMP (R155). -/
def execFcmp (f : VR) (s : State) : Host.Outcome State Fault Refusal := s.alu (.fcmp f) f (aluFcmp f) false

/-- The predicate that a source field names (R156 to R158, R167). -/
def Issue.srcPred (x : Issue) (a : Src) : Mask := x.wave.pred (a.num.toNat % 8)

/-- SEL (R156): by the lane's bit of pK on the vector path, by pK ≠ 0 on the scalar path. -/
def planSel (f : VR) (s : State) (x : Issue) (e : Mask) : Plan :=
  let p := x.srcPred f.c
  let scalar := f.dk == .scl || f.dk == .grp
  let pick (l : Nat) : Nat × Sticky :=
    (if (if scalar then p != 0 else p.getLsbD l) then s.opnd x f.ty f.a l else s.opnd x f.ty f.b l, 0)
  ⟨f.ty, x.srcReads f.ty f.a e ++ x.srcReads f.ty f.b e, x.srcRels f.ty f.a e ++ x.srcRels f.ty f.b e, e, laneResults f e pick⟩

/-- SEL. -/
def execSel (f : VR) (s : State) : Host.Outcome State Fault Refusal := s.vr (.sel f) f false (planSel f)

/-- PLOP (R157): the table's bit that the three predicates name. -/
def planPlop (f : VR) (_ : State) (x : Issue) (e : Mask) : Plan :=
  let k (l : Nat) : Nat :=
    bit1 ((x.srcPred f.a).getLsbD l) + 2 * bit1 ((x.srcPred f.b).getLsbD l) + 4 * bit1 ((x.srcPred f.c).getLsbD l)
  ⟨.n32, [], [], e, laneIds.map fun l => (bitsOf f.table (k l) 1, 0)⟩

/-- PLOP. -/
def execPlop (f : VR) (s : State) : Host.Outcome State Fault Refusal := s.vr (.plop f) f false (planPlop f)

/-- PMOV (R158): a word's bits to a predicate, a predicate as a word or as 0 and 1 by lane, or words that are not 0. -/
def planPmov (f : VR) (s : State) (x : Issue) (e : Mask) : Plan :=
  let reads := x.srcReads .n32 f.a e
  let rels := x.srcRels .n32 f.a e
  let a := s.opnd x .n32 f.a
  match f.sub.toNat with
  | 0 => ⟨.n32, reads, rels, e, laneIds.map fun l => (bitsOf (a l) l 1, 0)⟩
  | 1 => ⟨.n32, [], [], e, laneIds.map fun _ => ((x.srcPred f.a).toNat, 0)⟩
  | 2 => ⟨.n32, [], [], e, laneIds.map fun l => (bit1 ((x.srcPred f.a).getLsbD l), 0)⟩
  | _ => ⟨.n32, reads, rels, e, laneIds.map fun l => (bit1 (a l % 2 ^ 32 != 0), 0)⟩

/-- PMOV. -/
def execPmov (f : VR) (s : State) : Host.Outcome State Fault Refusal := s.vr (.pmov f) f false (planPmov f)

end Sys2Proof.Machine
end

