-- ==== Sys2Proof/Machine/Control.lean ====
section
/-! DEFINITION. The control instructions (spec/06 R178 to R188) and macros (R189 to R191, spec/03 R92 to R95). -/

namespace Sys2Proof.Machine

/-- The address that a signed word offset names from the clause's header (R84). R14 gives a PC 60 bits and no rule says what an
offset beyond them gives: the sum is kept modulo 2^64, and fetching it is the trap of its translation (log 71). -/
def Issue.targetOf (x : Issue) (off : BitVec 32) : Nat := (BitVec.ofInt 64 ((x.cl.pc : Int) + 8 * off.toInt)).toNat

/-- The lanes of the entry that are neither parked nor in EXEC (R179). -/
def Issue.rest (x : Issue) (e : Mask) : Mask := x.cl.lanes &&& ~~~e

/-- A control instruction retires and its lanes move: those of EXEC as `moves` says, the rest to the next clause (R179). -/
def State.move (s : State) (x : Issue) (e : Mask) (uses : List Read) (rels : List Rel) (puts : List Put) (st : Sticky)
    (moves : List (Nat × Mask)) : State :=
  (s.retire x uses rels puts st).endClause x.w (moves ++ [(x.cl.nextPc, x.rest e)])

/-- NOP (R182). -/
def execNop (f : B) (s : State) : Host.Outcome State Fault Refusal :=
  s.run (.nop f) f.g fun x _ => s.gated x [] [] fun st => s.finish x [] [] [] st

/-- BRA (R180). -/
def execBra (f : B) (s : State) : Host.Outcome State Fault Refusal :=
  s.run (.bra f) f.g fun x e => s.gated x [] [] fun st => s.move x e [] [] [] st [(x.targetOf f.off, e)]

/-- CALL (R180): the address of the next clause goes to the link pair. -/
def execCall (f : B) (s : State) : Host.Outcome State Fault Refusal :=
  s.run (.call f) f.g fun x e =>
    let n := f.link.toNat
    let next := x.cl.nextPc
    s.gated x [] [(.vec, n), (.vec, n + 1)] fun st =>
      s.move x e [] [] [.vec n e (mkLanes fun _ => BitVec.ofNat 32 next),
        .vec (n + 1) e (mkLanes fun _ => BitVec.ofNat 32 (next / 2 ^ 32 % 2 ^ 28))] st [(x.targetOf f.off, e)]

/-- The lanes grouped by target, each group one move (R181). -/
def groupTargets (tgt : Nat → Nat) (e : Mask) : List (Nat × Mask) :=
  ((lanesIn e).map tgt).eraseDups.map fun t => (t, maskOf fun l => e.getLsbD l && tgt l == t)

/-- A branch to each lane's own target, with the checks of R181 in order. -/
def State.branchEach (s : State) (x : Issue) (e : Mask) (n : Nat) (last : Bool) (add : Int) : State :=
  let tgt (l : Nat) : Nat := wrapInt 64 ((s.vecVal x n true l : Int) + add)
  let reads := x.vecReads n 2 e []
  let rels := if last then (reads.map fun r => ⟨.vec, r.reg, e⟩ : List Rel) else []
  s.gated x reads [] fun st =>
    let mis := maskOf fun l => e.getLsbD l && tgt l % 8 != 0
    let bad := maskOf fun l => e.getLsbD l && (tgt l == 0 || tgt l ≥ 2 ^ 60)
    if mis != 0 then s.raiseTrap x 3 (BitVec.ofNat 64 (tgt (lowestLane mis))) mis 0
    else if bad != 0 then s.raiseTrap x 5 (BitVec.ofNat 64 (tgt (lowestLane bad))) bad 0
    else s.move x e reads rels [] st (groupTargets tgt e)

/-- BRX (R181). -/
def execBrx (f : B) (s : State) : Host.Outcome State Fault Refusal :=
  s.run (.brx f) f.g fun x e => s.branchEach x e f.link.toNat f.last (8 * f.off.toInt)

/-- RET (R181). -/
def execRet (f : B) (s : State) : Host.Outcome State Fault Refusal :=
  s.run (.ret f) f.g fun x e => s.branchEach x e f.link.toNat f.last 0

/-- JOIN (R183): the lanes of EXEC stand in a JOINED entry at the clause's header. -/
def execJoin (f : B) (s : State) : Host.Outcome State Fault Refusal :=
  s.run (.join f) f.g fun x e =>
    s.gated x [] [] fun st =>
      let s := s.move x e [] [] [] st []
      (s.updWave x.w fun y => { y with frontier := y.frontier ++ [{ x.cl.entry e .joined none with mac := none }] }).checkJoins
        x.w

/-- EXIT (R185). -/
def execExit (f : B) (s : State) : Host.Outcome State Fault Refusal :=
  s.run (.exit f) f.g fun x e =>
    s.gated x [] [] fun st => (s.move x e [] (x.wave.exitRels e) [] st []).exitLanes x.w e

/-- YIELD (R186): the other ready waves of the sequencer go first, and the wave is not ready for n clocks. In deterministic
mode and in a handler it acts as NOP. -/
def execYield (f : B) (s : State) : Host.Outcome State Fault Refusal :=
  s.run (.yield f) f.g fun x _ =>
    s.gated x [] [] fun st =>
      let s := s.finish x [] [] [] st
      if x.cl.handler || x.wg.det then s
      else
        let others := (s.waves.filter fun p => p.1 != x.w && seqOfWave p.1 == seqOfWave x.w && s.ready p.1).map (·.1)
        s.updWave x.w fun y => { y with
          passing := others, pause := if f.off == 0 then none else some (s.coreClock x.core + f.off.zeroExtend 64) }

/-- TRAP (R187): SOFTWARE; a NOP in a handler. -/
def execTrap (f : B) (s : State) : Host.Outcome State Fault Refusal :=
  s.run (.trap f) f.g fun x e =>
    s.gated x [] [] fun st => if x.cl.handler then s.finish x [] [] [] st else s.raiseTrap x 9 0 e 0

/-- BRKPT (R187): BREAK; a NOP in a handler. -/
def execBrkpt (f : B) (s : State) : Host.Outcome State Fault Refusal :=
  s.run (.brkpt f) f.g fun x e =>
    s.gated x [] [] fun st => if x.cl.handler then s.finish x [] [] [] st else s.raiseTrap x 0x0D 0 e 0

/-- RETT (R188). With its mode 2 the lanes of the TRAPPED entry are released at its retirement. -/
def execRett (f : B) (s : State) : Host.Outcome State Fault Refusal :=
  s.run (.rett f) f.g fun x _ =>
    let rels := match x.wave.frontier.find? fun e => e.st == .trapped with
      | some e => if f.off.toNat ≥ 2 then x.wave.exitRels e.mask else []
      | none => []
    s.gated x [] [] fun st => (s.retire x [] rels [] st).returnTrap x f.off.toNat

/-! Macros. -/

/-- Whether a word may stand in a macro body (R92): an assigned opcode of classes 0 to 2. -/
def macroWordOk (w : DWord) : Bool :=
  w.fld 56 8 ≥ 0x10 && match decode w with | .ok _ => true | .error _ => false

/-- What fetching the words of a body gives: the words, or where the fetch stops (R189). -/
inductive BodyFetch where
  | words (s : State) (ws : List DWord)
  | wait (s : State) (got : List DWord)
  | trap (s : State) (cause va : Nat)
  deriving Repr

/-- Fetch `n` words from an address, in order, behind those of `acc`. -/
def State.fetchBody (s : State) (w ctx : Nat) : Nat → Nat → List DWord → BodyFetch
  | 0, _, acc => .words s acc
  | n + 1, va, acc =>
    match s.fetch w ctx va with
    | .wait t => .wait t acc
    | .trap t cause => .trap t cause va
    | .word t x => t.fetchBody w ctx n (va + 8) (acc ++ [x])

/-- MDEF (R189, R92). -/
def execMdef (f : B) (s : State) : Host.Outcome State Fault Refusal :=
  s.run (.mdef f) f.g fun x e =>
    s.gated x [] [] fun st =>
      let got := (s.seq (seqOfWave x.w)).body.drop 1
      match s.fetchBody x.w x.wg.ctx (bitsOf f.mid.toNat 6 5 + 1 - got.length) (x.targetOf f.off + 8 * got.length) got with
      | .wait t l => t.keepBody x.w (encode (.mdef f) ++ l)
      | .trap t cause va => (t.keepBody x.w []).raiseTrap x cause (BitVec.ofNat 64 va) e 0
      | .words s ws =>
        let s := s.keepBody x.w []
        if !ws.all macroWordOk then s.raiseTrap x 0x0E 0 e 0
        else
          (s.updCore x.core fun c => { c with macros := tput c.macros f.link.toNat ⟨x.wg.launch, ws⟩ }).finish x [] [] [] st

/-- Kind and number of parameter `k` of an MCALL (R84). -/
def macroParam (f : B) (k : Nat) : Nat × Nat := (bitsOf f.mid.toNat (2 * k) 2, bitsOf f.off.toNat (8 * k) 8)

/-- One 11-bit source field of a body word after substitution: kind and number of Pk, the body's L bit (R95). -/
def substSrc (f : B) (w : DWord) (lo : Nat) : DWord :=
  let k := w.fld lo 8
  if w.fld (lo + 9) 2 = 3 && 0xF8 ≤ k && k ≤ 0xFB then
    let p := macroParam f (k - 0xF8)
    (w.setFld (lo + 9) 2 p.1).setFld lo 8 p.2
  else w

/-- The bit positions of the fields that an operation reads as 11-bit sources of one of the four kinds (R95). -/
def substFields (i : Instr) : List Nat :=
  match shapeOf i, vrOf i with
  | some sh, some _ =>
    (if sh.a.ty?.isSome then [31] else []) ++ (if sh.b.ty?.isSome then [20] else []) ++ (if sh.c.ty?.isSome then [9] else [])
  | _, _ =>
    match mShapeOf i with
    | some (sh, _) => (if sh.base == .omitted then [] else [32]) ++ (if sh.index == .omitted then [] else [21])
    | none => match i with
      | .wrsr _ | .gwr _ => [33]
      | _ => []

/-- The fixed file, as a kind, of an operation's register field [51:44], if it has one (R95). -/
def fixedFile (i : Instr) : Option Nat :=
  match i with
  | .movi _ => some 0
  | .rdsr f => some (f.imm.toNat % 2)
  | .gwr _ | .gclaim _ => some 2
  | .rdclk _ => some 1
  | .relr f => if bitsOf f.imm.toNat 18 2 < 2 then some (bitsOf f.imm.toNat 18 2) else none
  | i => match mShapeOf i with
    | some (sh, _) => (match sh.data with
      | .vec _ _ _ _ => some 0
      | .scl _ _ _ _ => some 1
      | _ => none)
    | none => none

/-- A body word after substitution; none where a destination's kind is refused (R95). -/
def substWord (f : B) (w : DWord) : Option DWord :=
  match decode w with
  | .error _ => some w
  | .ok i =>
    let w := (substFields i).foldl (substSrc f) w
    match vrOf i with
    | some _ =>
      let n := w.fld 42 8
      if 248 ≤ n && n ≤ 251 then
        let p := macroParam f (n - 248)
        if p.1 = 3 then none else some ((w.setFld 50 2 p.1).setFld 42 8 p.2)
      else some w
    | none =>
      match fixedFile i with
      | some k =>
        let n := w.fld 44 8
        if 248 ≤ n && n ≤ 251 then
          let p := macroParam f (n - 248)
          if p.1 = k then some (w.setFld 44 8 p.2) else none
        else some w
      | none => some w

/-- A whole body after substitution. -/
def substBody (f : B) : List DWord → Option (List DWord)
  | [] => some []
  | w :: l =>
    match substWord f w, substBody f l with
    | some a, some b => some (a :: b)
    | _, _ => none

/-- The operations of an MCALL's expansion (R93): none where it raises MACRO. -/
def Core.expansion (c : Core) (f : B) (launch : Nat) : Option (List DWord) :=
  match tget c.macros f.link.toNat with
  | some m => if m.launch = launch then substBody f m.ops else none
  | none => none

/-- MCALL (R190): it retires, and the clause goes on with the first operation of its expansion. -/
def execMcall (f : B) (s : State) : Host.Outcome State Fault Refusal :=
  s.run (.mcall f) f.g fun x e =>
    s.gated x [] [] fun st =>
      match (s.core x.core).expansion f x.wg.launch with
      | none => s.raiseTrap x 0x0E 0 e 0
      | some ops =>
        let s := s.retire x [] [] [] st
        let s := s.updWave x.w fun y => { y with clause := some { x.cl with mac := some ⟨ops, 0, e⟩, failed := false, addrs := [] } }
        if s.allocating x.w then s.letWait x.w else s

end Sys2Proof.Machine
end

