-- ==== Sys2Proof/Machine/Conversion.lean ====
section
/-! DEFINITION. The conversion and narrow-format instructions (spec/05 R146 to R154). -/

namespace Sys2Proof.Machine

/-- CVT (R146, R147). -/
def execCvt (f : VR) (s : State) : Host.Outcome State Fault Refusal := s.alu (.cvt f) f (aluCvt f) false

/-- CVTSR (R148). -/
def execCvtsr (f : VR) (s : State) : Host.Outcome State Fault Refusal := s.alu (.cvtsr f) f (aluCvtsr f) false

/-- FDOT2 (R149). -/
def execFdot2 (f : VR) (s : State) : Host.Outcome State Fault Refusal := s.alu (.fdot2 f) f (aluFdot2 f) false

/-! Lane groups (R150). A lane's result here is its value with the bits that it sets; each bit belongs to the lane whose
element set it. -/

/-- The lanes of the group of `n` lanes that holds lane `l`. -/
def groupLanes (n l : Nat) : List Nat := (List.range n).map fun j => l / n * n + j

/-- QAMAX over the lanes of a group that are in EXEC (R151). -/
def qamaxLane (e : Mask) (n : Nat) (v : Nat → Nat) (l : Nat) : Nat × Sticky :=
  let xs := ((groupLanes n l).filter fun k => e.getLsbD k).map fun k => decodeFloat fp32 (v k)
  ((convertFloat fp32 .rne false (xs.foldl maxAbs (.fin false 0 0))).1,
   stickyIf (isSigNum (decodeFloat fp32 (v l))) .invalid)

/-- QAMAX (R151). -/
def planQamax (f : VR) (s : State) (x : Issue) (e : Mask) : Plan :=
  let n := if f.sub == 0 then 16 else 32
  ⟨.f32, x.srcReads .f32 f.a e, x.srcRels .f32 f.a e, e,
    laneIds.map fun l => if e.getLsbD l then qamaxLane e n (s.opnd x .f32 f.a) l else (0, 0)⟩

/-- QAMAX. -/
def execQamax (f : VR) (s : State) : Host.Outcome State Fault Refusal := s.vr (.qamax f) f false (planQamax f)

/-- QSCALE (R152). -/
def execQscale (f : VR) (s : State) : Host.Outcome State Fault Refusal :=
  s.alu (.qscale f) f (fun a _ _ => match fmtOf f.ty with
    | some m => (blockScale m [decodeFloat fp32 (a % 2 ^ 32)], 0)
    | none => (0, 0)) false

/-- The elements of a packed word of a narrow type: how many, and the bits of each (R150, R153). -/
def packShape (t : Ty) : Nat × Nat := if t == .e2m1 then (8, 4) else (4, 8)

/-- The packed word of a group of E-format elements, `el` giving element and bits by lane (R153). -/
def packWord (t : Ty) (el : Nat → Nat × Sticky) (l : Nat) : Nat :=
  let p := packShape t
  ((List.range p.1).map fun j => (el (l + j)).1 % 2 ^ p.2 * 2 ^ (p.2 * j)).sum

/-- The Q4E block of a group (R153). -/
def packBlock (e : Mask) (v : Nat → Nat) (l : Nat) : List Nat × Sticky :=
  q4eEncode ((groupLanes 16 l).map fun k => if e.getLsbD k then decodeFloat fp32 (v k) else .fin false 0 0)

/-- QPACK (R153). The bits that a Q4E block sets are counted in its first lane of EXEC. -/
def planQpack (f : VR) (s : State) (x : Issue) (e : Mask) : Plan :=
  let a := s.opnd x .f32 f.a
  let b := s.opnd x .n32 f.b
  match fmtOf f.ty with
  | some m =>
    let el (k : Nat) : Nat × Sticky :=
      if e.getLsbD k then quantiseElement m (b k % 256) (decodeFloat fp32 (a k)) else (0, 0)
    let n := (packShape f.ty).1
    ⟨.n32, x.srcReads .f32 f.a e ++ x.srcReads .n32 f.b e, x.srcRels .f32 f.a e ++ x.srcRels .n32 f.b e, e,
      laneIds.map fun l => (if l % n = 0 then packWord f.ty el l else 0, (el l).2)⟩
  | none =>
    let lane (l : Nat) : Nat × Sticky :=
      let r := packBlock e a l
      let i := l % 16
      let first := ((groupLanes 16 l).find? fun k => e.getLsbD k) == some l
      (if i < 5 then r.1.getD (2 * i) 0 + 256 * r.1.getD (2 * i + 1) 0 else 0, if first then r.2 else 0)
    ⟨.n32, x.srcReads .f32 f.a e, x.srcRels .f32 f.a e, e, laneIds.map lane⟩

/-- QPACK. -/
def execQpack (f : VR) (s : State) : Host.Outcome State Fault Refusal := s.vr (.qpack f) f false (planQpack f)

/-- The lanes of A that QUNPK reads for the lanes of EXEC, whatever EXEC holds (R154). -/
def unpackLanes (t : Ty) (e : Mask) : Mask :=
  if t == .q4e then maskOf fun k => k % 16 < 5 && (groupLanes 16 k).any fun l => e.getLsbD l
  else
    let n := (packShape t).1
    maskOf fun k => k % n == 0 && (groupLanes n k).any fun l => e.getLsbD l

/-- Each lane of EXEC with the lanes of A that it reads (R53, R154). -/
def unpackVia (t : Ty) (e : Mask) : List (Nat × Nat) :=
  ((lanesIn e).map fun l =>
    if t == .q4e then (List.range 5).map fun i => (l, l / 16 * 16 + i)
    else [(l, l / (packShape t).1 * (packShape t).1)]).flatten

/-- QUNPK (R154). FMTERR of a Q4E block is counted in every lane of EXEC of its group. -/
def planQunpk (f : VR) (s : State) (x : Issue) (e : Mask) : Plan :=
  let a := s.opnd x .n32 f.a
  let b := s.opnd x .n32 f.b
  let reads := (x.srcReads .n32 f.a (unpackLanes f.ty e)).map fun r => ({ r with readers := e, via := unpackVia f.ty e } : Read)
  match fmtOf f.ty with
  | some m =>
    let p := packShape f.ty
    let lane (l : Nat) : Nat × Sticky :=
      convertFloat fp32 f.rnd f.sat (scaledElem m (b l % 256) (bitsOf (a (l / p.1 * p.1)) (l % p.1 * p.2) p.2))
    ⟨.f32, reads ++ x.srcReads .n32 f.b e, x.srcRels .n32 f.a e ++ x.srcRels .n32 f.b e, e,
      laneIds.map fun l => if e.getLsbD l then lane l else (0, 0)⟩
  | none =>
    let lane (l : Nat) : Nat × Sticky :=
      let base := l / 16 * 16
      let bytes := ((List.range 5).map fun i => [a (base + i) % 256, a (base + i) / 256 % 256]).flatten
      let r := q4eDecode bytes
      let y := convertFloat fp32 f.rnd f.sat (r.1.getD (l % 16) (.fin false 0 0))
      (y.1, y.2 ||| stickyIf r.2 .fmterr)
    ⟨.f32, reads, x.srcRels .n32 f.a e, e, laneIds.map fun l => if e.getLsbD l then lane l else (0, 0)⟩

/-- QUNPK. -/
def execQunpk (f : VR) (s : State) : Host.Outcome State Fault Refusal := s.vr (.qunpk f) f false (planQunpk f)

end Sys2Proof.Machine
end

