-- ==== Sys2Proof/Machine/CrossLane.lean ====
section
/-! DEFINITION. The cross-lane instructions, reductions and scans (spec/06 R165 to R177). -/

namespace Sys2Proof.Machine

/-- The value of a vector source in a lane, as a cross read takes it (R165). -/
def State.laneVal (s : State) (x : Issue) (t : Ty) (a : Src) (k : Nat) : Nat := s.vecVal x a.num.toNat t.is64 k

/-- The reads of a vector source across lanes: each lane of EXEC with the lane it reads (R165). -/
def Issue.crossReads (x : Issue) (t : Ty) (a : Src) (via : List (Nat × Nat)) : List Read :=
  if via.isEmpty then []
  else x.vecReads a.num.toNat (if t.is64 then 2 else 1) (maskOf fun k => via.any fun p => p.2 == k) via

/-- A cross-lane plan: `via` gives the lane that each written lane reads, `m` the lanes written (R165, R166). -/
def planCross (f : VR) (s : State) (x : Issue) (e : Mask) (others : List Read) (rels : List Rel) (m : Mask)
    (via : List (Nat × Nat)) : Plan :=
  let lane (l : Nat) : Nat × Sticky := match via.find? fun p => p.1 == l with
    | some p => (s.laneVal x f.ty f.a p.2, 0)
    | none => (0, 0)
  ⟨f.ty, x.crossReads f.ty f.a via ++ others, x.srcRels f.ty f.a e ++ rels, m, laneIds.map lane⟩

/-- BALLOT (R168). -/
def planBallot (f : VR) (s : State) (x : Issue) (e : Mask) : Plan :=
  let byPred := f.sub == 1
  let vote (l : Nat) : Bool := e.getLsbD l && (if byPred then (x.srcPred f.a).getLsbD l else s.opnd x .n32 f.a l != 0)
  let m := (maskOf vote).toNat
  ⟨.n32, if byPred then [] else x.srcReads .n32 f.a e, if byPred then [] else x.srcRels .n32 f.a e, e,
    laneIds.map fun l => (if f.dk == .pred then bitsOf m l 1 else m, (0 : Sticky))⟩

/-- BALLOT. -/
def execBallot (f : VR) (s : State) : Host.Outcome State Fault Refusal := s.vr (.ballot f) f false (planBallot f)

/-- LRANK (R169): the rank within a mask below, up to or above the lane, offset by b. -/
def planLrank (f : VR) (s : State) (x : Issue) (e : Mask) : Plan :=
  let byPred := f.sub == 1
  let counted (l k : Nat) : Bool := match f.rnd with
    | .rne => k < l
    | .rtz => k ≤ l
    | _ => l < k
  let rank (l : Nat) : Nat × Sticky :=
    let m := if byPred then (x.srcPred f.a).toNat else s.opnd x .n32 f.a l
    (((laneIds.filter fun k => bitOf m k && counted l k).length + s.opnd x .n32 f.b l) % 2 ^ 32, 0)
  ⟨.n32, (if byPred then [] else x.srcReads .n32 f.a e) ++ x.srcReads .n32 f.b e,
    (if byPred then [] else x.srcRels .n32 f.a e) ++ x.srcRels .n32 f.b e, e, laneResults f e rank⟩

/-- LRANK. -/
def execLrank (f : VR) (s : State) : Host.Outcome State Fault Refusal := s.vr (.lrank f) f false (planLrank f)

/-- The lane that SHFL reads for lane `l` (R171). -/
def shflLane (sub l d c : Nat) : Nat :=
  let w := c % 64
  let w := if w = 1 || w = 2 || w = 4 || w = 8 || w = 16 || w = 32 then w else 32
  let base := l - l % w
  match sub with
  | 0 => base + d % w
  | 1 => if d > l - base then l else l - d
  | 2 => if l + d ≥ base + w then l else l + d
  | _ => base + ((l - base) ^^^ (d % w))

/-- SHFL (R171). -/
def planShfl (f : VR) (s : State) (x : Issue) (e : Mask) : Plan :=
  planCross f s x e (x.srcReads .n32 f.b e ++ x.srcReads .n32 f.c e) (x.srcRels .n32 f.b e ++ x.srcRels .n32 f.c e) e
    ((lanesIn e).map fun l => (l, shflLane f.sub.toNat l (s.opnd x .n32 f.b l) (s.opnd x .n32 f.c l)))

/-- SHFL. -/
def execShfl (f : VR) (s : State) : Host.Outcome State Fault Refusal := s.vr (.shfl f) f false (planShfl f)

/-- The lane that BCAST and RDLANE read (R172). -/
def State.pickLane (s : State) (x : Issue) (e : Mask) (f : VR) : Nat :=
  if f.sub == 0 then s.opnd x .n32 f.b 0 % 32 else lowestLane e

/-- BCAST (R172). -/
def planBcast (f : VR) (s : State) (x : Issue) (e : Mask) : Plan :=
  let k := s.pickLane x e f
  let byB := f.sub == 0
  planCross f s x e (if byB then x.srcReads .n32 f.b e else []) (if byB then x.srcRels .n32 f.b e else []) e
    ((lanesIn e).map fun l => (l, k))

/-- BCAST. -/
def execBcast (f : VR) (s : State) : Host.Outcome State Fault Refusal := s.vr (.bcast f) f false (planBcast f)

/-- RDLANE (R172): 32-bit types are zero-extended. -/
def planRdlane (f : VR) (s : State) (x : Issue) (e : Mask) : Plan :=
  let k := s.pickLane x e f
  let byB := f.sub == 0
  ⟨if f.ty.is64 then .n64 else .n32,
    x.crossReads f.ty f.a ((lanesIn e).map fun l => (l, k)) ++ (if byB then x.srcReads .n32 f.b e else []),
    x.srcRels f.ty f.a e ++ (if byB then x.srcRels .n32 f.b e else []), e, [(s.laneVal x f.ty f.a k, 0)]⟩

/-- RDLANE. -/
def execRdlane (f : VR) (s : State) : Host.Outcome State Fault Refusal := s.vr (.rdlane f) f false (planRdlane f)

/-- WRLANE (R173). -/
def planWrlane (f : VR) (s : State) (x : Issue) (e : Mask) : Plan :=
  let k := s.opnd x .n32 f.b 0 % 32
  ⟨f.ty, x.srcReads f.ty f.a e ++ x.srcReads .n32 f.b e, x.srcRels f.ty f.a e ++ x.srcRels .n32 f.b e,
    maskOf fun l => l == k && e.getLsbD l, laneIds.map fun l => (s.opnd x f.ty f.a l, 0)⟩

/-- WRLANE. -/
def execWrlane (f : VR) (s : State) : Host.Outcome State Fault Refusal := s.vr (.wrlane f) f false (planWrlane f)

/-- The mask of COMPRESS and EXPAND (R174). -/
def State.packMask (s : State) (x : Issue) (f : VR) : Mask :=
  if f.sub == 0 then BitVec.ofNat 32 (s.opnd x .n32 f.b 0) else x.srcPred f.b

/-- COMPRESS (R174). -/
def planCompress (f : VR) (s : State) (x : Issue) (e : Mask) : Plan :=
  let sel := lanesIn (s.packMask x f)
  let via := (lanesIn e).filterMap fun l => (sel[l]?).map fun k => (l, k)
  let byB := f.sub == 0
  planCross f s x e (if byB then x.srcReads .n32 f.b e else []) (if byB then x.srcRels .n32 f.b e else [])
    (maskOf fun l => via.any fun p => p.1 == l) via

/-- COMPRESS. -/
def execCompress (f : VR) (s : State) : Host.Outcome State Fault Refusal := s.vr (.compress f) f false (planCompress f)

/-- EXPAND (R174). -/
def planExpand (f : VR) (s : State) (x : Issue) (e : Mask) : Plan :=
  let m := s.packMask x f
  let via := (lanesIn (e &&& m)).map fun l => (l, ((lanesIn m).filter fun k => k < l).length)
  let byB := f.sub == 0
  planCross f s x e (if byB then x.srcReads .n32 f.b e else []) (if byB then x.srcRels .n32 f.b e else []) (e &&& m) via

/-- EXPAND. -/
def execExpand (f : VR) (s : State) : Host.Outcome State Fault Refusal := s.vr (.expand f) f false (planExpand f)

/-- ACTIVE (R170): EXEC, its lanes counted, or its lowest lane. -/
def planActive (f : VR) (_ : State) (_ : Issue) (e : Mask) : Plan :=
  let v := match f.sub.toNat with
    | 0 => e.toNat
    | 1 => popCount e
    | _ => lowestLane e
  ⟨.n32, [], [], e, laneIds.map fun _ => (v, 0)⟩

/-- ACTIVE. -/
def execActive (f : VR) (s : State) : Host.Outcome State Fault Refusal := s.vr (.active f) f false (planActive f)

/-! Reductions and scans. -/

/-- Combine two values by the sub-op (R175): SAT is applied by the caller. -/
def combine (f : VR) (a b : Nat) : Nat × Sticky :=
  match fmtOf f.ty with
  | some m =>
    match f.sub.toNat with
    | 0 => fAdd m f.rnd false a b
    | 1 => fMinMax m false (f.rnd == .rtz) a b
    | _ => fMinMax m true (f.rnd == .rtz) a b
  | none =>
    match f.sub.toNat with
    | 0 => (wrInt f.ty (rdInt f.ty a + rdInt f.ty b), 0)
    | 1 => aluMin f a b 0
    | 2 => aluMax f a b 0
    | _ => aluOr f a b 0

/-- A value by itself: a NaN is made canonical, a signalling one sets INVALID (R177). -/
def aloneValue (t : Ty) (a : Nat) : Nat × Sticky :=
  match fmtOf t with
  | none => (a % 2 ^ tyWidth t, 0)
  | some m =>
    let x := decodeFloat m (bitsOf a 0 (1 + m.eb + m.fb))
    (if isNanNum x then m.nanCode else bitsOf a 0 (1 + m.eb + m.fb), stickyIf (isSigNum x) .invalid)

/-- One level of REDUCE's tree over lane positions; `none` is EMPTY (R175). -/
def reduceLevel (f : VR) : List (Option Nat) → List (Option Nat) × Sticky
  | a :: b :: rest =>
    let r := reduceLevel f rest
    match a, b with
    | none, y => (y :: r.1, r.2)
    | x, none => (x :: r.1, r.2)
    | some x, some y =>
      let c := combine f x y
      (some c.1 :: r.1, r.2 ||| c.2)
  | l => (l, 0)

/-- The tree in `n` levels. -/
def reduceTree (f : VR) : Nat → List (Option Nat) → Option Nat × Sticky
  | 0, l => (l.headD none, 0)
  | n + 1, l =>
    let r := reduceLevel f l
    let t := reduceTree f n r.1
    (t.1, r.2 ||| t.2)

/-- The combined value of the lanes of EXEC (R175). DESIGN CHOICE (log 38): an integer sum that SAT clamps sets SATURATE, as R175 says, though
R167 lets only the float types set a bit. -/
def reduceValue (f : VR) (e : Mask) (v : Nat → Nat) : Nat × Sticky :=
  let alone := (lanesIn e).map fun l => aloneValue f.ty (v l)
  if (fmtOf f.ty).isNone && f.sub == 0 then
    intResult f.ty f.sat ((lanesIn e).map fun l => rdInt f.ty (v l)).sum
  else
    let r := reduceTree f 5 (laneIds.map fun l => if e.getLsbD l then some (aloneInput l) else none)
    ((aloneValue f.ty (r.1.getD 0)).1, r.2 ||| stickyAll (alone.map (·.2)))
where
  /-- the element that enters the tree -/
  aloneInput (l : Nat) : Nat := match fmtOf f.ty with
    | some m => bitsOf (v l) 0 (1 + m.eb + m.fb)
    | none => v l

/-- REDUCE (R175, R177). DESIGN CHOICE (log 38): a node of the tree is no lane, so that an ARITH trap reports every lane of EXEC (R44). -/
def planReduce (f : VR) (s : State) (x : Issue) (e : Mask) : Plan :=
  let r := reduceValue f e (s.laneVal x f.ty f.a)
  ⟨f.ty, x.srcReads f.ty f.a e, x.srcRels f.ty f.a e, e,
    laneIds.map fun l => if e.getLsbD l || f.dk == .scl then r else (0, 0)⟩

/-- REDUCE. -/
def execReduce (f : VR) (s : State) : Host.Outcome State Fault Refusal := s.vr (.reduce f) f false (planReduce f)

/-- The identity of a sub-op in a type (R176). -/
def scanIdentity (f : VR) : Nat :=
  match fmtOf f.ty with
  | some m =>
    match f.sub.toNat with
    | 0 => m.signBit
    | 1 => (convertFloat m .rne false (.inf false)).1
    | _ => (convertFloat m .rne false (.inf true)).1
  | none =>
    match f.sub.toNat with
    | 1 => wrInt f.ty (maxOf f.ty)
    | 2 => wrInt f.ty (minOf f.ty)
    | _ => 0

/-- The prefixes over the lanes of EXEC in ascending order: each lane with its output and bits (R176). -/
def scanLanes (f : VR) (excl : Bool) (v : Nat → Nat) : List Nat → Option Nat → List (Nat × Nat × Sticky)
  | [], _ => []
  | l :: rest, acc =>
    let a := aloneValue f.ty (v l)
    let c : Nat × Sticky := match acc with
      | none => a
      | some y =>
        let r := combine f y (match fmtOf f.ty with | some m => bitsOf (v l) 0 (1 + m.eb + m.fb) | none => v l)
        (r.1, r.2 ||| a.2)
    (l, if excl then acc.getD (scanIdentity f) else c.1, c.2) :: scanLanes f excl v rest (some c.1)

/-- SCAN (R176, R177): bit [2], the SAT bit of other forms, is EXCL. -/
def planScan (f : VR) (s : State) (x : Issue) (e : Mask) : Plan :=
  let r := scanLanes f f.sat (s.laneVal x f.ty f.a) (lanesIn e) none
  let lane (l : Nat) : Nat × Sticky := match r.find? fun p => p.1 == l with
    | some p => p.2
    | none => (0, 0)
  ⟨f.ty, x.srcReads f.ty f.a e, x.srcRels f.ty f.a e, e, laneIds.map lane⟩

/-- SCAN. -/
def execScan (f : VR) (s : State) : Host.Outcome State Fault Refusal := s.vr (.scan f) f false (planScan f)

end Sys2Proof.Machine
end

