-- ==== Sys2Proof/Machine/FloatOps.lean ====
section
/-! DEFINITION. The floating-point instructions (spec/05 R140 to R145); FRCP to FSINCOS are long-latency (R37, R129). -/

namespace Sys2Proof.Machine

/-- FADD (R141). -/
def execFadd (f : VR) (s : State) : Host.Outcome State Fault Refusal := s.alu (.fadd f) f (aluFadd f) false

/-- FSUB (R141). -/
def execFsub (f : VR) (s : State) : Host.Outcome State Fault Refusal := s.alu (.fsub f) f (aluFsub f) false

/-- FMUL (R141). -/
def execFmul (f : VR) (s : State) : Host.Outcome State Fault Refusal := s.alu (.fmul f) f (aluFmul f) false

/-- FFMA (R141). -/
def execFfma (f : VR) (s : State) : Host.Outcome State Fault Refusal := s.alu (.ffma f) f (aluFfma f) false

/-- FMIN (R142). -/
def execFmin (f : VR) (s : State) : Host.Outcome State Fault Refusal := s.alu (.fmin f) f (aluFmin f) false

/-- FMAX (R142). -/
def execFmax (f : VR) (s : State) : Host.Outcome State Fault Refusal := s.alu (.fmax f) f (aluFmax f) false

/-- FABS (R143). -/
def execFabs (f : VR) (s : State) : Host.Outcome State Fault Refusal := s.alu (.fabs f) f (aluFabs f) false

/-- FNEG (R143). -/
def execFneg (f : VR) (s : State) : Host.Outcome State Fault Refusal := s.alu (.fneg f) f (aluFneg f) false

/-- FRND (R143). -/
def execFrnd (f : VR) (s : State) : Host.Outcome State Fault Refusal := s.alu (.frnd f) f (aluFrnd f) false

/-- FRCP (R144). -/
def execFrcp (f : VR) (s : State) : Host.Outcome State Fault Refusal := s.alu (.frcp f) f (aluFrcp f) true

/-- FRSQ (R144). -/
def execFrsq (f : VR) (s : State) : Host.Outcome State Fault Refusal := s.alu (.frsq f) f (aluFrsq f) true

/-- FSQRT (R144). -/
def execFsqrt (f : VR) (s : State) : Host.Outcome State Fault Refusal := s.alu (.fsqrt f) f (aluFsqrt f) true

/-- FEXP2 (R144). -/
def execFexp2 (f : VR) (s : State) : Host.Outcome State Fault Refusal := s.alu (.fexp2 f) f (aluFexp2 f) true

/-- FLOG2 (R144). -/
def execFlog2 (f : VR) (s : State) : Host.Outcome State Fault Refusal := s.alu (.flog2 f) f (aluFlog2 f) true

/-- FSINCOS (R144). -/
def execFsincos (f : VR) (s : State) : Host.Outcome State Fault Refusal := s.alu (.fsincos f) f (aluFsincos f) true

/-- FCLASS (R145). -/
def execFclass (f : VR) (s : State) : Host.Outcome State Fault Refusal := s.alu (.fclass f) f (aluFclass f) false

end Sys2Proof.Machine
end

