-- ==== Sys2Proof/Machine/Integer.lean ====
section
/-! DEFINITION. The integer and address instructions (spec/05 R130 to R135). -/

namespace Sys2Proof.Machine

/-- IADD: exact sum, saturated or truncated (R131). -/
def execIadd (f : VR) (s : State) : Host.Outcome State Fault Refusal := s.alu (.iadd f) f (aluIadd f) false

/-- ISUB (R131). -/
def execIsub (f : VR) (s : State) : Host.Outcome State Fault Refusal := s.alu (.isub f) f (aluIsub f) false

/-- IMUL (R131). -/
def execImul (f : VR) (s : State) : Host.Outcome State Fault Refusal := s.alu (.imul f) f (aluImul f) false

/-- IMULH (R131). -/
def execImulh (f : VR) (s : State) : Host.Outcome State Fault Refusal := s.alu (.imulh f) f (aluImulh f) false

/-- IMAD (R131). -/
def execImad (f : VR) (s : State) : Host.Outcome State Fault Refusal := s.alu (.imad f) f (aluImad f) false

/-- IADDC (R132). -/
def execIaddc (f : VR) (s : State) : Host.Outcome State Fault Refusal := s.alu (.iaddc f) f (aluIaddc f) false

/-- ISUBB (R132). -/
def execIsubb (f : VR) (s : State) : Host.Outcome State Fault Refusal := s.alu (.isubb f) f (aluIsubb f) false

/-- IABS (R134). -/
def execIabs (f : VR) (s : State) : Host.Outcome State Fault Refusal := s.alu (.iabs f) f (aluIabs f) false

/-- INEG (R134). -/
def execIneg (f : VR) (s : State) : Host.Outcome State Fault Refusal := s.alu (.ineg f) f (aluIneg f) false

/-- IMIN (R134). -/
def execImin (f : VR) (s : State) : Host.Outcome State Fault Refusal := s.alu (.imin f) f (aluMin f) false

/-- IMAX (R134). -/
def execImax (f : VR) (s : State) : Host.Outcome State Fault Refusal := s.alu (.imax f) f (aluMax f) false

/-- NMIN (R134). -/
def execNmin (f : VR) (s : State) : Host.Outcome State Fault Refusal := s.alu (.nmin f) f (aluMin f) false

/-- NMAX (R134). -/
def execNmax (f : VR) (s : State) : Host.Outcome State Fault Refusal := s.alu (.nmax f) f (aluMax f) false

/-- LEA (R133). -/
def execLea (f : VR) (s : State) : Host.Outcome State Fault Refusal := s.alu (.lea f) f (aluLea f) false

/-- MOV (R135). -/
def execMov (f : VR) (s : State) : Host.Outcome State Fault Refusal := s.alu (.mov f) f (aluMov f) false

/-- MOVI: imm32 in every lane of EXEC (R135). -/
def execMovi (f : VI) (s : State) : Host.Outcome State Fault Refusal :=
  s.run (.movi f) f.g fun x e =>
    s.gated x [] [(.vec, f.dst.toNat)] fun st => s.finish x [] [] [.vec f.dst.toNat e (mkLanes fun _ => f.imm)] st

end Sys2Proof.Machine
end

