-- ==== Sys2Proof/Machine/Logic.lean ====
section
/-! DEFINITION. The logic and bit instructions (spec/05 R136 to R139). -/

namespace Sys2Proof.Machine

/-- AND (R136). -/
def execAnd (f : VR) (s : State) : Host.Outcome State Fault Refusal := s.alu (.and f) f (aluAnd f) false

/-- OR (R136). -/
def execOr (f : VR) (s : State) : Host.Outcome State Fault Refusal := s.alu (.or f) f (aluOr f) false

/-- XOR (R136). -/
def execXor (f : VR) (s : State) : Host.Outcome State Fault Refusal := s.alu (.xor f) f (aluXor f) false

/-- ANDN (R136). -/
def execAndn (f : VR) (s : State) : Host.Outcome State Fault Refusal := s.alu (.andn f) f (aluAndn f) false

/-- NOT (R136). -/
def execNot (f : VR) (s : State) : Host.Outcome State Fault Refusal := s.alu (.not f) f (aluNot f) false

/-- BMIX (R138). -/
def execBmix (f : VR) (s : State) : Host.Outcome State Fault Refusal := s.alu (.bmix f) f (aluBmix f) false

/-- SHL (R136). -/
def execShl (f : VR) (s : State) : Host.Outcome State Fault Refusal := s.alu (.shl f) f (aluShl f) false

/-- SHR (R136). -/
def execShr (f : VR) (s : State) : Host.Outcome State Fault Refusal := s.alu (.shr f) f (aluShr f) false

/-- SAR (R136). -/
def execSar (f : VR) (s : State) : Host.Outcome State Fault Refusal := s.alu (.sar f) f (aluSar f) false

/-- ROL (R136). -/
def execRol (f : VR) (s : State) : Host.Outcome State Fault Refusal := s.alu (.rol f) f (aluRol f) false

/-- BFE (R137). -/
def execBfe (f : VR) (s : State) : Host.Outcome State Fault Refusal := s.alu (.bfe f) f (aluBfe f) false

/-- BFI (R137). -/
def execBfi (f : VR) (s : State) : Host.Outcome State Fault Refusal := s.alu (.bfi f) f (aluBfi f) false

/-- POPC (R136). -/
def execPopc (f : VR) (s : State) : Host.Outcome State Fault Refusal := s.alu (.popc f) f (aluPopc f) false

/-- CLZ (R136). -/
def execClz (f : VR) (s : State) : Host.Outcome State Fault Refusal := s.alu (.clz f) f (aluClz f) false

/-- BREV (R136). -/
def execBrev (f : VR) (s : State) : Host.Outcome State Fault Refusal := s.alu (.brev f) f (aluBrev f) false

/-- BPERM (R139). -/
def execBperm (f : VR) (s : State) : Host.Outcome State Fault Refusal := s.alu (.bperm f) f (aluBperm f) false

end Sys2Proof.Machine
end

