-- ==== Sys2Proof/Machine/Special.lean ====
section
/-! DEFINITION. The special-register and group-register instructions (spec/05 R159 to R164, spec/01 R33 to R35, R42 to R44)
and RELR (spec/02 R70 to R72). -/

namespace Sys2Proof.Machine

/-- SR_STATUS (R43). -/
def Issue.status (x : Issue) : DWord :=
  BitVec.ofNat 64 (x.wave.sticky.toNat + bit1 x.wave.inTrap * 2 ^ 16 + bit1 x.wg.det * 2 ^ 17 + bit1 x.wg.prot * 2 ^ 18)

/-- SR_PRIO: the priority by which the issuing entry is ordered (R25, R42). -/
def Issue.prio (x : Issue) : Nat := if x.cl.handler then 4095 else min x.cl.prio 4094

/-- The long-latency instructions (R37). -/
def isLongLatency (i : Instr) : Bool :=
  match i with
  | .ldg _ | .lds _ | .ldx _ | .ldb _ | .exld _ | .ldc _ | .llock _ | .halloc _ | .atomg _ | .atoms _ | .atomx _ | .xrd _
  | .frcp _ | .frsq _ | .fsqrt _ | .fexp2 _ | .flog2 _ | .fsincos _ => true
  | .mdrain f => bitOf f.aux.toNat 13
  | _ => false

/-- Whether a long-latency instruction of the clause is still to issue: it counts on the clause's flags from the clause's issue on
(R38). -/
def State.countsAhead (s : State) (x : Issue) : Bool :=
  ((List.range x.cl.count).drop (x.cl.index + 1)).any fun k =>
    match s.peekWord x.core x.wg.ctx (x.cl.pc + 8 * (k + 1)) with
    | some w => (match decode w with | .ok i => isLongLatency i | .error _ => false)
    | none => false

/-- SR_FLAGS as an instruction reads it (R38): the flags of outstanding operations and those on which the rest of its clause
counts. -/
def State.flagsOf (s : State) (x : Issue) : DWord :=
  if s.countsAhead x then x.cl.flags.foldl (fun a n => a ||| BitVec.ofNat 64 (2 ^ n)) x.wave.flags else x.wave.flags

/-- A special register as RDSR reads it in a lane (R42). -/
def State.srValue (s : State) (x : Issue) (n l : Nat) : DWord :=
  if 0x08 ≤ n && n ≤ 0x0F then
    BitVec.ofNat 64 (if n = 0x08 then l else if n = 0x09 then x.level1 else x.wg.levels.getD (n - 8) 0)
  else if 0x10 ≤ n && n ≤ 0x17 then BitVec.ofNat 64 (x.wg.extents.getD (n - 0x10) 1)
  else if 0x38 ≤ n && n ≤ 0x3F then (x.tlsel (n - 0x38)).setWidth 64
  else
    match n with
    | 0x00 => BitVec.ofNat 64 l
    | 0x01 => BitVec.ofNat 64 x.wave.waveId
    | 0x02 => BitVec.ofNat 64 (slotOfWave x.w)
    | 0x03 => BitVec.ofNat 64 x.core
    | 0x04 => BitVec.ofNat 64 (clusterOfCore x.core)
    | 0x05 => BitVec.ofNat 64 (dieOfCore x.core)
    | 0x06 => BitVec.ofNat 64 s.cmd.pkgId
    | 0x07 => BitVec.ofNat 64 x.wg.wgid
    | 0x18 => BitVec.ofNat 64 x.wg.nlevels
    | 0x20 => x.status
    | 0x21 => x.wave.trapen
    | 0x22 => x.lanes.setWidth 64
    | 0x23 => s.flagsOf x
    | 0x24 => BitVec.ofNat 64 x.prio
    | 0x30 => (s.seq (seqOfWave x.w)).slips
    | 0x31 => x.wave.spills
    | 0x32 => BitVec.ofNat 64 (s.poolFree x.core .vec)
    | 0x33 => BitVec.ofNat 64 (s.poolFree x.core .scl)
    | 0x34 => x.wave.retired
    | 0x40 => BitVec.ofNat 64 x.wg.launch
    | 0x41 => x.wg.seed
    | 0x42 => BitVec.ofNat 64 x.wg.spadBase
    | 0x43 => BitVec.ofNat 64 x.wg.spadSize
    | 0x50 => BitVec.ofNat 64 x.wave.trap.cause
    | 0x51 => BitVec.ofNat 64 x.wave.trap.pc
    | 0x52 => BitVec.ofNat 64 x.wave.trap.idx
    | 0x53 => x.wave.trap.addr
    | 0x54 => x.wave.trap.mask.setWidth 64
    | _ => 0

/-- RDSR (R160). -/
def execRdsr (f : S) (s : State) : Host.Outcome State Fault Refusal :=
  s.run (.rdsr f) f.g fun x e =>
    let n := f.sr.toNat
    if f.imm == 1 then
      s.gated x [] [(.scl, f.dst.toNat)] fun st => s.finish x [] [] [.scl f.dst.toNat (s.srValue x n 0)] st
    else
      s.gated x [] [(.vec, f.dst.toNat)] fun st =>
        s.finish x [] [] [.vec f.dst.toNat e (mkLanes fun l => (s.srValue x n l).setWidth 32)] st

/-- The effect of WRSR on a register that accepts a write (R161). -/
def State.writeSr (s : State) (x : Issue) (n : Nat) (v : DWord) : State :=
  if n = 0x20 then s.updWave x.w fun y => { y with sticky := y.sticky &&& ~~~(v.setWidth 9) }
  else if n = 0x21 then s.updWave x.w fun y => { y with trapen := v &&& 0x9F }
  else s.updWg x.wave.wg fun g => { g with tlsel := lsetD 0 g.tlsel (n - 0x38) (v.setWidth 16) }

/-- WRSR (R161). A selector's SCOPE of 6 or 7 is refused (R35). -/
def execWrsr (f : S) (s : State) : Host.Outcome State Fault Refusal :=
  s.run (.wrsr f) f.g fun x e =>
    let v : DWord := BitVec.ofNat 64 (s.opnd x .n64 f.a 0)
    let reads := x.srcReads .n64 f.a e
    s.gated x reads [] fun st =>
      if f.sr.toNat ≥ 0x38 && DWord.fld v 12 3 ≥ 6 then s.raiseTrap x 2 0 e 0
      else (s.writeSr x f.sr.toNat v).finish x reads (x.srcRels .n64 f.a e) [] st

/-- GWR (R162): a vector source gives the value of one lane, read across lanes. -/
def execGwr (f : S) (s : State) : Host.Outcome State Fault Refusal :=
  s.run (.gwr f) f.g fun x e =>
    let k := f.imm.toNat % 32
    let vec := f.a.kind == .vec
    let t : Ty := if vec then .n32 else .n64
    let v := BitVec.ofNat 64 (s.opnd x t f.a k)
    let reads := if vec then x.vecReads f.a.num.toNat 1 (maskOf fun l => l == k) ((lanesIn e).map fun l => (l, k))
      else x.srcReads t f.a e
    s.gated x reads [] fun st =>
      if x.groupTaken f.dst.toNat then s.raiseTrap x 7 0 e 0
      else s.finish x reads (x.srcRels t f.a e) [.grp f.dst.toNat v] st

/-- GCLAIM (R163). -/
def execGclaim (f : S) (s : State) : Host.Outcome State Fault Refusal :=
  s.run (.gclaim f) f.g fun x e =>
    s.gated x [] [] fun st =>
      if x.groupTaken f.dst.toNat then s.raiseTrap x 7 0 e 0
      else
        (s.updWg x.wave.wg fun g => { g with claims := lsetD none g.claims f.dst.toNat (some x.wave.waveId) }).finish x [] [] [] st

/-- RDCLK (R164): the clocks of the core since its last reset, or in deterministic mode SR_RETIRED. -/
def execRdclk (f : S) (s : State) : Host.Outcome State Fault Refusal :=
  s.run (.rdclk f) f.g fun x _ =>
    s.gated x [] [(.scl, f.dst.toNat)] fun st =>
      s.finish x [] [] [.scl f.dst.toNat (if x.wg.det then x.wave.retired else s.coreClock x.core)] st

/-- RELR (R70 to R72). -/
def execRelr (f : S) (s : State) : Host.Outcome State Fault Refusal :=
  s.run (.relr f) f.g fun x e =>
    let vec := bitsOf f.imm.toNat 18 2 == 0
    let regs := (List.range (bitsOf f.imm.toNat 9 9)).map fun k => f.dst.toNat + k
    let rels := if vec then (regs.filter fun n => !x.isTrapReg n).map fun n => (⟨.vec, n, e⟩ : Rel)
      else regs.map fun n => ⟨.scl, n, allLanes⟩
    s.gated x [] [] fun st => s.finish x [] rels [] st

end Sys2Proof.Machine
end

