-- ==== Sys2Proof/Machine/Dispatch.lean ====
section
/-! DEFINITION. The meaning of every row of the opcode table: one call for each constructor. -/

namespace Sys2Proof.Machine

/-- What an instruction or an event does to the package. -/
def exec (i : Instr) (s : State) : Host.Outcome State Fault Refusal :=
  match i with
  | .nop f => Sys2Proof.Machine.execNop f s
  | .bra f => Sys2Proof.Machine.execBra f s
  | .brx f => Sys2Proof.Machine.execBrx f s
  | .call f => Sys2Proof.Machine.execCall f s
  | .ret f => Sys2Proof.Machine.execRet f s
  | .join f => Sys2Proof.Machine.execJoin f s
  | .exit f => Sys2Proof.Machine.execExit f s
  | .yield f => Sys2Proof.Machine.execYield f s
  | .trap f => Sys2Proof.Machine.execTrap f s
  | .rett f => Sys2Proof.Machine.execRett f s
  | .mcall f => Sys2Proof.Machine.execMcall f s
  | .mdef f => Sys2Proof.Machine.execMdef f s
  | .brkpt f => Sys2Proof.Machine.execBrkpt f s
  | .iadd f => Sys2Proof.Machine.execIadd f s
  | .isub f => Sys2Proof.Machine.execIsub f s
  | .imul f => Sys2Proof.Machine.execImul f s
  | .imulh f => Sys2Proof.Machine.execImulh f s
  | .imad f => Sys2Proof.Machine.execImad f s
  | .iaddc f => Sys2Proof.Machine.execIaddc f s
  | .isubb f => Sys2Proof.Machine.execIsubb f s
  | .iabs f => Sys2Proof.Machine.execIabs f s
  | .ineg f => Sys2Proof.Machine.execIneg f s
  | .imin f => Sys2Proof.Machine.execImin f s
  | .imax f => Sys2Proof.Machine.execImax f s
  | .nmin f => Sys2Proof.Machine.execNmin f s
  | .nmax f => Sys2Proof.Machine.execNmax f s
  | .lea f => Sys2Proof.Machine.execLea f s
  | .mov f => Sys2Proof.Machine.execMov f s
  | .movi f => Sys2Proof.Machine.execMovi f s
  | .and f => Sys2Proof.Machine.execAnd f s
  | .or f => Sys2Proof.Machine.execOr f s
  | .xor f => Sys2Proof.Machine.execXor f s
  | .andn f => Sys2Proof.Machine.execAndn f s
  | .not f => Sys2Proof.Machine.execNot f s
  | .bmix f => Sys2Proof.Machine.execBmix f s
  | .shl f => Sys2Proof.Machine.execShl f s
  | .shr f => Sys2Proof.Machine.execShr f s
  | .sar f => Sys2Proof.Machine.execSar f s
  | .rol f => Sys2Proof.Machine.execRol f s
  | .bfe f => Sys2Proof.Machine.execBfe f s
  | .bfi f => Sys2Proof.Machine.execBfi f s
  | .popc f => Sys2Proof.Machine.execPopc f s
  | .clz f => Sys2Proof.Machine.execClz f s
  | .brev f => Sys2Proof.Machine.execBrev f s
  | .bperm f => Sys2Proof.Machine.execBperm f s
  | .fadd f => Sys2Proof.Machine.execFadd f s
  | .fsub f => Sys2Proof.Machine.execFsub f s
  | .fmul f => Sys2Proof.Machine.execFmul f s
  | .ffma f => Sys2Proof.Machine.execFfma f s
  | .fmin f => Sys2Proof.Machine.execFmin f s
  | .fmax f => Sys2Proof.Machine.execFmax f s
  | .fabs f => Sys2Proof.Machine.execFabs f s
  | .fneg f => Sys2Proof.Machine.execFneg f s
  | .frnd f => Sys2Proof.Machine.execFrnd f s
  | .frcp f => Sys2Proof.Machine.execFrcp f s
  | .frsq f => Sys2Proof.Machine.execFrsq f s
  | .fsqrt f => Sys2Proof.Machine.execFsqrt f s
  | .fexp2 f => Sys2Proof.Machine.execFexp2 f s
  | .flog2 f => Sys2Proof.Machine.execFlog2 f s
  | .fsincos f => Sys2Proof.Machine.execFsincos f s
  | .fclass f => Sys2Proof.Machine.execFclass f s
  | .cvt f => Sys2Proof.Machine.execCvt f s
  | .cvtsr f => Sys2Proof.Machine.execCvtsr f s
  | .fdot2 f => Sys2Proof.Machine.execFdot2 f s
  | .qamax f => Sys2Proof.Machine.execQamax f s
  | .qscale f => Sys2Proof.Machine.execQscale f s
  | .qpack f => Sys2Proof.Machine.execQpack f s
  | .qunpk f => Sys2Proof.Machine.execQunpk f s
  | .icmp f => Sys2Proof.Machine.execIcmp f s
  | .ncmp f => Sys2Proof.Machine.execNcmp f s
  | .fcmp f => Sys2Proof.Machine.execFcmp f s
  | .sel f => Sys2Proof.Machine.execSel f s
  | .plop f => Sys2Proof.Machine.execPlop f s
  | .pmov f => Sys2Proof.Machine.execPmov f s
  | .ballot f => Sys2Proof.Machine.execBallot f s
  | .lrank f => Sys2Proof.Machine.execLrank f s
  | .shfl f => Sys2Proof.Machine.execShfl f s
  | .bcast f => Sys2Proof.Machine.execBcast f s
  | .rdlane f => Sys2Proof.Machine.execRdlane f s
  | .wrlane f => Sys2Proof.Machine.execWrlane f s
  | .reduce f => Sys2Proof.Machine.execReduce f s
  | .scan f => Sys2Proof.Machine.execScan f s
  | .compress f => Sys2Proof.Machine.execCompress f s
  | .expand f => Sys2Proof.Machine.execExpand f s
  | .active f => Sys2Proof.Machine.execActive f s
  | .rdsr f => Sys2Proof.Machine.execRdsr f s
  | .wrsr f => Sys2Proof.Machine.execWrsr f s
  | .gwr f => Sys2Proof.Machine.execGwr f s
  | .gclaim f => Sys2Proof.Machine.execGclaim f s
  | .rdclk f => Sys2Proof.Machine.execRdclk f s
  | .relr f => Sys2Proof.Machine.execRelr f s
  | .ldg f => Sys2Proof.Machine.execLdg f s
  | .lds f => Sys2Proof.Machine.execLds f s
  | .ldx f => Sys2Proof.Machine.execLdx f s
  | .ldb f => Sys2Proof.Machine.execLdb f s
  | .exld f => Sys2Proof.Machine.execExld f s
  | .pfg f => Sys2Proof.Machine.execPfg f s
  | .ldc f => Sys2Proof.Machine.execLdc f s
  | .stg f => Sys2Proof.Machine.execStg f s
  | .sts f => Sys2Proof.Machine.execSts f s
  | .stx f => Sys2Proof.Machine.execStx f s
  | .stb f => Sys2Proof.Machine.execStb f s
  | .cstg f => Sys2Proof.Machine.execCstg f s
  | .llock f => Sys2Proof.Machine.execLlock f s
  | .lunlk f => Sys2Proof.Machine.execLunlk f s
  | .cflush f => Sys2Proof.Machine.execCflush f s
  | .cinv f => Sys2Proof.Machine.execCinv f s
  | .halloc f => Sys2Proof.Machine.execHalloc f s
  | .hfree f => Sys2Proof.Machine.execHfree f s
  | .atomg f => Sys2Proof.Machine.execAtomg f s
  | .atoms f => Sys2Proof.Machine.execAtoms f s
  | .atomx f => Sys2Proof.Machine.execAtomx f s
  | .redg f => Sys2Proof.Machine.execRedg f s
  | .reds f => Sys2Proof.Machine.execReds f s
  | .xred f => Sys2Proof.Machine.execXred f s
  | .xrd f => Sys2Proof.Machine.execXrd f s
  | .bar f => Sys2Proof.Machine.execBar f s
  | .barc f => Sys2Proof.Machine.execBarc f s
  | .fence f => Sys2Proof.Machine.execFence f s
  | .syacq f => Sys2Proof.Machine.execSyacq f s
  | .syrel f => Sys2Proof.Machine.execSyrel f s
  | .sybind f => Sys2Proof.Machine.execSybind f s
  | .mwatch f => Sys2Proof.Machine.execMwatch f s
  | .mwait f => Sys2Proof.Machine.execMwait f s
  | .waittl f => Sys2Proof.Machine.execWaittl f s
  | .ordw f => Sys2Proof.Machine.execOrdw f s
  | .orda f => Sys2Proof.Machine.execOrda f s
  | .waitq f => Sys2Proof.Machine.execWaitq f s
  | .qopen f => Sys2Proof.Machine.execQopen f s
  | .qclose f => Sys2Proof.Machine.execQclose f s
  | .acopy f => Sys2Proof.Machine.execAcopy f s
  | .acopys f => Sys2Proof.Machine.execAcopys f s
  | .afill f => Sys2Proof.Machine.execAfill f s
  | .spawn f => Sys2Proof.Machine.execSpawn f s
  | .fsend f => Sys2Proof.Machine.execFsend f s
  | .fget f => Sys2Proof.Machine.execFget f s
  | .tlrd f => Sys2Proof.Machine.execTlrd f s
  | .ores f => Sys2Proof.Machine.execOres f s
  | .orel f => Sys2Proof.Machine.execOrel f s
  | .oload f => Sys2Proof.Machine.execOload f s
  | .ogath f => Sys2Proof.Machine.execOgath f s
  | .mma f => Sys2Proof.Machine.execMma f s
  | .mmab f => Sys2Proof.Machine.execMmab f s
  | .mzero f => Sys2Proof.Machine.execMzero f s
  | .mdrain f => Sys2Proof.Machine.execMdrain f s
  | .clauseIssue q => Sys2Proof.Machine.execClauseIssue q s
  | .icacheLineArrival cluster ctx line => Sys2Proof.Machine.execIcacheLineArrival cluster ctx line s
  | .yieldRestrictionEnd w => Sys2Proof.Machine.execYieldRestrictionEnd w s
  | .spillWriteComplete core file => Sys2Proof.Machine.execSpillWriteComplete core file s
  | .fillComplete core file => Sys2Proof.Machine.execFillComplete core file s
  | .mwaitTimeout w => Sys2Proof.Machine.execMwaitTimeout w s
  | .holdEnd w => Sys2Proof.Machine.execHoldEnd w s
  | .longLatencyComplete w k => Sys2Proof.Machine.execLongLatencyComplete w k s
  | .segmentPush op => Sys2Proof.Machine.execSegmentPush op s
  | .copySegmentComplete item => Sys2Proof.Machine.execCopySegmentComplete item s
  | .tileTaskComplete core => Sys2Proof.Machine.execTileTaskComplete core s
  | .operationComplete op => Sys2Proof.Machine.execOperationComplete op s
  | .packetRefuse item hint => Sys2Proof.Machine.execPacketRefuse item hint s
  | .packetResend item => Sys2Proof.Machine.execPacketResend item s
  | .packetAck item => Sys2Proof.Machine.execPacketAck item s
  | .remoteRequest r => Sys2Proof.Machine.execRemoteRequest r s
  | .remoteAccessResend q => Sys2Proof.Machine.execRemoteAccessResend q s
  | .trellisPush item => Sys2Proof.Machine.execTrellisPush item s
  | .ancestorInsert item node => Sys2Proof.Machine.execAncestorInsert item node s
  | .topNodeRelease node => Sys2Proof.Machine.execTopNodeRelease node s
  | .leafInsert item => Sys2Proof.Machine.execLeafInsert item s
  | .enginePop leaf => Sys2Proof.Machine.execEnginePop leaf s
  | .leafPreempt leaf => Sys2Proof.Machine.execLeafPreempt leaf s
  | .reserveSetPreempt node => Sys2Proof.Machine.execReserveSetPreempt node s
  | .probeTokenSend queue => Sys2Proof.Machine.execProbeTokenSend queue s
  | .probeTokenArrival token => Sys2Proof.Machine.execProbeTokenArrival token s
  | .decant item => Sys2Proof.Machine.execDecant item s
  | .decantComplete item => Sys2Proof.Machine.execDecantComplete item s
  | .trapEntry w => Sys2Proof.Machine.execTrapEntry w s
  | .faultRecordWrite k => Sys2Proof.Machine.execFaultRecordWrite k s
  | .faultRetry ctx token => Sys2Proof.Machine.execFaultRetry ctx token s
  | .faultFail ctx token => Sys2Proof.Machine.execFaultFail ctx token s
  | .borrowRequest k => Sys2Proof.Machine.execBorrowRequest k s
  | .borrowGrant k => Sys2Proof.Machine.execBorrowGrant k s
  | .rootReturn k => Sys2Proof.Machine.execRootReturn k s
  | .fabricReturnFlush k => Sys2Proof.Machine.execFabricReturnFlush k s
  | .switchOut wg => Sys2Proof.Machine.execSwitchOut wg s
  | .restore item => Sys2Proof.Machine.execRestore item s
  | .detTurn core => Sys2Proof.Machine.execDetTurn core s
  | .dramRequestIssue channel => Sys2Proof.Machine.execDramRequestIssue channel s
  | .hostAccess a => Sys2Proof.Machine.execHostAccess a s
  | .hostQueueDoorbell q tail => Sys2Proof.Machine.execHostQueueDoorbell q tail s
  | .caskPacketRun q => Sys2Proof.Machine.execCaskPacketRun q s
  | .launchComplete id => Sys2Proof.Machine.execLaunchComplete id s
  | .outputDigest id => Sys2Proof.Machine.execOutputDigest id s
  | .vintageRecordWrite => Sys2Proof.Machine.execVintageRecordWrite s
  | .completionEntryWrite q => Sys2Proof.Machine.execCompletionEntryWrite q s
  | .eventRingWrite => Sys2Proof.Machine.execEventRingWrite s
  | .mgmtDoorbell tail => Sys2Proof.Machine.execMgmtDoorbell tail s
  | .ctxcreate c prot => Sys2Proof.Machine.execCtxcreate c prot s
  | .ctxgrant c kind unit => Sys2Proof.Machine.execCtxgrant c kind unit s
  | .teardown c => Sys2Proof.Machine.execTeardown c s
  | .ctxfree c => Sys2Proof.Machine.execCtxfree c s
  | .waveKill core slot => Sys2Proof.Machine.execWaveKill core slot s
  | .workgroupKill core wgid => Sys2Proof.Machine.execWorkgroupKill core wgid s
  | .coreReset core => Sys2Proof.Machine.execCoreReset core s
  | .engineReset kind unit => Sys2Proof.Machine.execEngineReset kind unit s
  | .trellisNodeFlush node => Sys2Proof.Machine.execTrellisNodeFlush node s
  | .clusterReset cluster => Sys2Proof.Machine.execClusterReset cluster s
  | .dieReset die => Sys2Proof.Machine.execDieReset die s
  | .packageWarmReset => Sys2Proof.Machine.execPackageWarmReset s
  | .coldReset => Sys2Proof.Machine.execColdReset s
  | .rootgrant root c => Sys2Proof.Machine.execRootgrant root c s
  | .regwrite off value mask => Sys2Proof.Machine.execRegwrite off value mask s
  | .progloadTrellisSlot slot pa count => Sys2Proof.Machine.execProgloadTrellisSlot slot pa count s
  | .progloadLeaf leaf pa count => Sys2Proof.Machine.execProgloadLeaf leaf pa count s
  | .progloadCaskSlot slot pa count => Sys2Proof.Machine.execProgloadCaskSlot slot pa count s
  | .qdrForce root => Sys2Proof.Machine.execQdrForce root s
  | .hbmMapoutRequest stack layer => Sys2Proof.Machine.execHbmMapoutRequest stack layer s
  | .hbmMapoutAutoRequest stack layer => Sys2Proof.Machine.execHbmMapoutAutoRequest stack layer s
  | .hbmMapoutCommit => Sys2Proof.Machine.execHbmMapoutCommit s
  | .hbmMapoutCancel => Sys2Proof.Machine.execHbmMapoutCancel s
  | .hbmMapoutDone => Sys2Proof.Machine.execHbmMapoutDone s
  | .rackChunk => Sys2Proof.Machine.execRackChunk s
  | .getVersion => Sys2Proof.Machine.execGetVersion s
  | .getCapabilities => Sys2Proof.Machine.execGetCapabilities s
  | .negotiateAlgorithms => Sys2Proof.Machine.execNegotiateAlgorithms s
  | .getDigests => Sys2Proof.Machine.execGetDigests s
  | .getCertificate slot offset length => Sys2Proof.Machine.execGetCertificate slot offset length s
  | .challenge nonce => Sys2Proof.Machine.execChallenge nonce s
  | .getMeasurements index ctx nonce => Sys2Proof.Machine.execGetMeasurements index ctx nonce s
  | .keyExchange nonce => Sys2Proof.Machine.execKeyExchange nonce s
  | .finish => Sys2Proof.Machine.execFinish s
  | .endSession => Sys2Proof.Machine.execEndSession s
  | .keyrelease c => Sys2Proof.Machine.execKeyrelease c s
  | .firmwareImageUpdate img => Sys2Proof.Machine.execFirmwareImageUpdate img s
  | .activateFirmware => Sys2Proof.Machine.execActivateFirmware s
  | .firmwareSwitch => Sys2Proof.Machine.execFirmwareSwitch s
  | .firmwareReady => Sys2Proof.Machine.execFirmwareReady s
  | .firmwareRevert => Sys2Proof.Machine.execFirmwareRevert s
  | .claim rsaKey slhKey sig => Sys2Proof.Machine.execClaim rsaKey slhKey sig s
  | .transfer sig => Sys2Proof.Machine.execTransfer sig s
  | .sensorRead id => Sys2Proof.Machine.execSensorRead id s
  | .sensorUpdate id value => Sys2Proof.Machine.execSensorUpdate id value s
  | .errorLogRead => Sys2Proof.Machine.execErrorLogRead s
  | .laneFailure port => Sys2Proof.Machine.execLaneFailure port s
  | .widerScopePerform k => Sys2Proof.Machine.execWiderScopePerform k s
  | .xinvComplete k => Sys2Proof.Machine.execXinvComplete k s
  | .linkRetrainComplete port => Sys2Proof.Machine.execLinkRetrainComplete port s
  | .yclLinkEnumeration base => Sys2Proof.Machine.execYclLinkEnumeration base s
  | .i3cDynamicAddressAssign addr => Sys2Proof.Machine.execI3cDynamicAddressAssign addr s

end Sys2Proof.Machine
end

