-- ==== Sys2Proof/Machine/Step.lean ====
section
/-! DEFINITION. One step of the package: the chosen action, and what every step does after it. -/

namespace Sys2Proof.Machine

/-- One step (log 3, log 4): nothing to do lets a tick pass. -/
def step (s : State) : Host.Outcome State Fault Refusal :=
  match s.choice with
  | none => settleOutcome [] (.next s)
  | some (.event i) => settleOutcome (s.requestersOf none i) (exec i s)
  | some (.input i) => settleOutcome (s.requestersOf none i) (exec i s.tookInput)
  | some .skip => settleOutcome [] (.next s.tookInput)
  | some (.issue q) =>
    match s.nextWord q with
    | .instr i t => settleOutcome (t.requestersOf (t.seq q).active i) (exec i t)
    | .done t => settleOutcome (fetchWalks q) (.next t)

/-- The state in which the next step fetches and runs the instruction with these bits (log 14). -/
def State.withFetchWord (s : State) (nbits w : Nat) : State := s.placeWord (BitVec.ofNat 64 (w % 2 ^ nbits))

end Sys2Proof.Machine
end

