-- ==== Sys2Proof/Laws/Table.lean ====
section
/-! SUPPORT. Reads of tables and lists after writes. -/

namespace Sys2Proof.Machine

variable {α : Type}

@[simp] theorem tget_nil (n : Nat) : tget ([] : Table α) n = none := rfl

/-- A key that was set reads as set, whatever the table. -/
@[simp] theorem tget_tput_same (t : Table α) (n : Nat) (x : α) : tget (tput t n x) n = some x := by
  induction t with
  | nil => simp [tput, tget]
  | cons p t ih =>
    obtain ⟨k, v⟩ := p
    simp only [tput]
    split
    · simp [tget]
    · split
      · simp [tget]
      · rename_i h1 h2
        simp only [tget]
        rw [if_neg (fun h => h2 h.symm)]
        exact ih

/-- Every other key reads as before. -/
theorem tget_tput_other (t : Table α) {n m : Nat} (x : α) (h : m ≠ n) : tget (tput t n x) m = tget t m := by
  induction t with
  | nil => simp [tput, tget, h.symm]
  | cons p t ih =>
    obtain ⟨k, v⟩ := p
    simp only [tput]
    split
    · simp [tget, h.symm]
    · split
      · rename_i h1 h2
        subst h2
        simp [tget, h.symm]
      · simp only [tget, ih]

theorem tget_tput (t : Table α) (n m : Nat) (x : α) : tget (tput t n x) m = if m = n then some x else tget t m := by
  by_cases h : m = n
  · subst h; simp
  · simp [h, tget_tput_other]

@[simp] theorem tget_terase_same (t : Table α) (n : Nat) : tget (terase t n) n = none := by
  induction t with
  | nil => rfl
  | cons p t ih =>
    obtain ⟨k, v⟩ := p
    by_cases h : k = n
    · subst h; simpa [terase] using ih
    · simp only [terase, List.filter_cons, bne_iff_ne, ne_eq, h, not_false_eq_true, if_true]
      rw [tget, if_neg h]
      exact ih

theorem tget_terase_other (t : Table α) {n m : Nat} (h : m ≠ n) : tget (terase t n) m = tget t m := by
  induction t with
  | nil => rfl
  | cons p t ih =>
    obtain ⟨k, v⟩ := p
    by_cases hk : k = n
    · subst hk
      have : tget ((k, v) :: t) m = tget t m := by simp [tget, h.symm]
      simpa [terase, this] using ih
    · simp only [terase, List.filter_cons, bne_iff_ne, ne_eq, hk, not_false_eq_true, if_true]
      simp only [tget]
      split
      · rfl
      · exact ih

theorem tget_map (t : Table α) (f : α → α) (n : Nat) :
    tget (t.map fun p => (p.1, f p.2)) n = (tget t n).map f := by
  induction t with
  | nil => rfl
  | cons p t ih =>
    obtain ⟨k, v⟩ := p
    simp only [List.map_cons, tget]
    split
    · rfl
    · exact ih

/-! Strictly rising keys. -/

theorem twf_cons (a : Nat) (x : α) (t : Table α) : twf ((a, x) :: t) = (t.all (fun p => a < p.1) && twf t) := by
  induction t generalizing a x with
  | nil => simp [twf]
  | cons p t ih =>
    obtain ⟨b, y⟩ := p
    simp only [twf, List.all_cons]
    rw [ih]
    by_cases h : a < b
    · have : (t.all fun p => decide (b < p.1)) = true → (t.all fun p => decide (a < p.1)) = true := by
        simp only [List.all_eq_true, decide_eq_true_eq]
        intro hb q hq
        exact Nat.lt_trans h (hb q hq)
      cases h1 : (t.all fun p => decide (b < p.1))
      · simp
      · simp [h, this h1]
    · simp [h]

/-- Setting a key keeps the keys strictly rising. -/
theorem twf_tput (t : Table α) (n : Nat) (x : α) (h : twf t = true) : twf (tput t n x) = true := by
  have hall : ∀ (t : Table α) (a : Nat), a < n → t.all (fun p => a < p.1) = true → (tput t n x).all (fun p => a < p.1) = true := by
    intro t
    induction t with
    | nil => intro a ha _; simp [tput, ha]
    | cons p t ih =>
      obtain ⟨k, v⟩ := p
      intro a ha hk
      simp only [List.all_cons, Bool.and_eq_true, decide_eq_true_eq] at hk
      simp only [tput]
      split
      · simpa [ha] using hk
      · split
        · simpa [ha] using hk.2
        · simpa [hk.1] using ih a ha hk.2
  induction t with
  | nil => rfl
  | cons p t ih =>
    obtain ⟨k, v⟩ := p
    rw [twf_cons, Bool.and_eq_true] at h
    simp only [tput]
    split
    · rename_i hlt
      rw [twf_cons, Bool.and_eq_true]
      refine ⟨?_, by rw [twf_cons, Bool.and_eq_true]; exact h⟩
      simp only [List.all_cons, Bool.and_eq_true, decide_eq_true_eq, List.all_eq_true] at h ⊢
      exact ⟨hlt, fun q hq => Nat.lt_trans hlt (h.1 q hq)⟩
    · split
      · rename_i he
        subst he
        rw [twf_cons, Bool.and_eq_true]
        exact h
      · rename_i h1 h2
        rw [twf_cons, Bool.and_eq_true]
        exact ⟨hall t k (by omega) h.1, ih h.2⟩

/-- Erasing a key keeps the keys strictly rising. -/
theorem twf_filter (t : Table α) (p : Nat × α → Bool) (h : twf t = true) : twf (t.filter p) = true := by
  induction t with
  | nil => rfl
  | cons q t ih =>
    obtain ⟨k, v⟩ := q
    rw [twf_cons, Bool.and_eq_true] at h
    rw [List.filter_cons]
    split
    · rw [twf_cons, Bool.and_eq_true]
      refine ⟨?_, ih h.2⟩
      simp only [List.all_eq_true, decide_eq_true_eq] at h ⊢
      exact fun r hr => h.1 r (List.mem_filter.1 hr).1
    · exact ih h.2

theorem twf_terase (t : Table α) (n : Nat) (h : twf t = true) : twf (terase t n) = true := twf_filter t _ h

/-! Lists. -/

@[simp] theorem lsetD_get_same (d : α) (l : List α) (n : Nat) (y : α) : (lsetD d l n y).getD n d = y := by
  induction n generalizing l with
  | zero => cases l <;> simp [lsetD]
  | succ n ih =>
    cases l with
    | nil => simpa [lsetD] using ih []
    | cons a l => simpa [lsetD] using ih l

theorem lsetD_get_other (d : α) (l : List α) {n m : Nat} (y : α) (h : m ≠ n) :
    (lsetD d l n y).getD m d = l.getD m d := by
  induction n generalizing l m with
  | zero =>
    cases m with
    | zero => exact absurd rfl h
    | succ m => cases l <;> simp [lsetD]
  | succ n ih =>
    cases m with
    | zero => cases l <;> simp [lsetD]
    | succ m =>
      have hm : m ≠ n := fun e => h (congrArg _ e)
      cases l with
      | nil => simpa [lsetD] using ih [] hm
      | cons a l => simpa [lsetD] using ih l hm

/-- The lanes of a register that is given lane by lane. -/
theorem laneOf_mkLanes (f : Nat → Word) {l : Nat} (h : l < 32) : laneOf (mkLanes f) l = f l := by
  simp [laneOf, mkLanes, laneIds, List.getD, h]

theorem laneOf_mkLanes_ge (f : Nat → Word) {l : Nat} (h : ¬ l < 32) : laneOf (mkLanes f) l = 0 := by
  simp only [laneOf, mkLanes, laneIds, List.getD]
  rw [List.getElem?_eq_none (by simpa using h)]
  rfl

end Sys2Proof.Machine
end

