-- ==== Sys2Proof/Laws/State.lean ====
section
/-! SUPPORT. What each update of a unit leaves alone, field by field, and what reading a unit gives after an update. -/

namespace Sys2Proof.Machine

variable (s : State)

@[simp] theorem State.setWave_mem (w : Nat) (x : Wave) : (s.setWave w x).mem = s.mem := rfl
@[simp] theorem State.setWave_wgs (w : Nat) (x : Wave) : (s.setWave w x).wgs = s.wgs := rfl
@[simp] theorem State.setWave_seqs (w : Nat) (x : Wave) : (s.setWave w x).seqs = s.seqs := rfl
@[simp] theorem State.setWave_cores (w : Nat) (x : Wave) : (s.setWave w x).cores = s.cores := rfl
@[simp] theorem State.setWave_timelines (w : Nat) (x : Wave) : (s.setWave w x).timelines = s.timelines := rfl
@[simp] theorem State.setWave_ops (w : Nat) (x : Wave) : (s.setWave w x).ops = s.ops := rfl
@[simp] theorem State.setWave_trl (w : Nat) (x : Wave) : (s.setWave w x).trl = s.trl := rfl
@[simp] theorem State.setWave_qd (w : Nat) (x : Wave) : (s.setWave w x).qd = s.qd := rfl
@[simp] theorem State.setWave_cmd (w : Nat) (x : Wave) : (s.setWave w x).cmd = s.cmd := rfl
@[simp] theorem State.setWave_host (w : Nat) (x : Wave) : (s.setWave w x).host = s.host := rfl
@[simp] theorem State.setWave_tick (w : Nat) (x : Wave) : (s.setWave w x).tick = s.tick := rfl
@[simp] theorem State.setWave_clocks (w : Nat) (x : Wave) : (s.setWave w x).clocks = s.clocks := rfl
@[simp] theorem State.setWave_uid (w : Nat) (x : Wave) : (s.setWave w x).uid = s.uid := rfl
@[simp] theorem State.setWave_focus (w : Nat) (x : Wave) : (s.setWave w x).focus = s.focus := rfl

@[simp] theorem State.updWave_mem (w : Nat) (f : Wave → Wave) : (s.updWave w f).mem = s.mem := by unfold State.updWave; split <;> rfl
@[simp] theorem State.updWave_wgs (w : Nat) (f : Wave → Wave) : (s.updWave w f).wgs = s.wgs := by unfold State.updWave; split <;> rfl
@[simp] theorem State.updWave_seqs (w : Nat) (f : Wave → Wave) : (s.updWave w f).seqs = s.seqs := by unfold State.updWave; split <;> rfl
@[simp] theorem State.updWave_cores (w : Nat) (f : Wave → Wave) : (s.updWave w f).cores = s.cores := by unfold State.updWave; split <;> rfl
@[simp] theorem State.updWave_timelines (w : Nat) (f : Wave → Wave) : (s.updWave w f).timelines = s.timelines := by unfold State.updWave; split <;> rfl
@[simp] theorem State.updWave_ops (w : Nat) (f : Wave → Wave) : (s.updWave w f).ops = s.ops := by unfold State.updWave; split <;> rfl
@[simp] theorem State.updWave_trl (w : Nat) (f : Wave → Wave) : (s.updWave w f).trl = s.trl := by unfold State.updWave; split <;> rfl
@[simp] theorem State.updWave_qd (w : Nat) (f : Wave → Wave) : (s.updWave w f).qd = s.qd := by unfold State.updWave; split <;> rfl
@[simp] theorem State.updWave_cmd (w : Nat) (f : Wave → Wave) : (s.updWave w f).cmd = s.cmd := by unfold State.updWave; split <;> rfl
@[simp] theorem State.updWave_host (w : Nat) (f : Wave → Wave) : (s.updWave w f).host = s.host := by unfold State.updWave; split <;> rfl
@[simp] theorem State.updWave_tick (w : Nat) (f : Wave → Wave) : (s.updWave w f).tick = s.tick := by unfold State.updWave; split <;> rfl
@[simp] theorem State.updWave_clocks (w : Nat) (f : Wave → Wave) : (s.updWave w f).clocks = s.clocks := by unfold State.updWave; split <;> rfl
@[simp] theorem State.updWave_uid (w : Nat) (f : Wave → Wave) : (s.updWave w f).uid = s.uid := by unfold State.updWave; split <;> rfl
@[simp] theorem State.updWave_focus (w : Nat) (f : Wave → Wave) : (s.updWave w f).focus = s.focus := by unfold State.updWave; split <;> rfl

@[simp] theorem State.dropWave_mem (w : Nat) : (s.dropWave w).mem = s.mem := rfl
@[simp] theorem State.dropWave_wgs (w : Nat) : (s.dropWave w).wgs = s.wgs := rfl
@[simp] theorem State.dropWave_seqs (w : Nat) : (s.dropWave w).seqs = s.seqs := rfl
@[simp] theorem State.dropWave_cores (w : Nat) : (s.dropWave w).cores = s.cores := rfl
@[simp] theorem State.dropWave_timelines (w : Nat) : (s.dropWave w).timelines = s.timelines := rfl
@[simp] theorem State.dropWave_ops (w : Nat) : (s.dropWave w).ops = s.ops := rfl
@[simp] theorem State.dropWave_trl (w : Nat) : (s.dropWave w).trl = s.trl := rfl
@[simp] theorem State.dropWave_qd (w : Nat) : (s.dropWave w).qd = s.qd := rfl
@[simp] theorem State.dropWave_cmd (w : Nat) : (s.dropWave w).cmd = s.cmd := rfl
@[simp] theorem State.dropWave_host (w : Nat) : (s.dropWave w).host = s.host := rfl
@[simp] theorem State.dropWave_tick (w : Nat) : (s.dropWave w).tick = s.tick := rfl
@[simp] theorem State.dropWave_clocks (w : Nat) : (s.dropWave w).clocks = s.clocks := rfl
@[simp] theorem State.dropWave_uid (w : Nat) : (s.dropWave w).uid = s.uid := rfl
@[simp] theorem State.dropWave_focus (w : Nat) : (s.dropWave w).focus = s.focus := rfl

@[simp] theorem State.setWg_mem (u : Nat) (x : Wg) : (s.setWg u x).mem = s.mem := rfl
@[simp] theorem State.setWg_waves (u : Nat) (x : Wg) : (s.setWg u x).waves = s.waves := rfl
@[simp] theorem State.setWg_seqs (u : Nat) (x : Wg) : (s.setWg u x).seqs = s.seqs := rfl
@[simp] theorem State.setWg_cores (u : Nat) (x : Wg) : (s.setWg u x).cores = s.cores := rfl
@[simp] theorem State.setWg_timelines (u : Nat) (x : Wg) : (s.setWg u x).timelines = s.timelines := rfl
@[simp] theorem State.setWg_ops (u : Nat) (x : Wg) : (s.setWg u x).ops = s.ops := rfl
@[simp] theorem State.setWg_trl (u : Nat) (x : Wg) : (s.setWg u x).trl = s.trl := rfl
@[simp] theorem State.setWg_qd (u : Nat) (x : Wg) : (s.setWg u x).qd = s.qd := rfl
@[simp] theorem State.setWg_cmd (u : Nat) (x : Wg) : (s.setWg u x).cmd = s.cmd := rfl
@[simp] theorem State.setWg_host (u : Nat) (x : Wg) : (s.setWg u x).host = s.host := rfl
@[simp] theorem State.setWg_tick (u : Nat) (x : Wg) : (s.setWg u x).tick = s.tick := rfl
@[simp] theorem State.setWg_clocks (u : Nat) (x : Wg) : (s.setWg u x).clocks = s.clocks := rfl
@[simp] theorem State.setWg_uid (u : Nat) (x : Wg) : (s.setWg u x).uid = s.uid := rfl
@[simp] theorem State.setWg_focus (u : Nat) (x : Wg) : (s.setWg u x).focus = s.focus := rfl

@[simp] theorem State.updWg_mem (u : Nat) (f : Wg → Wg) : (s.updWg u f).mem = s.mem := by unfold State.updWg; split <;> rfl
@[simp] theorem State.updWg_waves (u : Nat) (f : Wg → Wg) : (s.updWg u f).waves = s.waves := by unfold State.updWg; split <;> rfl
@[simp] theorem State.updWg_seqs (u : Nat) (f : Wg → Wg) : (s.updWg u f).seqs = s.seqs := by unfold State.updWg; split <;> rfl
@[simp] theorem State.updWg_cores (u : Nat) (f : Wg → Wg) : (s.updWg u f).cores = s.cores := by unfold State.updWg; split <;> rfl
@[simp] theorem State.updWg_timelines (u : Nat) (f : Wg → Wg) : (s.updWg u f).timelines = s.timelines := by unfold State.updWg; split <;> rfl
@[simp] theorem State.updWg_ops (u : Nat) (f : Wg → Wg) : (s.updWg u f).ops = s.ops := by unfold State.updWg; split <;> rfl
@[simp] theorem State.updWg_trl (u : Nat) (f : Wg → Wg) : (s.updWg u f).trl = s.trl := by unfold State.updWg; split <;> rfl
@[simp] theorem State.updWg_qd (u : Nat) (f : Wg → Wg) : (s.updWg u f).qd = s.qd := by unfold State.updWg; split <;> rfl
@[simp] theorem State.updWg_cmd (u : Nat) (f : Wg → Wg) : (s.updWg u f).cmd = s.cmd := by unfold State.updWg; split <;> rfl
@[simp] theorem State.updWg_host (u : Nat) (f : Wg → Wg) : (s.updWg u f).host = s.host := by unfold State.updWg; split <;> rfl
@[simp] theorem State.updWg_tick (u : Nat) (f : Wg → Wg) : (s.updWg u f).tick = s.tick := by unfold State.updWg; split <;> rfl
@[simp] theorem State.updWg_clocks (u : Nat) (f : Wg → Wg) : (s.updWg u f).clocks = s.clocks := by unfold State.updWg; split <;> rfl
@[simp] theorem State.updWg_uid (u : Nat) (f : Wg → Wg) : (s.updWg u f).uid = s.uid := by unfold State.updWg; split <;> rfl
@[simp] theorem State.updWg_focus (u : Nat) (f : Wg → Wg) : (s.updWg u f).focus = s.focus := by unfold State.updWg; split <;> rfl

@[simp] theorem State.setSeq_mem (q : Nat) (x : Seq) : (s.setSeq q x).mem = s.mem := rfl
@[simp] theorem State.setSeq_waves (q : Nat) (x : Seq) : (s.setSeq q x).waves = s.waves := rfl
@[simp] theorem State.setSeq_wgs (q : Nat) (x : Seq) : (s.setSeq q x).wgs = s.wgs := rfl
@[simp] theorem State.setSeq_cores (q : Nat) (x : Seq) : (s.setSeq q x).cores = s.cores := rfl
@[simp] theorem State.setSeq_timelines (q : Nat) (x : Seq) : (s.setSeq q x).timelines = s.timelines := rfl
@[simp] theorem State.setSeq_ops (q : Nat) (x : Seq) : (s.setSeq q x).ops = s.ops := rfl
@[simp] theorem State.setSeq_trl (q : Nat) (x : Seq) : (s.setSeq q x).trl = s.trl := rfl
@[simp] theorem State.setSeq_qd (q : Nat) (x : Seq) : (s.setSeq q x).qd = s.qd := rfl
@[simp] theorem State.setSeq_cmd (q : Nat) (x : Seq) : (s.setSeq q x).cmd = s.cmd := rfl
@[simp] theorem State.setSeq_host (q : Nat) (x : Seq) : (s.setSeq q x).host = s.host := rfl
@[simp] theorem State.setSeq_tick (q : Nat) (x : Seq) : (s.setSeq q x).tick = s.tick := rfl
@[simp] theorem State.setSeq_clocks (q : Nat) (x : Seq) : (s.setSeq q x).clocks = s.clocks := rfl
@[simp] theorem State.setSeq_uid (q : Nat) (x : Seq) : (s.setSeq q x).uid = s.uid := rfl
@[simp] theorem State.setSeq_focus (q : Nat) (x : Seq) : (s.setSeq q x).focus = s.focus := rfl

@[simp] theorem State.updSeq_mem (q : Nat) (f : Seq → Seq) : (s.updSeq q f).mem = s.mem := rfl
@[simp] theorem State.updSeq_waves (q : Nat) (f : Seq → Seq) : (s.updSeq q f).waves = s.waves := rfl
@[simp] theorem State.updSeq_wgs (q : Nat) (f : Seq → Seq) : (s.updSeq q f).wgs = s.wgs := rfl
@[simp] theorem State.updSeq_cores (q : Nat) (f : Seq → Seq) : (s.updSeq q f).cores = s.cores := rfl
@[simp] theorem State.updSeq_timelines (q : Nat) (f : Seq → Seq) : (s.updSeq q f).timelines = s.timelines := rfl
@[simp] theorem State.updSeq_ops (q : Nat) (f : Seq → Seq) : (s.updSeq q f).ops = s.ops := rfl
@[simp] theorem State.updSeq_trl (q : Nat) (f : Seq → Seq) : (s.updSeq q f).trl = s.trl := rfl
@[simp] theorem State.updSeq_qd (q : Nat) (f : Seq → Seq) : (s.updSeq q f).qd = s.qd := rfl
@[simp] theorem State.updSeq_cmd (q : Nat) (f : Seq → Seq) : (s.updSeq q f).cmd = s.cmd := rfl
@[simp] theorem State.updSeq_host (q : Nat) (f : Seq → Seq) : (s.updSeq q f).host = s.host := rfl
@[simp] theorem State.updSeq_tick (q : Nat) (f : Seq → Seq) : (s.updSeq q f).tick = s.tick := rfl
@[simp] theorem State.updSeq_clocks (q : Nat) (f : Seq → Seq) : (s.updSeq q f).clocks = s.clocks := rfl
@[simp] theorem State.updSeq_uid (q : Nat) (f : Seq → Seq) : (s.updSeq q f).uid = s.uid := rfl
@[simp] theorem State.updSeq_focus (q : Nat) (f : Seq → Seq) : (s.updSeq q f).focus = s.focus := rfl

@[simp] theorem State.setCore_mem (c : Nat) (x : Core) : (s.setCore c x).mem = s.mem := rfl
@[simp] theorem State.setCore_waves (c : Nat) (x : Core) : (s.setCore c x).waves = s.waves := rfl
@[simp] theorem State.setCore_wgs (c : Nat) (x : Core) : (s.setCore c x).wgs = s.wgs := rfl
@[simp] theorem State.setCore_seqs (c : Nat) (x : Core) : (s.setCore c x).seqs = s.seqs := rfl
@[simp] theorem State.setCore_timelines (c : Nat) (x : Core) : (s.setCore c x).timelines = s.timelines := rfl
@[simp] theorem State.setCore_ops (c : Nat) (x : Core) : (s.setCore c x).ops = s.ops := rfl
@[simp] theorem State.setCore_trl (c : Nat) (x : Core) : (s.setCore c x).trl = s.trl := rfl
@[simp] theorem State.setCore_qd (c : Nat) (x : Core) : (s.setCore c x).qd = s.qd := rfl
@[simp] theorem State.setCore_cmd (c : Nat) (x : Core) : (s.setCore c x).cmd = s.cmd := rfl
@[simp] theorem State.setCore_host (c : Nat) (x : Core) : (s.setCore c x).host = s.host := rfl
@[simp] theorem State.setCore_tick (c : Nat) (x : Core) : (s.setCore c x).tick = s.tick := rfl
@[simp] theorem State.setCore_clocks (c : Nat) (x : Core) : (s.setCore c x).clocks = s.clocks := rfl
@[simp] theorem State.setCore_uid (c : Nat) (x : Core) : (s.setCore c x).uid = s.uid := rfl
@[simp] theorem State.setCore_focus (c : Nat) (x : Core) : (s.setCore c x).focus = s.focus := rfl

@[simp] theorem State.updCore_mem (c : Nat) (f : Core → Core) : (s.updCore c f).mem = s.mem := rfl
@[simp] theorem State.updCore_waves (c : Nat) (f : Core → Core) : (s.updCore c f).waves = s.waves := rfl
@[simp] theorem State.updCore_wgs (c : Nat) (f : Core → Core) : (s.updCore c f).wgs = s.wgs := rfl
@[simp] theorem State.updCore_seqs (c : Nat) (f : Core → Core) : (s.updCore c f).seqs = s.seqs := rfl
@[simp] theorem State.updCore_timelines (c : Nat) (f : Core → Core) : (s.updCore c f).timelines = s.timelines := rfl
@[simp] theorem State.updCore_ops (c : Nat) (f : Core → Core) : (s.updCore c f).ops = s.ops := rfl
@[simp] theorem State.updCore_trl (c : Nat) (f : Core → Core) : (s.updCore c f).trl = s.trl := rfl
@[simp] theorem State.updCore_qd (c : Nat) (f : Core → Core) : (s.updCore c f).qd = s.qd := rfl
@[simp] theorem State.updCore_cmd (c : Nat) (f : Core → Core) : (s.updCore c f).cmd = s.cmd := rfl
@[simp] theorem State.updCore_host (c : Nat) (f : Core → Core) : (s.updCore c f).host = s.host := rfl
@[simp] theorem State.updCore_tick (c : Nat) (f : Core → Core) : (s.updCore c f).tick = s.tick := rfl
@[simp] theorem State.updCore_clocks (c : Nat) (f : Core → Core) : (s.updCore c f).clocks = s.clocks := rfl
@[simp] theorem State.updCore_uid (c : Nat) (f : Core → Core) : (s.updCore c f).uid = s.uid := rfl
@[simp] theorem State.updCore_focus (c : Nat) (f : Core → Core) : (s.updCore c f).focus = s.focus := rfl

@[simp] theorem State.setTimeline_mem (n : Nat) (x : Timeline) : (s.setTimeline n x).mem = s.mem := rfl
@[simp] theorem State.setTimeline_waves (n : Nat) (x : Timeline) : (s.setTimeline n x).waves = s.waves := rfl
@[simp] theorem State.setTimeline_wgs (n : Nat) (x : Timeline) : (s.setTimeline n x).wgs = s.wgs := rfl
@[simp] theorem State.setTimeline_seqs (n : Nat) (x : Timeline) : (s.setTimeline n x).seqs = s.seqs := rfl
@[simp] theorem State.setTimeline_cores (n : Nat) (x : Timeline) : (s.setTimeline n x).cores = s.cores := rfl
@[simp] theorem State.setTimeline_ops (n : Nat) (x : Timeline) : (s.setTimeline n x).ops = s.ops := rfl
@[simp] theorem State.setTimeline_trl (n : Nat) (x : Timeline) : (s.setTimeline n x).trl = s.trl := rfl
@[simp] theorem State.setTimeline_qd (n : Nat) (x : Timeline) : (s.setTimeline n x).qd = s.qd := rfl
@[simp] theorem State.setTimeline_cmd (n : Nat) (x : Timeline) : (s.setTimeline n x).cmd = s.cmd := rfl
@[simp] theorem State.setTimeline_host (n : Nat) (x : Timeline) : (s.setTimeline n x).host = s.host := rfl
@[simp] theorem State.setTimeline_tick (n : Nat) (x : Timeline) : (s.setTimeline n x).tick = s.tick := rfl
@[simp] theorem State.setTimeline_clocks (n : Nat) (x : Timeline) : (s.setTimeline n x).clocks = s.clocks := rfl
@[simp] theorem State.setTimeline_uid (n : Nat) (x : Timeline) : (s.setTimeline n x).uid = s.uid := rfl
@[simp] theorem State.setTimeline_focus (n : Nat) (x : Timeline) : (s.setTimeline n x).focus = s.focus := rfl

@[simp] theorem State.setOp_mem (o : Nat) (x : Op) : (s.setOp o x).mem = s.mem := rfl
@[simp] theorem State.setOp_waves (o : Nat) (x : Op) : (s.setOp o x).waves = s.waves := rfl
@[simp] theorem State.setOp_wgs (o : Nat) (x : Op) : (s.setOp o x).wgs = s.wgs := rfl
@[simp] theorem State.setOp_seqs (o : Nat) (x : Op) : (s.setOp o x).seqs = s.seqs := rfl
@[simp] theorem State.setOp_cores (o : Nat) (x : Op) : (s.setOp o x).cores = s.cores := rfl
@[simp] theorem State.setOp_timelines (o : Nat) (x : Op) : (s.setOp o x).timelines = s.timelines := rfl
@[simp] theorem State.setOp_trl (o : Nat) (x : Op) : (s.setOp o x).trl = s.trl := rfl
@[simp] theorem State.setOp_qd (o : Nat) (x : Op) : (s.setOp o x).qd = s.qd := rfl
@[simp] theorem State.setOp_cmd (o : Nat) (x : Op) : (s.setOp o x).cmd = s.cmd := rfl
@[simp] theorem State.setOp_host (o : Nat) (x : Op) : (s.setOp o x).host = s.host := rfl
@[simp] theorem State.setOp_tick (o : Nat) (x : Op) : (s.setOp o x).tick = s.tick := rfl
@[simp] theorem State.setOp_clocks (o : Nat) (x : Op) : (s.setOp o x).clocks = s.clocks := rfl
@[simp] theorem State.setOp_uid (o : Nat) (x : Op) : (s.setOp o x).uid = s.uid := rfl
@[simp] theorem State.setOp_focus (o : Nat) (x : Op) : (s.setOp o x).focus = s.focus := rfl

@[simp] theorem State.updOp_mem (o : Nat) (f : Op → Op) : (s.updOp o f).mem = s.mem := by unfold State.updOp; split <;> rfl
@[simp] theorem State.updOp_waves (o : Nat) (f : Op → Op) : (s.updOp o f).waves = s.waves := by unfold State.updOp; split <;> rfl
@[simp] theorem State.updOp_wgs (o : Nat) (f : Op → Op) : (s.updOp o f).wgs = s.wgs := by unfold State.updOp; split <;> rfl
@[simp] theorem State.updOp_seqs (o : Nat) (f : Op → Op) : (s.updOp o f).seqs = s.seqs := by unfold State.updOp; split <;> rfl
@[simp] theorem State.updOp_cores (o : Nat) (f : Op → Op) : (s.updOp o f).cores = s.cores := by unfold State.updOp; split <;> rfl
@[simp] theorem State.updOp_timelines (o : Nat) (f : Op → Op) : (s.updOp o f).timelines = s.timelines := by unfold State.updOp; split <;> rfl
@[simp] theorem State.updOp_trl (o : Nat) (f : Op → Op) : (s.updOp o f).trl = s.trl := by unfold State.updOp; split <;> rfl
@[simp] theorem State.updOp_qd (o : Nat) (f : Op → Op) : (s.updOp o f).qd = s.qd := by unfold State.updOp; split <;> rfl
@[simp] theorem State.updOp_cmd (o : Nat) (f : Op → Op) : (s.updOp o f).cmd = s.cmd := by unfold State.updOp; split <;> rfl
@[simp] theorem State.updOp_host (o : Nat) (f : Op → Op) : (s.updOp o f).host = s.host := by unfold State.updOp; split <;> rfl
@[simp] theorem State.updOp_tick (o : Nat) (f : Op → Op) : (s.updOp o f).tick = s.tick := by unfold State.updOp; split <;> rfl
@[simp] theorem State.updOp_clocks (o : Nat) (f : Op → Op) : (s.updOp o f).clocks = s.clocks := by unfold State.updOp; split <;> rfl
@[simp] theorem State.updOp_uid (o : Nat) (f : Op → Op) : (s.updOp o f).uid = s.uid := by unfold State.updOp; split <;> rfl
@[simp] theorem State.updOp_focus (o : Nat) (f : Op → Op) : (s.updOp o f).focus = s.focus := by unfold State.updOp; split <;> rfl

@[simp] theorem State.setTrl_mem (t : Trellis) : (s.setTrl t).mem = s.mem := rfl
@[simp] theorem State.setTrl_waves (t : Trellis) : (s.setTrl t).waves = s.waves := rfl
@[simp] theorem State.setTrl_wgs (t : Trellis) : (s.setTrl t).wgs = s.wgs := rfl
@[simp] theorem State.setTrl_seqs (t : Trellis) : (s.setTrl t).seqs = s.seqs := rfl
@[simp] theorem State.setTrl_cores (t : Trellis) : (s.setTrl t).cores = s.cores := rfl
@[simp] theorem State.setTrl_timelines (t : Trellis) : (s.setTrl t).timelines = s.timelines := rfl
@[simp] theorem State.setTrl_ops (t : Trellis) : (s.setTrl t).ops = s.ops := rfl
@[simp] theorem State.setTrl_qd (t : Trellis) : (s.setTrl t).qd = s.qd := rfl
@[simp] theorem State.setTrl_cmd (t : Trellis) : (s.setTrl t).cmd = s.cmd := rfl
@[simp] theorem State.setTrl_host (t : Trellis) : (s.setTrl t).host = s.host := rfl
@[simp] theorem State.setTrl_tick (t : Trellis) : (s.setTrl t).tick = s.tick := rfl
@[simp] theorem State.setTrl_clocks (t : Trellis) : (s.setTrl t).clocks = s.clocks := rfl
@[simp] theorem State.setTrl_uid (t : Trellis) : (s.setTrl t).uid = s.uid := rfl
@[simp] theorem State.setTrl_focus (t : Trellis) : (s.setTrl t).focus = s.focus := rfl

@[simp] theorem State.setNode_mem (n : Nat) (x : Node) : (s.setNode n x).mem = s.mem := rfl
@[simp] theorem State.setNode_waves (n : Nat) (x : Node) : (s.setNode n x).waves = s.waves := rfl
@[simp] theorem State.setNode_wgs (n : Nat) (x : Node) : (s.setNode n x).wgs = s.wgs := rfl
@[simp] theorem State.setNode_seqs (n : Nat) (x : Node) : (s.setNode n x).seqs = s.seqs := rfl
@[simp] theorem State.setNode_cores (n : Nat) (x : Node) : (s.setNode n x).cores = s.cores := rfl
@[simp] theorem State.setNode_timelines (n : Nat) (x : Node) : (s.setNode n x).timelines = s.timelines := rfl
@[simp] theorem State.setNode_ops (n : Nat) (x : Node) : (s.setNode n x).ops = s.ops := rfl
@[simp] theorem State.setNode_qd (n : Nat) (x : Node) : (s.setNode n x).qd = s.qd := rfl
@[simp] theorem State.setNode_cmd (n : Nat) (x : Node) : (s.setNode n x).cmd = s.cmd := rfl
@[simp] theorem State.setNode_host (n : Nat) (x : Node) : (s.setNode n x).host = s.host := rfl
@[simp] theorem State.setNode_tick (n : Nat) (x : Node) : (s.setNode n x).tick = s.tick := rfl
@[simp] theorem State.setNode_clocks (n : Nat) (x : Node) : (s.setNode n x).clocks = s.clocks := rfl
@[simp] theorem State.setNode_uid (n : Nat) (x : Node) : (s.setNode n x).uid = s.uid := rfl
@[simp] theorem State.setNode_focus (n : Nat) (x : Node) : (s.setNode n x).focus = s.focus := rfl

@[simp] theorem State.setLeaf_mem (n : Nat) (x : Leaf) : (s.setLeaf n x).mem = s.mem := rfl
@[simp] theorem State.setLeaf_waves (n : Nat) (x : Leaf) : (s.setLeaf n x).waves = s.waves := rfl
@[simp] theorem State.setLeaf_wgs (n : Nat) (x : Leaf) : (s.setLeaf n x).wgs = s.wgs := rfl
@[simp] theorem State.setLeaf_seqs (n : Nat) (x : Leaf) : (s.setLeaf n x).seqs = s.seqs := rfl
@[simp] theorem State.setLeaf_cores (n : Nat) (x : Leaf) : (s.setLeaf n x).cores = s.cores := rfl
@[simp] theorem State.setLeaf_timelines (n : Nat) (x : Leaf) : (s.setLeaf n x).timelines = s.timelines := rfl
@[simp] theorem State.setLeaf_ops (n : Nat) (x : Leaf) : (s.setLeaf n x).ops = s.ops := rfl
@[simp] theorem State.setLeaf_qd (n : Nat) (x : Leaf) : (s.setLeaf n x).qd = s.qd := rfl
@[simp] theorem State.setLeaf_cmd (n : Nat) (x : Leaf) : (s.setLeaf n x).cmd = s.cmd := rfl
@[simp] theorem State.setLeaf_host (n : Nat) (x : Leaf) : (s.setLeaf n x).host = s.host := rfl
@[simp] theorem State.setLeaf_tick (n : Nat) (x : Leaf) : (s.setLeaf n x).tick = s.tick := rfl
@[simp] theorem State.setLeaf_clocks (n : Nat) (x : Leaf) : (s.setLeaf n x).clocks = s.clocks := rfl
@[simp] theorem State.setLeaf_uid (n : Nat) (x : Leaf) : (s.setLeaf n x).uid = s.uid := rfl
@[simp] theorem State.setLeaf_focus (n : Nat) (x : Leaf) : (s.setLeaf n x).focus = s.focus := rfl

@[simp] theorem State.setPart_mem (n : Nat) (x : Part) : (s.setPart n x).mem = s.mem := rfl
@[simp] theorem State.setPart_waves (n : Nat) (x : Part) : (s.setPart n x).waves = s.waves := rfl
@[simp] theorem State.setPart_wgs (n : Nat) (x : Part) : (s.setPart n x).wgs = s.wgs := rfl
@[simp] theorem State.setPart_seqs (n : Nat) (x : Part) : (s.setPart n x).seqs = s.seqs := rfl
@[simp] theorem State.setPart_cores (n : Nat) (x : Part) : (s.setPart n x).cores = s.cores := rfl
@[simp] theorem State.setPart_timelines (n : Nat) (x : Part) : (s.setPart n x).timelines = s.timelines := rfl
@[simp] theorem State.setPart_ops (n : Nat) (x : Part) : (s.setPart n x).ops = s.ops := rfl
@[simp] theorem State.setPart_qd (n : Nat) (x : Part) : (s.setPart n x).qd = s.qd := rfl
@[simp] theorem State.setPart_cmd (n : Nat) (x : Part) : (s.setPart n x).cmd = s.cmd := rfl
@[simp] theorem State.setPart_host (n : Nat) (x : Part) : (s.setPart n x).host = s.host := rfl
@[simp] theorem State.setPart_tick (n : Nat) (x : Part) : (s.setPart n x).tick = s.tick := rfl
@[simp] theorem State.setPart_clocks (n : Nat) (x : Part) : (s.setPart n x).clocks = s.clocks := rfl
@[simp] theorem State.setPart_uid (n : Nat) (x : Part) : (s.setPart n x).uid = s.uid := rfl
@[simp] theorem State.setPart_focus (n : Nat) (x : Part) : (s.setPart n x).focus = s.focus := rfl

@[simp] theorem State.setItem_mem (i : Nat) (x : Item) : (s.setItem i x).mem = s.mem := rfl
@[simp] theorem State.setItem_waves (i : Nat) (x : Item) : (s.setItem i x).waves = s.waves := rfl
@[simp] theorem State.setItem_wgs (i : Nat) (x : Item) : (s.setItem i x).wgs = s.wgs := rfl
@[simp] theorem State.setItem_seqs (i : Nat) (x : Item) : (s.setItem i x).seqs = s.seqs := rfl
@[simp] theorem State.setItem_cores (i : Nat) (x : Item) : (s.setItem i x).cores = s.cores := rfl
@[simp] theorem State.setItem_timelines (i : Nat) (x : Item) : (s.setItem i x).timelines = s.timelines := rfl
@[simp] theorem State.setItem_ops (i : Nat) (x : Item) : (s.setItem i x).ops = s.ops := rfl
@[simp] theorem State.setItem_qd (i : Nat) (x : Item) : (s.setItem i x).qd = s.qd := rfl
@[simp] theorem State.setItem_cmd (i : Nat) (x : Item) : (s.setItem i x).cmd = s.cmd := rfl
@[simp] theorem State.setItem_host (i : Nat) (x : Item) : (s.setItem i x).host = s.host := rfl
@[simp] theorem State.setItem_tick (i : Nat) (x : Item) : (s.setItem i x).tick = s.tick := rfl
@[simp] theorem State.setItem_clocks (i : Nat) (x : Item) : (s.setItem i x).clocks = s.clocks := rfl
@[simp] theorem State.setItem_uid (i : Nat) (x : Item) : (s.setItem i x).uid = s.uid := rfl
@[simp] theorem State.setItem_focus (i : Nat) (x : Item) : (s.setItem i x).focus = s.focus := rfl

@[simp] theorem State.updItem_mem (i : Nat) (f : Item → Item) : (s.updItem i f).mem = s.mem := by unfold State.updItem; split <;> rfl
@[simp] theorem State.updItem_waves (i : Nat) (f : Item → Item) : (s.updItem i f).waves = s.waves := by unfold State.updItem; split <;> rfl
@[simp] theorem State.updItem_wgs (i : Nat) (f : Item → Item) : (s.updItem i f).wgs = s.wgs := by unfold State.updItem; split <;> rfl
@[simp] theorem State.updItem_seqs (i : Nat) (f : Item → Item) : (s.updItem i f).seqs = s.seqs := by unfold State.updItem; split <;> rfl
@[simp] theorem State.updItem_cores (i : Nat) (f : Item → Item) : (s.updItem i f).cores = s.cores := by unfold State.updItem; split <;> rfl
@[simp] theorem State.updItem_timelines (i : Nat) (f : Item → Item) : (s.updItem i f).timelines = s.timelines := by unfold State.updItem; split <;> rfl
@[simp] theorem State.updItem_ops (i : Nat) (f : Item → Item) : (s.updItem i f).ops = s.ops := by unfold State.updItem; split <;> rfl
@[simp] theorem State.updItem_qd (i : Nat) (f : Item → Item) : (s.updItem i f).qd = s.qd := by unfold State.updItem; split <;> rfl
@[simp] theorem State.updItem_cmd (i : Nat) (f : Item → Item) : (s.updItem i f).cmd = s.cmd := by unfold State.updItem; split <;> rfl
@[simp] theorem State.updItem_host (i : Nat) (f : Item → Item) : (s.updItem i f).host = s.host := by unfold State.updItem; split <;> rfl
@[simp] theorem State.updItem_tick (i : Nat) (f : Item → Item) : (s.updItem i f).tick = s.tick := by unfold State.updItem; split <;> rfl
@[simp] theorem State.updItem_clocks (i : Nat) (f : Item → Item) : (s.updItem i f).clocks = s.clocks := by unfold State.updItem; split <;> rfl
@[simp] theorem State.updItem_uid (i : Nat) (f : Item → Item) : (s.updItem i f).uid = s.uid := by unfold State.updItem; split <;> rfl
@[simp] theorem State.updItem_focus (i : Nat) (f : Item → Item) : (s.updItem i f).focus = s.focus := by unfold State.updItem; split <;> rfl

@[simp] theorem State.dropItem_mem (i : Nat) : (s.dropItem i).mem = s.mem := rfl
@[simp] theorem State.dropItem_waves (i : Nat) : (s.dropItem i).waves = s.waves := rfl
@[simp] theorem State.dropItem_wgs (i : Nat) : (s.dropItem i).wgs = s.wgs := rfl
@[simp] theorem State.dropItem_seqs (i : Nat) : (s.dropItem i).seqs = s.seqs := rfl
@[simp] theorem State.dropItem_cores (i : Nat) : (s.dropItem i).cores = s.cores := rfl
@[simp] theorem State.dropItem_timelines (i : Nat) : (s.dropItem i).timelines = s.timelines := rfl
@[simp] theorem State.dropItem_ops (i : Nat) : (s.dropItem i).ops = s.ops := rfl
@[simp] theorem State.dropItem_qd (i : Nat) : (s.dropItem i).qd = s.qd := rfl
@[simp] theorem State.dropItem_cmd (i : Nat) : (s.dropItem i).cmd = s.cmd := rfl
@[simp] theorem State.dropItem_host (i : Nat) : (s.dropItem i).host = s.host := rfl
@[simp] theorem State.dropItem_tick (i : Nat) : (s.dropItem i).tick = s.tick := rfl
@[simp] theorem State.dropItem_clocks (i : Nat) : (s.dropItem i).clocks = s.clocks := rfl
@[simp] theorem State.dropItem_uid (i : Nat) : (s.dropItem i).uid = s.uid := rfl
@[simp] theorem State.dropItem_focus (i : Nat) : (s.dropItem i).focus = s.focus := rfl

@[simp] theorem State.setQd_mem (q : Quiesce) : (s.setQd q).mem = s.mem := rfl
@[simp] theorem State.setQd_waves (q : Quiesce) : (s.setQd q).waves = s.waves := rfl
@[simp] theorem State.setQd_wgs (q : Quiesce) : (s.setQd q).wgs = s.wgs := rfl
@[simp] theorem State.setQd_seqs (q : Quiesce) : (s.setQd q).seqs = s.seqs := rfl
@[simp] theorem State.setQd_cores (q : Quiesce) : (s.setQd q).cores = s.cores := rfl
@[simp] theorem State.setQd_timelines (q : Quiesce) : (s.setQd q).timelines = s.timelines := rfl
@[simp] theorem State.setQd_ops (q : Quiesce) : (s.setQd q).ops = s.ops := rfl
@[simp] theorem State.setQd_trl (q : Quiesce) : (s.setQd q).trl = s.trl := rfl
@[simp] theorem State.setQd_cmd (q : Quiesce) : (s.setQd q).cmd = s.cmd := rfl
@[simp] theorem State.setQd_host (q : Quiesce) : (s.setQd q).host = s.host := rfl
@[simp] theorem State.setQd_tick (q : Quiesce) : (s.setQd q).tick = s.tick := rfl
@[simp] theorem State.setQd_clocks (q : Quiesce) : (s.setQd q).clocks = s.clocks := rfl
@[simp] theorem State.setQd_uid (q : Quiesce) : (s.setQd q).uid = s.uid := rfl
@[simp] theorem State.setQd_focus (q : Quiesce) : (s.setQd q).focus = s.focus := rfl

@[simp] theorem State.setRoot_mem (d : Nat) (r : Root) : (s.setRoot d r).mem = s.mem := rfl
@[simp] theorem State.setRoot_waves (d : Nat) (r : Root) : (s.setRoot d r).waves = s.waves := rfl
@[simp] theorem State.setRoot_wgs (d : Nat) (r : Root) : (s.setRoot d r).wgs = s.wgs := rfl
@[simp] theorem State.setRoot_seqs (d : Nat) (r : Root) : (s.setRoot d r).seqs = s.seqs := rfl
@[simp] theorem State.setRoot_cores (d : Nat) (r : Root) : (s.setRoot d r).cores = s.cores := rfl
@[simp] theorem State.setRoot_timelines (d : Nat) (r : Root) : (s.setRoot d r).timelines = s.timelines := rfl
@[simp] theorem State.setRoot_ops (d : Nat) (r : Root) : (s.setRoot d r).ops = s.ops := rfl
@[simp] theorem State.setRoot_trl (d : Nat) (r : Root) : (s.setRoot d r).trl = s.trl := rfl
@[simp] theorem State.setRoot_cmd (d : Nat) (r : Root) : (s.setRoot d r).cmd = s.cmd := rfl
@[simp] theorem State.setRoot_host (d : Nat) (r : Root) : (s.setRoot d r).host = s.host := rfl
@[simp] theorem State.setRoot_tick (d : Nat) (r : Root) : (s.setRoot d r).tick = s.tick := rfl
@[simp] theorem State.setRoot_clocks (d : Nat) (r : Root) : (s.setRoot d r).clocks = s.clocks := rfl
@[simp] theorem State.setRoot_uid (d : Nat) (r : Root) : (s.setRoot d r).uid = s.uid := rfl
@[simp] theorem State.setRoot_focus (d : Nat) (r : Root) : (s.setRoot d r).focus = s.focus := rfl

@[simp] theorem State.setCmd_mem (c : Command) : (s.setCmd c).mem = s.mem := rfl
@[simp] theorem State.setCmd_waves (c : Command) : (s.setCmd c).waves = s.waves := rfl
@[simp] theorem State.setCmd_wgs (c : Command) : (s.setCmd c).wgs = s.wgs := rfl
@[simp] theorem State.setCmd_seqs (c : Command) : (s.setCmd c).seqs = s.seqs := rfl
@[simp] theorem State.setCmd_cores (c : Command) : (s.setCmd c).cores = s.cores := rfl
@[simp] theorem State.setCmd_timelines (c : Command) : (s.setCmd c).timelines = s.timelines := rfl
@[simp] theorem State.setCmd_ops (c : Command) : (s.setCmd c).ops = s.ops := rfl
@[simp] theorem State.setCmd_trl (c : Command) : (s.setCmd c).trl = s.trl := rfl
@[simp] theorem State.setCmd_qd (c : Command) : (s.setCmd c).qd = s.qd := rfl
@[simp] theorem State.setCmd_host (c : Command) : (s.setCmd c).host = s.host := rfl
@[simp] theorem State.setCmd_tick (c : Command) : (s.setCmd c).tick = s.tick := rfl
@[simp] theorem State.setCmd_clocks (c : Command) : (s.setCmd c).clocks = s.clocks := rfl
@[simp] theorem State.setCmd_uid (c : Command) : (s.setCmd c).uid = s.uid := rfl
@[simp] theorem State.setCmd_focus (c : Command) : (s.setCmd c).focus = s.focus := rfl

@[simp] theorem State.setCtx_mem (c : Nat) (x : Context) : (s.setCtx c x).mem = s.mem := rfl
@[simp] theorem State.setCtx_waves (c : Nat) (x : Context) : (s.setCtx c x).waves = s.waves := rfl
@[simp] theorem State.setCtx_wgs (c : Nat) (x : Context) : (s.setCtx c x).wgs = s.wgs := rfl
@[simp] theorem State.setCtx_seqs (c : Nat) (x : Context) : (s.setCtx c x).seqs = s.seqs := rfl
@[simp] theorem State.setCtx_cores (c : Nat) (x : Context) : (s.setCtx c x).cores = s.cores := rfl
@[simp] theorem State.setCtx_timelines (c : Nat) (x : Context) : (s.setCtx c x).timelines = s.timelines := rfl
@[simp] theorem State.setCtx_ops (c : Nat) (x : Context) : (s.setCtx c x).ops = s.ops := rfl
@[simp] theorem State.setCtx_trl (c : Nat) (x : Context) : (s.setCtx c x).trl = s.trl := rfl
@[simp] theorem State.setCtx_qd (c : Nat) (x : Context) : (s.setCtx c x).qd = s.qd := rfl
@[simp] theorem State.setCtx_host (c : Nat) (x : Context) : (s.setCtx c x).host = s.host := rfl
@[simp] theorem State.setCtx_tick (c : Nat) (x : Context) : (s.setCtx c x).tick = s.tick := rfl
@[simp] theorem State.setCtx_clocks (c : Nat) (x : Context) : (s.setCtx c x).clocks = s.clocks := rfl
@[simp] theorem State.setCtx_uid (c : Nat) (x : Context) : (s.setCtx c x).uid = s.uid := rfl
@[simp] theorem State.setCtx_focus (c : Nat) (x : Context) : (s.setCtx c x).focus = s.focus := rfl

@[simp] theorem State.updCtx_mem (c : Nat) (f : Context → Context) : (s.updCtx c f).mem = s.mem := rfl
@[simp] theorem State.updCtx_waves (c : Nat) (f : Context → Context) : (s.updCtx c f).waves = s.waves := rfl
@[simp] theorem State.updCtx_wgs (c : Nat) (f : Context → Context) : (s.updCtx c f).wgs = s.wgs := rfl
@[simp] theorem State.updCtx_seqs (c : Nat) (f : Context → Context) : (s.updCtx c f).seqs = s.seqs := rfl
@[simp] theorem State.updCtx_cores (c : Nat) (f : Context → Context) : (s.updCtx c f).cores = s.cores := rfl
@[simp] theorem State.updCtx_timelines (c : Nat) (f : Context → Context) : (s.updCtx c f).timelines = s.timelines := rfl
@[simp] theorem State.updCtx_ops (c : Nat) (f : Context → Context) : (s.updCtx c f).ops = s.ops := rfl
@[simp] theorem State.updCtx_trl (c : Nat) (f : Context → Context) : (s.updCtx c f).trl = s.trl := rfl
@[simp] theorem State.updCtx_qd (c : Nat) (f : Context → Context) : (s.updCtx c f).qd = s.qd := rfl
@[simp] theorem State.updCtx_host (c : Nat) (f : Context → Context) : (s.updCtx c f).host = s.host := rfl
@[simp] theorem State.updCtx_tick (c : Nat) (f : Context → Context) : (s.updCtx c f).tick = s.tick := rfl
@[simp] theorem State.updCtx_clocks (c : Nat) (f : Context → Context) : (s.updCtx c f).clocks = s.clocks := rfl
@[simp] theorem State.updCtx_uid (c : Nat) (f : Context → Context) : (s.updCtx c f).uid = s.uid := rfl
@[simp] theorem State.updCtx_focus (c : Nat) (f : Context → Context) : (s.updCtx c f).focus = s.focus := rfl

@[simp] theorem State.setHost_mem (h : HostIf) : (s.setHost h).mem = s.mem := rfl
@[simp] theorem State.setHost_waves (h : HostIf) : (s.setHost h).waves = s.waves := rfl
@[simp] theorem State.setHost_wgs (h : HostIf) : (s.setHost h).wgs = s.wgs := rfl
@[simp] theorem State.setHost_seqs (h : HostIf) : (s.setHost h).seqs = s.seqs := rfl
@[simp] theorem State.setHost_cores (h : HostIf) : (s.setHost h).cores = s.cores := rfl
@[simp] theorem State.setHost_timelines (h : HostIf) : (s.setHost h).timelines = s.timelines := rfl
@[simp] theorem State.setHost_ops (h : HostIf) : (s.setHost h).ops = s.ops := rfl
@[simp] theorem State.setHost_trl (h : HostIf) : (s.setHost h).trl = s.trl := rfl
@[simp] theorem State.setHost_qd (h : HostIf) : (s.setHost h).qd = s.qd := rfl
@[simp] theorem State.setHost_cmd (h : HostIf) : (s.setHost h).cmd = s.cmd := rfl
@[simp] theorem State.setHost_tick (h : HostIf) : (s.setHost h).tick = s.tick := rfl
@[simp] theorem State.setHost_clocks (h : HostIf) : (s.setHost h).clocks = s.clocks := rfl
@[simp] theorem State.setHost_uid (h : HostIf) : (s.setHost h).uid = s.uid := rfl
@[simp] theorem State.setHost_focus (h : HostIf) : (s.setHost h).focus = s.focus := rfl

@[simp] theorem State.setQueue_mem (q : Nat) (x : HostQueue) : (s.setQueue q x).mem = s.mem := rfl
@[simp] theorem State.setQueue_waves (q : Nat) (x : HostQueue) : (s.setQueue q x).waves = s.waves := rfl
@[simp] theorem State.setQueue_wgs (q : Nat) (x : HostQueue) : (s.setQueue q x).wgs = s.wgs := rfl
@[simp] theorem State.setQueue_seqs (q : Nat) (x : HostQueue) : (s.setQueue q x).seqs = s.seqs := rfl
@[simp] theorem State.setQueue_cores (q : Nat) (x : HostQueue) : (s.setQueue q x).cores = s.cores := rfl
@[simp] theorem State.setQueue_timelines (q : Nat) (x : HostQueue) : (s.setQueue q x).timelines = s.timelines := rfl
@[simp] theorem State.setQueue_ops (q : Nat) (x : HostQueue) : (s.setQueue q x).ops = s.ops := rfl
@[simp] theorem State.setQueue_trl (q : Nat) (x : HostQueue) : (s.setQueue q x).trl = s.trl := rfl
@[simp] theorem State.setQueue_qd (q : Nat) (x : HostQueue) : (s.setQueue q x).qd = s.qd := rfl
@[simp] theorem State.setQueue_cmd (q : Nat) (x : HostQueue) : (s.setQueue q x).cmd = s.cmd := rfl
@[simp] theorem State.setQueue_tick (q : Nat) (x : HostQueue) : (s.setQueue q x).tick = s.tick := rfl
@[simp] theorem State.setQueue_clocks (q : Nat) (x : HostQueue) : (s.setQueue q x).clocks = s.clocks := rfl
@[simp] theorem State.setQueue_uid (q : Nat) (x : HostQueue) : (s.setQueue q x).uid = s.uid := rfl
@[simp] theorem State.setQueue_focus (q : Nat) (x : HostQueue) : (s.setQueue q x).focus = s.focus := rfl

@[simp] theorem State.setLaunch_mem (n : Nat) (x : Launch) : (s.setLaunch n x).mem = s.mem := rfl
@[simp] theorem State.setLaunch_waves (n : Nat) (x : Launch) : (s.setLaunch n x).waves = s.waves := rfl
@[simp] theorem State.setLaunch_wgs (n : Nat) (x : Launch) : (s.setLaunch n x).wgs = s.wgs := rfl
@[simp] theorem State.setLaunch_seqs (n : Nat) (x : Launch) : (s.setLaunch n x).seqs = s.seqs := rfl
@[simp] theorem State.setLaunch_cores (n : Nat) (x : Launch) : (s.setLaunch n x).cores = s.cores := rfl
@[simp] theorem State.setLaunch_timelines (n : Nat) (x : Launch) : (s.setLaunch n x).timelines = s.timelines := rfl
@[simp] theorem State.setLaunch_ops (n : Nat) (x : Launch) : (s.setLaunch n x).ops = s.ops := rfl
@[simp] theorem State.setLaunch_trl (n : Nat) (x : Launch) : (s.setLaunch n x).trl = s.trl := rfl
@[simp] theorem State.setLaunch_qd (n : Nat) (x : Launch) : (s.setLaunch n x).qd = s.qd := rfl
@[simp] theorem State.setLaunch_cmd (n : Nat) (x : Launch) : (s.setLaunch n x).cmd = s.cmd := rfl
@[simp] theorem State.setLaunch_tick (n : Nat) (x : Launch) : (s.setLaunch n x).tick = s.tick := rfl
@[simp] theorem State.setLaunch_clocks (n : Nat) (x : Launch) : (s.setLaunch n x).clocks = s.clocks := rfl
@[simp] theorem State.setLaunch_uid (n : Nat) (x : Launch) : (s.setLaunch n x).uid = s.uid := rfl
@[simp] theorem State.setLaunch_focus (n : Nat) (x : Launch) : (s.setLaunch n x).focus = s.focus := rfl

@[simp] theorem State.updLaunch_mem (n : Nat) (f : Launch → Launch) : (s.updLaunch n f).mem = s.mem := by unfold State.updLaunch; split <;> rfl
@[simp] theorem State.updLaunch_waves (n : Nat) (f : Launch → Launch) : (s.updLaunch n f).waves = s.waves := by unfold State.updLaunch; split <;> rfl
@[simp] theorem State.updLaunch_wgs (n : Nat) (f : Launch → Launch) : (s.updLaunch n f).wgs = s.wgs := by unfold State.updLaunch; split <;> rfl
@[simp] theorem State.updLaunch_seqs (n : Nat) (f : Launch → Launch) : (s.updLaunch n f).seqs = s.seqs := by unfold State.updLaunch; split <;> rfl
@[simp] theorem State.updLaunch_cores (n : Nat) (f : Launch → Launch) : (s.updLaunch n f).cores = s.cores := by unfold State.updLaunch; split <;> rfl
@[simp] theorem State.updLaunch_timelines (n : Nat) (f : Launch → Launch) : (s.updLaunch n f).timelines = s.timelines := by unfold State.updLaunch; split <;> rfl
@[simp] theorem State.updLaunch_ops (n : Nat) (f : Launch → Launch) : (s.updLaunch n f).ops = s.ops := by unfold State.updLaunch; split <;> rfl
@[simp] theorem State.updLaunch_trl (n : Nat) (f : Launch → Launch) : (s.updLaunch n f).trl = s.trl := by unfold State.updLaunch; split <;> rfl
@[simp] theorem State.updLaunch_qd (n : Nat) (f : Launch → Launch) : (s.updLaunch n f).qd = s.qd := by unfold State.updLaunch; split <;> rfl
@[simp] theorem State.updLaunch_cmd (n : Nat) (f : Launch → Launch) : (s.updLaunch n f).cmd = s.cmd := by unfold State.updLaunch; split <;> rfl
@[simp] theorem State.updLaunch_tick (n : Nat) (f : Launch → Launch) : (s.updLaunch n f).tick = s.tick := by unfold State.updLaunch; split <;> rfl
@[simp] theorem State.updLaunch_clocks (n : Nat) (f : Launch → Launch) : (s.updLaunch n f).clocks = s.clocks := by unfold State.updLaunch; split <;> rfl
@[simp] theorem State.updLaunch_uid (n : Nat) (f : Launch → Launch) : (s.updLaunch n f).uid = s.uid := by unfold State.updLaunch; split <;> rfl
@[simp] theorem State.updLaunch_focus (n : Nat) (f : Launch → Launch) : (s.updLaunch n f).focus = s.focus := by unfold State.updLaunch; split <;> rfl

@[simp] theorem State.send_mem (m : Msg) : (s.send m).mem = s.mem := rfl
@[simp] theorem State.send_waves (m : Msg) : (s.send m).waves = s.waves := rfl
@[simp] theorem State.send_wgs (m : Msg) : (s.send m).wgs = s.wgs := rfl
@[simp] theorem State.send_seqs (m : Msg) : (s.send m).seqs = s.seqs := rfl
@[simp] theorem State.send_cores (m : Msg) : (s.send m).cores = s.cores := rfl
@[simp] theorem State.send_timelines (m : Msg) : (s.send m).timelines = s.timelines := rfl
@[simp] theorem State.send_ops (m : Msg) : (s.send m).ops = s.ops := rfl
@[simp] theorem State.send_trl (m : Msg) : (s.send m).trl = s.trl := rfl
@[simp] theorem State.send_qd (m : Msg) : (s.send m).qd = s.qd := rfl
@[simp] theorem State.send_cmd (m : Msg) : (s.send m).cmd = s.cmd := rfl
@[simp] theorem State.send_tick (m : Msg) : (s.send m).tick = s.tick := rfl
@[simp] theorem State.send_clocks (m : Msg) : (s.send m).clocks = s.clocks := rfl
@[simp] theorem State.send_uid (m : Msg) : (s.send m).uid = s.uid := rfl
@[simp] theorem State.send_focus (m : Msg) : (s.send m).focus = s.focus := rfl

@[simp] theorem State.setMem_waves (m : Mem) : (s.setMem m).waves = s.waves := rfl
@[simp] theorem State.setMem_wgs (m : Mem) : (s.setMem m).wgs = s.wgs := rfl
@[simp] theorem State.setMem_seqs (m : Mem) : (s.setMem m).seqs = s.seqs := rfl
@[simp] theorem State.setMem_cores (m : Mem) : (s.setMem m).cores = s.cores := rfl
@[simp] theorem State.setMem_timelines (m : Mem) : (s.setMem m).timelines = s.timelines := rfl
@[simp] theorem State.setMem_ops (m : Mem) : (s.setMem m).ops = s.ops := rfl
@[simp] theorem State.setMem_trl (m : Mem) : (s.setMem m).trl = s.trl := rfl
@[simp] theorem State.setMem_qd (m : Mem) : (s.setMem m).qd = s.qd := rfl
@[simp] theorem State.setMem_cmd (m : Mem) : (s.setMem m).cmd = s.cmd := rfl
@[simp] theorem State.setMem_host (m : Mem) : (s.setMem m).host = s.host := rfl
@[simp] theorem State.setMem_tick (m : Mem) : (s.setMem m).tick = s.tick := rfl
@[simp] theorem State.setMem_clocks (m : Mem) : (s.setMem m).clocks = s.clocks := rfl
@[simp] theorem State.setMem_uid (m : Mem) : (s.setMem m).uid = s.uid := rfl
@[simp] theorem State.setMem_focus (m : Mem) : (s.setMem m).focus = s.focus := rfl

/-! Reads of a unit after its own update. -/

theorem State.wave_setWave (w v : Nat) (x : Wave) : (s.setWave w x).wave? v = if v = w then some x else s.wave? v :=
  tget_tput ..
@[simp] theorem State.wave_setWave_same (w : Nat) (x : Wave) : (s.setWave w x).wave? w = some x := tget_tput_same ..
theorem State.wave_setWave_other {w v : Nat} (x : Wave) (h : v ≠ w) : (s.setWave w x).wave? v = s.wave? v :=
  tget_tput_other _ _ h
theorem State.wave_updWave_same {w : Nat} {x : Wave} (f : Wave → Wave) (h : s.wave? w = some x) :
    (s.updWave w f).wave? w = some (f x) := by simp [State.updWave, h]
theorem State.wave_updWave_other {w v : Nat} (f : Wave → Wave) (h : v ≠ w) : (s.updWave w f).wave? v = s.wave? v := by
  unfold State.updWave
  split
  · exact State.wave_setWave_other _ _ h
  · rfl
theorem State.updWave_eq {w : Nat} {x : Wave} (f : Wave → Wave) (h : s.wave? w = some x) :
    s.updWave w f = s.setWave w (f x) := by simp [State.updWave, h]

theorem State.wave_congr {s t : State} (h : t.waves = s.waves) (w : Nat) : t.wave? w = s.wave? w := by
  simp [State.wave?, h]
theorem State.wg_congr {s t : State} (h : t.wgs = s.wgs) (u : Nat) : t.wg? u = s.wg? u := by simp [State.wg?, h]
theorem State.seq_congr {s t : State} (h : t.seqs = s.seqs) (q : Nat) : t.seq q = s.seq q := by simp [State.seq, h]
theorem State.core_congr {s t : State} (h : t.cores = s.cores) (c : Nat) : t.core c = s.core c := by simp [State.core, h]

@[simp] theorem State.wg_setWg_same (u : Nat) (x : Wg) : (s.setWg u x).wg? u = some x := tget_tput_same ..
theorem State.wg_setWg_other {u v : Nat} (x : Wg) (h : v ≠ u) : (s.setWg u x).wg? v = s.wg? v := tget_tput_other _ _ h
theorem State.wg_updWg_same {u : Nat} {x : Wg} (f : Wg → Wg) (h : s.wg? u = some x) :
    (s.updWg u f).wg? u = some (f x) := by simp [State.updWg, h]
theorem State.wg_updWg_other {u v : Nat} (f : Wg → Wg) (h : v ≠ u) : (s.updWg u f).wg? v = s.wg? v := by
  unfold State.updWg
  split
  · exact State.wg_setWg_other _ _ h
  · rfl

@[simp] theorem State.seq_setSeq_same (q : Nat) (x : Seq) : (s.setSeq q x).seq q = x := by
  simp [State.seq, State.setSeq]
theorem State.seq_setSeq_other {q p : Nat} (x : Seq) (h : p ≠ q) : (s.setSeq q x).seq p = s.seq p := by
  simp [State.seq, State.setSeq, tget_tput_other _ _ h]
@[simp] theorem State.seq_updSeq_same (q : Nat) (f : Seq → Seq) : (s.updSeq q f).seq q = f (s.seq q) := by
  simp [State.updSeq]
theorem State.seq_updSeq_other {q p : Nat} (f : Seq → Seq) (h : p ≠ q) : (s.updSeq q f).seq p = s.seq p :=
  State.seq_setSeq_other _ _ h

@[simp] theorem State.core_setCore_same (c : Nat) (x : Core) : (s.setCore c x).core c = x := by
  simp [State.core, State.setCore]
theorem State.core_setCore_other {c d : Nat} (x : Core) (h : d ≠ c) : (s.setCore c x).core d = s.core d := by
  simp [State.core, State.setCore, tget_tput_other _ _ h]
@[simp] theorem State.core_updCore_same (c : Nat) (f : Core → Core) : (s.updCore c f).core c = f (s.core c) := by
  simp [State.updCore]
theorem State.core_updCore_other {c d : Nat} (f : Core → Core) (h : d ≠ c) : (s.updCore c f).core d = s.core d :=
  State.core_setCore_other _ _ h

@[simp] theorem State.timeline_setTimeline_same (n : Nat) (x : Timeline) : (s.setTimeline n x).timeline n = x := by
  simp [State.timeline, State.setTimeline]
theorem State.timeline_setTimeline_other {n m : Nat} (x : Timeline) (h : m ≠ n) :
    (s.setTimeline n x).timeline m = s.timeline m := by simp [State.timeline, State.setTimeline, tget_tput_other _ _ h]
@[simp] theorem State.op_setOp_same (o : Nat) (x : Op) : (s.setOp o x).op? o = some x := tget_tput_same ..
@[simp] theorem State.root_setRoot_same (d : Nat) (r : Root) : (s.setRoot d r).root d = r := by
  simp [State.root, State.setRoot, State.setQd]
theorem State.root_setRoot_other {d e : Nat} (r : Root) (h : e ≠ d) : (s.setRoot d r).root e = s.root e := by
  simp [State.root, State.setRoot, State.setQd, tget_tput_other _ _ h]
@[simp] theorem State.ctx_setCtx_same (c : Nat) (x : Context) : (s.setCtx c x).ctx c = x := by
  simp [State.ctx, State.setCtx, State.setCmd]
theorem State.ctx_setCtx_other {c d : Nat} (x : Context) (h : d ≠ c) : (s.setCtx c x).ctx d = s.ctx d := by
  simp [State.ctx, State.setCtx, State.setCmd, tget_tput_other _ _ h]
@[simp] theorem State.item_setItem_same (i : Nat) (x : Item) : (s.setItem i x).item? i = some x := tget_tput_same ..
@[simp] theorem State.node_setNode_same (n : Nat) (x : Node) : (s.setNode n x).node n = x := by
  simp [State.node, State.setNode, State.setTrl]
@[simp] theorem State.leaf_setLeaf_same (n : Nat) (x : Leaf) : (s.setLeaf n x).leaf n = x := by
  simp [State.leaf, State.setLeaf, State.setTrl]
@[simp] theorem State.queue_setQueue_same (q : Nat) (x : HostQueue) : (s.setQueue q x).queue q = x := by
  simp [State.queue, State.setQueue, State.setHost]

end Sys2Proof.Machine
end

