-- ==== Sys2Proof/Safety.lean ====
section
/-! DEFINITION. The words in which statements about the model are made: when an instruction performs, what a retirement
leaves, what stays as it was, and the invariant that every step keeps. -/

namespace Sys2Proof.Machine

/-! Words. -/

/-- The opcodes that R90 leaves unassigned. -/
def unassigned (op : Nat) : Bool :=
  (0x0D ≤ op && op ≤ 0x0F) || (0x47 ≤ op && op ≤ 0x4F) || op == 0x56 || op == 0x57 || (0x63 ≤ op && op ≤ 0x67) ||
  (0x6E ≤ op && op ≤ 0x7F) || op == 0x87 || (0x8D ≤ op && op ≤ 0x8F) || op == 0x96 || op == 0x97 || op == 0x9F || op == 0xAE ||
  op == 0xAF || (0xB7 ≤ op && op ≤ 0xBF) || (0xC8 ≤ op && op ≤ 0xCF) || (0xD0 ≤ op && op ≤ 0xFF)

/-- A line of the instruction cache around a core holds the word at an address, it is not uncorrectable, and a fetch has walked the line's
page (R29, R355). -/
def State.holdsWord (s : State) (core ctx va : Nat) (word : DWord) : Prop :=
  ∃ l ws, s.lineAt (clusterOfCore core) ctx va = some l ∧ l.walked = true ∧ l.words = some ws ∧ l.bad.contains (va / 8 % 16) = false ∧ ws.getD (va / 8 % 16) 0 = word

/-- The address of the next word of the clause of `x` (R22). -/
def Issue.wordVa (x : Issue) : Nat := x.cl.pc + 8 * (x.cl.index + 1)

/-- The next word of the clause or expansion of `x` is `word`: the expansion holds it, or the sequencer keeps it while the body of its
MDEF arrives, or a line of the instruction cache holds it, which is not uncorrectable there, and no FAIL response has ended its
fetch (R22, R29, R77, R189, R190, R359). -/
def State.nextIs (s : State) (q : Nat) (x : Issue) (word : DWord) : Prop :=
  match x.cl.mac, (s.seq q).body with
  | some m, _ => m.ops.getD m.next 0 = word
  | none, k :: _ => k = word
  | none, [] => (s.seq (seqOfWave x.w)).fetchFail ≠ some x.wordVa ∧ s.holdsWord x.core x.wg.ctx x.wordVa word

/-- The state after the fetch of the next word, where it is there: a miss that waited for it is served (R29), and a line of an uncacheable
page is gone (R349). -/
def State.served (s : State) (q : Nat) (x : Issue) : State :=
  match x.cl.mac, (s.seq q).body with
  | none, [] => match s.lineAt (clusterOfCore x.core) x.wg.ctx x.wordVa with
    | some l => s.takeWord (seqOfWave x.w) x.wordVa l
    | none => s
  | _, _ => s

/-- The state in which the next instruction runs: its word has been fetched, a holding one keeps no word any more (log 76), and its
sequencer is in focus. -/
def State.runs (s : State) (q : Nat) (x : Issue) (i : Instr) : State :=
  let t := s.served q x
  { (if isHolding i then t.keepBody x.w [] else t) with focus := some q }

/-- The sequencer `q` is chosen to issue, and `word` is the next word of its wave's clause. -/
def State.issues (s : State) (q : Nat) (x : Issue) (word : DWord) : Prop :=
  s.choice = some (.issue q) ∧ (s.seq q).active = some x.w ∧ s.issueOf x.w = some x ∧ s.nextIs q x word

/-! When an instruction performs. -/

/-- Instruction `i` with guard `g` is in issue as `x`, stands where R75, R93 and R194 let it stand, has legal operands (R76,
steps 4 to 7), and its EXEC is not empty (R27). -/
def State.performs (s : State) (i : Instr) (g : Guard) (x : Issue) : Prop :=
  s.issue? = some x ∧ s.positionOk x i = true ∧ x.operandsOk i = true ∧ x.exec g ≠ 0

/-- Every register that the instruction reads is there to be read: none is being spilled or must be filled first (R65, R67),
none is released (R53) or uncorrectable (R375) in a lane read; and no slot leaves the window into a register whose fill brings
uncorrectable data (R67). -/
def State.readable (s : State) (x : Issue) (reads : List Read) (dsts : List (RegFile × Nat)) : Prop :=
  s.spillConflict x reads dsts = false ∧
  (∀ r ∈ reads, r.relMask x = 0 ∧ r.needsFill x = false ∧ r.poisonMask x = 0) ∧ s.exitFaults x = 0

/-! Registers as they read. -/

/-- The word that a read of a lane finds: 0 where the lane is released (R53). -/
def Wave.readsAs (x : Wave) (f : RegFile) (n l : Nat) : Word :=
  if (x.released f n).getLsbD l then 0 else laneOf (x.lanes f n) l

/-- Whether a release names a lane of a register. -/
def Rel.hits (r : Rel) (f : RegFile) (n l : Nat) : Bool := r.file == f && r.reg == n && r.lanes.getLsbD l

/-- The word in a lane of a register after a result, `old` before it. -/
def Put.word (p : Put) (x : Issue) (f : RegFile) (n l : Nat) (old : Word) : Word :=
  match p with
  | .vec k m v => if f == .vec && n == k && m.getLsbD l && !x.isTrapReg k then laneOf v l else old
  | .scl k v => if f == .scl && n == k then laneOf (scalarLanes v) l else old
  | _ => old

/-- The word in a lane of a trap register after a result (R36). -/
def Put.bankWord (p : Put) (x : Issue) (k l : Nat) (old : Word) : Word :=
  match p with
  | .vec n m v => if x.isTrapReg n && n - 240 == k && m.getLsbD l then laneOf v l else old
  | _ => old

/-- A predicate register after a result: p0 discards it (R31). -/
def Put.predMask (p : Put) (n : Nat) (old : Mask) : Mask :=
  match p with
  | .pred k m v => if k == n && k != 0 then (old &&& ~~~m) ||| (v &&& m) else old
  | _ => old

/-- A group register after a result (R34). -/
def Put.grpWord (p : Put) (n : Nat) (old : DWord) : DWord :=
  match p with
  | .grp k v => if k == n then v else old
  | _ => old

/-- Outstanding long-latency results without the lanes of a register that a later write or release takes away (R40). -/
def withoutLanes (l : List LLOp) (f : RegFile) (n : Nat) (m : Mask) : List LLOp :=
  l.map fun o => { o with writes := o.writes.map fun w =>
    if w.file == f && w.reg == n then { w with mask := w.mask &&& ~~~m } else w }

/-- Outstanding long-latency results without one for a group register that a later write takes away (R40). -/
def withoutGrp (l : List LLOp) (n : Nat) : List LLOp :=
  l.map fun o => match o.grp with
    | some (k, _) => if k = n then { o with grp := none } else o
    | none => o

/-- Outstanding results after a result at retirement; one that waits joins them under the flags of its clause (R38). -/
def Put.waiting (p : Put) (x : Issue) (l : List LLOp) : List LLOp :=
  match p with
  | .vec n m _ => withoutLanes l .vec (x.llReg n) m
  | .scl n _ => withoutLanes l .scl n allLanes
  | .grp n _ => withoutGrp l n
  | .pred _ _ _ => l
  | .later o => l ++ [x.cl.issued o]

/-- Whether an instruction's releases or results name a register. -/
def named (rels : List Rel) (puts : List Put) (f : RegFile) (n : Nat) : Bool :=
  (rels.any fun r => r.file == f && r.reg == n) ||
  puts.any fun p => match p with
    | .vec k _ _ => f == .vec && k == n
    | .scl k _ => f == .scl && k == n
    | _ => false

/-! What stays as it was. -/

/-- A wave that an instruction of another wave leaves alone: its registers may move between the window, the pool and their
spill slots, and keep what they hold. -/
def Wave.kept (x y : Wave) : Prop :=
  y = { x with v := y.v, s := y.s, spills := y.spills } ∧
  ∀ f n, y.lanes f n = x.lanes f n ∧ y.released f n = x.released f n ∧ y.poisoned f n = x.poisoned f n

/-- A core of which only the two register pools may differ. -/
def Core.kept (a b : Core) : Prop := b = { a with vpool := b.vpool, spool := b.spool }

/-- Everything outside the waves, the workgroups, the pools and the sequencers is as it was. -/
def State.unitsKept (s t : State) : Prop :=
  t.mem = s.mem ∧ t.timelines = s.timelines ∧ t.ops = s.ops ∧ t.trl = s.trl ∧ t.qd = s.qd ∧ t.cmd = s.cmd ∧ t.host = s.host ∧
  t.tick = s.tick ∧ t.clocks = s.clocks ∧ t.uid = s.uid ∧ t.focus = s.focus ∧ ∀ c, (s.core c).kept (t.core c)

/-- Every wave but one is left alone. -/
def State.othersKept (s t : State) (w : Nat) : Prop :=
  ∀ v, v ≠ w → (s.wave? v = none → t.wave? v = none) ∧ ∀ x, s.wave? v = some x → ∃ y, t.wave? v = some y ∧ x.kept y

/-! What a retirement leaves (R50). -/

/-- The registers of the issuing wave after the releases and then the results of its instruction. -/
def State.resultsIn (s t : State) (x : Issue) (rels : List Rel) (puts : List Put) (y : Wave) : Prop :=
  (∀ f n l, l < 32 → y.readsAs f n l =
    puts.foldl (fun a p => p.word x f n l a) (if rels.any (fun r => r.hits f n l) then 0 else x.wave.readsAs f n l)) ∧
  (∀ f n, named rels puts f n = false →
    y.lanes f n = x.wave.lanes f n ∧ y.released f n = x.wave.released f n ∧ y.poisoned f n = x.wave.poisoned f n) ∧
  (∀ n, y.pred n = puts.foldl (fun a p => p.predMask n a) (x.wave.pred n)) ∧
  y.ll = puts.foldl (fun l p => p.waiting x l) (rels.foldl (fun l r => withoutLanes l r.file r.reg r.lanes) x.wave.ll) ∧
  (∀ k l, l < 32 → laneOf ((t.seq (seqOfWave x.w)).bank.getD k []) l =
    puts.foldl (fun a p => p.bankWord x k l a) (laneOf ((s.seq (seqOfWave x.w)).bank.getD k []) l)) ∧
  ∃ g, t.wg? x.wave.wg = some g ∧ g = { x.wg with grp := g.grp, claims := g.claims } ∧
    ∀ n, g.grp.getD n 0 = puts.foldl (fun a p => p.grpWord n a) (x.wg.grp.getD n 0)

/-- The issuing wave has retired one instruction with these releases, results and sticky bits, and nothing else has
changed but its own place in its program, the window, and where registers stand. -/
def State.retired (s t : State) (x : Issue) (rels : List Rel) (puts : List Put) (st : Sticky) : Prop :=
  (∃ y, t.wave? x.w = some y ∧ s.resultsIn t x rels puts y ∧
    y = { x.wave with
      v := y.v, s := y.s, window := y.window, preds := y.preds, ll := y.ll, sticky := x.wave.sticky ||| st
      retired := x.wave.retired + 1, spills := y.spills, clause := y.clause, frontier := y.frontier
      handlers := y.handlers }) ∧
  s.unitsKept t ∧ s.othersKept t x.w ∧ (∀ u, u ≠ x.wave.wg → t.wg? u = s.wg? u) ∧
  ∀ q, q ≠ seqOfWave x.w → t.seq q = s.seq q

/-- The clause goes on behind the instruction (R22): at its next instruction, at the next operation of the expansion (R190), or
its lanes stand in a READY entry at the next clause. -/
def State.wentOn (t : State) (x : Issue) : Prop :=
  ∃ y, t.wave? x.w = some y ∧
    match x.cl.mac with
    | some m =>
      if m.next + 1 < m.ops.length then
        y.clause = some { x.cl with mac := some { m with next := m.next + 1 }, failed := false, addrs := [] }
      else y.clause = none ∧ ∃ e ∈ y.entries x.cl.handler, e.st = .ready ∧ e.pc = x.cl.nextPc ∧ e.mask &&& x.cl.lanes = x.cl.lanes
    | none =>
      if x.cl.index + 1 < x.cl.count then y.clause = some { x.cl with index := x.cl.index + 1, failed := false, addrs := [] }
      else y.clause = none ∧ ∃ e ∈ y.entries x.cl.handler, e.st = .ready ∧ e.pc = x.cl.nextPc ∧ e.mask &&& x.cl.lanes = x.cl.lanes

/-! The forms in which instructions complete. -/

/-- An instruction retires with these releases, results and sticky bits, changes nothing else, and its clause goes on. -/
def Retires (i : Instr) (s : State) (x : Issue) (rels : List Rel) (puts : List Put) (st : Sticky) : Prop :=
  ∃ t, exec i s = .next t ∧ s.retired t x rels puts st ∧ t.wentOn x

/-- Nothing stands between a VR-format instruction and its result: its registers can be read, no other wave has claimed its
group register (R33), and no ARITH condition that it meets is enabled outside a handler (R44). -/
def State.vrClear (s : State) (x : Issue) (f : VR) (p : Plan) : Prop :=
  s.readable x p.reads (vrDsts f p.ty) ∧ (f.dk = .grp → x.groupTaken f.dst.toNat = false) ∧
  (x.cl.handler = true ∨ arithEnabled x.wave.trapen (stickyAll (p.res.map (·.2))) = false)

/-- A VR-format instruction retires with the results of its plan in its destination. -/
def VrRetires (i : Instr) (f : VR) (plan : State → Issue → Mask → Plan) : Prop :=
  ∀ s x, s.performs i f.g x → s.vrClear x f (plan s x (x.exec f.g)) →
    Retires i s x (plan s x (x.exec f.g)).rels
      (vrPuts f (plan s x (x.exec f.g)).ty (plan s x (x.exec f.g)).lanes (plan s x (x.exec f.g)).res)
      (stickyAll ((plan s x (x.exec f.g)).res.map (·.2)))

/-- A long-latency VR-format instruction retires with its result outstanding under the clause's flags (R37, R38); a group
register is claimed at issue (R33). -/
def VrIssues (i : Instr) (f : VR) (plan : State → Issue → Mask → Plan) : Prop :=
  ∀ s x, s.performs i f.g x → s.vrClear x f (plan s x (x.exec f.g)) →
    let p := plan s x (x.exec f.g)
    let g : Wg := if f.dk == .grp then { x.wg with claims := lsetD none x.wg.claims f.dst.toNat (some x.wave.waveId) } else x.wg
    let s' : State := if f.dk == .grp then s.setWg x.wave.wg g else s
    ∃ t, exec i s = .next t ∧
      s'.retired t { x with wg := g } p.rels [.later (x.llOf f p.ty p.lanes p.res (stickyAll (p.res.map (·.2))))] 0 ∧ t.wentOn x

/-- Where RELREAD is enabled outside a handler, released lanes that an instruction reads raise RELEASED_READ with those lanes, or with
every lane of EXEC for a scalar register, before any other condition (R53). -/
def ReleasedTraps (i : Instr) (g : Guard) (reads : State → Issue → Mask → List Read)
    (dsts : State → Issue → Mask → List (RegFile × Nat)) : Prop :=
  ∀ s x m, s.performs i g x → x.cl.handler = false → relreadEnabled x.wave.trapen = true → s.exitFaults x = 0 →
    s.spillConflict x (reads s x (x.exec g)) (dsts s x (x.exec g)) = false → m ≠ 0 →
    (∀ l, m.getLsbD l = (reads s x (x.exec g)).any fun r => (r.relMask x).getLsbD l) →
    exec i s = .next (s.raiseTrap x 8 0 m .relread)

/-- The traps of a VR-format instruction. Where RELREAD is enabled outside a handler, released lanes that it reads raise RELEASED_READ
before any other condition, with those lanes (R53); else an enabled condition that its results meet raises ARITH, with the lanes in which
it arose, or every lane of EXEC on the scalar path. SR_STATUS takes every bit of the instruction, and it writes nothing (R44). -/
def VrTraps (i : Instr) (f : VR) (plan : State → Issue → Mask → Plan) : Prop :=
  ∀ s x m, s.performs i f.g x → x.cl.handler = false → s.exitFaults x = 0 →
    let p := plan s x (x.exec f.g)
    let own := stickyAll (p.res.map (·.2))
    (s.spillConflict x p.reads (vrDsts f p.ty) = false → relreadEnabled x.wave.trapen = true → m ≠ 0 →
      (∀ l, m.getLsbD l = p.reads.any fun r => (r.relMask x).getLsbD l) →
      exec i s = .next (s.raiseTrap x 8 0 m (.relread ||| own))) ∧
    (s.readable x p.reads (vrDsts f p.ty) → (f.dk = .grp → x.groupTaken f.dst.toNat = false) →
      arithEnabled x.wave.trapen own = true →
      (∀ l, m.getLsbD l = if f.dk = .scl ∨ f.dk = .grp then (x.exec f.g).getLsbD l
        else decide (l < 32) && arithEnabled x.wave.trapen (p.res.getD l (0, 0)).2) →
      exec i s = .next (s.raiseTrap x 0x0B 0 m own))

/-- The same for an instruction whose lanes compute `fn` of their own operands. -/
def AluTraps (i : VR → Instr) (fn : VR → Nat → Nat → Nat → Nat × Sticky) : Prop :=
  ∀ f, VrTraps (i f) f (planAlu (vrShape (i f)) f (fn f))

/-- An instruction whose lanes compute `fn` of their own operands retires with those values (R127). -/
def AluRetires (i : VR → Instr) (fn : VR → Nat → Nat → Nat → Nat × Sticky) : Prop :=
  ∀ f, VrRetires (i f) f (planAlu (vrShape (i f)) f (fn f))

/-- The same with a long-latency result (R37). -/
def AluIssues (i : VR → Instr) (fn : VR → Nat → Nat → Nat → Nat × Sticky) : Prop :=
  ∀ f, VrIssues (i f) f (planAlu (vrShape (i f)) f (fn f))

/-- A result of the integer family for the exact value `x` (R131): clamped with SATURATE where SAT is set and `x` does not fit
the type, else `x` modulo 2^W with no bit; 16-bit types are extended to 32 bits by their sign (R107). -/
def intMeans (f : VR) (sat : Bool) (r : Nat × Sticky) (x : Int) : Prop :=
  (sat = true → x < minOf f.ty → rdInt f.ty r.1 = minOf f.ty ∧ r.2 = Sticky.saturate) ∧
  (sat = true → maxOf f.ty < x → rdInt f.ty r.1 = maxOf f.ty ∧ r.2 = Sticky.saturate) ∧
  (sat = false ∨ (minOf f.ty ≤ x ∧ x ≤ maxOf f.ty) →
    ((r.1 % 2 ^ tyWidth f.ty : Nat) : Int) = x % ((2 ^ tyWidth f.ty : Nat) : Int) ∧ r.2 = 0) ∧
  (f.ty = .i16 → (r.1 : Int) = rdInt f.ty r.1 % 2 ^ 32) ∧ (f.ty ≠ .i16 → r.1 < 2 ^ tyWidth f.ty)

/-! Control. -/

/-- The entries of the issuing wave after its clause has ended with these moves (R24). -/
def State.movedEntries (s : State) (x : Issue) (moves : List (Nat × Mask)) : List Entry :=
  moves.foldl (fun l m => joinReady l m.1 (s.prioAt x.core x.wg.ctx m.1) m.2) (x.wave.entries x.cl.handler)

/-- A control instruction retires with these results, its clause ends, and its lanes stand in the entries that the moves give,
those outside EXEC at the next clause (R179). -/
def Moves (i : Instr) (s : State) (x : Issue) (e : Mask) (rels : List Rel) (puts : List Put) (moves : List (Nat × Mask)) : Prop :=
  ∃ t, exec i s = .next t ∧ s.retired t x rels puts 0 ∧
    ∃ y, t.wave? x.w = some y ∧ y.clause = none ∧
      y.entries x.cl.handler = s.movedEntries x (moves ++ [(x.cl.nextPc, x.cl.lanes &&& ~~~e)])

/-- The JOINED entry that a JOIN makes of the lanes of EXEC (R183). -/
def Issue.joined (x : Issue) (e : Mask) : Entry := { x.cl.entry e .joined none with mac := none }

/-- The lanes that stand in JOINED entries at a PC. -/
def joinedLanes (l : List Entry) (pc : Nat) : Mask :=
  l.foldl (fun a b => if b.st == .joined && b.pc == pc then a ||| b.mask else a) 0

/-- The lanes of a frontier. -/
def lanesOfEntries (l : List Entry) : Mask := l.foldl (fun a e => a ||| e.mask) 0

/-- The entry that a trap left, and those that stay in the frontier when it is over (R188). -/
def Wave.trapped? (x : Wave) : Option Entry := x.frontier.find? fun e => e.st == .trapped
def Wave.untrapped (x : Wave) : List Entry := x.frontier.filter fun e => e.st != .trapped

/-! Accesses. -/

/-- A location in this package. -/
def Loc.here (c : Loc) : Bool := match c with | .far _ _ => false | _ => true

/-- Nothing stands between an access and its effect: its registers can be read, every lane is aligned, and every lane may touch
what it names, which is present in this package (R197). -/
def State.accessClear (s : State) (x : Issue) (c : Access) (addrs : List (Nat × DWord)) : Prop :=
  s.readable x c.reads c.dsts ∧ (∀ p ∈ addrs, p.2.toNat % c.align = 0) ∧
  ∀ p ∈ (s.reachAll x c.space c.need c.bytes addrs).2, ∃ loc, p.2.2 = .lands loc ∧ loc.here = true

/-- The state after the translation of every lane's address, and where the lanes land. -/
def State.landing (s : State) (x : Issue) (c : Access) (addrs : List (Nat × DWord)) : State × List LaneLoc :=
  let r := s.reachAll x c.space c.need c.bytes addrs
  (r.1, r.2.filterMap landed?)

/-- Only memory, scratchpads, the error log and messages have changed. -/
def State.dataOnly (s t : State) : Prop :=
  t = { s with
    mem := t.mem, cores := t.cores, cmd := { s.cmd with log := t.cmd.log, lost := t.cmd.lost }
    host := { s.host with outbox := t.host.outbox } } ∧
  ∀ c, t.core c = { s.core c with spad := (t.core c).spad }

/-- What an access does once its lanes have landed: the state with its data moved, the issuing wave, results, and bits. -/
structure Work where
  data : State
  wave : Wave
  puts : List Put
  st : Sticky
  deriving Repr

/-- The releases of an instruction that retires in every lane of EXEC: a scalar register stays while other lanes of the instruction
wait to perform (R48, log 36). -/
def Issue.laneRels (x : Issue) (rels : List Rel) : List Rel :=
  if x.lanesWait x.wave then rels.filter fun r => r.file == .vec else rels

/-- An access by lanes has its effect in every lane of EXEC, touches nothing but data, and retires (R197, R198). -/
def AccessRetires (i : Instr) (f : M) (acc : State → Issue → Mask → Access) (addrs : State → Issue → Mask → List (Nat × DWord))
    (rels : Issue → Mask → List Rel) (ok : State → Issue → State → List LaneLoc → Prop)
    (work : State → Issue → Mask → State → List LaneLoc → Work) : Prop :=
  ∀ s x, s.performs i f.g x → s.accessClear x (acc s x (x.exec f.g)) (addrs s x (x.exec f.g)) →
    let l := s.landing x (acc s x (x.exec f.g)) (addrs s x (x.exec f.g))
    ok s x l.1 l.2 →
    let k := work s x (x.exec f.g) l.1 l.2
    ∃ t, exec i s = .next t ∧ s.dataOnly k.data ∧
      (k.data.setWave x.w k.wave).retired t { x with wave := k.wave } (x.laneRels (rels x (x.exec f.g))) k.puts k.st ∧ t.wentOn x

/-- Where the lanes of a load read, and what it leaves outstanding: the bytes found at each lane's location (R203), the lanes
with uncorrectable data (R201), and the bit of the acquire (R281). -/
def loadWork (f : M) (_ : State) (x : Issue) (e : Mask) (t : State) (l : List LaneLoc) : Work :=
  let n := widthBytes f.width.toNat
  let r := t.readLanes x f.scope.toNat n l
  let o := LLOp.of (x.laneWrites f.data.toNat (widthRegs f.width.toNat) e
    (r.2.map fun p => (p.1.lane, widthValue f.width.toNat 32 p.2.1)))
  ⟨r.1, x.wave, [.later { o.withBad r.2 with sticky := r.1.acquireLanes x f f.scope.toNat n l }], 0⟩

def loadAccess (sp : Space) (i : Instr) (f : M) (_ : State) (x : Issue) (e : Mask) : Access :=
  ⟨sp, ⟨true, false, false⟩, widthBytes f.width.toNat, widthBytes f.width.toNat, false, x.addrReads i f e,
    dataRegs f.data.toNat (widthRegs f.width.toNat)⟩

/-- A load retires with its result outstanding. -/
def Loads (i : Instr) (f : M) (sp : Space) (addrs : State → Issue → Mask → List (Nat × DWord)) : Prop :=
  AccessRetires i f (loadAccess sp i f) addrs (fun x e => x.addrRels i f e) (fun _ _ _ _ => True) (loadWork f)

/-- A store's lanes, in ascending order (R206), between the release of its order and its record (R201, R281); a poisoned granule that they
cover together is healed (R351). -/
def storeWork (f : M) (s : State) (x : Issue) (_ : Mask) (t : State) (l : List LaneLoc) : Work :=
  let n := widthBytes f.width.toNat
  let u := (l.foldl (fun u p => u.writeLoc x f.scope.toNat p.addr p.loc n
    (s.dataVal x f.data.toNat (widthRegs f.width.toNat) p.lane)) (t.releaseBefore x f)).healLanes x.core f.scope.toNat n l
  ⟨u.releaseAfter x f f.scope.toNat n l, x.wave, [], 0⟩

def storeAccess (sp : Space) (i : Instr) (f : M) (_ : State) (x : Issue) (e : Mask) : Access :=
  ⟨sp, ⟨false, true, false⟩, widthBytes f.width.toNat, widthBytes f.width.toNat, false,
    x.addrReads i f e ++ x.dataReads f.data.toNat (widthRegs f.width.toNat) e, []⟩

/-- A store has its effect. -/
def Stores (i : Instr) (f : M) (sp : Space) (addrs : State → Issue → Mask → List (Nat × DWord)) : Prop :=
  AccessRetires i f (storeAccess sp i f) addrs
    (fun x e => x.addrRels i f e ++ x.dataRels f.data.toNat (widthRegs f.width.toNat) f.last e) (fun _ _ _ _ => True)
    (storeWork f)

/-- The bytes of an atomic's type. -/
def atomicBytes (f : M) : Nat := if f.ty.is64 then 8 else 4

/-- The steps of an atomic or a reduction in lane order (R198, R213), with the old values outstanding where it returns them. -/
def atomicWork (ret : Bool) (f : M) (s : State) (x : Issue) (e : Mask) (t : State) (l : List LaneLoc) : Work :=
  let n := atomicBytes f
  let d := f.data.toNat
  let step (k m : Nat) : Nat :=
    atomicStep f.aop f.ty m (s.dataVal x d (n / 4) k) (if f.aop = 7 then s.dataVal x (d + n / 4) (n / 4) k else 0)
  let all := atomicRegs f.aop f.ty
  let at' := atomicScope f.scope.toNat
  let r := (t.releaseBefore x f).stepLanes x at' n f.aop (fun k => bytesOf (4 * all) (s.dataVal x d all k)) step l
  let o := LLOp.of (x.laneWrites d (n / 4) e (r.2.map fun p => (p.1.lane, p.2.1)))
  ⟨r.1.releaseAfter x f at' n l, x.wave,
    if ret then [.later { o.withBad r.2 with sticky := r.1.acquireLanes x f at' n l }] else [], 0⟩

def atomicAccess (sp : Space) (ret : Bool) (i : Instr) (f : M) (_ : State) (x : Issue) (e : Mask) : Access :=
  ⟨sp, ⟨true, true, false⟩, atomicBytes f, atomicBytes f, false,
    x.addrReads i f e ++ x.dataReads f.data.toNat (atomicRegs f.aop f.ty) e,
    if ret then dataRegs f.data.toNat (atomicBytes f / 4) else []⟩

/-- An atomic or a reduction has its effect. -/
def Steps (i : Instr) (f : M) (sp : Space) (ret : Bool) : Prop :=
  AccessRetires i f (atomicAccess sp ret i f) (fun s x e => s.laneAddrs x i f e)
    (fun x e => x.addrRels i f e ++ x.dataRels f.data.toNat (atomicRegs f.aop f.ty) f.last e) (fun _ _ _ _ => True)
    (atomicWork ret f)

/-- LDC: one read for every lane of EXEC into consecutive scalar registers (R204). -/
def ldcWork (f : M) (_ : State) (x : Issue) (e : Mask) (t : State) (l : List LaneLoc) : Work :=
  let n := widthBytes f.width.toNat
  let r := t.readLanes x f.scope.toNat n l
  let v := match r.2 with | p :: _ => widthValue f.width.toNat 64 p.2.1 | [] => 0
  let o := (LLOp.of ((List.range (ldcRegs f.width.toNat)).map fun k =>
    ({ file := .scl, reg := f.data.toNat + k, mask := allLanes, lanes := scalarLanes (BitVec.ofNat 64 (v / 2 ^ (64 * k))) } :
      LLWrite))).withBad r.2
  ⟨r.1, x.wave, [.later { o with poison := if o.poison = 0 then 0 else e, sticky := r.1.acquireLanes x f f.scope.toNat n l }], 0⟩

def ldcAccess (f : M) (_ : State) (x : Issue) (e : Mask) : Access :=
  ⟨.global, ⟨true, false, false⟩, widthBytes f.width.toNat, widthBytes f.width.toNat, true, x.addrReads (.ldc f) f e,
    (List.range (ldcRegs f.width.toNat)).map fun k => (RegFile.scl, f.data.toNat + k)⟩

/-- Every lane's value added to the exact accumulator object at its address, in lane order (R216). -/
def xredWork (f : M) (s : State) (x : Issue) (_ : Mask) (t : State) (l : List LaneLoc) : Work :=
  let step (k m : Nat) : Nat := xredStep f.ty (s.dataVal x f.data.toNat 1 k) m
  let at' := atomicScope f.scope.toNat
  let r := (t.releaseBefore x f).stepLanes x at' 64 13 (fun k => bytesOf 4 (s.dataVal x f.data.toNat 1 k)) step l
  ⟨r.1.releaseAfter x f at' 64 l, x.wave, [], 0⟩

def xredAccess (f : M) (_ : State) (x : Issue) (e : Mask) : Access :=
  ⟨.global, ⟨true, true, false⟩, 64, 64, false, x.addrReads (.xred f) f e ++ x.dataReads f.data.toNat 1 e, []⟩

/-- What XRD makes of an object: its 64 bytes, or its value rounded, with the bits that the rounding sets (R217). -/
def xrdRead (f : M) (m : Nat) : Nat × Sticky :=
  if f.width == 1 then (m, 0) else xRead (rndOfNat f.cache.toNat) (XObj.ofBytes m)

def xrdRegs (f : M) : Nat := if f.width == 1 then 16 else 1

def xrdWork (f : M) (_ : State) (x : Issue) (e : Mask) (t : State) (l : List LaneLoc) : Work :=
  let r := t.readLanes x f.scope.toNat 64 l
  let vals := r.2.map fun p => (p.1.lane, if p.2.2 then (0, 0) else xrdRead f p.2.1)
  let o := LLOp.of (x.laneWrites f.data.toNat (xrdRegs f) e (vals.map fun p => (p.1, p.2.1)))
  ⟨r.1, x.wave, [.later { o.withBad r.2 with sticky := stickyAll (vals.map (·.2.2)) ||| r.1.acquireLanes x f f.scope.toNat 64 l }], 0⟩

def xrdAccess (f : M) (_ : State) (x : Issue) (e : Mask) : Access :=
  ⟨.global, ⟨true, false, false⟩, 64, 64, false, x.addrReads (.xrd f) f e, dataRegs f.data.toNat (xrdRegs f)⟩

/-- The bits that XRD's rounding of the object at a location sets: none where it is uncorrectable (R201, R217). -/
def xrdBits (f : M) (s : State) (x : Issue) (c : Loc) : Sticky :=
  let q := s.readLoc x f.scope.toNat c 64
  if q.1.badLoc x.core f.scope.toNat c 64 then 0 else (xrdRead f q.2).2

/-- No rounding of XRD meets an enabled ARITH condition outside a handler (R129, log 16). -/
def xrdOk (f : M) (s : State) (x : Issue) (_ : State) (l : List LaneLoc) : Prop :=
  x.cl.handler = true ∨ ∀ p ∈ l, arithEnabled x.wave.trapen (xrdBits f s x p.loc) = false

/-- LLOCK's lanes in ascending order, each with its status outstanding (R207). -/
def llockWork (f : M) (_ : State) (x : Issue) (e : Mask) (t : State) (l : List LaneLoc) : Work :=
  let r := t.lockLanes x.wg.ctx (dieOfCore x.core) l
  ⟨r.1, x.wave, [.later (LLOp.of (x.laneWrites f.data.toNat 1 e r.2))], 0⟩

/-- LUNLK: the context's locks on the lines of the lanes, on the wave's die, are gone (R207). -/
def lunlkWork (_ : M) (_ : State) (x : Issue) (_ : Mask) (t : State) (l : List LaneLoc) : Work :=
  ⟨t.setMem { t.mem with locks := t.mem.locks.filter fun k =>
      !(k.ctx == x.wg.ctx && k.die == dieOfCore x.core && (l.filterMap fun p => p.loc.line?).contains k.line) },
    x.wave, [], 0⟩

/-- CFLUSH: every narrower copy of the lines is performed at the scope (R208). -/
def cflushWork (f : M) (_ : State) (x : Issue) (_ : Mask) (t : State) (l : List LaneLoc) : Work :=
  ⟨l.foldl (fun s p => s.flushLine f.scope.toNat p.loc) t, x.wave, [], 0⟩

/-- CINV: as CFLUSH, and from CLUSTER scope on the instruction caches of the scope lose their lines (R208, R77). -/
def cinvWork (f : M) (_ : State) (x : Issue) (_ : Mask) (t : State) (l : List LaneLoc) : Work :=
  let u := l.foldl (fun s p => s.flushLine f.scope.toNat p.loc) t
  ⟨if f.scope.toNat ≥ 2 then u.dropCode x.core f.scope.toNat else u, x.wave, [], 0⟩

/-- SYACQ: the word is read into sD and acquired (R222); a word with uncorrectable data traps (R201). -/
def syacqWork (f : M) (_ : State) (x : Issue) (_ : Mask) (t : State) (l : List LaneLoc) : Work :=
  match l with
  | [] => ⟨t, x.wave, [], 0⟩
  | p :: _ =>
    let r := t.readLoc x f.scope.toNat p.loc 8
    ⟨r.1, x.wave, sclPuts f r.2, r.1.acquire x f.scope.toNat f.scope.toNat [p.loc] 8⟩

/-- No lane's 8-byte word is uncorrectable, as an instruction of a scope reads it (R201). -/
def wordsGood (f : M) (_ : State) (x : Issue) (t : State) (l : List LaneLoc) : Prop :=
  ∀ p ∈ l, (t.readLoc x f.scope.toNat p.loc 8).1.badLoc x.core f.scope.toNat p.loc 8 = false

/-- SYREL: the covered writes are performed at the scope, then the word is written and recorded as a release (R222, R281). -/
def syrelWork (f : M) (s : State) (x : Issue) (_ : Mask) (t : State) (l : List LaneLoc) : Work :=
  match l with
  | [] => ⟨t, x.wave, [], 0⟩
  | p :: _ =>
    let u := t.perform x.core f.scope.toNat (t.covered x.wg.ctx p.addr.toNat)
    let u := u.writeLoc x f.scope.toNat p.addr p.loc 8 (s.sreg x f.data.toNat).toNat
    ⟨u.recordRelease (s.agent x f.scope.toNat) f.scope.toNat x.core [p.loc] 8, x.wave, [], 0⟩

/-- SYBIND: the range slot of the object is set, or cleared with length 0 (R223). -/
def sybindWork (f : M) (s : State) (x : Issue) (_ : Mask) (t : State) (_ : List LaneLoc) : Work :=
  ⟨(t.bindRange x.wg.ctx (s.addrOf x (.sybind f) f 0).toNat (f.off.toNat % 8) (s.sreg x f.data.toNat).toNat
      (s.sreg x (f.data.toNat + 1)).toNat).getD t, x.wave, [], 0⟩

/-- SYBIND's range lies within the address space, and the table has room for the object (R223). -/
def sybindOk (f : M) (s : State) (x : Issue) (t : State) (_ : List LaneLoc) : Prop :=
  ((s.sreg x (f.data.toNat + 1)).toNat = 0 ∨
    (s.sreg x f.data.toNat).toNat + (s.sreg x (f.data.toNat + 1)).toNat ≤ 2 ^ 60) ∧
  (t.bindRange x.wg.ctx (s.addrOf x (.sybind f) f 0).toNat (f.off.toNat % 8) (s.sreg x f.data.toNat).toNat
    (s.sreg x (f.data.toNat + 1)).toNat).isSome = true

/-- MWATCH: the word's value is the result, and the wave watches the word with it (R224). -/
def mwatchWork (f : M) (s : State) (x : Issue) (_ : Mask) (t : State) (l : List LaneLoc) : Work :=
  match l with
  | [] => ⟨t, x.wave, [], 0⟩
  | p :: _ =>
    let r := t.readLoc x f.scope.toNat p.loc 8
    ⟨r.1, { x.wave with watch := some ⟨s.addrOf x (.mwatch f) f 0, f.scope.toNat, BitVec.ofNat 64 r.2⟩ }, sclPuts f r.2, 0⟩

/-- The access of an instruction that reads or writes one 8-byte word for every lane of EXEC. -/
def wordAcc (i : Instr) (f : M) (sp : Space) (need : Need) (k : Nat) (dsts : List (RegFile × Nat)) (_ : State) (x : Issue)
    (e : Mask) : Access :=
  x.wordAccess i f sp need e (Issue.sclReads f k e) dsts

/-- The one address of an instruction that accesses once for every lane of EXEC. -/
def oneAddr (i : Instr) (f : M) (s : State) (x : Issue) (e : Mask) : List (Nat × DWord) := [(lowestLane e, s.addrOf x i f 0)]

/-! Traps of accesses, and holds. -/

/-- An access by lanes (R197): where RELREAD is enabled outside a handler, released lanes that it reads raise RELEASED_READ (R53); else
lanes at addresses that are not multiples of its alignment raise MISALIGN; else lanes that may not touch what they name raise PROTECTION;
each with those lanes, or every lane of EXEC for one access, and the address of the lowest. -/
def AccessTraps (i : Instr) (f : M) (acc : State → Issue → Mask → Access)
    (addrs : State → Issue → Mask → List (Nat × DWord)) : Prop :=
  ReleasedTraps i f.g (fun s x e => (acc s x e).reads) (fun s x e => (acc s x e).dsts) ∧
  ∀ s x, s.performs i f.g x →
    let c := acc s x (x.exec f.g)
    let l := addrs s x (x.exec f.g)
    s.readable x c.reads c.dsts →
    let mis (q : Nat × DWord) : Bool := q.2.toNat % c.align != 0
    let prot (q : Nat × DWord) : Bool := (s.reachAll x c.space c.need c.bytes l).2.any fun r => r.1 == q.1 && r.2.2 == .prot
    let traps (bad : Nat × DWord → Bool) (cause : Nat) : Prop :=
      ∀ k a, (k, a) ∈ l → bad (k, a) = true → (∀ q ∈ l, bad q = true → k ≤ q.1) →
        exec i s = .next (s.raiseTrap x cause a (if c.single then x.exec f.g else maskOf fun n => l.any fun q => q.1 == n && bad q) 0)
    traps mis 3 ∧ ((∀ q ∈ l, mis q = false) → traps prot 5)

/-- The issuing wave is held by its instruction (R194): it has not retired, its sequencer is free, nothing else has changed. -/
def State.heldAt (s t : State) (x : Issue) (h : Hold) : Prop :=
  t.wave? x.w = some { x.wave with hold := some h } ∧ (∀ v, v ≠ x.w → t.wave? v = s.wave? v) ∧ t.mem = s.mem ∧ t.wgs = s.wgs ∧
  (t.seq (seqOfWave x.w)).active ≠ some x.w

/-- The heap's descriptor is aligned, stands in this package, may be touched, and has no uncorrectable data: where it stands, and the state after the
translation of its address, with narrower copies of it performed (R210, R212, R347). -/
def State.descriptor (s : State) (x : Issue) (i : Instr) (f : M) (write : Bool) (t : State) (d : LaneLoc) : Prop :=
  let addr := s.addrOf x i f 0
  addr.toNat % 256 = 0 ∧ d.lane = lowestLane (x.exec f.g) ∧ d.addr = addr ∧
  ∃ u, s.reach x .global ⟨true, write, false⟩ 256 addr = (u, .lands d.loc) ∧ d.loc.here = true ∧
    t = u.settleLoc x.core 4 d.loc 256 ∧ t.badLoc x.core 4 d.loc 256 = false

/-- An instruction whose wave is as `y` in state `u` retires there, and its clause goes on. -/
def RetiresFrom (i : Instr) (s u : State) (x : Issue) (y : Wave) (rels : List Rel) (puts : List Put) : Prop :=
  ∃ t, exec i s = .next t ∧ (u.setWave x.w y).retired t { x with wave := y } rels puts 0 ∧ t.wentOn x

/-! Values of the floating formats (R104, R114 to R119). -/

/-- The value of a number in units of 2^-320, of which every finite value that arises is a multiple; an infinity lies beyond them. -/
def Num.units : Num → Int
  | .nan _ => 0
  | .inf neg => if neg then -(2 ^ 640) else 2 ^ 640
  | .fin neg m e => (if neg then -1 else 1) * ((m * 2 ^ (e + 320).toNat : Nat) : Int)

/-- The magnitude of code `k` of a format in these units (R104). Beyond the largest finite code the codes go on as they would with an
unbounded exponent. -/
def Fmt.mag (f : Fmt) (k : Nat) : Nat :=
  if k < 2 ^ f.fb then k * 2 ^ (321 - f.bias - f.fb) else (2 ^ f.fb + k % 2 ^ f.fb) * 2 ^ (k / 2 ^ f.fb + 320 - f.bias - f.fb)

/-- A magnitude rounds to `k * u` (R114): to the nearer multiple, at a tie to the even one, or to the neighbour that the mode names
for the sign. -/
def roundsTo (mode : Rnd) (neg : Bool) (v u k : Nat) : Prop :=
  let down := k * u ≤ v ∧ v < (k + 1) * u
  let up := v ≤ k * u ∧ k * u < v + u
  match mode with
  | .rne => 2 * v ≤ (2 * k + 1) * u ∧ 2 * k * u ≤ 2 * v + u ∧ (2 * v = (2 * k + 1) * u ∨ 2 * k * u = 2 * v + u → k % 2 = 0)
  | .rtz => down
  | .rdn => if neg then up else down
  | .rup => if neg then down else up

/-- A magnitude rounds to the format's code `k` (R114). -/
def Fmt.picks (f : Fmt) (mode : Rnd) (neg : Bool) (v k : Nat) : Prop :=
  let far (j : Nat) : Nat := ((f.mag j : Int) - v).natAbs
  let down := f.mag k ≤ v ∧ v < f.mag (k + 1)
  let up := v ≤ f.mag k ∧ ∀ j, j < k → f.mag j < v
  match mode with
  | .rne => ∀ j, far k ≤ far j ∧ (far k = far j → k = j ∨ k % 2 = 0)
  | .rtz => down
  | .rdn => if neg then up else down
  | .rup => if neg then down else up

/-- What an overflow delivers, by mode and sign (R115). -/
def Fmt.over (f : Fmt) (mode : Rnd) (sat neg : Bool) : Nat × Sticky :=
  let clamps := sat || f.kind == .finite
  let beyond := mode == .rne || (mode == .rdn && neg) || (mode == .rup && !neg)
  (if clamps || !beyond then signed f neg f.maxCode
   else if f.kind == .nanOnly then 0x7F else signed f neg (f.maxCode + 1),
   Sticky.overflow ||| Sticky.inexact ||| stickyIf clamps .saturate)

/-- A magnitude with a sign is delivered in a format (R114, R115, R119): INEXACT where the code's value is another, UNDERFLOW where that is
so, the result is not zero, and the rounding with an unbounded exponent, which is that of the doubled magnitude one binade up, lies
below the smallest normal. -/
def Fmt.delivers (f : Fmt) (mode : Rnd) (sat neg : Bool) (v : Nat) (r : Nat × Sticky) : Prop :=
  ∃ k tiny, f.picks mode neg v k ∧
    (tiny = true ↔ k ≠ 0 ∧ f.mag k ≠ v ∧ ∀ j, f.picks mode neg (2 * v) j → j < 2 ^ (f.fb + 1)) ∧
    r = if k ≤ f.maxCode then (signed f neg k, stickyIf (f.mag k != v) .inexact ||| stickyIf tiny .underflow)
      else f.over mode sat neg

/-- A conversion to a floating format (R117). -/
def Fmt.converts (f : Fmt) (mode : Rnd) (sat : Bool) (x : Num) (r : Nat × Sticky) : Prop :=
  match x with
  | .nan sig => r = (f.nanCode, stickyIf (sig || f.kind == .finite) .invalid)
  | .inf neg => r =
      if sat || f.kind == .finite then (signed f neg f.maxCode, .saturate)
      else if f.kind == .nanOnly then (0x7F, .invalid) else (signed f neg (f.maxCode + 1), 0)
  | .fin neg _ _ => f.delivers mode sat neg x.units.natAbs r

/-- The stochastic step of a magnitude (R116): the code below it, or the next where the discarded fraction and the random word reach
2^32. -/
def Fmt.steps (f : Fmt) (rnd v j : Nat) : Prop :=
  ∃ k, f.mag k ≤ v ∧ v < f.mag (k + 1) ∧
    j = if (v - f.mag k) * 2 ^ 32 / (f.mag (k + 1) - f.mag k) + rnd ≥ 2 ^ 32 then k + 1 else k

/-- A stochastic conversion (R116), with the special values of R117. -/
def Fmt.stochastic (f : Fmt) (sat : Bool) (rnd : Nat) (x : Num) (r : Nat × Sticky) : Prop :=
  match x with
  | .fin neg m _ =>
    let v := x.units.natAbs
    if m = 0 then r = (signed f neg 0, 0)
    else ∃ k j, f.steps rnd v k ∧ f.steps rnd (2 * v) j ∧
      r = if f.maxCode < k then f.over .rne sat neg
        else (signed f neg k, stickyIf (f.mag k != v) .inexact ||| stickyIf (f.mag k != v && j < 2 ^ (f.fb + 1)) .underflow)
  | x => f.converts .rne sat x r

/-- An infinite result under SAT is the largest finite value of its sign, with SATURATE (R141). -/
def Fmt.cap (f : Fmt) (sat : Bool) (y : Nat × Sticky) : Nat × Sticky :=
  if sat && isInfNum (decodeFloat f y.1) then (y.1 - 1, y.2 ||| .saturate) else y

/-- A sum of products and addends with one rounding (R114, R141): a NaN operand, 0 * Inf or opposing infinities give the canonical NaN;
the sign of a zero sum follows R114. -/
def Fmt.sumIs (f : Fmt) (mode : Rnd) (sat : Bool) (ps : List (Num × Num)) (cs : List Num) (r : Nat × Sticky) : Prop :=
  let xs := ps.map (fun p => (mulNum p.1 p.2).1) ++ cs
  let sig := ps.any (fun p => isSigNum p.1 || isSigNum p.2) || cs.any isSigNum
  let zeroInf := ps.any fun p => (isZeroNum p.1 && isInfNum p.2) || (isInfNum p.1 && isZeroNum p.2)
  let opposed := xs.contains (.inf false) && xs.contains (.inf true)
  let v := (xs.map Num.units).sum
  if xs.any isNanNum || opposed then r = (f.nanCode, stickyIf (sig || zeroInf || opposed) .invalid)
  else ∃ y, r = f.cap sat y ∧
    if xs.contains (.inf false) then y = (signed f false (f.maxCode + 1), 0)
    else if xs.contains (.inf true) then y = (signed f true (f.maxCode + 1), 0)
    else if v = 0 then
      y = (signed f (xs.all (fun x => isZeroNum x && isNegNum x) ||
        (mode == .rdn && !xs.all fun x => isZeroNum x && !isNegNum x)) 0, 0)
    else f.delivers mode false (v < 0) v.natAbs y

/-- A number stands at or below another, with -0 below +0 (R142). -/
def Num.leq (a b : Num) : Prop := a.units < b.units ∨ (a.units = b.units ∧ (isNegNum a = true ∨ isNegNum b = false))

/-- The smaller or the larger of two elements (R142). -/
def Fmt.extremeIs (f : Fmt) (larger num : Bool) (a b : Nat) (r : Nat × Sticky) : Prop :=
  let x := decodeFloat f a
  let y := decodeFloat f b
  let z := decodeFloat f r.1
  r.2 = stickyIf (isSigNum x || isSigNum y) .invalid ∧
  (isNanNum x = true → r.1 = if num && !isNanNum y then b else f.nanCode) ∧
  (isNanNum y = true → r.1 = if num && !isNanNum x then a else f.nanCode) ∧
  (isNanNum x = false → isNanNum y = false →
    (r.1 = a ∨ r.1 = b) ∧ if larger then x.leq z ∧ y.leq z else z.leq x ∧ z.leq y)

/-- An element rounded to an integral value of its format (R143). -/
def Fmt.integralIs (f : Fmt) (mode : Rnd) (a : Nat) (r : Nat × Sticky) : Prop :=
  let x := decodeFloat f a
  r.2 = stickyIf (isSigNum x) .invalid ∧
  match x with
  | .nan _ => r.1 = f.nanCode
  | .inf _ => r.1 = a
  | .fin neg _ _ => ∃ k, roundsTo mode neg x.units.natAbs (2 ^ 320) k ∧ r.1 < 2 * f.signBit ∧
      isNanNum (decodeFloat f r.1) = false ∧ isNegNum (decodeFloat f r.1) = neg ∧ (decodeFloat f r.1).units.natAbs = k * 2 ^ 320

/-- An element quantised under a block scale (R110). -/
def Fmt.quantisedIs (f : Fmt) (code : Nat) (x : Num) (r : Nat × Sticky) : Prop :=
  if code = 0xFF then r = (f.nanCode, stickyIf (isSigNum x) .invalid) else f.converts .rne true (scaleNum x ((code : Int) - 127)) r

/-- What a floating operation does with each element of a lane (R107): the halves of a packed type, or the low bits. -/
def eachElem (t : Ty) (a b c : Nat) (r : Nat × Sticky) (is : Fmt → Nat → Nat → Nat → Nat × Sticky → Prop) : Prop :=
  ∀ m, fmtOf t = some m →
    if isPacked t then
      ∃ lo hi, is m (a % 2 ^ 16) (b % 2 ^ 16) (c % 2 ^ 16) lo ∧
        is m (a / 2 ^ 16 % 2 ^ 16) (b / 2 ^ 16 % 2 ^ 16) (c / 2 ^ 16 % 2 ^ 16) hi ∧ r = (lo.1 + 2 ^ 16 * hi.1, lo.2 ||| hi.2)
    else let w := 1 + m.eb + m.fb
      is m (a % 2 ^ w) (b % 2 ^ w) (c % 2 ^ w) r

/-! Block scales and Q4E blocks (R110 to R113). -/

/-- The scale code of a block (R110): the power of two that puts the largest magnitude into the format's top binade, as far as the code
reaches. -/
def scaleIs (f : Fmt) (xs : List Num) (code : Nat) : Prop :=
  let top := if f = fE4M3 then 8 else if f = fE5M2 then 15 else 2
  let size (x : Num) : Nat := x.units.natAbs
  if xs.any (fun x => isNanNum x || isInfNum x) then code = 0xFF
  else if xs.all isZeroNum then code = 0
  else code ≤ 254 ∧ (code ≠ 0 → ∃ x ∈ xs, 2 ^ (code + 193 + top) ≤ size x) ∧ (code ≠ 254 → ∀ x ∈ xs, size x < 2 ^ (code + 194 + top))

/-- Whether byte `k` of a Q4E block holds an escape, and the element that it marks: the low nibble is looked at first (R111). -/
def q4eEscape (b : List Nat) (k : Nat) : Bool := b.getD k 0 % 16 == 8 || b.getD k 0 / 16 % 16 == 8
def q4eMarked (b : List Nat) (k : Nat) : Nat := if b.getD k 0 % 16 = 8 then 2 * k else 2 * k + 1

/-- Element `i` of a Q4E block (R111, R112): a nibble times the scale; the E4M3 value of an outlier, of which the block has at most two,
times the scale; or 0 for a partner and for a third escape. -/
def q4eElem (b : List Nat) (i : Nat) : Num :=
  let k := i / 2
  let nibble (m : Nat) : Nat := b.getD k 0 / 16 ^ m % 16
  let met := ((List.range k).filter (q4eEscape b)).length
  let scale : Int := b.getD 8 0 - 127
  if b.getD 8 0 = 0xFF then .nan false
  else if !q4eEscape b k then .fin (signedOf 4 (nibble (i % 2)) < 0) (signedOf 4 (nibble (i % 2))).natAbs scale
  else if i = q4eMarked b k ∧ met < 2 then scaleNum (decodeFloat fE4M3 (nibble (1 - i % 2) * 16 + b.getD 9 0 / 16 ^ met % 16)) (-scale)
  else .fin false 0 0

/-- FMTERR of a Q4E block: a third escape (R112). -/
def q4eThird (b : List Nat) : Bool := 3 ≤ ((List.range 8).filter (q4eEscape b)).length

/-- The scale exponent of a Q4E block (R113): the least power of two of which 7 reach the third-largest magnitude; without one, that
which brings the largest into E4M3's top binade; or the lowest. -/
def q4eScaleIs (xs : List Num) (code : Nat) : Prop :=
  let size (x : Num) : Nat := x.units.natAbs
  let above (v : Nat) : Nat := (xs.filter fun x => v < size x).length
  code ≤ 254 ∧
  if 3 ≤ above 0 then (code ≠ 254 → above (7 * 2 ^ (code + 193)) ≤ 2) ∧ (code ≠ 0 → 3 ≤ above (7 * 2 ^ (code + 192)))
  else if 1 ≤ above 0 then (code ≠ 0 → ∃ x ∈ xs, 2 ^ (code + 201) ≤ size x) ∧ (code ≠ 254 → ∀ x ∈ xs, size x < 2 ^ (code + 202))
  else code = 0

/-- The Q4E block of 16 values, with its bits (R113): an infinity or a NaN makes a NaN block; else each element is rounded to a multiple
of the scale, and of those beyond 7 at most two, in order of magnitude, become outliers, whose partners read 0; others are clamped. -/
def q4eCodes (xs : List Num) (b : List Nat) (st : Sticky) : Prop :=
  let x (i : Nat) : Num := xs.getD i (.fin false 0 0)
  let size (i : Nat) : Nat := (x i).units.natAbs
  let before (i j : Nat) : Prop := size j < size i ∨ (size i = size j ∧ i < j)
  let partner (i : Nat) : Nat := i + 1 - 2 * (i % 2)
  let e : Int := b.getD 8 0 - 127
  if xs.any (fun x => isNanNum x || isInfNum x) then b = [0, 0, 0, 0, 0, 0, 0, 0, 0xFF, 0] ∧ st = stickyIf (xs.any isSigNum) .invalid
  else b.length = 10 ∧ (∀ c ∈ b, c < 256) ∧ q4eScaleIs xs (b.getD 8 0) ∧
    ∃ (q : Nat → Nat) (out clamped : List Nat) (y : Nat → Nat × Sticky),
      (∀ i, i < 16 → roundsTo .rne (isNegNum (x i)) (size i) (2 ^ (b.getD 8 0 + 193)) (q i)) ∧
      out.Nodup ∧ out.length ≤ 2 ∧ clamped.Nodup ∧
      (∀ i ∈ out, i < 16 ∧ 8 ≤ q i ∧ partner i ∉ out ∧ fE4M3.converts .rne true (scaleNum (x i) e) (y i)) ∧
      (∀ i, i ∈ clamped ↔ i < 16 ∧ 8 ≤ q i ∧ i ∉ out ∧ ¬(partner i ∈ out ∧ before (partner i) i)) ∧
      (∀ i ∈ clamped, out.length = 2 ∧ ∀ j ∈ out, before j i) ∧
      (∀ i, i < 16 →
        if i ∈ out then q4eElem b i = scaleNum (decodeFloat fE4M3 (y i).1) (-e)
        else (q4eElem b i).units = if partner i ∈ out then 0 else
          (if isNegNum (x i) then -1 else 1) * ((min (q i) 7 * 2 ^ (b.getD 8 0 + 193) : Nat) : Int)) ∧
      (out.length ≤ 1 → b.getD 9 0 < 16) ∧ (out = [] → b.getD 9 0 = 0) ∧
      st = stickyAll (out.map fun i => (y i).2) ||| stickyIf (clamped != []) .saturate |||
        stickyIf ((List.range 16).any fun i => (q4eElem b i).units != (x i).units) .inexact

/-! Values of the integer types. -/

/-- A register value that holds an integer in a type, as results are written (R107). -/
def holdsInt (t : Ty) (r : Nat) (v : Int) : Prop :=
  rdInt t r = v ∧ (t = .i16 → (r : Int) = v % 2 ^ 32) ∧ (t ≠ .i16 → r < 2 ^ tyWidth t)

/-- A number converted to an integer type (R118). -/
def intConverts (t : Ty) (mode : Rnd) (x : Num) (r : Nat × Sticky) : Prop :=
  match x with
  | .nan _ => holdsInt t r.1 0 ∧ r.2 = .invalid
  | .inf neg => holdsInt t r.1 (if neg then minOf t else maxOf t) ∧ r.2 = .invalid
  | .fin neg _ _ => ∃ k, roundsTo mode neg x.units.natAbs (2 ^ 320) k ∧
      let v : Int := if neg then -(k : Int) else k
      holdsInt t r.1 (max (minOf t) (min (maxOf t) v)) ∧
      r.2 = if v < minOf t ∨ maxOf t < v then Sticky.invalid ||| Sticky.saturate
        else stickyIf (k * 2 ^ 320 != x.units.natAbs) .inexact

/-! Trees and prefixes over lanes. -/

/-- A pairwise tree of an operation over `2^n` leaves from leaf `p * 2^n` on, lower index on the left; an empty half gives the other one
(R123, R175). The bits of every node are collected. -/
def treeIs (op : Nat → Nat → Nat × Sticky → Prop) (leaf : Nat → Option (Nat × Sticky)) : Nat → Nat → Option (Nat × Sticky) → Prop
  | 0, p, r => r = leaf p
  | n + 1, p, r => ∃ a b, treeIs op leaf n (2 * p) a ∧ treeIs op leaf n (2 * p + 1) b ∧
    match a, b with
    | none, y => r = y
    | x, none => r = x
    | some x, some y => ∃ c, op x.1 y.1 c ∧ r = some (c.1, x.2 ||| y.2 ||| c.2)

/-- Two values combined by REDUCE or SCAN (R175 to R177). -/
def combinedIs (f : VR) (a b : Nat) (r : Nat × Sticky) : Prop :=
  match fmtOf f.ty with
  | some m =>
    if f.sub = 0 then m.sumIs f.rnd false [] [decodeFloat m a, decodeFloat m b] r
    else m.extremeIs (f.sub != 1) (f.rnd == .rtz) a b r
  | none =>
    let x := rdInt f.ty a
    let y := rdInt f.ty b
    if f.sub = 3 then r = (a ||| b, 0)
    else r.2 = 0 ∧ r.1 < 2 ^ tyWidth f.ty ∧
      if f.sub = 0 then (2 ^ tyWidth f.ty : Int) ∣ x + y - r.1 else rdInt f.ty r.1 = if f.sub = 1 then min x y else max x y

/-- The element of a lane that a reduction reads, and what it is alone: a NaN is canonical, a signalling one sets INVALID (R177). -/
def elemOf (t : Ty) (a : Nat) : Nat := match fmtOf t with | some m => a % 2 ^ (1 + m.eb + m.fb) | none => a % 2 ^ tyWidth t
def sigElem (t : Ty) (a : Nat) : Bool := match fmtOf t with | some m => isSigNum (decodeFloat m a) | none => false
def aloneIs (t : Ty) (a : Nat) (r : Nat × Sticky) : Prop :=
  r = (match fmtOf t with | some m => if isNanNum (decodeFloat m a) then m.nanCode else elemOf t a | none => elemOf t a,
    stickyIf (sigElem t a) .invalid)

/-- The identity that an exclusive scan gives its first lane (R176). -/
def identityOf (f : VR) : Nat :=
  match fmtOf f.ty with
  | some m => if f.sub = 0 then m.signBit else signed m (f.sub != 1) (m.maxCode + 1)
  | none => if f.sub = 1 then wrInt f.ty (maxOf f.ty) else if f.sub = 2 then wrInt f.ty (minOf f.ty) else 0

/-! Engine instructions. -/

/-- Nothing stands between an engine instruction and its effect: its registers can be read, no check of step 8 fails, and it
need not stall (R76, R233, R237). -/
def State.engineClear (s : State) (x : Issue) (reads : List Read) (dsts : List (RegFile × Nat)) (checks : List Check)
    (wait : Option Stall) : Prop :=
  s.readable x reads dsts ∧ (∀ c ∈ checks, c.fails = false) ∧ wait = none

/-- Only timelines, operations, the trellis, weight on its way and accumulator claims have changed, and one wave. -/
def State.queuedOnly (s t : State) (w : Nat) : Prop :=
  t = { s with
    waves := t.waves, cores := t.cores, timelines := t.timelines, ops := t.ops, trl := t.trl, qd := t.qd, uid := t.uid } ∧
  (∀ v, v ≠ w → t.wave? v = s.wave? v) ∧ ∀ c, t.core c = { s.core c with accs := (t.core c).accs }

/-- An operation has taken the next number of its timeline (R236) with what it captures at issue (R232, R239). -/
def State.numbered (s t : State) (x : Issue) (i : Instr) (f : E) (e : Mask) : Prop :=
  (∀ n, t.timeline n = if n = x.lineOf f then { s.timeline n with issued := (s.timeline n).issued + 1 } else s.timeline n) ∧
  ∃ o, t.op? s.uid = some o ∧ o.instr = i ∧ o.seq = (s.timeline (x.lineOf f)).issued + 1 ∧ o.tl = x.lineOf f ∧
    o.scope = tlselScope (x.tlsel f.tl.toNat) ∧ o.core = x.core ∧ o.wg = x.wave.wg ∧ o.ctx = x.wg.ctx ∧ o.cls = f.cls.toNat ∧
    o.exec = e ∧ o.ready = false ∧ o.killed = false

/-- A copy or fabric instruction with a clear way takes its number and half of the wave's weight, hands its number to RET, and
retires (R236, R241, R333). -/
def Copies (i : Instr) (f : E) (n : Nat) (fabric : Bool) : Prop :=
  ∀ s x, s.performs i f.g x → ∃ p, s.copyPlan x i f n fabric = some p ∧
    (s.engineClear x (copyReads f n (x.exec f.g)) (retDsts f) (s.copyChecks x f fabric p) (s.opStall x f true (p.segs != 0) true) →
      let r := s.copyGo x (x.exec f.g) i f p
      let y : Wave := { x.wave with weight := (splitWeight x.wave.weight).1 }
      ∃ t, exec i s = .next t ∧ s.queuedOnly r.1 x.w ∧ s.numbered r.1 x i f (x.exec f.g) ∧
        r.1.retired t { x with wave := y } (blockRels f n) (retPuts f ((s.timeline (x.lineOf f)).issued + 1)) 0 ∧ t.wentOn x)

/-- A tile operation with a clear way takes its number and the accumulator that it names, and retires; RET gives the number, and
with RB a readback waits (R262, R274). -/
def TileIssues (i : Instr) (f : E) (readback : Bool) (plan : State → Issue → Mask → TilePlan) : Prop :=
  ∀ s x, s.performs i f.g x →
    let p := plan s x (x.exec f.g)
    s.engineClear x p.reads (retDsts f) p.checks (s.opStall x f false true false) → p.bad = 0 →
    let r := s.tileStart x (x.exec f.g) i f p.blk p.rows p.size p.claim
    let back : List Put := match retOf f with
      | some k => [.later { LLOp.of [⟨.scl, k, [], allLanes⟩] with op := some r.2.1 }]
      | none => []
    ∃ t, exec i s = .next t ∧ s.queuedOnly r.1 x.w ∧ s.numbered r.1 x i f (x.exec f.g) ∧
      r.1.retired t x p.rels (if readback then back else retPuts f ((s.timeline (x.lineOf f)).issued + 1)) 0 ∧ t.wentOn x

/-! What engines do for an operation (R239, R246, R255, R266 to R273). -/

/-- An engine beside a core reads `n` bytes of one page for a context at a scope (R275): the state after the translation, and their
little-endian number. -/
def State.pageReads (s : State) (core ctx scope a n : Nat) (t : State) (v : Nat) : Prop :=
  ∃ u g, s.resolve core ctx a ⟨true, false, false⟩ = (u, g) ∧
    match g with
    | .ok pa uncached =>
      let r := u.loadNat core (if uncached then 5 else scope) pa n
      r.1.poisonedRange core (if uncached then 5 else scope) pa n = false ∧ t = r.1 ∧ v = r.2
    | .remote h va => u.routed h = true ∧ Config.remoteDenies u.tick = false ∧ Config.remotePoisons u.tick va = false ∧
        t = u.send (.request h va n [] none) ∧ v = u.farNat va n
    | _ => False

/-- A read of `n` bytes, perhaps across a page's end. -/
def State.bytesRead (s : State) (core ctx scope a n : Nat) (t : State) (v : Nat) : Prop :=
  let k := 4096 - a % 4096
  if n ≤ k then s.pageReads core ctx scope a n t v
  else ∃ u lo hi, s.pageReads core ctx scope a k u lo ∧ u.pageReads core ctx scope (a + k) (n - k) t hi ∧ v = lo + hi * 2 ^ (8 * k)

/-- An operation reads `n` bytes of its workgroup's scratchpad, or of memory as the issuing workgroup sees it (R239). -/
def State.engineReads (s : State) (o : Op) (sp : Bool) (a n : Nat) (t : State) (v : Nat) : Prop :=
  if sp then t = s ∧ ∃ g, s.wg? o.wg = some g ∧ a + n ≤ g.spadSize ∧ v = cellsNat (s.core g.core).spad (g.spadBase + a) n
  else s.bytesRead o.core o.ctx 1 a n t v

/-- Decant granules (address, bytes, offset), each read at DEVICE scope into the allocation of a core at `base` (R316). -/
def State.stagesRun (s : State) (core ctx base : Nat) : List (Nat × Nat × Nat) → State → Prop
  | [], t => t = s
  | g :: rest, t => ∃ u v, s.bytesRead core ctx 4 g.1 g.2.1 u v ∧
      (u.updCore core fun c => { c with spad := cellsPut c.spad (base + g.2.2) g.2.1 v }).stagesRun core ctx base rest t

/-- An operation writes `n` bytes of one granule (R246, R287): to the scratchpad, to memory at SYSTEM scope (log 5), where the end of a
32-byte granule that the operation writes whole heals it (R351), or to another package. -/
def State.engineWrites (s : State) (o : Op) (sp whole : Bool) (a n v : Nat) (t : State) : Prop :=
  if sp then ∃ g, s.wg? o.wg = some g ∧ a + n ≤ g.spadSize ∧
    t = s.updCore g.core fun c => { c with spad := cellsPut c.spad (g.spadBase + a) n v }
  else ∃ u g, s.resolve o.core o.ctx a ⟨false, true, false⟩ = (u, g) ∧
    match g with
    | .ok pa _ =>
      let w := u.storeNat ⟨o.core, o.ctx⟩ 5 a pa n v
      t = if whole then w.heal o.core 5 [(pa + n - 32, 32)] else w
    | .remote h va => u.routed h = true ∧ Config.remoteDenies u.tick = false ∧ t = u.send (.request h va n (leBytes n v) none)
    | _ => False

/-- Where an operation's access fails, with its status (R238, R248): it may not touch the page, or reads uncorrectable data. -/
def State.engineFails (s : State) (o : Op) (write : Bool) (a n : Nat) (t : State) (st : Nat) : Prop :=
  ∃ w g, s.resolve o.core o.ctx a ⟨!write, write, false⟩ = (w, g) ∧
    ((g = .prot ∧ st = 1 ∧ t = w) ∨ ∃ pa u, g = .ok pa u ∧ write = false ∧ t = (w.loadNat o.core (if u then 5 else 1) pa n).1 ∧
      t.poisonedRange o.core (if u then 5 else 1) pa n = true ∧ st = 3)

/-- The bytes that end at the next 16-byte boundary of an address, at most those left (R287). -/
def granuleLen (a left : Nat) : Nat := min (16 - a % 16) left

/-- A run of reads, granule after granule, from byte `i` of `n` on: the state after it and the bytes. -/
def State.readsRun (s : State) (o : Op) (sp : Bool) (a n : Nat) : Nat → Nat → State → List Byte → Prop
  | 0, _, _, _ => False
  | fuel + 1, i, t, l =>
    let k := granuleLen (a + i) (n - i)
    if n ≤ i then t = s ∧ l = []
    else ∃ u v rest, s.engineReads o sp (a + i) k u v ∧ u.readsRun o sp a n fuel (i + k) t rest ∧ l = leBytes k v ++ rest

/-- A run of writes, granule after granule, from byte `i` of a list of bytes on. -/
def State.writesRun (s : State) (o : Op) (sp : Bool) (a : Nat) (l : List Byte) : Nat → Nat → State → Prop
  | 0, _, _ => False
  | fuel + 1, i, t =>
    let k := granuleLen (a + i) (l.length - i)
    if l.length ≤ i then t = s
    else ∃ u, s.engineWrites o sp (endsGranule a i k) (a + i) k (leNat ((l.drop i).take k)) u ∧
      u.writesRun o sp a l fuel (i + k) t

/-- An operation of which one more segment has ended (R248): of the failures that of the lowest segment is kept. -/
def Op.ended (o : Op) (k : Nat) (bad : Option (Nat × Nat)) : Op :=
  { o with
    finished := o.finished + 1
    worst := match bad, o.worst with
      | none, w => w
      | some b, none => some (k, b.1, BitVec.ofNat 64 b.2)
      | some b, some w => if w.1 ≤ k then some w else some (k, b.1, BitVec.ofNat 64 b.2) }

/-- Segment `k` of an operation is over (R248, R335): its item has left the trellis, and its weight has returned to the core's pool. -/
def State.segmentOver (s : State) (i id k : Nat) (x : Item) (o : Op) (bad : Option (Nat × Nat)) : State :=
  ((s.dropItem i).setOp id (o.ended k bad)).giveBack o.core x.weight false

/-- Segment `k` of an operation has ended, well or not. -/
def State.segmentEnded (t : State) (i id k : Nat) (o : Op) : Prop := t.item? i = none ∧ ∃ bad, t.op? id = some (o.ended k bad)

/-- An item of an operation waits for a page, or has met a context without a fault ring (R248, R358). -/
def State.itemWaits (t : State) (i id : Nat) (o : Op) : Prop :=
  t.op? id = some o ∧ ∃ y, t.item? i = some y ∧ (y.fault.isSome = true ∨ y.failed = true)

/-- A tile operation is over but for its completion, perhaps with a status and an address. -/
def State.tileOver (t : State) (i id : Nat) (o : Op) (bad : Option (Nat × Nat)) : Prop :=
  t.item? i = none ∧ t.op? id = some { o with ready := true, worst := bad.map fun b => (0, b.1, BitVec.ofNat 64 b.2) }

/-- Cell of an accumulator of a core. -/
def State.accCell (s : State) (core a row col : Nat) : Word := ((s.core core).accs.getD a Acc.reset).cell row col
def State.accStatus (s : State) (core a : Nat) : BitVec 4 := ((s.core core).accs.getD a Acc.reset).status

/-- An element of an MMA on floats (R123): groups of 16 products, each rounded once, a pairwise tree over them, and the accumulator, all
in RNE. What a stopped task has kept of its 64-element steps enters in their place (R269). -/
def MmaTask.floatIs (t : MmaTask) (c : Core) (kept : List Nat) (old : Word) (i j : Nat) (r : Nat × Sticky) : Prop :=
  let add (x y : Nat) (z : Nat × Sticky) : Prop := fp32.sumIs .rne false [] [decodeFloat fp32 x, decodeFloat fp32 y] z
  let term (q : Nat) : Num × Num := (c.obNum t.a (t.aoff + i * t.k + q), c.obNum t.b (t.boff + j * t.k + q))
  ∃ (g : Nat → Nat × Sticky) (h : Nat → Nat × Sticky) (y : Nat × Sticky) (z : Nat × Sticky),
    (∀ p, p < t.k / 16 → fp32.sumIs .rne false ((List.range 16).map fun q => term (16 * p + q)) [] (g p)) ∧
    (∀ p, p < t.k / 64 → match kept[p]? with
      | some v => h p = (v, 0)
      | none => treeIs add (fun q => some (g q)) 2 p (some (h p))) ∧
    treeIs add (fun q => some (h q)) (Nat.log2 (t.k / 64)) 0 (some y) ∧ add old.toNat y.1 z ∧ r = (z.1, y.2 ||| z.2)

/-- The sum of an MMA or MMAB on integers or single bits (R124, R269): what a stopped task has kept, then the terms that are left. -/
def wholeSum (k : Nat) (kept : List Nat) (term : Nat → Int) : Int :=
  (kept.map fun (v : Nat) => (v : Int)).sum + ((List.range (k - 64 * kept.length)).map fun q => term (64 * kept.length + q)).sum

/-- The bytes of a row of packed elements of `w` bits, lowest first (R261, R272). -/
def rowElem (w : Nat) (bytes : List Nat) (c : Nat) : Nat := leNat (bytes.map (BitVec.ofNat 8)) / 2 ^ (w * c) % 2 ^ w

/-- A row of MDRAIN's window as bytes, the scale codes of its blocks, and its bits (R272). -/
def Drain.rowIs (d : Drain) (x : List Word) (bytes scales : List Nat) (st : Sticky) : Prop :=
  let num (c : Nat) : Num := decodeFloat fp32 (x.getD c 0).toNat
  let f := drainFmt d.ofmt
  let w := 1 + f.eb + f.fb
  (∀ b ∈ bytes, b < 256) ∧ bytes.length = drainRow d.ofmt d.n ∧
  if d.ofmt = 0 ∨ d.ofmt = 7 then (∀ c, c < d.n → rowElem 32 bytes c = (x.getD c 0).toNat) ∧ scales = [] ∧ st = 0
  else if d.ofmt = 6 then
    ∃ sts : Nat → Sticky, (∀ j, j < d.n / 16 → q4eCodes ((List.range 16).map fun q => num (16 * j + q)) ((bytes.drop (10 * j)).take 10) (sts j)) ∧
      scales = [] ∧ st = stickyAll ((List.range (d.n / 16)).map sts)
  else
    ∃ y : Nat → Nat × Sticky, (∀ c, c < d.n → rowElem w bytes c = (y c).1) ∧ st = stickyAll ((List.range d.n).map fun c => (y c).2) ∧
      if d.qb then scales.length = d.n / 16 ∧ ∀ c, c < d.n →
        scaleIs f ((List.range 16).map fun q => num (c / 16 * 16 + q)) (scales.getD (c / 16) 0) ∧
        f.quantisedIs (scales.getD (c / 16) 0) (num c) (y c)
      else scales = [] ∧ ∀ c, c < d.n → f.converts (if d.ofmt ≤ 2 then d.rnd else .rne) d.sat (num c) (y c)

/-! What the trellis does (R299, R304 to R307, R322). -/

/-- The run of a node's program on item words (R299, R307). -/
def State.nodeRun (s : State) (n : Nat) (words : List (BitVec 32)) : RankRun :=
  let x := s.node n
  rankRun ⟨words, x.hzn, x.count, x.pops, if x.ctl.bit 22 then some (x.ctl.fld 18 4) else none⟩ x.state s.trl.flows
    ((tget s.trl.slots (x.ctl.fld 10 8)).getD progReset)

/-- The run of a leaf's program: it has no flow words (R308). -/
def State.leafRun (s : State) (l : Nat) (words : List (BitVec 32)) : RankRun :=
  let y := s.leaf l
  rankRun ⟨words, y.hzn, y.entries.length, y.pops, none⟩ y.state [] (y.prog.take (y.ctl.fld 46 4 + 1))

/-- An item arrives at a node (R299): the node's program has run, the reference stands there with the rank that it emits, and one entry
taken at issue is used. -/
def State.arrived (s : State) (i n : Nat) (rest : List Nat) (x : Item) (ref : NRef) (t : State) : Prop :=
  let nd := s.node n
  let run := s.nodeRun n x.words
  t.node n = { nd with
    state := run.st, noflow := if run.noflow then nd.noflow + 1 else nd.noflow
    entries := nd.entries ++ [⟨ref, run.rank, nd.nextOrder, 0, false⟩], nextOrder := nd.nextOrder + 1, taken := nd.taken - 1 } ∧
  t.trl.flows = run.flows ∧ (∀ m, m ≠ n → t.node m = s.node m) ∧
  t.item? i = some { x with place := .tree rest, order := s.uid }

/-- A workgroup stands on a core at the start of its program: each wave holds its slot (R15). -/
def State.hasStarted (t : State) (u core : Nat) (slots : List Nat) (pc : Nat) (g : Wg) : Prop :=
  t.wg? u = some g ∧ g.core = core ∧ g.waves = slots.map some ∧
  ∀ k slot, slots[k]? = some slot → ∃ y e, t.wave? (32 * core + slot) = some y ∧ y.wg = u ∧ y.waveId = k ∧
    y.frontier = [e] ∧ e.pc = pc ∧ e.mask = allLanes

/-- A unit that is stalled on a queue has waited there the longest: a wave on a node or partition, a top node on a leaf (R322). -/
def State.longestOn (s : State) (q who : Nat) : Prop :=
  if isLeafQueue q then
    who ∈ s.topsOn q ∧ ∃ since, (who, q, since) ∈ s.trl.blocked ∧
      ∀ p ∈ s.trl.blocked, p.2.1 = q → p.1 ∈ s.topsOn q → p ≠ (who, q, since) → since < p.2.2
  else
    ∃ x c, (who, x) ∈ s.waves ∧ x.stall = some c ∧ c.queue = some q ∧
      ∀ p ∈ s.waves, p ≠ (who, x) → ∀ d, p.2.stall = some d → d.queue = some q → c.since < d.since

/-! Management. -/

/-- A management command has its effect and answers the request that is pending with its status (R421). -/
def Answers (i : Instr) (s : State) (r : State × Nat) : Prop := exec i s = .next (s.respondMgmt r.1 r.2)

/-- What a core's reset leaves (R431): no workgroup and no wave on it, no item in its three leaves, its sequencers, its store of macros and
its carve-out code as after reset, and nothing in its L1 and its L1 TLB. -/
def State.coreCleared (t : State) (c : Nat) : Prop :=
  (∀ p ∈ t.wgs, p.2.core ≠ c) ∧ (∀ k, k < 32 → t.wave? (32 * c + k) = none) ∧
  (∀ i x, t.item? i = some x → ∀ l ∈ [dispatchLeaf c, tileLeaf c, copyLeaf c], x.inLeaf l = false) ∧
  (∀ n ∈ t.mem.narrow, n.core ≠ some c) ∧ (∀ e ∈ t.mem.tlb, e.cluster = true ∨ e.unit ≠ c) ∧
  (t.core c).macros = [] ∧ (t.core c).carve = 0 ∧ (t.core c).spad = [] ∧ (t.core c).returns = []

/-! Traps. -/

/-- What taking a trap leaves (R370): the trapping instruction's lanes stand in a TRAPPED entry with its PC and index, the trap
registers hold the cause, the trap bank is zeroed, and the wave runs its handler, whose entry holds the trapped lanes; no result
is outstanding (R41), and the instruction has not retired (R8). -/
def State.inHandler (s t : State) (x : Issue) (cause : Nat) (addr : DWord) (mask : Mask) : Prop :=
  ∃ y, t.wave? x.w = some y ∧ y.inTrap = true ∧ y.queued = none ∧ y.clause = none ∧
    y.trap = ⟨cause, x.cl.pc, x.cl.index, addr, mask⟩ ∧
    (∃ e ∈ y.frontier, e.st = .trapped ∧ e.pc = x.cl.pc ∧ e.index = x.cl.index ∧ e.mask = x.cl.lanes) ∧
    (∃ m p, y.handlers = [⟨trapHandler (s.ctx x.wg.ctx).trap, p, m, .ready, 0, none, none, false, [], 0⟩] ∧
      m &&& x.cl.lanes = x.cl.lanes) ∧
    y.ll = [] ∧ (x.wave.ll = [] → y.v = x.wave.v ∧ y.s = x.wave.s) ∧ y.retired = x.wave.retired ∧ y.preds = x.wave.preds ∧
    (t.seq (seqOfWave x.w)).owner = some x.w ∧
    (t.seq (seqOfWave x.w)).bank = List.replicate 16 (List.replicate 32 0)

/-- What another access of `n` bytes can perform at a wider scope does not reach byte `b`: they lie in different blocks, of 16 bytes or of
those in which narrow bytes are performed as one (R199, R216). -/
def State.apart (s : State) (pa n b : Nat) : Prop :=
  ∃ k, 16 ∣ k ∧ (∀ c ∈ s.mem.narrow, max 16 c.span ∣ k) ∧ ∀ i, i < n → (pa + i) / k ≠ b / k

/-- No wave of the sequencer waits to enter its handler (R45). -/
def State.noneQueued (s : State) (x : Issue) : Prop :=
  ∀ p ∈ s.waves, seqOfWave p.1 = seqOfWave x.w → p.2.queued = none

/-- A wave outside its handler can take a trap at once: its context has a handler, no wave owns its sequencer's trap registers or
waits for them, no switch is asked of it, and no readback is outstanding (R45, R369, R370). -/
def State.canTrap (s : State) (x : Issue) : Prop :=
  s.noneQueued x ∧ x.cl.handler = false ∧ trapPresent (s.ctx x.wg.ctx).trap = true ∧ (s.seq (seqOfWave x.w)).owner = none ∧
  x.wg.switching = false ∧ x.wave.readback = false

/-! What every step leaves. -/

/-- A held MWAIT that has not ended sees the value it waits to change (R225), unless what it sees is a byte of another package, which
each tick leaves free (log 12). -/
def State.watching (s : State) : Prop :=
  ∀ w x h f a v, s.issueOf w = some x → x.wave.hold = some h → h.instr = .mwait f → h.done = false → x.wave.watch = some a →
    (∀ n, ({ s with tick := n }).watchLook x.core x.wg a = v) → v = x.wave.scalar f.data.toNat

/-- A wave that YIELD let pass is ready (R186), as some tick shows the page tables of another package (log 12). -/
def State.passing (s : State) : Prop := ∀ w x v, s.wave? w = some x → v ∈ x.passing → ∃ n, ({ s with tick := n }).ready v = true

/-- The invariant: no sequencer is in the middle of an instruction, and what watched words and yields wait for has not come. -/
def State.Inv (s : State) : Prop := s.focus = none ∧ s.watching ∧ s.passing

end Sys2Proof.Machine
end

