-- ==== Sys2Proof/Laws/Regs.lean ====
section
/-! SUPPORT. What the operations on registers do to what registers hold, and that the pools only move registers about. -/

namespace Sys2Proof.Machine

/-! One wave. -/

@[simp] theorem allLanes_get {l : Nat} (h : l < 32) : allLanes.getLsbD l = true :=
  (by decide : ∀ l : Fin 32, allLanes.getLsbD l.val = true) ⟨l, h⟩

theorem Wave.reg_setReg (x : Wave) (f g : RegFile) (n m : Nat) (r : Reg) :
    (x.setReg f n r).reg? g m = if g = f ∧ m = n then some r else x.reg? g m := by
  cases f <;> cases g <;> simp [Wave.setReg, Wave.reg?, Wave.setFile, Wave.file, tget_tput]

@[simp] theorem Wave.reg_setReg_same (x : Wave) (f : RegFile) (n : Nat) (r : Reg) :
    (x.setReg f n r).reg? f n = some r := by simp [Wave.reg_setReg]

theorem Wave.reg_setReg_other (x : Wave) {f g : RegFile} {n m : Nat} (r : Reg) (h : ¬(g = f ∧ m = n)) :
    (x.setReg f n r).reg? g m = x.reg? g m := by simp [Wave.reg_setReg, h]

@[simp] theorem Wave.reg_leaveSlot (x : Wave) (f g : RegFile) (n m : Nat) : (x.leaveSlot f n).reg? g m = x.reg? g m := by
  cases g <;> rfl

@[simp] theorem Wave.reg_prune (x : Wave) (f g : RegFile) (n m : Nat) (k : Mask) : (x.prune f n k).reg? g m = x.reg? g m := by
  cases g <;> rfl

@[simp] theorem Wave.reg_pushSlot (x : Wave) (g : RegFile) (m : Nat) : x.pushSlot.reg? g m = x.reg? g m := by
  cases g <;> rfl

theorem Wave.reg_unmap (x : Wave) (f g : RegFile) (n m : Nat) :
    (x.unmap f n).reg? g m = if g = f ∧ m = n then none else x.reg? g m := by
  cases f <;> cases g <;> simp only [Wave.unmap, Wave.reg?, Wave.leaveSlot, Wave.setFile, Wave.file] <;>
    by_cases h : m = n <;> simp [h, tget_terase_other]

@[simp] theorem allLanes_getElem {l : Nat} (h : l < 32) : allLanes[l] = true := by
  rw [← BitVec.getLsbD_eq_getElem]; exact allLanes_get h

/-- Two waves whose rename entries hold the same. -/
def Wave.sameRegs (x y : Wave) : Prop :=
  ∀ f n, y.lanes f n = x.lanes f n ∧ y.released f n = x.released f n ∧ y.poisoned f n = x.poisoned f n

theorem Wave.sameRegs_refl (x : Wave) : x.sameRegs x := fun _ _ => ⟨rfl, rfl, rfl⟩

theorem Wave.sameRegs_trans {x y z : Wave} (h : x.sameRegs y) (k : y.sameRegs z) : x.sameRegs z := fun f n =>
  ⟨(k f n).1.trans (h f n).1, (k f n).2.1.trans (h f n).2.1, (k f n).2.2.trans (h f n).2.2⟩

theorem Wave.sameRegs_of_reg {x y : Wave} (h : ∀ f n, y.reg? f n = x.reg? f n) : x.sameRegs y := fun f n => by
  simp [Wave.lanes, Wave.released, Wave.poisoned, h]

/-- An entry replaced by one that holds the same. -/
theorem Wave.sameRegs_setReg (x : Wave) (f : RegFile) (n : Nat) (r r' : Reg) (h : x.reg? f n = some r)
    (hr : r'.lanes = r.lanes ∧ r'.released = r.released ∧ r'.poison = r.poison) : x.sameRegs (x.setReg f n r') := by
  intro g m
  by_cases hm : g = f ∧ m = n
  · obtain ⟨rfl, rfl⟩ := hm
    simp [Wave.lanes, Wave.released, Wave.poisoned, h, hr]
  · simp [Wave.lanes, Wave.released, Wave.poisoned, Wave.reg_setReg_other _ _ hm]

theorem Wave.sameRegs_touch (x : Wave) (f : RegFile) (n now : Nat) : x.sameRegs (x.touch f n now) := by
  unfold Wave.touch
  split
  · rename_i r h
    exact Wave.sameRegs_setReg x f n r _ h ⟨rfl, rfl, rfl⟩
  · exact x.sameRegs_refl

theorem Wave.readsAs_sameRegs {x y : Wave} (h : x.sameRegs y) (f : RegFile) (n l : Nat) :
    y.readsAs f n l = x.readsAs f n l := by simp [Wave.readsAs, h f n]

theorem Wave.readsAs_of_reg {x y : Wave} {f : RegFile} {n : Nat} (h : y.reg? f n = x.reg? f n) (l : Nat) :
    y.readsAs f n l = x.readsAs f n l := by unfold Wave.readsAs Wave.released Wave.lanes; rw [h]

/-- A release makes its lanes read 0 and leaves every other lane alone. -/
theorem Wave.readsAs_release (x : Wave) (f g : RegFile) (n m : Nat) (k : Mask) {l : Nat} (hl : l < 32) :
    (x.release f n k).readsAs g m l = if g = f ∧ m = n ∧ k.getLsbD l = true then 0 else x.readsAs g m l := by
  by_cases hm : g = f ∧ m = n
  · obtain ⟨rfl, rfl⟩ := hm
    simp only [true_and]
    unfold Wave.release
    split
    · rename_i h
      split
      · simp [Wave.readsAs, Wave.released, h, hl]
      · rfl
    · rename_i r h
      have hx : x.readsAs g m l = if r.released.getLsbD l then 0 else laneOf r.lanes l := by
        simp [Wave.readsAs, Wave.released, Wave.lanes, h]
      dsimp only
      split
      · rename_i hall
        have : (r.released ||| k).getLsbD l = true := by rw [hall, allLanes_get hl]
        rw [BitVec.getLsbD_or, Bool.or_eq_true] at this
        have hz : (x.unmap g m).readsAs g m l = 0 := by
          simp [Wave.readsAs, Wave.released, Wave.reg_unmap, hl]
        rw [hz, hx]
        rcases this with a | a <;> simp [a]
      · simp only [Wave.readsAs, Wave.released, Wave.lanes, Wave.reg_setReg_same, h, BitVec.getLsbD_or, mixLanes,
          laneOf_mkLanes _ hl]
        cases k.getLsbD l <;> simp [laneOf]
  · rw [if_neg fun a => hm ⟨a.1, a.2.1⟩]
    refine Wave.readsAs_of_reg ?_ l
    unfold Wave.release
    split
    · rfl
    · dsimp only
      split
      · simp [Wave.reg_unmap, hm]
      · exact Wave.reg_setReg_other _ _ hm

/-- A register that a release does not name holds what it held. -/
theorem Wave.sameReg_release (x : Wave) {f g : RegFile} {n m : Nat} (k : Mask) (h : ¬(g = f ∧ m = n)) :
    (x.release f n k).reg? g m = x.reg? g m := by
  unfold Wave.release
  split
  · rfl
  · dsimp only
    split
    · simp [Wave.reg_unmap, h]
    · exact Wave.reg_setReg_other _ _ h

theorem Wave.sameReg_write (x : Wave) {f g : RegFile} {n m : Nat} (k : Mask) (v : Lanes) (now : Nat)
    (h : ¬(g = f ∧ m = n)) : (x.write f n k v now).reg? g m = x.reg? g m := by
  unfold Wave.write
  split
  · rfl
  · have : ∀ (r : Reg) (w : List (List (RegFile × Nat))),
        ({ (x.leaveSlot f n).setReg f n r with window := w } : Wave).reg? g m = x.reg? g m := by
      intro r w
      have e : ({ (x.leaveSlot f n).setReg f n r with window := w } : Wave).reg? g m = ((x.leaveSlot f n).setReg f n r).reg? g m := by
        cases g <;> rfl
      rw [e, Wave.reg_setReg_other _ _ h, Wave.reg_leaveSlot]
    exact this _ _

/-- A write gives its lanes their value and leaves every other lane alone; a scalar is written whole. -/
theorem Wave.readsAs_write (x : Wave) (f g : RegFile) (n m : Nat) (k : Mask) (v : Lanes) (now : Nat) {l : Nat}
    (hl : l < 32) (hs : f = .scl → k = allLanes) :
    (x.write f n k v now).readsAs g m l = if g = f ∧ m = n ∧ k.getLsbD l = true then laneOf v l else x.readsAs g m l := by
  by_cases hm : g = f ∧ m = n
  · obtain ⟨rfl, rfl⟩ := hm
    simp only [true_and]
    unfold Wave.write
    split
    · rename_i h0
      subst h0
      simp
    · have key : ∀ (r : Reg) (w : List (List (RegFile × Nat))),
          ({ (x.leaveSlot g m).setReg g m r with window := w } : Wave).reg? g m = some r := by
        intro r w
        have : ({ (x.leaveSlot g m).setReg g m r with window := w } : Wave).reg? g m = ((x.leaveSlot g m).setReg g m r).reg? g m := by
          cases g <;> rfl
        rw [this]; simp
      simp only [Wave.readsAs, Wave.released, Wave.lanes, key, BitVec.getLsbD_and, BitVec.getLsbD_not, hl, decide_true,
        Bool.true_and]
      cases g
      · cases hk : k.getLsbD l
        · rcases Option.eq_none_or_eq_some (x.reg? .vec m) with hx | ⟨r, hx⟩ <;>
            simp [hx, hk, mixLanes, laneOf_mkLanes _ hl, allLanes_get hl]
        · simp [hk, mixLanes, laneOf_mkLanes _ hl]
      · simp [hs rfl, hl]
  · rw [if_neg fun a => hm ⟨a.1, a.2.1⟩]
    exact Wave.readsAs_of_reg (Wave.sameReg_write x k v now hm) l

/-! The pools. -/

theorem Core.kept_refl (c : Core) : c.kept c := rfl
theorem Core.kept_trans {a b c : Core} (h : a.kept b) (k : b.kept c) : a.kept c := by
  unfold Core.kept at *
  rw [k, h]
theorem Core.kept_setPool (c : Core) (f : RegFile) (p : Pool) : c.kept (c.setPool f p) := by cases f <;> rfl

theorem Wave.kept_refl (x : Wave) : x.kept x := ⟨rfl, x.sameRegs_refl⟩
theorem Wave.kept_trans {x y z : Wave} (h : x.kept y) (k : y.kept z) : x.kept z :=
  ⟨by rw [k.1, h.1], Wave.sameRegs_trans h.2 k.2⟩

theorem Wave.kept_setReg (x : Wave) (f : RegFile) (n : Nat) (r r' : Reg) (h : x.reg? f n = some r)
    (hr : r'.lanes = r.lanes ∧ r'.released = r.released ∧ r'.poison = r.poison) : x.kept (x.setReg f n r') :=
  ⟨by cases f <;> rfl, Wave.sameRegs_setReg x f n r r' h hr⟩

theorem Wave.kept_touch (x : Wave) (f : RegFile) (n now : Nat) : x.kept (x.touch f n now) := by
  refine ⟨?_, x.sameRegs_touch f n now⟩
  unfold Wave.touch
  split
  · cases f <;> rfl
  · rfl

/-- Registers have moved between the window, the pools and their spill slots, and nothing else has changed. -/
def State.moved (s t : State) : Prop :=
  s.unitsKept t ∧ t.wgs = s.wgs ∧ t.seqs = s.seqs ∧
  ∀ v, (s.wave? v = none → t.wave? v = none) ∧ ∀ x, s.wave? v = some x → ∃ y, t.wave? v = some y ∧ x.kept y

theorem State.unitsKept_refl (s : State) : s.unitsKept s :=
  ⟨rfl, rfl, rfl, rfl, rfl, rfl, rfl, rfl, rfl, rfl, rfl, fun _ => Core.kept_refl _⟩

theorem State.unitsKept_trans {s t u : State} (h : s.unitsKept t) (k : t.unitsKept u) : s.unitsKept u := by
  obtain ⟨a1, a2, a3, a4, a5, a6, a7, a8, a9, a10, a11, a12⟩ := h
  obtain ⟨b1, b2, b3, b4, b5, b6, b7, b8, b9, b10, b11, b12⟩ := k
  exact ⟨b1.trans a1, b2.trans a2, b3.trans a3, b4.trans a4, b5.trans a5, b6.trans a6, b7.trans a7, b8.trans a8,
    b9.trans a9, b10.trans a10, b11.trans a11, fun c => Core.kept_trans (a12 c) (b12 c)⟩

theorem State.moved_refl (s : State) : s.moved s :=
  ⟨s.unitsKept_refl, rfl, rfl, fun _ => ⟨id, fun x h => ⟨x, h, x.kept_refl⟩⟩⟩

theorem State.moved_trans {s t u : State} (h : s.moved t) (k : t.moved u) : s.moved u := by
  refine ⟨State.unitsKept_trans h.1 k.1, k.2.1.trans h.2.1, k.2.2.1.trans h.2.2.1, fun v => ⟨fun e => ?_, fun x e => ?_⟩⟩
  · exact (k.2.2.2 v).1 ((h.2.2.2 v).1 e)
  · obtain ⟨y, hy, ky⟩ := (h.2.2.2 v).2 x e
    obtain ⟨z, hz, kz⟩ := (k.2.2.2 v).2 y hy
    exact ⟨z, hz, Wave.kept_trans ky kz⟩

/-- A pool of a core replaced. -/
theorem State.moved_updPool (s : State) (c : Nat) (f : RegFile) (p : Core → Pool) :
    s.moved (s.updCore c fun k => k.setPool f (p k)) := by
  refine ⟨⟨rfl, rfl, rfl, rfl, rfl, rfl, rfl, rfl, rfl, rfl, rfl, fun d => ?_⟩, rfl, rfl, fun v => ⟨id, fun x h => ⟨x, h, x.kept_refl⟩⟩⟩
  by_cases h : d = c
  · subst h
    rw [State.core_updCore_same]
    exact Core.kept_setPool ..
  · rw [State.core_updCore_other _ _ h]
    exact Core.kept_refl _

/-- A wave replaced by one that keeps what its registers hold. -/
theorem State.moved_setWave (s : State) (w : Nat) (x y : Wave) (h : s.wave? w = some x) (k : x.kept y) :
    s.moved (s.setWave w y) := by
  refine ⟨⟨rfl, rfl, rfl, rfl, rfl, rfl, rfl, rfl, rfl, rfl, rfl, fun d => Core.kept_refl _⟩, rfl, rfl, fun v => ?_⟩
  by_cases e : v = w
  · subst e
    rw [State.wave_setWave_same]
    refine ⟨fun a => ?_, fun z hz => ?_⟩
    · rw [h] at a; exact absurd a (by simp)
    · rw [h] at hz; exact ⟨y, rfl, by simpa [Option.some.inj hz] using k⟩
  · rw [State.wave_setWave_other _ _ e]
    exact ⟨id, fun z hz => ⟨z, hz, z.kept_refl⟩⟩

theorem State.moved_servePool (s : State) (core : Nat) (f : RegFile) (n : Nat) : s.moved (s.servePool core f n) := by
  induction n generalizing s with
  | zero => exact s.moved_refl
  | succ n ih =>
    unfold State.servePool
    dsimp only
    split
    · exact s.moved_refl
    · rename_i e rest hq
      split
      · exact s.moved_refl
      · split
        · exact State.moved_trans (s.moved_updPool ..) (ih _)
        · rename_i x hx
          split
          · exact State.moved_trans (s.moved_updPool ..) (ih _)
          · rename_i r hr
            split
            · exact State.moved_trans (s.moved_updPool ..) (ih _)
            · split
              · have h1 := s.moved_setWave e.wave x _ hx (Wave.kept_setReg x f e.reg r
                  { r with home := .bank (lowestFree (s.heldRegs core f) (poolSize f) 0), used := s.tick }
                  hr ⟨rfl, rfl, rfl⟩)
                split
                · refine State.moved_trans h1 (State.moved_trans ?_ (State.moved_updPool ..))
                  rw [State.updWave_eq _ _ (State.wave_setWave_same ..)]
                  exact State.moved_setWave _ _ _ _ (State.wave_setWave_same ..) ⟨rfl, fun _ _ => ⟨rfl, rfl, rfl⟩⟩
                · exact State.moved_trans h1 (State.moved_trans (State.moved_updPool ..) (ih _))
              · split
                · exact s.moved_refl
                · split
                  · exact s.moved_refl
                  · exact s.moved_updPool ..

theorem State.moved_serve (s : State) (core : Nat) (f : RegFile) : s.moved (s.serve core f) := s.moved_servePool ..

theorem State.moved_needReg (s : State) (w : Nat) (f : RegFile) (n : Nat) (k : AllocKind) : s.moved (s.needReg w f n k) := by
  unfold State.needReg
  dsimp only
  split
  · exact s.moved_refl
  · exact State.moved_trans (s.moved_updPool ..) (State.moved_serve ..)

theorem State.moved_endSpill (s : State) (core : Nat) (f : RegFile) : s.moved (s.endSpill core f) := by
  unfold State.endSpill
  split
  · exact s.moved_refl
  · rename_i v _
    have h1 : s.moved (s.updCore core fun c => c.setPool f { c.pool f with spill := none }) := s.moved_updPool ..
    dsimp only
    generalize (s.updCore core fun c => c.setPool f { c.pool f with spill := none }) = t at h1 ⊢
    refine State.moved_trans h1 (State.moved_trans ?_ (State.moved_serve _ core f))
    split
    · unfold State.updWave
      split
      · rename_i x hx
        refine State.moved_setWave t v.wave x _ hx ?_
        dsimp only
        split
        · rename_i r hr
          exact Wave.kept_setReg x f v.reg r _ hr ⟨rfl, rfl, rfl⟩
        · exact x.kept_refl
      · exact t.moved_refl
    · exact t.moved_refl

theorem State.moved_awaitSpill (s : State) (w : Nat) (f : RegFile) (n : Nat) : s.moved (s.awaitSpill w f n) := by
  unfold State.awaitSpill
  split
  · exact s.moved_endSpill ..
  · exact s.moved_refl

/-- What a slot that leaves the window does: registers move, and what they hold stays (R55, R59). -/
theorem State.moved_leaveWindow (s : State) (w : Nat) (f : RegFile) (n : Nat) : s.moved (s.leaveWindow w f n) := by
  refine State.moved_trans (s.moved_awaitSpill w f n) ?_
  unfold State.leaveWindow
  dsimp only
  split
  · exact State.moved_refl _
  · rename_i x hx
    split
    · exact State.moved_refl _
    · rename_i r hr
      split
      · exact State.moved_refl _
      · have h := fun u : Nat => State.moved_setWave (s.awaitSpill w f n) w x _ hx (Wave.kept_setReg x f n r
          { r with pend := 0, used := u } hr ⟨rfl, rfl, rfl⟩)
        split
        · exact h _
        · exact State.moved_trans (h _) (State.moved_needReg ..)

/-- Registers leave the window one after the other. -/
theorem State.moved_foldl {α : Type} (f : State → α → State) (h : ∀ (s : State) a, s.moved (f s a)) (l : List α) (s : State) :
    s.moved (l.foldl f s) := by
  induction l generalizing s with
  | nil => exact s.moved_refl
  | cons a l ih => exact State.moved_trans (h s a) (ih _)

end Sys2Proof.Machine
end

