-- ==== Sys2Proof/Laws/Retire.lean ====
section
/-! SUPPORT. Everything that a retirement can do (spec/02 R50): one lemma for `State.retire` and one for `State.finish`. -/

namespace Sys2Proof.Machine

/-- The instruction in issue is that of a wave with a clause in progress, in its workgroup. -/
theorem State.issueOf_spec {s : State} {w : Nat} {x : Issue} (h : s.issueOf w = some x) :
    x.w = w ∧ s.wave? x.w = some x.wave ∧ x.wave.clause = some x.cl ∧ s.wg? x.wave.wg = some x.wg := by
  unfold State.issueOf at h
  split at h
  · exact absurd h (by simp)
  · rename_i z hz
    split at h
    · rename_i c g hc hg
      cases h
      exact ⟨rfl, hz, hc, hg⟩
    · exact absurd h (by simp)

theorem State.issue_spec {s : State} {x : Issue} (h : s.issue? = some x) :
    s.wave? x.w = some x.wave ∧ x.wave.clause = some x.cl ∧ s.wg? x.wave.wg = some x.wg := by
  unfold State.issue? at h
  split at h
  · exact absurd h (by simp)
  · split at h
    · exact absurd h (by simp)
    · exact (State.issueOf_spec h).2

theorem State.issueOf_of {s : State} {w : Nat} {z : Wave} {c : Clause} {g : Wg} (hz : s.wave? w = some z)
    (hc : z.clause = some c) (hg : s.wg? z.wg = some g) : s.issueOf w = some ⟨w, z, c, g⟩ := by
  simp [State.issueOf, hz, hc, hg]

/-- A wave whose program has not moved, between two instructions or within one: `y` is wave `x.w` after the releases and the
results of `x`. -/
def State.midway (s t : State) (x : Issue) (rels : List Rel) (puts : List Put) (st : Sticky) (y : Wave) : Prop :=
  t.wave? x.w = some y ∧ s.resultsIn t x rels puts y ∧
  y = { x.wave with
    v := y.v, s := y.s, window := y.window, preds := y.preds, ll := y.ll, sticky := x.wave.sticky ||| st
    retired := x.wave.retired + 1, spills := y.spills } ∧
  s.unitsKept t ∧ s.othersKept t x.w ∧ (∀ u, u ≠ x.wave.wg → t.wg? u = s.wg? u) ∧
  ∀ q, (q ≠ seqOfWave x.w → t.seq q = s.seq q) ∧ (t.seq q).active = (s.seq q).active

theorem State.othersKept_refl (s : State) (w : Nat) : s.othersKept s w := fun _ _ => ⟨id, fun x h => ⟨x, h, x.kept_refl⟩⟩

theorem State.othersKept_trans {s t u : State} {w : Nat} (h : s.othersKept t w) (k : t.othersKept u w) : s.othersKept u w :=
  fun v hv => ⟨fun e => (k v hv).1 ((h v hv).1 e), fun x e => by
    obtain ⟨y, hy, ky⟩ := (h v hv).2 x e
    obtain ⟨z, hz, kz⟩ := (k v hv).2 y hy
    exact ⟨z, hz, Wave.kept_trans ky kz⟩⟩

theorem State.othersKept_of_wave {s t : State} {w : Nat} (h : ∀ v, v ≠ w → t.wave? v = s.wave? v) : s.othersKept t w :=
  fun v hv => by rw [h v hv]; exact ⟨id, fun x e => ⟨x, e, x.kept_refl⟩⟩

/-- A wave touched by a list of reads holds what it held. -/
theorem Wave.touchAll (x : Wave) (uses : List Read) (now : Nat) :
    x.kept (uses.foldl (fun y r => y.touch r.file r.reg now) x) := by
  induction uses generalizing x with
  | nil => exact x.kept_refl
  | cons r l ih => exact Wave.kept_trans (x.kept_touch ..) (ih _)

/-- The releases of an instruction, one after the other. -/
theorem Wave.releaseAll (x : Wave) (rels : List Rel) :
    let y := rels.foldl (fun y (r : Rel) => (y.release r.file r.reg r.lanes).prune r.file r.reg r.lanes) x
    y = { x with v := y.v, s := y.s, window := y.window, ll := y.ll } ∧
    (∀ f n l, l < 32 → y.readsAs f n l = if rels.any (fun r => r.hits f n l) then 0 else x.readsAs f n l) ∧
    (∀ f n, (rels.any fun r => r.file == f && r.reg == n) = false → y.reg? f n = x.reg? f n) ∧
    y.ll = rels.foldl (fun l r => withoutLanes l r.file r.reg r.lanes) x.ll := by
  induction rels generalizing x with
  | nil => exact ⟨rfl, fun _ _ _ _ => rfl, fun _ _ _ => rfl, rfl⟩
  | cons r l ih =>
    have hx : (x.release r.file r.reg r.lanes).prune r.file r.reg r.lanes =
        { x with
          v := ((x.release r.file r.reg r.lanes).prune r.file r.reg r.lanes).v
          s := ((x.release r.file r.reg r.lanes).prune r.file r.reg r.lanes).s
          window := ((x.release r.file r.reg r.lanes).prune r.file r.reg r.lanes).window
          ll := ((x.release r.file r.reg r.lanes).prune r.file r.reg r.lanes).ll } := by
      unfold Wave.release
      split
      · rfl
      · dsimp only
        split
        · cases r.file <;> rfl
        · cases r.file <;> rfl
    have hll : ((x.release r.file r.reg r.lanes).prune r.file r.reg r.lanes).ll = withoutLanes x.ll r.file r.reg r.lanes := by
      have : (x.release r.file r.reg r.lanes).ll = x.ll := by
        unfold Wave.release
        split
        · rfl
        · dsimp only
          split <;> cases r.file <;> rfl
      rw [← this]; rfl
    obtain ⟨h1, h2, h3, h4⟩ := ih ((x.release r.file r.reg r.lanes).prune r.file r.reg r.lanes)
    refine ⟨?_, fun f n l' hl => ?_, fun f n hn => ?_, by rw [List.foldl_cons, h4, hll]; rfl⟩
    · rw [List.foldl_cons]
      rw [h1, hx]
    · rw [List.foldl_cons, h2 f n l' hl]
      have e : ((x.release r.file r.reg r.lanes).prune r.file r.reg r.lanes).readsAs f n l' =
          (x.release r.file r.reg r.lanes).readsAs f n l' := Wave.readsAs_of_reg (Wave.reg_prune ..) _
      rw [e, Wave.readsAs_release _ _ _ _ _ _ hl, List.any_cons]
      by_cases hit : r.hits f n l' = true
      · have : f = r.file ∧ n = r.reg ∧ r.lanes.getLsbD l' = true := by
          simp only [Rel.hits, Bool.and_eq_true, beq_iff_eq] at hit
          exact ⟨hit.1.1.symm, hit.1.2.symm, hit.2⟩
        rw [if_pos this]
        simp [hit]
      · have : ¬(f = r.file ∧ n = r.reg ∧ r.lanes.getLsbD l' = true) := fun a => hit (by
          simp [Rel.hits, a.1, a.2.1, a.2.2])
        rw [if_neg this]
        simp [hit]
    · rw [List.any_cons, Bool.or_eq_false_iff] at hn
      rw [List.foldl_cons, h3 f n hn.2, Wave.reg_prune]
      refine Wave.sameReg_release x r.lanes fun a => ?_
      rw [a.1, a.2] at hn
      simp at hn

/-- What the parts of a wave that a result does not touch say. -/
theorem Wave.write_rest (x : Wave) (f : RegFile) (n : Nat) (k : Mask) (v : Lanes) (now : Nat) :
    x.write f n k v now = { x with v := (x.write f n k v now).v, s := (x.write f n k v now).s, window := (x.write f n k v now).window } := by
  unfold Wave.write
  split
  · rfl
  · cases f <;> rfl

theorem State.unitsKept_of {s t : State} (h : t.mem = s.mem ∧ t.timelines = s.timelines ∧ t.ops = s.ops ∧ t.trl = s.trl ∧
    t.qd = s.qd ∧ t.cmd = s.cmd ∧ t.host = s.host ∧ t.tick = s.tick ∧ t.clocks = s.clocks ∧ t.uid = s.uid ∧ t.focus = s.focus)
    (hc : t.cores = s.cores) : s.unitsKept t := by
  obtain ⟨a1, a2, a3, a4, a5, a6, a7, a8, a9, a10, a11⟩ := h
  exact ⟨a1, a2, a3, a4, a5, a6, a7, a8, a9, a10, a11, fun c => by rw [State.core_congr hc]; exact Core.kept_refl _⟩

theorem State.unitsKept_updWave (s : State) (w : Nat) (f : Wave → Wave) : s.unitsKept (s.updWave w f) :=
  State.unitsKept_of (by simp) (by simp)
theorem State.unitsKept_updSeq (s : State) (q : Nat) (f : Seq → Seq) : s.unitsKept (s.updSeq q f) :=
  State.unitsKept_of (by simp) (by simp)
theorem State.unitsKept_updWg (s : State) (u : Nat) (f : Wg → Wg) : s.unitsKept (s.updWg u f) :=
  State.unitsKept_of (by simp) (by simp)

/-- The step from one state midway to the next, from what its wave, workgroup and sequencer become. -/
theorem State.midway_next {s t t' : State} {x : Issue} {rels : List Rel} {puts : List Put} {st : Sticky} {y z : Wave} {p : Put}
    (h : s.midway t x rels puts st y) (hz : t'.wave? x.w = some z) (hu : t.unitsKept t')
    (ho : ∀ v, v ≠ x.w → t'.wave? v = t.wave? v) (hw : ∀ u, u ≠ x.wave.wg → t'.wg? u = t.wg? u)
    (hq : ∀ q, (q ≠ seqOfWave x.w → t'.seq q = t.seq q) ∧ (t'.seq q).active = (t.seq q).active)
    (hr : ∀ f n l, l < 32 → z.readsAs f n l = p.word x f n l (y.readsAs f n l))
    (hn : ∀ f n, named [] [p] f n = false → z.reg? f n = y.reg? f n)
    (hp : ∀ n, z.pred n = p.predMask n (y.pred n)) (hl : z.ll = p.waiting x y.ll)
    (hb : ∀ k l, l < 32 → laneOf ((t'.seq (seqOfWave x.w)).bank.getD k []) l =
      p.bankWord x k l (laneOf ((t.seq (seqOfWave x.w)).bank.getD k []) l))
    (hg : ∀ g, t.wg? x.wave.wg = some g → ∃ g', t'.wg? x.wave.wg = some g' ∧ g' = { g with grp := g'.grp, claims := g'.claims } ∧
      ∀ n, g'.grp.getD n 0 = p.grpWord n (g.grp.getD n 0))
    (he : z = { y with v := z.v, s := z.s, window := z.window, preds := z.preds, ll := z.ll, spills := z.spills }) :
    s.midway t' x rels (puts ++ [p]) st z := by
  obtain ⟨ay, ⟨ar, an, ap, al, ab, g, ag, age, agw⟩, ae, au, ao, aw, aq⟩ := h
  refine ⟨hz, ⟨fun f n l hl => ?_, fun f n hnm => ?_, fun n => ?_, by rw [hl, al, List.foldl_append]; rfl, fun k l hl => ?_, ?_⟩, ?_, State.unitsKept_trans au hu,
    State.othersKept_trans ao (State.othersKept_of_wave ho), fun u hu' => (hw u hu').trans (aw u hu'),
    fun q => ⟨fun h' => ((hq q).1 h').trans ((aq q).1 h'), (hq q).2.trans (aq q).2⟩⟩
  · rw [hr f n l hl, ar f n l hl, List.foldl_append]; rfl
  · have h1 : named rels puts f n = false ∧ named [] [p] f n = false := by
      simp only [named, List.any_append, Bool.or_eq_false_iff, List.any_nil, true_and] at hnm ⊢
      exact ⟨⟨hnm.1, hnm.2.1⟩, hnm.2.2⟩
    have h2 := hn f n h1.2
    obtain ⟨b1, b2, b3⟩ := an f n h1.1
    refine ⟨Eq.trans ?_ b1, Eq.trans ?_ b2, Eq.trans ?_ b3⟩
    · unfold Wave.lanes; rw [h2]
    · unfold Wave.released; rw [h2]
    · unfold Wave.poisoned; rw [h2]
  · rw [hp, ap, List.foldl_append]; rfl
  · rw [hb k l hl, ab k l hl, List.foldl_append]; rfl
  · obtain ⟨g', hg', hge', hgw'⟩ := hg g ag
    refine ⟨g', hg', ?_, fun n => by rw [hgw', agw, List.foldl_append]; rfl⟩
    rw [hge', age]
  · rw [he, ae]

/-- One result written at retirement: the registers as `Put.word`, `Put.predMask`, `Put.bankWord` and `Put.grpWord` say. -/
theorem State.midway_put {s t : State} {x : Issue} {rels : List Rel} {puts : List Put} {st : Sticky} {y : Wave}
    (h : s.midway t x rels puts st y) (p : Put) : ∃ z, s.midway (t.put x p) x rels (puts ++ [p]) st z := by
  have hy := h.1
  have hwg : y.wg = x.wave.wg := by rw [h.2.2.1]
  have same (g : Wg) (hg : t.wg? x.wave.wg = some g) (t' : State) (e : t'.wgs = t.wgs) (n : Nat → DWord → DWord)
      (hn : ∀ k d, n k d = d) : ∃ g', t'.wg? x.wave.wg = some g' ∧ g' = { g with grp := g'.grp, claims := g'.claims } ∧
        ∀ k, g'.grp.getD k 0 = n k (g.grp.getD k 0) :=
    ⟨g, by rw [State.wg_congr e]; exact hg, rfl, fun k => (hn ..).symm⟩
  cases p with
  | vec n m v =>
    by_cases ht : x.isTrapReg n = true
    · let t1 := t.updSeq (seqOfWave x.w) fun q => { q with bank := lsetD [] q.bank (n - 240) (mixLanes m (q.bank.getD (n - 240) []) v) }
      have h1 : t1.wave? x.w = some y := hy
      have e : t.put x (.vec n m v) = t1.updWave x.w fun y => y.prune .vec (trapRegKey (n - 240)) m := by
        simp only [State.put, ht, if_true]; rfl
      rw [e]
      refine ⟨_, State.midway_next h (State.wave_updWave_same _ _ h1)
        (State.unitsKept_trans (t.unitsKept_updSeq ..) (State.unitsKept_updWave ..))
        (fun v hv => State.wave_updWave_other _ _ hv) (fun u _ => State.wg_congr (by simp [t1]) u) (fun q => ⟨fun hq => ?_, ?_⟩)
        (fun f k l hl => ?_) (fun f k _ => Wave.reg_prune ..) (fun k => rfl)
        (by simp only [Put.waiting, Issue.llReg, ht, if_true]; rfl) (fun k l hl => ?_)
        (fun g hg => same g hg _ (by simp [t1]) (fun k d => (Put.vec n m v).grpWord k d) (fun _ _ => rfl)) rfl⟩
      · rw [State.seq_congr (State.updWave_seqs ..)]; exact State.seq_updSeq_other _ _ hq
      · rw [State.seq_congr (State.updWave_seqs ..)]
        by_cases hq : q = seqOfWave x.w
        · subst hq; rw [State.seq_updSeq_same]
        · rw [State.seq_updSeq_other _ _ hq]
      · rw [Wave.readsAs_of_reg (Wave.reg_prune ..)]; simp [Put.word, ht]
      · rw [State.seq_congr (State.updWave_seqs ..), State.seq_updSeq_same]
        by_cases hk : n - 240 = k
        · subst hk
          rw [lsetD_get_same, mixLanes, laneOf_mkLanes _ hl]
          simp [Put.bankWord, ht]
        · rw [lsetD_get_other _ _ _ (fun e => hk e.symm)]
          simp [Put.bankWord, hk]
    · have hf : x.isTrapReg n = false := by simpa using ht
      have e : t.put x (.vec n m v) = t.updWave x.w fun y => (y.write .vec n m v t.tick).prune .vec n m := by
        simp [State.put, hf]
      rw [e]
      refine ⟨_, State.midway_next h (State.wave_updWave_same _ _ hy) (t.unitsKept_updWave ..)
        (fun v hv => State.wave_updWave_other _ _ hv) (fun u _ => State.wg_congr (by simp) u)
        (fun q => by rw [State.seq_congr (State.updWave_seqs ..)]; exact ⟨fun _ => rfl, rfl⟩)
        (fun f k l hl => ?_) (fun f k hk => ?_) (fun k => ?_)
        (by rw [Wave.write_rest]; simp only [Put.waiting, Issue.llReg, hf]; rfl) (fun k l hl => ?_)
        (fun g hg => same g hg _ (by simp) (fun k d => (Put.vec n m v).grpWord k d) (fun _ _ => rfl)) ?_⟩
      · rw [Wave.readsAs_of_reg (Wave.reg_prune ..), Wave.readsAs_write _ _ _ _ _ _ _ _ hl (by simp)]
        simp [Put.word, hf, and_assoc]
      · rw [Wave.reg_prune]
        refine Wave.sameReg_write _ _ _ _ fun a => ?_
        rw [a.1, a.2] at hk
        simp [named] at hk
      · simp only [Wave.pred, Wave.prune]; rw [Wave.write_rest]; rfl
      · rw [State.seq_congr (State.updWave_seqs ..)]; simp [Put.bankWord, hf]
      · simp only [Wave.prune]; rw [Wave.write_rest]
  | scl n v =>
    refine ⟨_, State.midway_next h (State.wave_updWave_same _ _ hy) (t.unitsKept_updWave ..)
      (fun v hv => State.wave_updWave_other _ _ hv) (fun u _ => State.wg_congr (by simp [State.put]) u)
      (fun q => by rw [State.seq_congr (by simp [State.put] : (t.put x (.scl n v)).seqs = t.seqs)]; exact ⟨fun _ => rfl, rfl⟩)
      (fun f k l hl => ?_) (fun f k hk => ?_) (fun k => ?_) (by rw [Wave.write_rest]; rfl) (fun k l hl => ?_)
      (fun g hg => same g hg _ (by simp [State.put]) (fun k d => (Put.scl n v).grpWord k d) (fun _ _ => rfl)) ?_⟩
    · rw [Wave.readsAs_of_reg (Wave.reg_prune ..), Wave.readsAs_write _ _ _ _ _ _ _ _ hl (fun _ => rfl)]
      simp [Put.word, hl]
    · rw [Wave.reg_prune]
      refine Wave.sameReg_write _ _ _ _ fun a => ?_
      rw [a.1, a.2] at hk
      simp [named] at hk
    · simp only [Wave.pred, Wave.prune]; rw [Wave.write_rest]; rfl
    · rw [State.seq_congr (by simp [State.put] : (t.put x (.scl n v)).seqs = t.seqs)]; rfl
    · simp only [Wave.prune]; rw [Wave.write_rest]
  | pred n m v =>
    refine ⟨_, State.midway_next h (State.wave_updWave_same _ _ hy) (t.unitsKept_updWave ..)
      (fun v hv => State.wave_updWave_other _ _ hv) (fun u _ => State.wg_congr (by simp [State.put]) u)
      (fun q => by rw [State.seq_congr (by simp [State.put] : (t.put x (.pred n m v)).seqs = t.seqs)]; exact ⟨fun _ => rfl, rfl⟩)
      (fun f k l hl => ?_) (fun f k hk => ?_) (fun k => ?_) (by split <;> rfl) (fun k l hl => ?_)
      (fun g hg => same g hg _ (by simp [State.put]) (fun k d => (Put.pred n m v).grpWord k d) (fun _ _ => rfl)) ?_⟩
    · refine Wave.readsAs_of_reg ?_ l
      split <;> cases f <;> rfl
    · split <;> cases f <;> rfl
    · by_cases hn : n = 0
      · simp [hn, Put.predMask]
      · rw [if_neg hn]
        by_cases hk : k = n
        · subst hk
          simp only [Wave.pred, hn, if_false, Put.predMask, beq_self_eq_true, Bool.true_and, bne_iff_ne, ne_eq,
            not_false_eq_true, if_true]
          exact lsetD_get_same ..
        · by_cases hk0 : k = 0
          · simp [Wave.pred, hk0, Put.predMask, hn]
          · simp only [Wave.pred, hk0, if_false, Put.predMask, beq_iff_eq, Bool.and_eq_true, bne_iff_ne, ne_eq]
            rw [lsetD_get_other _ _ _ (by omega), if_neg (fun a => hk a.1.symm)]
    · rw [State.seq_congr (by simp [State.put] : (t.put x (.pred n m v)).seqs = t.seqs)]; rfl
    · split <;> rfl
  | grp n v =>
    let t1 := t.updWg x.wave.wg fun g =>
      { g with grp := lsetD 0 g.grp n v, claims := lsetD none g.claims n (some x.wave.waveId) }
    have e1 : t1.waves = t.waves := by simp [t1]
    have h1 : t1.wave? x.w = some y := by rw [State.wave_congr e1]; exact hy
    have e : t.put x (.grp n v) = t1.updWave x.w fun y => y.pruneGrp n := rfl
    have eq : (t.put x (.grp n v)).seqs = t.seqs := by simp [e, t1]
    rw [e]
    refine ⟨_, State.midway_next h (State.wave_updWave_same _ _ h1)
      (State.unitsKept_trans (t.unitsKept_updWg ..) (State.unitsKept_updWave ..))
      (fun v hv => (State.wave_updWave_other _ _ hv).trans (State.wave_congr e1 v))
      (fun u hu => (State.wg_congr (State.updWave_wgs ..) u).trans (State.wg_updWg_other _ _ hu))
      (fun q => by rw [← e, State.seq_congr eq]; exact ⟨fun _ => rfl, rfl⟩)
      (fun f _ _ _ => Wave.readsAs_of_reg (by cases f <;> rfl) _) (fun f _ _ => by cases f <;> rfl) (fun _ => rfl) rfl
      (fun k l hl => ?_) (fun g hg => ?_) rfl⟩
    · rw [← e, State.seq_congr eq]; rfl
    · refine ⟨_, (State.wg_congr (State.updWave_wgs ..) _).trans (State.wg_updWg_same _ _ hg), rfl, fun k => ?_⟩
      by_cases hk : k = n
      · subst hk
        show (lsetD 0 g.grp k v).getD k 0 = _
        rw [lsetD_get_same]
        simp [Put.grpWord]
      · show (lsetD 0 g.grp n v).getD k 0 = _
        rw [lsetD_get_other _ _ _ hk]
        have e : (n == k) = false := by simpa using fun e : n = k => hk e.symm
        simp only [Put.grpWord, e]
        rfl
  | later o =>
    have eq : (t.put x (.later o)).seqs = t.seqs := by simp [State.put]
    refine ⟨_, State.midway_next h (State.wave_updWave_same _ _ hy) (t.unitsKept_updWave ..)
      (fun v hv => State.wave_updWave_other _ _ hv) (fun u _ => State.wg_congr (by simp [State.put]) u)
      (fun q => by rw [State.seq_congr eq]; exact ⟨fun _ => rfl, rfl⟩)
      (fun f _ _ _ => Wave.readsAs_of_reg (by cases f <;> rfl) _) (fun f _ _ => by cases f <;> rfl) (fun _ => rfl) rfl
      (fun k l hl => by rw [State.seq_congr eq]; rfl)
      (fun g hg => same g hg _ (by simp [State.put]) (fun k d => (Put.later o).grpWord k d) (fun _ _ => rfl)) rfl⟩

theorem State.midway_puts {s : State} {x : Issue} {rels : List Rel} {st : Sticky} (more : List Put) :
    ∀ {t : State} {puts : List Put} {y : Wave}, s.midway t x rels puts st y →
      ∃ z, s.midway (more.foldl (fun t p => t.put x p) t) x rels (puts ++ more) st z := by
  induction more with
  | nil => intro t puts y h; exact ⟨y, by simpa using h⟩
  | cons p l ih =>
    intro t puts y h
    obtain ⟨z, hz⟩ := State.midway_put h p
    obtain ⟨z', hz'⟩ := ih hz
    exact ⟨z', by simpa using hz'⟩

/-- Registers that move about keep a state midway. -/
theorem State.midway_moved {s t t' : State} {x : Issue} {rels : List Rel} {puts : List Put} {st : Sticky} {y : Wave}
    (h : s.midway t x rels puts st y) (m : t.moved t') : ∃ z, s.midway t' x rels puts st z ∧ y.kept z := by
  obtain ⟨hy, ⟨hr, hn, hp, hll, hb, g, hg, hge, hgw⟩, he, hu, ho, hw, hq⟩ := h
  obtain ⟨z, hz, kz⟩ := (m.2.2.2 x.w).2 y hy
  refine ⟨z, ⟨hz, ⟨fun f n l hl => ?_, fun f n hk => ?_, fun n => ?_, by rw [kz.1]; exact hll, fun k l hl => ?_, g, ?_, hge, hgw⟩, ?_,
    State.unitsKept_trans hu m.1, fun v hv => ⟨fun e => (m.2.2.2 v).1 ((ho v hv).1 e), fun a ha => ?_⟩, fun u hu' => ?_,
    fun q => ⟨fun h' => ?_, ?_⟩⟩, kz⟩
  · rw [Wave.readsAs_sameRegs kz.2]; exact hr f n l hl
  · obtain ⟨a, b, c⟩ := kz.2 f n
    obtain ⟨a', b', c'⟩ := hn f n hk
    exact ⟨a.trans a', b.trans b', c.trans c'⟩
  · rw [kz.1]; exact hp n
  · rw [State.seq_congr m.2.2.1]; exact hb k l hl
  · rw [State.wg_congr m.2.1]; exact hg
  · rw [kz.1, he]
  · obtain ⟨b, hb', kb⟩ := (ho v hv).2 a ha
    obtain ⟨c, hc, kc⟩ := (m.2.2.2 v).2 b hb'
    exact ⟨c, hc, Wave.kept_trans kb kc⟩
  · rw [State.wg_congr m.2.1]; exact hw u hu'
  · rw [State.seq_congr m.2.2.1]; exact (hq q).1 h'
  · rw [State.seq_congr m.2.2.1]; exact (hq q).2

/-- The wave's window replaced. -/
theorem State.midway_window {s t : State} {x : Issue} {rels : List Rel} {puts : List Put} {st : Sticky} {y : Wave}
    (h : s.midway t x rels puts st y) (l : List (List (RegFile × Nat))) :
    s.midway (t.setWave x.w { y with window := l }) x rels puts st { y with window := l } := by
  obtain ⟨hy, ⟨hr, hn, hp, hll, hb, g, hg, hge, hgw⟩, he, hu, ho, hw, hq⟩ := h
  refine ⟨State.wave_setWave_same .., ⟨hr, hn, hp, hll, hb, g, hg, hge, hgw⟩, by rw [he], ?_, ?_, hw, hq⟩
  · exact State.unitsKept_trans hu (State.unitsKept_of (by simp) (by simp))
  · exact State.othersKept_trans ho (State.othersKept_of_wave fun v hv => State.wave_setWave_other _ _ hv)

theorem State.midway_popSlot {s t : State} {x : Issue} {rels : List Rel} {puts : List Put} {st : Sticky} {y : Wave}
    (h : s.midway t x rels puts st y) : ∃ z, s.midway (t.popSlot x.w) x rels puts st z := by
  unfold State.popSlot
  rw [h.1]
  dsimp only
  have hw := State.midway_window h (y.window.take 8)
  split
  · exact ⟨_, hw⟩
  · split
    · exact ⟨_, hw⟩
    · obtain ⟨z, hz, _⟩ := State.midway_moved hw
        (State.moved_foldl (fun s (r : RegFile × Nat) => s.leaveWindow x.w r.1 r.2) (fun s a => s.moved_leaveWindow ..) _ _)
      exact ⟨z, hz⟩

/-- Everything that a retirement does (R50). -/
theorem State.retire_spec {s : State} {x : Issue} (hx : s.wave? x.w = some x.wave) (hg : s.wg? x.wave.wg = some x.wg)
    (uses : List Read) (rels : List Rel) (puts : List Put) (st : Sticky) :
    ∃ z, s.midway (s.retire x uses rels puts st) x rels puts st z := by
  unfold State.retire
  dsimp only
  obtain ⟨k1, k2⟩ := Wave.touchAll x.wave uses s.tick
  obtain ⟨r1, r2, r3, r4⟩ := Wave.releaseAll (uses.foldl (fun y r => y.touch r.file r.reg s.tick) x.wave).pushSlot rels
  generalize hy0 : (uses.foldl (fun y r => y.touch r.file r.reg s.tick) x.wave) = y0 at *
  generalize hy1 : rels.foldl (fun y (r : Rel) => (y.release r.file r.reg r.lanes).prune r.file r.reg r.lanes) y0.pushSlot = y1 at *
  have hs : y0.pushSlot.sameRegs y0.pushSlot := Wave.sameRegs_refl _
  have hp : x.wave.sameRegs y0.pushSlot := Wave.sameRegs_trans k2 (Wave.sameRegs_of_reg fun f n => Wave.reg_pushSlot ..)
  have h0 : s.midway (s.updWave x.w fun y =>
      { (rels.foldl (fun y (r : Rel) => (y.release r.file r.reg r.lanes).prune r.file r.reg r.lanes)
          (uses.foldl (fun y r => y.touch r.file r.reg s.tick) y).pushSlot) with
        sticky := (rels.foldl (fun y (r : Rel) => (y.release r.file r.reg r.lanes).prune r.file r.reg r.lanes)
          (uses.foldl (fun y r => y.touch r.file r.reg s.tick) y).pushSlot).sticky ||| st
        retired := (rels.foldl (fun y (r : Rel) => (y.release r.file r.reg r.lanes).prune r.file r.reg r.lanes)
          (uses.foldl (fun y r => y.touch r.file r.reg s.tick) y).pushSlot).retired + 1 }) x rels [] st
      { y1 with sticky := y1.sticky ||| st, retired := y1.retired + 1 } := by
    refine ⟨by rw [State.wave_updWave_same _ _ hx, hy0, hy1], ⟨fun f n l hl => ?_, fun f n hn => ?_, fun n => ?_, ?_, fun k l _ => ?_,
      x.wg, ?_, rfl, fun _ => rfl⟩, ?_, State.unitsKept_updWave .., ?_, fun u _ => State.wg_congr (by simp) u, fun q => ?_⟩
    · show y1.readsAs f n l = _
      rw [r2 f n l hl, Wave.readsAs_sameRegs hp]; rfl
    · have hn' : (rels.any fun r => r.file == f && r.reg == n) = false := by simpa [named] using hn
      have e := r3 f n hn'
      obtain ⟨a, b, c⟩ := hp f n
      refine ⟨Eq.trans ?_ a, Eq.trans ?_ b, Eq.trans ?_ c⟩
      · show y1.lanes f n = _; unfold Wave.lanes; rw [e]
      · show y1.released f n = _; unfold Wave.released; rw [e]
      · show y1.poisoned f n = _; unfold Wave.poisoned; rw [e]
    · show y1.pred n = _
      rw [r1]
      show y0.pred n = _
      rw [k1]
      rfl
    · show y1.ll = _
      rw [r4]
      show _ = List.foldl _ x.wave.ll rels
      have : y0.pushSlot.ll = x.wave.ll := by rw [show y0.pushSlot.ll = y0.ll from rfl, k1]
      rw [this]
    · rw [State.seq_congr (State.updWave_seqs ..)]; rfl
    · rw [State.wg_congr (State.updWave_wgs ..)]; exact hg
    · have : y1 = { x.wave with v := y1.v, s := y1.s, window := y1.window, ll := y1.ll, spills := y1.spills } := by
        rw [r1]
        show ({ y0 with v := y1.v, s := y1.s, window := y1.window, ll := y1.ll } : Wave) = _
        rw [k1]
        rfl
      rw [this]
    · exact State.othersKept_of_wave fun v hv => State.wave_updWave_other _ _ hv
    · rw [State.seq_congr (State.updWave_seqs ..)]; exact ⟨fun _ => rfl, rfl⟩
  obtain ⟨z, hz⟩ := State.midway_puts puts h0
  rw [List.nil_append] at hz
  exact State.midway_popSlot hz

/-! The wave goes on. -/

@[simp] theorem State.letGo_waves (s : State) (w : Nat) : (s.letGo w).waves = s.waves := rfl
@[simp] theorem State.letGo_wgs (s : State) (w : Nat) : (s.letGo w).wgs = s.wgs := rfl
@[simp] theorem State.letGo_mem (s : State) (w : Nat) : (s.letGo w).mem = s.mem := rfl
@[simp] theorem State.letWait_waves (s : State) (w : Nat) : (s.letWait w).waves = s.waves := rfl
@[simp] theorem State.letWait_wgs (s : State) (w : Nat) : (s.letWait w).wgs = s.wgs := rfl
@[simp] theorem State.letWait_mem (s : State) (w : Nat) : (s.letWait w).mem = s.mem := rfl

theorem State.letGo_seq (s : State) (w q : Nat) : (q ≠ seqOfWave w → (s.letGo w).seq q = s.seq q) ∧
    ((s.letGo w).seq q).bank = (s.seq q).bank := by
  unfold State.letGo
  refine ⟨fun h => State.seq_updSeq_other _ _ h, ?_⟩
  by_cases h : q = seqOfWave w
  · subst h
    rw [State.seq_updSeq_same]
    split <;> rfl
  · rw [State.seq_updSeq_other _ _ h]

theorem State.letWait_seq (s : State) (w q : Nat) : (q ≠ seqOfWave w → (s.letWait w).seq q = s.seq q) ∧
    ((s.letWait w).seq q).bank = (s.seq q).bank := by
  unfold State.letWait
  refine ⟨fun h => State.seq_updSeq_other _ _ h, ?_⟩
  by_cases h : q = seqOfWave w
  · subst h
    rw [State.seq_updSeq_same]
    split <;> rfl
  · rw [State.seq_updSeq_other _ _ h]

/-- From a state midway to the state after the wave's place in its program has moved. -/
theorem State.retired_of_midway {s t t' : State} {x : Issue} {rels : List Rel} {puts : List Put} {st : Sticky} {z y : Wave}
    (h : s.midway t x rels puts st z) (hy : t'.wave? x.w = some y)
    (e : y = { z with clause := y.clause, frontier := y.frontier, handlers := y.handlers }) (hu : t.unitsKept t')
    (hw : t'.wgs = t.wgs) (ho : ∀ v, v ≠ x.w → t'.wave? v = t.wave? v)
    (hq : ∀ q, (q ≠ seqOfWave x.w → t'.seq q = t.seq q) ∧ (t'.seq q).bank = (t.seq q).bank) :
    s.retired t' x rels puts st := by
  obtain ⟨hz, ⟨hr, hn, hp, hll, hb, g, hg, hge, hgw⟩, he, hu', ho', hw', hq'⟩ := h
  have same : ∀ f n, y.reg? f n = z.reg? f n := fun f n => by rw [e]; cases f <;> rfl
  refine ⟨⟨y, hy, ⟨fun f n l hl => ?_, fun f n hk => ?_, fun n => ?_, by rw [e]; exact hll, fun k l hl => ?_, g, ?_, hge, hgw⟩, ?_⟩,
    State.unitsKept_trans hu' hu, State.othersKept_trans ho' (State.othersKept_of_wave ho),
    fun u hu'' => (State.wg_congr hw u).trans (hw' u hu''), fun q h' => ((hq q).1 h').trans ((hq' q).1 h')⟩
  · rw [Wave.readsAs_of_reg (same f n)]; exact hr f n l hl
  · obtain ⟨a, b, c⟩ := Wave.sameRegs_of_reg same f n
    obtain ⟨a', b', c'⟩ := hn f n hk
    exact ⟨a.trans a', b.trans b', c.trans c'⟩
  · rw [e]; exact hp n
  · rw [(hq _).2]; exact hb k l hl
  · rw [State.wg_congr hw]; exact hg
  · rw [e, he]

/-- Lanes that reach a PC stand in its READY entry. -/
theorem joinReady_mem (l : List Entry) (pc : Nat) (prio : Option Nat) (m : Mask) (h : m ≠ 0) :
    ∃ e ∈ joinReady l pc prio m, e.st = .ready ∧ e.pc = pc ∧ e.mask &&& m = m := by
  unfold joinReady
  rw [if_neg h]
  split
  · rename_i ha
    obtain ⟨e, he, hc⟩ := List.any_eq_true.1 ha
    simp only [Bool.and_eq_true, beq_iff_eq] at hc
    refine ⟨{ e with mask := e.mask ||| m }, ?_, hc.1, hc.2, ?_⟩
    · refine List.mem_map.2 ⟨e, he, ?_⟩
      simp [hc.1, hc.2]
    · ext i hi
      simp only [BitVec.getElem_and, BitVec.getElem_or]
      cases e.mask[i] <;> cases m[i] <;> rfl
  · exact ⟨_, List.mem_append_right _ (List.mem_singleton.2 rfl), rfl, rfl, BitVec.and_self⟩

/-- What the end of a clause does. -/
theorem State.endClause_spec {s : State} {w : Nat} {x : Issue} (h : s.issueOf w = some x) (moves : List (Nat × Mask)) :
    (s.endClause w moves).wave? w = some { x.wave.setEntries x.cl.handler (s.movedEntries x moves) with clause := none } ∧
    s.unitsKept (s.endClause w moves) ∧ (s.endClause w moves).wgs = s.wgs ∧
    (∀ v, v ≠ w → (s.endClause w moves).wave? v = s.wave? v) ∧
    ∀ q, (q ≠ seqOfWave w → (s.endClause w moves).seq q = s.seq q) ∧
      ((s.endClause w moves).seq q).bank = (s.seq q).bank := by
  obtain ⟨rfl, hx, -, -⟩ := State.issueOf_spec h
  have e : s.endClause x.w moves =
      (s.updWave x.w fun y => { y.setEntries x.cl.handler (s.movedEntries x moves) with clause := none }).letGo x.w := by
    simp only [State.endClause, h]; rfl
  rw [e]
  refine ⟨?_, ?_, by simp, fun v hv => ?_, fun q => ?_⟩
  · rw [State.wave_congr (State.letGo_waves ..)]
    exact State.wave_updWave_same _ _ hx
  · exact State.unitsKept_trans (State.unitsKept_updWave ..) (State.unitsKept_updSeq ..)
  · rw [State.wave_congr (State.letGo_waves ..)]
    exact State.wave_updWave_other _ _ hv
  · obtain ⟨a, b⟩ := State.letGo_seq (s.updWave x.w fun y => { y.setEntries x.cl.handler (s.movedEntries x moves) with clause := none }) x.w q
    refine ⟨fun hq => ?_, ?_⟩
    · rw [a hq, State.seq_congr (State.updWave_seqs ..)]
    · rw [b, State.seq_congr (State.updWave_seqs ..)]

/-- The issue of a state midway: the wave as it then stands. -/
theorem State.midway_issue {s t : State} {x : Issue} {rels : List Rel} {puts : List Put} {st : Sticky} {z : Wave}
    (hc : x.wave.clause = some x.cl) (h : s.midway t x rels puts st z) :
    ∃ g, t.issueOf x.w = some ⟨x.w, z, x.cl, g⟩ := by
  obtain ⟨hz, ⟨_, _, _, _, _, g, hg, _⟩, he, _⟩ := h
  exact ⟨g, State.issueOf_of hz (by rw [he]; exact hc) (by rw [he]; exact hg)⟩

/-- The clause of the wave moves within it. -/
theorem State.wentOn_set {t t' : State} {x : Issue} {z : Wave} {c : Clause} (hz : t.wave? x.w = some z)
    (e : t' = t.updWave x.w fun y => { y with clause := some c }) :
    t'.wave? x.w = some { z with clause := some c } ∧ t.unitsKept t' ∧ t'.wgs = t.wgs ∧
    (∀ v, v ≠ x.w → t'.wave? v = t.wave? v) ∧ ∀ q, t'.seq q = t.seq q := by
  subst e
  exact ⟨State.wave_updWave_same _ _ hz, State.unitsKept_updWave .., by simp, fun v hv => State.wave_updWave_other _ _ hv,
    fun q => State.seq_congr (State.updWave_seqs ..) q⟩

/-- After a retirement the wave goes on in its clause or behind it. -/
theorem State.advance_spec {s t : State} {x : Issue} {rels : List Rel} {puts : List Put} {st : Sticky} {z : Wave}
    (hc : x.wave.clause = some x.cl) (hl : x.cl.lanes ≠ 0) (h : s.midway t x rels puts st z) :
    s.retired (t.advance x.w) x rels puts st ∧ (t.advance x.w).wentOn x := by
  obtain ⟨g, hi⟩ := State.midway_issue hc h
  have hz := h.1
  have set (c : Clause) (t' : State) (e : t' = t.updWave x.w fun y => { y with clause := some c }) :
      s.retired t' x rels puts st ∧ t'.wave? x.w = some { z with clause := some c } := by
    obtain ⟨a1, a2, a3, a4, a5⟩ := State.wentOn_set hz e
    exact ⟨State.retired_of_midway h a1 rfl a2 a3 a4 fun q => ⟨fun _ => a5 q, by rw [a5 q]⟩, a1⟩
  have stop (t' : State) (e : t' = t.endClause x.w [(x.cl.nextPc, x.cl.lanes)]) :
      s.retired t' x rels puts st ∧ ∃ y, t'.wave? x.w = some y ∧ y.clause = none ∧
        ∃ a ∈ y.entries x.cl.handler, a.st = .ready ∧ a.pc = x.cl.nextPc ∧ a.mask &&& x.cl.lanes = x.cl.lanes := by
    subst e
    obtain ⟨a1, a2, a3, a4, a5⟩ := State.endClause_spec hi [(x.cl.nextPc, x.cl.lanes)]
    refine ⟨State.retired_of_midway h a1 ?_ a2 a3 a4 a5, _, a1, rfl, ?_⟩
    · unfold Wave.setEntries; dsimp only; split <;> rfl
    · obtain ⟨a, m, b⟩ := joinReady_mem (z.entries x.cl.handler) x.cl.nextPc (t.prioAt (Issue.core ⟨x.w, z, x.cl, g⟩) g.ctx x.cl.nextPc) x.cl.lanes hl
      refine ⟨a, ?_, b⟩
      unfold Wave.setEntries Wave.entries
      cases x.cl.handler <;> exact m
  unfold State.advance State.wentOn
  rw [hi]
  dsimp only
  cases hm : x.cl.mac with
  | some m =>
    dsimp only
    by_cases hk : m.next + 1 < m.ops.length
    · rw [if_pos hk]
      obtain ⟨a, b⟩ := set _ _ rfl
      exact ⟨a, _, b, by rw [if_pos hk]⟩
    · rw [if_neg hk]
      obtain ⟨a, y, b, c⟩ := stop _ rfl
      exact ⟨a, y, b, by rw [if_neg hk]; exact c⟩
  | none =>
    dsimp only
    by_cases hk : x.cl.index + 1 < x.cl.count
    · rw [if_pos hk]
      obtain ⟨a, b⟩ := set _ _ rfl
      exact ⟨a, _, b, by rw [if_pos hk]⟩
    · rw [if_neg hk]
      obtain ⟨a, y, b, c⟩ := stop _ rfl
      exact ⟨a, y, b, by rw [if_neg hk]; exact c⟩

/-- Letting the sequencer go for a register changes neither a retirement nor the wave's place. -/
theorem State.retired_letWait {s t : State} {x : Issue} {rels : List Rel} {puts : List Put} {st : Sticky}
    (h : s.retired t x rels puts st) : s.retired (t.letWait x.w) x rels puts st := by
  obtain ⟨⟨y, hy, ⟨hr, hn, hp, hll, hb, g, hg⟩, he⟩, hu, ho, hw, hq⟩ := h
  refine ⟨⟨y, hy, ⟨hr, hn, hp, hll, fun k l hl => ?_, g, hg⟩, he⟩, State.unitsKept_trans hu (State.unitsKept_updSeq ..), ho, hw,
    fun q h' => ?_⟩
  · rw [(State.letWait_seq t x.w _).2]; exact hb k l hl
  · rw [(State.letWait_seq t x.w q).1 h']; exact hq q h'

/-- Everything that the retirement of an instruction does after which the clause goes on (R22, R50). -/
theorem State.finish_spec {s : State} {x : Issue} (hx : s.wave? x.w = some x.wave) (hg : s.wg? x.wave.wg = some x.wg)
    (hc : x.wave.clause = some x.cl) (hl : x.cl.lanes ≠ 0) (uses : List Read) (rels : List Rel) (puts : List Put)
    (st : Sticky) :
    s.retired (s.finish x uses rels puts st) x rels puts st ∧ (s.finish x uses rels puts st).wentOn x := by
  obtain ⟨z, hz⟩ := State.retire_spec hx hg uses rels puts st
  obtain ⟨a, b⟩ := State.advance_spec hc hl hz
  unfold State.finish
  dsimp only
  split
  · exact ⟨State.retired_letWait a, b⟩
  · exact ⟨a, b⟩

end Sys2Proof.Machine
end

