-- ==== Sys2Proof/Laws/Issue.lean ====
section
/-! SUPPORT. What an instruction that performs comes to: the shared operations in front of its effect. -/

namespace Sys2Proof.Machine

/-- Where no slot leaves the window into a register whose fill brings uncorrectable data, retirement needs no further test (R67). -/
theorem State.leaveChecked_clear {s : State} {x : Issue} (h : s.exitFaults x = 0) (t : State) : s.leaveChecked x t = t := by
  simp [State.leaveChecked, State.retireFaults, h]

/-- An instruction that performs has its own effect and no other. -/
theorem State.run_performs {s : State} {i : Instr} {g : Guard} {x : Issue} (h : s.performs i g x) (he : s.exitFaults x = 0)
    (body : Issue → Mask → State) : s.run i g body = .next (body x (x.exec g)) := by
  obtain ⟨h1, h2, h3, h4⟩ := h
  unfold State.run
  rw [h1]
  dsimp only
  rw [if_neg (by simp [h2]), if_neg (by simp [h3]), if_neg h4, State.leaveChecked_clear he]

/-- Every instruction in issue has a next state. -/
theorem State.run_next {s : State} {x : Issue} (h : s.issue? = some x) (i : Instr) (g : Guard) (body : Issue → Mask → State) :
    ∃ t, s.run i g body = .next t := by simp [State.run, h]

/-- Registers that can be read let the instruction through. -/
theorem State.gate_readable {s : State} {x : Issue} {reads : List Read} {dsts : List (RegFile × Nat)}
    (h : s.readable x reads dsts) : s.gate x reads dsts = .go 0 0 := by
  obtain ⟨h1, h2, -⟩ := h
  have key : ∀ (l : List Read) (f : Read → Mask), (∀ r ∈ l, f r = 0) → l.foldl (fun a r => a ||| f r) 0 = 0 := by
    intro l f
    induction l with
    | nil => intro _; rfl
    | cons a l ih =>
      intro hl
      rw [List.foldl_cons, hl a (List.mem_cons_self ..)]
      exact ih fun r hr => hl r (List.mem_cons_of_mem _ hr)
  have r0 : reads.foldl (fun a r => a ||| r.relMask x) 0 = 0 := key _ _ fun r hr => (h2 r hr).1
  have p0 : reads.foldl (fun a r => a ||| r.poisonMask x) 0 = 0 := key _ _ fun r hr => (h2 r hr).2.2
  have f0 : (reads.any fun r => r.needsFill x) = false := by
    rw [List.any_eq_false]
    exact fun r hr => by simp [(h2 r hr).2.1]
  simp only [State.gate, h1, r0, p0, f0]
  rfl

theorem State.gated_readable {s : State} {x : Issue} {reads : List Read} {dsts : List (RegFile × Nat)}
    (h : s.readable x reads dsts) (body : Sticky → State) : s.gated x reads dsts body = body 0 := by
  simp [State.gated, State.gate_readable h]

/-- An instruction without operands has nothing to wait for but a register that leaves its window. -/
theorem State.performs_lanes {s : State} {i : Instr} {g : Guard} {x : Issue} (h : s.performs i g x) : x.cl.lanes ≠ 0 := by
  intro e
  apply h.2.2.2
  unfold Issue.exec Issue.lanes
  cases x.cl.mac <;> simp [e]

/-- A retirement after which the clause goes on, for an instruction in issue. -/
theorem State.finish_issue {s : State} {i : Instr} {g : Guard} {x : Issue} (h : s.performs i g x) (uses : List Read)
    (rels : List Rel) (puts : List Put) (st : Sticky) :
    s.retired (s.finish x uses rels puts st) x rels puts st ∧ (s.finish x uses rels puts st).wentOn x := by
  obtain ⟨h1, h2, h3⟩ := State.issue_spec h.1
  exact State.finish_spec h1 h3 h2 (State.performs_lanes h) uses rels puts st

/-- A VR-format instruction by its plan. -/
theorem State.vr_retires {s : State} {i : Instr} {f : VR} {x : Issue} {plan : State → Issue → Mask → Plan}
    (h : s.performs i f.g x) (hc : s.vrClear x f (plan s x (x.exec f.g))) :
    s.vr i f false plan = .next (s.finish x (plan s x (x.exec f.g)).reads (plan s x (x.exec f.g)).rels
      (vrPuts f (plan s x (x.exec f.g)).ty (plan s x (x.exec f.g)).lanes (plan s x (x.exec f.g)).res)
      (stickyAll ((plan s x (x.exec f.g)).res.map (·.2)))) := by
  rw [State.vr, State.run_performs h hc.1.2.2]
  dsimp only
  generalize plan s x (x.exec f.g) = p at *
  obtain ⟨c1, c2, c3⟩ := hc
  unfold State.vrDeliver
  rw [State.gate_readable c1]
  dsimp only
  have g0 : (f.dk == .grp && x.groupTaken f.dst.toNat) = false := by
    by_cases e : f.dk = .grp
    · simp [c2 e]
    · simp [e]
  have a0 : (arithEnabled x.wave.trapen (stickyAll (p.res.map (·.2))) && !x.cl.handler) = false := by
    rcases c3 with e | e <;> simp [e]
  simp only [g0, a0]
  simp

/-- A long-latency VR-format instruction by its plan. -/
theorem State.vr_issues {s : State} {i : Instr} {f : VR} {x : Issue} {plan : State → Issue → Mask → Plan}
    (h : s.performs i f.g x) (hc : s.vrClear x f (plan s x (x.exec f.g))) :
    s.vr i f true plan = .next
      ((if f.dk == .grp then s.updWg x.wave.wg fun g => { g with claims := lsetD none g.claims f.dst.toNat (some x.wave.waveId) }
        else s).finish x (plan s x (x.exec f.g)).reads (plan s x (x.exec f.g)).rels
          [.later (x.llOf f (plan s x (x.exec f.g)).ty (plan s x (x.exec f.g)).lanes (plan s x (x.exec f.g)).res
            (stickyAll ((plan s x (x.exec f.g)).res.map (·.2))))] 0) := by
  rw [State.vr, State.run_performs h hc.1.2.2]
  dsimp only
  generalize plan s x (x.exec f.g) = p at *
  obtain ⟨c1, c2, c3⟩ := hc
  unfold State.vrDeliver
  rw [State.gate_readable c1]
  dsimp only
  have g0 : (f.dk == .grp && x.groupTaken f.dst.toNat) = false := by
    by_cases e : f.dk = .grp
    · simp [c2 e]
    · simp [e]
  have a0 : (arithEnabled x.wave.trapen (stickyAll (p.res.map (·.2))) && !x.cl.handler) = false := by
    rcases c3 with e | e <;> simp [e]
  simp only [g0, a0]
  simp

/-- Two views of one instruction in issue, before and after its wave and workgroup were updated. -/
def Issue.like (x y : Issue) : Prop := y.w = x.w ∧ y.cl = x.cl ∧ y.wave.wg = x.wave.wg ∧ y.wave.waveId = x.wave.waveId

theorem State.put_like {x y : Issue} (h : x.like y) (s : State) (p : Put) : s.put y p = s.put x p := by
  obtain ⟨h1, h2, h3, h4⟩ := h
  have ht (n : Nat) : y.isTrapReg n = x.isTrapReg n := by simp [Issue.isTrapReg, h2]
  cases p <;> simp [State.put, h1, h2, h3, h4, ht]

theorem State.finish_like {x y : Issue} (h : x.like y) (s : State) (uses : List Read) (rels : List Rel) (puts : List Put)
    (st : Sticky) : s.finish y uses rels puts st = s.finish x uses rels puts st := by
  have hf : (fun (s : State) (p : Put) => s.put y p) = fun s p => s.put x p := by
    funext s p; exact State.put_like h s p
  unfold State.finish State.retire
  rw [hf, h.1]

/-- A retirement behind an update of the issuing wave and its workgroup. -/
theorem State.finish_after {s : State} {x y : Issue} (h : x.like y) (hw : s.wave? x.w = some y.wave)
    (hg : s.wg? x.wave.wg = some y.wg) (hc : y.wave.clause = some x.cl) (hl : x.cl.lanes ≠ 0) (uses : List Read)
    (rels : List Rel) (puts : List Put) (st : Sticky) :
    s.retired (s.finish x uses rels puts st) y rels puts st ∧ (s.finish x uses rels puts st).wentOn x := by
  have a := State.finish_spec (s := s) (x := y) (by rw [h.1]; exact hw) (by rw [h.2.2.1]; exact hg) (by rw [h.2.1]; exact hc)
    (by rw [h.2.1]; exact hl) uses rels puts st
  rw [State.finish_like h] at a
  refine ⟨a.1, ?_⟩
  obtain ⟨z, hz, b⟩ := a.2
  obtain ⟨h1, h2, h3, h4⟩ := h
  rw [h1] at hz
  simp only [h2, Clause.nextPc] at b
  exact ⟨z, hz, b⟩

end Sys2Proof.Machine
end

