-- ==== Sys2Proof/Laws/Access.lean ====
section
/-! SUPPORT. What the operations on memory, translation and accesses by lanes leave alone, and what an access comes to whose
lanes all land. -/

namespace Sys2Proof.Machine

/-! Data. -/

theorem State.dataOnly_refl (s : State) : s.dataOnly s := ⟨rfl, fun _ => rfl⟩

theorem State.dataOnly_trans {s t u : State} (h : s.dataOnly t) (k : t.dataOnly u) : s.dataOnly u := by
  refine ⟨?_, fun c => ?_⟩
  · rw [k.1, h.1]
  · rw [k.2 c, h.2 c]

theorem State.dataOnly_setMem (s : State) (m : Mem) : s.dataOnly (s.setMem m) := ⟨rfl, fun _ => rfl⟩
theorem State.dataOnly_send (s : State) (m : Msg) : s.dataOnly (s.send m) := ⟨rfl, fun _ => rfl⟩
theorem State.dataOnly_logError (s : State) (a b c : Nat) : s.dataOnly (s.logError a b c) := ⟨rfl, fun _ => rfl⟩

theorem State.dataOnly_spad (s : State) (c : Nat) (f : List Host.Cell → List Host.Cell) :
    s.dataOnly (s.updCore c fun k => { k with spad := f k.spad }) := by
  refine ⟨rfl, fun d => ?_⟩
  by_cases h : d = c
  · subst h; simp [State.updCore]
  · simp [State.updCore, State.core_setCore_other _ _ h]

theorem State.dataOnly_foldl {α : Type} {f : State → α → State} (h : ∀ (s : State) (a : α), s.dataOnly (f s a)) (l : List α) (s : State) :
    s.dataOnly (l.foldl f s) := by
  induction l generalizing s with
  | nil => exact s.dataOnly_refl
  | cons a l ih => exact State.dataOnly_trans (h s a) (ih _)

theorem State.dataOnly_ite {s : State} {c : Prop} [Decidable c] {a b : State} (h : s.dataOnly a) (k : s.dataOnly b) :
    s.dataOnly (if c then a else b) := by split <;> assumption

theorem State.dataOnly_pokeCell (s : State) (pa : Nat) (b : Byte) : s.dataOnly (s.pokeCell pa b) :=
  State.dataOnly_ite s.dataOnly_refl (s.dataOnly_setMem _)

theorem State.dataOnly_widen (s : State) (n : NarrowByte) (k : Nat) : s.dataOnly (s.widen n k) := by
  unfold State.widen
  dsimp only
  refine State.dataOnly_ite s.dataOnly_refl (State.dataOnly_ite (State.dataOnly_ite s.dataOnly_refl (s.dataOnly_setMem _)) ?_)
  exact State.dataOnly_trans (s.dataOnly_setMem _) (State.dataOnly_pokeCell ..)

theorem State.dataOnly_clearWhole (s : State) (l : List NarrowByte) : s.dataOnly (s.clearWhole l) := s.dataOnly_setMem _

theorem State.dataOnly_widenAll (s : State) (p : NarrowByte → Bool) (k : Nat) : s.dataOnly (s.widenAll p k) := by
  have h (l : List NarrowByte) : s.dataOnly (l.foldl (fun s n => s.widen n k) s) :=
    State.dataOnly_foldl (fun s n => s.dataOnly_widen n k) _ _
  unfold State.widenAll
  exact State.dataOnly_ite (State.dataOnly_trans (h _) (State.dataOnly_clearWhole ..)) (h _)

theorem State.dataOnly_perform (s : State) (c k : Nat) (p : NarrowByte → Bool) : s.dataOnly (s.perform c k p) :=
  s.dataOnly_widenAll ..
theorem State.dataOnly_gather (s : State) (a n : Nat) : s.dataOnly (s.gather a n) := s.dataOnly_widenAll ..
theorem State.dataOnly_gatherDies (s : State) (c a n : Nat) : s.dataOnly (s.gatherDies c a n) := s.dataOnly_widenAll ..
theorem State.dataOnly_settle (s : State) (c k a n : Nat) : s.dataOnly (s.settle c k a n) :=
  State.dataOnly_ite s.dataOnly_refl (s.dataOnly_widenAll ..)

theorem State.dataOnly_storeByte (s : State) (a : Who) (k n va pa : Nat) (b : Byte) : s.dataOnly (s.storeByte a k n va pa b) := by
  unfold State.storeByte
  dsimp only
  refine State.dataOnly_ite (s.dataOnly_setMem _) (State.dataOnly_ite (s.dataOnly_setMem _) ?_)
  exact State.dataOnly_trans (s.dataOnly_setMem _) (State.dataOnly_pokeCell ..)

theorem State.dataOnly_heal (s : State) (c k : Nat) (l : List (Nat × Nat)) : s.dataOnly (s.heal c k l) := by
  unfold State.heal
  exact State.dataOnly_ite (s.dataOnly_setMem _) (State.dataOnly_ite s.dataOnly_refl (s.dataOnly_setMem _))

theorem State.dataOnly_storeNat (s : State) (a : Who) (k va pa n x : Nat) : s.dataOnly (s.storeNat a k va pa n x) := by
  unfold State.storeNat
  dsimp only
  refine State.dataOnly_trans ?_ (State.dataOnly_heal ..)
  have h1 : s.dataOnly (if k ≥ 4 then s.gather pa n else s.settle a.core k pa n) :=
    State.dataOnly_ite (s.dataOnly_gather ..) (s.dataOnly_settle ..)
  refine State.dataOnly_trans h1 ?_
  generalize (if k ≥ 4 then s.gather pa n else s.settle a.core k pa n) = t
  have h2 : t.dataOnly ((List.range n).foldl
      (fun s k' => s.storeByte a k (if n ≤ 16 then 16 else 64) (va + k') (pa + k') (BitVec.ofNat 8 (x / 256 ^ k'))) t) :=
    State.dataOnly_foldl (fun s _ => s.dataOnly_storeByte ..) _ _
  exact State.dataOnly_trans h2 (State.dataOnly_ite (State.dataOnly_logError ..) (State.dataOnly_refl _))

theorem State.dataOnly_sysPut (s : State) (pa n x : Nat) : s.dataOnly (s.sysPut pa n x) := by
  unfold State.sysPut
  split
  · exact s.dataOnly_send _
  · exact s.dataOnly_refl
  · exact s.dataOnly_refl
  · exact s.dataOnly_storeNat ..

theorem State.dataOnly_loadNat (s : State) (c k pa n : Nat) : s.dataOnly (s.loadNat c k pa n).1 := s.dataOnly_settle ..

/-! Translation. -/

theorem State.dataOnly_touch (s : State) (a e : Nat) (w : Bool) : s.dataOnly (s.touch a e w).1 := by
  unfold State.touch
  dsimp only
  generalize (2 ^ 10 ||| if w = true then 2 ^ 11 else 0) = e'
  split
  · exact s.dataOnly_refl
  · exact State.dataOnly_trans (s.dataOnly_gather a 8) (State.dataOnly_sysPut ..)

theorem State.dataOnly_cacheLeaf (s : State) (c x va n e : Nat) : s.dataOnly (s.cacheLeaf c x va n e) := s.dataOnly_setMem _

theorem State.dataOnly_translate (s : State) (c x va : Nat) (need : Need) : s.dataOnly (s.translate c x va need).1 := by
  have fin (t : State) (h : s.dataOnly t) (e n : Nat) : s.dataOnly ((match judge need e with
      | some y => (t, y)
      | none => (t, Xlat.ok (bitsOf e 12 40 * 4096 + va % n) (bitsOf e 8 2 == 1)) : State × Xlat)).1 := by
    split <;> exact h
  have walked (a e n : Nat) (w : Bool) : s.dataOnly ((s.touch a e w).1.cacheLeaf c x va n (s.touch a e w).2) :=
    State.dataOnly_trans (State.dataOnly_touch ..) (State.dataOnly_cacheLeaf ..)
  unfold State.translate
  dsimp only
  split
  · split
    · split
      · split
        · exact s.dataOnly_refl
        · exact fin _ (walked ..) _ _
      · exact fin _ s.dataOnly_refl _ _
    · exact fin _ s.dataOnly_refl _ _
  · split
    · exact s.dataOnly_refl
    · split
      · exact s.dataOnly_refl
      · exact fin _ (walked ..) _ _

theorem State.dataOnly_resolve (s : State) (c x va : Nat) (need : Need) : s.dataOnly (s.resolve c x va need).1 := by
  unfold State.resolve
  split
  · exact s.dataOnly_refl
  · split
    · split <;> exact s.dataOnly_refl
    · have h := s.dataOnly_translate c x va need
      generalize s.translate c x va need = r at *
      obtain ⟨t, y⟩ := r
      cases y with
      | ok pa u =>
        dsimp only
        cases t.target pa <;> try exact h
        dsimp only
        split <;> exact h
      | _ => exact h

theorem State.dataOnly_reach (s : State) (x : Issue) (sp : Space) (need : Need) (n : Nat) (a : DWord) :
    s.dataOnly (s.reach x sp need n a).1 := by
  cases sp
  · unfold State.reach
    have h := s.dataOnly_resolve x.core x.wg.ctx a.toNat need
    generalize s.resolve x.core x.wg.ctx a.toNat need = r at *
    obtain ⟨t, y⟩ := r
    cases y <;> exact h
  · exact s.dataOnly_refl
  · exact s.dataOnly_refl

theorem State.dataOnly_reachAll (s : State) (x : Issue) (sp : Space) (need : Need) (n : Nat) (l : List (Nat × DWord)) :
    s.dataOnly (s.reachAll x sp need n l).1 := by
  induction l generalizing s with
  | nil => exact s.dataOnly_refl
  | cons p l ih => exact State.dataOnly_trans (s.dataOnly_reach x sp need n p.2) (ih _)

/-! Locations. -/

theorem State.dataOnly_readLoc (s : State) (x : Issue) (k : Nat) (c : Loc) (n : Nat) : s.dataOnly (s.readLoc x k c n).1 := by
  cases c
  · exact s.dataOnly_loadNat ..
  · exact s.dataOnly_send _
  · exact s.dataOnly_refl

theorem State.dataOnly_writeLoc (s : State) (x : Issue) (k : Nat) (va : DWord) (c : Loc) (n v : Nat) :
    s.dataOnly (s.writeLoc x k va c n v) := by
  cases c
  · exact s.dataOnly_storeNat ..
  · exact s.dataOnly_send _
  · exact s.dataOnly_spad _ (fun m => cellsPut m _ n v)

theorem State.dataOnly_readLanes (s : State) (x : Issue) (k n : Nat) (l : List LaneLoc) :
    s.dataOnly (s.readLanes x k n l).1 := by
  induction l generalizing s with
  | nil => exact s.dataOnly_refl
  | cons p l ih => exact State.dataOnly_trans (s.dataOnly_readLoc x k p.loc n) (ih _)

theorem State.dataOnly_recordRelease (s : State) (r : Release) (k c : Nat) (l : List Loc) (n : Nat) :
    s.dataOnly (s.recordRelease r k c l n) := State.dataOnly_foldl (fun s _ => s.dataOnly_setMem _) _ _

theorem State.dataOnly_releaseBefore (s : State) (x : Issue) (f : M) : s.dataOnly (s.releaseBefore x f) :=
  State.dataOnly_ite (s.dataOnly_perform ..) s.dataOnly_refl

theorem State.dataOnly_releaseAfter (s : State) (x : Issue) (f : M) (k n : Nat) (l : List LaneLoc) :
    s.dataOnly (s.releaseAfter x f k n l) := State.dataOnly_ite (s.dataOnly_recordRelease ..) s.dataOnly_refl

theorem State.dataOnly_healLanes (s : State) (c k n : Nat) (l : List LaneLoc) : s.dataOnly (s.healLanes c k n l) :=
  State.dataOnly_ite (s.dataOnly_heal ..) (State.dataOnly_trans (s.dataOnly_heal ..) (State.dataOnly_heal ..))

theorem State.dataOnly_gatherLoc (s : State) (c k : Nat) (l : Loc) (n : Nat) : s.dataOnly (s.gatherLoc c k l n) := by
  cases l
  · exact State.dataOnly_ite (s.dataOnly_gatherDies ..) (s.dataOnly_gather ..)
  · exact s.dataOnly_refl
  · exact s.dataOnly_refl

theorem State.dataOnly_stepLoc (s : State) (x : Issue) (k n op : Nat) (args : List Byte) (p : LaneLoc) (new : Nat → Nat) :
    s.dataOnly (s.stepLoc x k n op args p new).1 := by
  unfold State.stepLoc
  split
  · exact s.dataOnly_send _
  · dsimp only
    have h := State.dataOnly_trans (s.dataOnly_gatherLoc x.core k p.loc n) ((s.gatherLoc x.core k p.loc n).dataOnly_readLoc x k p.loc n)
    split
    · exact h
    · exact State.dataOnly_trans h (State.dataOnly_writeLoc ..)

theorem State.dataOnly_stepLanes (s : State) (x : Issue) (k n op : Nat) (args : Nat → List Byte) (new : Nat → Nat → Nat)
    (l : List LaneLoc) : s.dataOnly (s.stepLanes x k n op args new l).1 := by
  induction l generalizing s with
  | nil => exact s.dataOnly_refl
  | cons p l ih => exact State.dataOnly_trans (s.dataOnly_stepLoc x k n op (args p.lane) p (new p.lane)) (ih _)

/-! What data leaves. -/

theorem State.dataOnly_waves {s t : State} (h : s.dataOnly t) : t.waves = s.waves := by rw [h.1]
theorem State.dataOnly_wgs {s t : State} (h : s.dataOnly t) : t.wgs = s.wgs := by rw [h.1]
theorem State.dataOnly_seqs {s t : State} (h : s.dataOnly t) : t.seqs = s.seqs := by rw [h.1]
theorem State.dataOnly_wave {s t : State} (h : s.dataOnly t) (w : Nat) : t.wave? w = s.wave? w :=
  State.wave_congr (State.dataOnly_waves h) w

/-! The access of an instruction. -/

/-- A mask by its lanes. -/
theorem maskOf_get (p : Nat → Bool) {l : Nat} (h : l < 32) : (maskOf p).getLsbD l = p l := by
  have key : ∀ n, ((List.range n).filter p).foldl (fun a l => a + 2 ^ l) 0 < 2 ^ n ∧
      ∀ k, (((List.range n).filter p).foldl (fun a l => a + 2 ^ l) 0).testBit k = (decide (k < n) && p k) := by
    intro n
    induction n with
    | zero => simp
    | succ n ih =>
      obtain ⟨a, b⟩ := ih
      rw [List.range_succ, List.filter_append, List.foldl_append]
      generalize ((List.range n).filter p).foldl (fun a l => a + 2 ^ l) 0 = y at *
      have e : (2 : Nat) ^ (n + 1) = 2 ^ n + 2 ^ n := by rw [Nat.pow_succ]; omega
      cases hp : p n
      · simp only [List.filter_cons, hp, List.filter_nil]
        refine ⟨by simp; omega, fun k => ?_⟩
        simp only [Bool.false_eq_true, if_false, List.foldl_nil, b]
        by_cases hk : k = n
        · subst hk; simp [hp]
        · have : decide (k < n + 1) = decide (k < n) := decide_eq_decide.2 (by omega)
          rw [this]
      · simp only [List.filter_cons, hp, List.filter_nil, if_true, List.foldl_cons, List.foldl_nil]
        refine ⟨by omega, fun k => ?_⟩
        rw [Nat.add_comm]
        by_cases hk : k = n
        · subst hk
          rw [Nat.testBit_two_pow_add_eq, b]
          simp [hp]
        · by_cases hl : k < n
          · rw [Nat.testBit_two_pow_add_gt hl, b]
            simp [hl, Nat.lt_succ_of_lt hl]
          · have hkn : n < k := by omega
            have : 2 ^ n + y < 2 ^ k := by
              have := Nat.pow_le_pow_right (n := 2) (by decide) hkn
              rw [Nat.pow_succ] at this
              omega
            rw [Nat.testBit_lt_two_pow this]
            have : ¬ k < n + 1 := by omega
            simp [this]
  obtain ⟨a, b⟩ := key 32
  unfold maskOf laneIds
  rw [BitVec.getLsbD_ofNat, b]
  simp [h]

theorem mem_lanesIn {m : Mask} {l : Nat} : l ∈ lanesIn m ↔ m.getLsbD l = true := by
  unfold lanesIn laneIds
  simp only [List.mem_filter, List.mem_range, and_iff_right_iff_imp]
  intro h
  exact BitVec.lt_of_getLsbD h

/-- The mask of a list whose lanes are those of a mask. -/
theorem lanesOf_eq {l : List LaneLoc} {e : Mask} (h : l.map (·.lane) = lanesIn e) : lanesOf l = e := by
  apply BitVec.eq_of_getLsbD_eq
  intro i hi
  rw [lanesOf, maskOf_get _ hi]
  have : (l.any fun p => p.lane == i) = (lanesIn e).any fun k => k == i := by rw [← h, List.any_map]; rfl
  rw [this]
  cases he : e.getLsbD i
  · rw [List.any_eq_false]
    intro k hk
    rw [mem_lanesIn] at hk
    simp only [beq_iff_eq]
    intro hki
    subst hki
    rw [he] at hk
    cases hk
  · rw [List.any_eq_true]
    exact ⟨i, mem_lanesIn.2 he, by simp⟩

theorem lanesIn_ne_nil {e : Mask} (h : e ≠ 0) : lanesIn e ≠ [] := by
  intro hn
  apply h
  apply BitVec.eq_of_getLsbD_eq
  intro i hi
  cases he : e.getLsbD i
  · simp
  · rw [← mem_lanesIn, hn] at he
    cases he

/-- Lanes that all land stand in the order of their addresses. -/
theorem State.reachAll_lanes (s : State) (x : Issue) (sp : Space) (need : Need) (n : Nat) (l : List (Nat × DWord)) :
    (s.reachAll x sp need n l).2.map (fun p => (p.1, p.2.1)) = l := by
  induction l generalizing s with
  | nil => rfl
  | cons p l ih => simp [State.reachAll, ih]

theorem landing_lanes {l : List (Nat × DWord × Reach)} (h : ∀ p ∈ l, ∃ loc, p.2.2 = .lands loc ∧ loc.here = true) :
    (l.filterMap landed?).map (fun p => (p.lane, p.addr)) = l.map fun p => (p.1, p.2.1) := by
  induction l with
  | nil => rfl
  | cons p l ih =>
    obtain ⟨loc, hp, -⟩ := h p (List.mem_cons_self ..)
    have hq : landed? p = some ⟨p.1, p.2.1, loc⟩ := by simp [landed?, hp]
    rw [List.filterMap_cons, hq]
    dsimp only
    rw [List.map_cons, List.map_cons, ih fun q hq => h q (List.mem_cons_of_mem _ hq)]

theorem landing_none {l : List (Nat × DWord × Reach)} (h : ∀ p ∈ l, ∃ loc, p.2.2 = .lands loc ∧ loc.here = true) :
    (l.filter fun p => p.2.2 == .prot) = [] ∧ l.filterMap parked? = [] ∧ (l.filterMap landed?).any LaneLoc.isFar = false := by
  induction l with
  | nil => exact ⟨rfl, rfl, rfl⟩
  | cons p l ih =>
    obtain ⟨loc, hp, hh⟩ := h p (List.mem_cons_self ..)
    obtain ⟨a, b, c⟩ := ih fun q hq => h q (List.mem_cons_of_mem _ hq)
    have hq : landed? p = some ⟨p.1, p.2.1, loc⟩ := by simp [landed?, hp]
    have hk : parked? p = none := by simp [parked?, hp]
    refine ⟨?_, ?_, ?_⟩
    · rw [List.filter_cons, hp, a]; rfl
    · rw [List.filterMap_cons, hk]; exact b
    · rw [List.filterMap_cons, hq]
      dsimp only
      rw [List.any_cons, c]
      cases loc <;> first | rfl | simp [Loc.here] at hh

/-- An access whose lanes all land is what it performs. -/
theorem State.access_clear {s : State} {x : Issue} {e : Mask} {c : Access} {addrs : List (Nat × DWord)}
    (hc : s.accessClear x c addrs) (hn : addrs ≠ []) (rels : Mask → List Rel) (perform : State → List LaneLoc → Perf) :
    s.access x e c addrs rels perform =
      match perform (s.landing x c addrs).1 (s.landing x c addrs).2 with
      | .trap cause addr mask => s.raiseTrap x cause addr mask 0
      | .done t own puts =>
        t.finishLanes x c.reads
          (if (if c.single then e else lanesOf (s.landing x c addrs).2) = 0 then []
           else t.laneRels x (rels (if c.single then e else lanesOf (s.landing x c addrs).2))) puts own := by
  have hrel : c.reads.foldl (fun a r => a ||| r.relMask x) 0 = 0 := by
    have key : ∀ l : List Read, (∀ r ∈ l, r.relMask x = 0) → l.foldl (fun a r => a ||| r.relMask x) 0 = 0 := by
      intro l
      induction l with
      | nil => intro _; rfl
      | cons a l ih =>
        intro hl
        rw [List.foldl_cons, hl a (List.mem_cons_self ..)]
        exact ih fun r hr => hl r (List.mem_cons_of_mem _ hr)
    exact key _ fun r hr => (hc.1.2.1 r hr).1
  obtain ⟨h1, h2, h3⟩ := hc
  obtain ⟨a, b, d⟩ := landing_none h3
  have hne : (s.landing x c addrs).2 ≠ [] := by
    intro h
    have k : (s.landing x c addrs).2.map (fun p => (p.lane, p.addr)) = addrs :=
      (landing_lanes h3).trans (State.reachAll_lanes ..)
    rw [h] at k
    exact hn k.symm
  unfold State.access
  rw [State.gated_readable h1]
  dsimp only
  have hm : (addrs.filter fun p => p.2.toNat % c.align != 0) = [] := by
    rw [List.filter_eq_nil_iff]
    intro p hp
    simp [h2 p hp]
  rw [hm]
  simp only [List.isEmpty_nil, Bool.not_true, Bool.false_eq_true, if_false]
  rw [a]
  simp only [List.isEmpty_nil, Bool.not_true, Bool.false_eq_true, if_false]
  rw [d]
  simp only [Bool.false_eq_true, if_false]
  rw [b]
  have he : (s.reachAll x c.space c.need c.bytes addrs).2.filterMap landed? = (s.landing x c addrs).2 := rfl
  rw [he]
  have hb : (s.landing x c addrs).2.isEmpty = false := by
    cases h : (s.landing x c addrs).2 with
    | nil => exact absurd h hne
    | cons _ _ => rfl
  rw [hb]
  simp only [Bool.false_eq_true, if_false]
  have h1' : (s.reachAll x c.space c.need c.bytes addrs).1 = (s.landing x c addrs).1 := rfl
  rw [h1']
  cases perform (s.landing x c addrs).1 (s.landing x c addrs).2 with
  | trap cause addr mask => rfl
  | done t own puts => 
    dsimp only
    have hp : t.parkAll x c.need.w c.single e [] = t := rfl
    have z (m : Mask) : relreadOf x c.reads m ||| own = own := by
      unfold relreadOf
      rw [hrel]
      simp [stickyIf]
    rw [hp, z]

/-- A retirement seen from another state that shows the same units. -/
theorem State.retired_congr {s s' t : State} {x : Issue} {rels : List Rel} {puts : List Put} {st : Sticky}
    (hw : ∀ w, s'.wave? w = s.wave? w) (hg : ∀ u, s'.wg? u = s.wg? u) (hq : ∀ q, s'.seq q = s.seq q)
    (hu : s'.unitsKept s) (h : s.retired t x rels puts st) : s'.retired t x rels puts st := by
  obtain ⟨⟨y, hy, ⟨hr, hn, hp, hll, hb, g, hg'⟩, he⟩, hu', ho, hw', hq'⟩ := h
  refine ⟨⟨y, hy, ⟨hr, hn, hp, hll, fun k l hl => ?_, g, hg'⟩, he⟩, State.unitsKept_trans hu hu', fun v hv => ?_, fun u h => ?_,
    fun q h => ?_⟩
  · rw [hq]; exact hb k l hl
  · rw [hw]; exact ho v hv
  · rw [hg]; exact hw' u h
  · rw [hq]; exact hq' q h

/-- The retirement of an instruction after work that left its workgroup and the sequencers alone and gave its wave `k.wave`. -/
theorem State.finish_work {s d : State} {x : Issue} {k : Work} (hwg : s.wg? x.wave.wg = some x.wg)
    (hcl : x.cl.lanes ≠ 0) (hd : s.dataOnly k.data) (he : d = k.data.setWave x.w k.wave ∨ (d = k.data ∧ k.wave = x.wave ∧ s.wave? x.w = some x.wave))
    (hk : k.wave.clause = some x.cl ∧ k.wave.wg = x.wave.wg ∧ k.wave.waveId = x.wave.waveId ∧
      ∀ h, k.wave.entries h = x.wave.entries h) (uses : List Read) (rels : List Rel)
    (puts : List Put) (st : Sticky) :
    (∀ l, d.laneRels x l = x.laneRels l) ∧
    d.finishLanes x uses rels puts st = d.finish x uses rels puts st ∧
    (k.data.setWave x.w k.wave).retired (d.finish x uses rels puts st) { x with wave := k.wave } rels puts st ∧
    (d.finish x uses rels puts st).wentOn x := by
  obtain ⟨h1, h2, h3, h4⟩ := hk
  have hw : d.wave? x.w = some k.wave := by
    rcases he with rfl | ⟨rfl, e, h⟩
    · exact State.wave_setWave_same ..
    · rw [State.dataOnly_wave hd, h, e]
  have hg : d.wg? x.wave.wg = some x.wg := by
    rcases he with rfl | ⟨rfl, e, h⟩
    · rw [← hwg]
      exact State.wg_congr (State.dataOnly_wgs hd) _
    · rw [← hwg]
      exact State.wg_congr (State.dataOnly_wgs hd) _
  have hi : d.issueOf x.w = some ⟨x.w, k.wave, x.cl, x.wg⟩ := State.issueOf_of hw h1 (by rw [h2]; exact hg)
  have hf := State.finish_after (s := d) (x := x) (y := { x with wave := k.wave }) ⟨rfl, rfl, h2, h3⟩ hw hg h1 hcl uses rels puts st
  refine ⟨fun l => ?_, ?_, ?_, hf.2⟩
  · have e : x.lanesWait k.wave = x.lanesWait x.wave := by unfold Issue.lanesWait; rw [h4]
    unfold State.laneRels Issue.laneRels
    rw [hw]
    dsimp only
    rw [e]
  · unfold State.finishLanes
    rw [hi]
    dsimp only
    rw [if_neg hcl]
  · rcases he with rfl | ⟨rfl, e, h⟩
    · exact hf.1
    · refine State.retired_congr (s := k.data) (fun w => ?_) (fun _ => rfl) (fun _ => rfl) ?_ hf.1
      · by_cases hv : w = x.w
        · subst hv
          rw [State.wave_setWave_same, hw]
        · exact State.wave_setWave_other _ _ hv
      · exact State.unitsKept_of ⟨rfl, rfl, rfl, rfl, rfl, rfl, rfl, rfl, rfl, rfl, rfl⟩ rfl

/-- An access by lanes whose lanes all land: its effect, then its retirement. -/
theorem accessRetires_of {i : Instr} {f : M} {acc : State → Issue → Mask → Access}
    {addrs : State → Issue → Mask → List (Nat × DWord)} {rels : Issue → Mask → List Rel}
    {ok : State → Issue → State → List LaneLoc → Prop} {work : State → Issue → Mask → State → List LaneLoc → Work}
    (perform : State → Issue → Mask → State → List LaneLoc → Perf)
    (hexec : ∀ s x, s.performs i f.g x → s.accessClear x (acc s x (x.exec f.g)) (addrs s x (x.exec f.g)) →
      ok s x (s.landing x (acc s x (x.exec f.g)) (addrs s x (x.exec f.g))).1
        (s.landing x (acc s x (x.exec f.g)) (addrs s x (x.exec f.g))).2 →
      exec i s = .next (s.access x (x.exec f.g) (acc s x (x.exec f.g)) (addrs s x (x.exec f.g)) (rels x)
        (perform s x (x.exec f.g))))
    (haddr : ∀ s x e, ((acc s x e).single = false ∧ (addrs s x e).map (·.1) = lanesIn e) ∨
      ((acc s x e).single = true ∧ addrs s x e ≠ []))
    (hperf : ∀ s x e t l, s.performs i f.g x → e = x.exec f.g → s.dataOnly t → ok s x t l →
      ((acc s x e).single = false → lanesOf l = e) → l ≠ [] →
      s.dataOnly (work s x e t l).data ∧
      ((work s x e t l).wave.clause = some x.cl ∧ (work s x e t l).wave.wg = x.wave.wg ∧
        (work s x e t l).wave.waveId = x.wave.waveId ∧ ∀ h, (work s x e t l).wave.entries h = x.wave.entries h) ∧
      ∃ d, perform s x e t l = .done d (work s x e t l).st (work s x e t l).puts ∧
        (d = (work s x e t l).data.setWave x.w (work s x e t l).wave ∨
          (d = (work s x e t l).data ∧ (work s x e t l).wave = x.wave))) :
    AccessRetires i f acc addrs rels ok work := by
  intro s x hp hc
  dsimp only
  intro hok
  have he := hexec s x hp hc hok
  obtain ⟨h1, h2, h3⟩ := State.issue_spec hp.1
  have hne : addrs s x (x.exec f.g) ≠ [] := by
    rcases haddr s x (x.exec f.g) with ⟨-, h⟩ | ⟨-, h⟩
    · intro h0
      rw [h0] at h
      exact lanesIn_ne_nil hp.2.2.2 h.symm
    · exact h
  rw [State.access_clear hc hne] at he
  have hl : (s.landing x (acc s x (x.exec f.g)) (addrs s x (x.exec f.g))).2.map (fun p => (p.lane, p.addr)) =
      addrs s x (x.exec f.g) := (landing_lanes hc.2.2).trans (State.reachAll_lanes ..)
  have hlm : (acc s x (x.exec f.g)).single = false →
      lanesOf (s.landing x (acc s x (x.exec f.g)) (addrs s x (x.exec f.g))).2 = x.exec f.g := by
    intro hs
    refine lanesOf_eq ?_
    rcases haddr s x (x.exec f.g) with ⟨-, h⟩ | ⟨h, -⟩
    · rw [← h]
      have := congrArg (List.map (·.1)) hl
      rw [List.map_map] at this
      exact this
    · rw [h] at hs; cases hs
  have hnl : (s.landing x (acc s x (x.exec f.g)) (addrs s x (x.exec f.g))).2 ≠ [] := by
    intro h0
    rw [h0] at hl
    exact hne hl.symm
  have hm : (if (acc s x (x.exec f.g)).single = true then x.exec f.g
      else lanesOf (s.landing x (acc s x (x.exec f.g)) (addrs s x (x.exec f.g))).2) = x.exec f.g := by
    cases hs : (acc s x (x.exec f.g)).single
    · simp [hlm hs]
    · simp
  rw [hm] at he
  obtain ⟨a, b, d, c, e⟩ := hperf s x (x.exec f.g) _ _ hp rfl
    (show s.dataOnly (s.landing x (acc s x (x.exec f.g)) (addrs s x (x.exec f.g))).1 from State.dataOnly_reachAll ..) hok hlm hnl
  rw [c] at he
  dsimp only at he
  rw [if_neg hp.2.2.2] at he
  have fin (r : List Rel) (q : List Put) (st : Sticky) := State.finish_work (s := s) (d := d) h3 (State.performs_lanes hp) a
    (by rcases e with e | ⟨e, e'⟩
        · exact .inl e
        · exact .inr ⟨e, e', h1⟩) b (acc s x (x.exec f.g)).reads r q st
  obtain ⟨f0, f1, f2, f3⟩ := fin (x.laneRels (rels x (x.exec f.g))) _ _
  rw [f0, f1] at he
  exact ⟨_, he, a, f2, f3⟩

end Sys2Proof.Machine
end

