-- ==== Sys2Proof/Laws/Engine.lean ====
section
/-! SUPPORT. What an engine instruction leaves alone at issue. -/

namespace Sys2Proof.Machine

/-- An engine instruction with a clear way has its effect. -/
theorem State.engine_clear {s : State} {x : Issue} {e : Mask} {reads : List Read} {dsts : List (RegFile × Nat)}
    {checks : List Check} {wait : Option Stall} (h : s.engineClear x reads dsts checks wait) (go : Sticky → State) :
    s.engine x e reads dsts checks wait go = go 0 := by
  obtain ⟨h1, h2, h3⟩ := h
  unfold State.engine
  rw [State.gated_readable h1]
  have : checks.find? (·.fails) = none := by
    rw [List.find?_eq_none]
    intro c hc
    simp [h2 c hc]
  rw [this, h3]

theorem State.queuedOnly_refl (s : State) (w : Nat) : s.queuedOnly s w := ⟨rfl, fun _ _ => rfl, fun _ => rfl⟩
theorem State.queuedOnly_trans {s t u : State} {w : Nat} (h : s.queuedOnly t w) (k : t.queuedOnly u w) : s.queuedOnly u w := by
  refine ⟨by rw [k.1, h.1], fun v hv => (k.2.1 v hv).trans (h.2.1 v hv), fun c => ?_⟩
  rw [k.2.2 c, h.2.2 c]

/-- Only the trellis, the next free number, timelines, operations, and weight on its way have changed. -/
def State.offWaves (s t : State) : Prop :=
  t = { s with timelines := t.timelines, ops := t.ops, trl := t.trl, qd := t.qd, uid := t.uid }

theorem State.offWaves_refl (s : State) : s.offWaves s := rfl
theorem State.offWaves_trans {s t u : State} (h : s.offWaves t) (k : t.offWaves u) : s.offWaves u := by
  unfold State.offWaves at *
  rw [k, h]

theorem State.offWaves_queued {s t : State} (h : s.offWaves t) (w : Nat) : s.queuedOnly t w := by
  rw [h]
  exact ⟨rfl, fun _ _ => rfl, fun _ => rfl⟩

theorem State.offWaves_setTrl (s : State) (t : Trellis) : s.offWaves (s.setTrl t) := rfl
theorem State.offWaves_setNode (s : State) (n : Nat) (x : Node) : s.offWaves (s.setNode n x) := rfl
theorem State.offWaves_setPart (s : State) (n : Nat) (x : Part) : s.offWaves (s.setPart n x) := rfl
theorem State.offWaves_setItem (s : State) (n : Nat) (x : Item) : s.offWaves (s.setItem n x) := rfl
theorem State.offWaves_setOp (s : State) (n : Nat) (x : Op) : s.offWaves (s.setOp n x) := rfl
theorem State.offWaves_setTimeline (s : State) (n : Nat) (x : Timeline) : s.offWaves (s.setTimeline n x) := rfl
theorem State.offWaves_fresh (s : State) : s.offWaves s.fresh.2 := rfl

theorem State.offWaves_updOp (s : State) (o : Nat) (f : Op → Op) : s.offWaves (s.updOp o f) := by
  unfold State.updOp
  split <;> rfl

theorem State.offWaves_foldl {α : Type} {f : State → α → State} (h : ∀ (s : State) (a : α), s.offWaves (f s a)) (l : List α)
    (s : State) : s.offWaves (l.foldl f s) := by
  induction l generalizing s with
  | nil => exact s.offWaves_refl
  | cons a l ih => exact State.offWaves_trans (h s a) (ih _)

theorem State.offWaves_takeRoom (s : State) (w p : Nat) (l : List Nat) : s.offWaves (s.takeRoom w p l) := by
  unfold State.takeRoom
  dsimp only
  generalize h : List.foldl _ _ l = t
  have : s.offWaves t := by
    rw [← h]
    exact State.offWaves_trans (s.offWaves_setPart ..) (State.offWaves_foldl (fun s _ => s.offWaves_setNode ..) l _)
  exact State.offWaves_trans this (State.offWaves_setTrl ..)

theorem State.offWaves_pushItem (s : State) (w : Nat) (i : Item) : s.offWaves (s.pushItem w i) :=
  State.offWaves_trans s.offWaves_fresh (State.offWaves_trans (State.offWaves_takeRoom ..) (State.offWaves_setItem ..))

/-- A push changes the trellis and the next free number. -/
theorem State.takeRoom_keeps (s : State) (w p : Nat) (l : List Nat) :
    (s.takeRoom w p l).ops = s.ops ∧ (s.takeRoom w p l).timelines = s.timelines := by
  unfold State.takeRoom
  dsimp only
  have h : ∀ (l : List Nat) (s : State), (l.foldl (fun s n =>
      s.setNode n { (s.node n) with taken := (s.node n).taken + 1
                                    rbusy := (s.node n).rbusy || (s.node n).count + 1 > (s.node n).cap }) s).ops = s.ops ∧
      (l.foldl (fun s n =>
      s.setNode n { (s.node n) with taken := (s.node n).taken + 1
                                    rbusy := (s.node n).rbusy || (s.node n).count + 1 > (s.node n).cap }) s).timelines =
        s.timelines := by
    intro l
    induction l with
    | nil => exact fun s => ⟨rfl, rfl⟩
    | cons a l ih => exact fun s => ⟨(ih _).1.trans rfl, (ih _).2.trans rfl⟩
  exact h l _

theorem State.pushItem_keeps (s : State) (w : Nat) (i : Item) :
    (s.pushItem w i).ops = s.ops ∧ (s.pushItem w i).timelines = s.timelines :=
  State.takeRoom_keeps _ w ..

theorem State.offWaves_borrow (s : State) (b : Borrower) (d : Nat) : s.offWaves (s.borrow b d) := by
  unfold State.borrow
  split <;> rfl

theorem State.borrow_keeps (s : State) (b : Borrower) (d : Nat) :
    (s.borrow b d).ops = s.ops ∧ (s.borrow b d).timelines = s.timelines := by
  unfold State.borrow
  split <;> exact ⟨rfl, rfl⟩

theorem State.offWaves_segBorrow (s : State) (id : Nat) : s.offWaves (s.segBorrow id) := by
  unfold State.segBorrow
  split
  · split
    · split
      · exact s.offWaves_borrow ..
      · exact s.offWaves_refl
    · exact s.offWaves_refl
  · exact s.offWaves_refl

theorem State.segBorrow_keeps (s : State) (id : Nat) :
    (s.segBorrow id).ops = s.ops ∧ (s.segBorrow id).timelines = s.timelines := by
  unfold State.segBorrow
  split
  · split
    · split
      · exact s.borrow_keeps ..
      · exact ⟨rfl, rfl⟩
    · exact ⟨rfl, rfl⟩
  · exact ⟨rfl, rfl⟩

theorem State.offWaves_pushSegment (s : State) (unit id : Nat) (o : Op) (c : CopyShape) : s.offWaves (s.pushSegment unit id o c) :=
  State.offWaves_trans (s.offWaves_setOp ..) (State.offWaves_pushItem ..)

/-- An operation with the next number of its timeline. -/
theorem State.numbered_startOp (s : State) (x : Issue) (i : Instr) (f : E) (e : Mask) (blk : List Nat) (rows : Lanes)
    (segs : Nat) (w : Option Weight) :
    s.offWaves (s.startOp x i f e blk rows segs w).1 ∧ s.numbered (s.startOp x i f e blk rows segs w).1 x i f e ∧
    (s.startOp x i f e blk rows segs w).2.1 = s.uid ∧
    (s.startOp x i f e blk rows segs w).1.op? s.uid = some (s.startOp x i f e blk rows segs w).2.2 ∧
    (s.startOp x i f e blk rows segs w).2.2.seq = (s.timeline (x.lineOf f)).issued + 1 := by
  refine ⟨rfl, ⟨fun n => ?_, ?_⟩, rfl, ?_, rfl⟩
  · simp only [State.startOp, State.timeline, State.setTimeline, State.setOp, State.fresh, tget_tput]
    split <;> simp_all
  · exact ⟨_, by simp only [State.startOp, State.op?, State.setOp, State.fresh, State.setTimeline]; exact tget_tput_same _ _ _,
      rfl, rfl, rfl, rfl, rfl, rfl, rfl, rfl, rfl, rfl, rfl⟩
  · simp only [State.startOp, State.op?, State.setOp, State.fresh, State.setTimeline]
    exact tget_tput_same _ _ _

/-- What later changes leave of a new operation. -/
theorem State.numbered_after {s t u : State} {x : Issue} {i : Instr} {f : E} {e : Mask} (h : s.numbered t x i f e)
    (ht : u.timelines = t.timelines)
    (ho : ∀ o, t.op? s.uid = some o → ∃ o', u.op? s.uid = some o' ∧ o'.instr = o.instr ∧ o'.seq = o.seq ∧ o'.tl = o.tl ∧
      o'.scope = o.scope ∧ o'.core = o.core ∧ o'.wg = o.wg ∧ o'.ctx = o.ctx ∧ o'.cls = o.cls ∧ o'.exec = o.exec ∧
      o'.ready = o.ready ∧ o'.killed = o.killed) : s.numbered u x i f e := by
  obtain ⟨h1, o, h2, a1, a2, a3, a4, a5, a6, a7, a8, a9, a10, a11⟩ := h
  obtain ⟨o', h3, b1, b2, b3, b4, b5, b6, b7, b8, b9, b10, b11⟩ := ho o h2
  refine ⟨fun n => ?_, o', h3, ?_⟩
  · rw [← h1 n]
    simp only [State.timeline, ht]
  · rw [b1, b2, b3, b4, b5, b6, b7, b8, b9, b10, b11]
    exact ⟨a1, a2, a3, a4, a5, a6, a7, a8, a9, a10, a11⟩

theorem State.op_congr {s t : State} (h : t.ops = s.ops) (o : Nat) : t.op? o = s.op? o := by simp only [State.op?, h]

end Sys2Proof.Machine
end

