-- ==== Sys2Proof/Certificates/Slice0/Obligations.lean ====
section
/-! DEFINITION. The statements about the model. -/

open Sys2Proof Sys2Proof.Machine

/-! Words and steps. -/

/-- Words written out from the encodings of spec/03, spec/05 to spec/08 decode to what they stand for. -/
def Obligations.SpecWordsDecode : Prop :=
  let g : Guard := ⟨false, 0⟩
  let none' : Src := ⟨.con, false, 0⟩
  let zero : Src := ⟨.vec, false, 0⟩
  -- (p2) bra with an offset of -4 words, and call v20 with 0x200 words (R178)
  decode 0x01200000FFFFFFFC = .ok (.bra ⟨⟨false, 2⟩, 0, false, 0, 0xFFFFFFFC⟩) ∧
  decode 0x0301400000000200 = .ok (.call ⟨g, 20, false, 0, 0x200⟩) ∧
  decode 0x0401480000000000 = .ok (.ret ⟨g, 20, true, 0, 0⟩) ∧
  -- iaddc.n64.carry s6, s0, s2, 0 (R135)
  decode 0x15041900202C0061 =
    .ok (.iaddc ⟨g, .scl, 6, ⟨.scl, false, 0⟩, ⟨.scl, false, 2⟩, none', .n64, .rne, false, 1⟩) ∧
  -- rdsr s3, SR_VPOOL_FREE (R159)
  decode 0x6800300003200001 = .ok (.rdsr ⟨g, 3, zero, 0x32, 1⟩) ∧
  -- words with no operand but an opcode: nop, join, exit
  decode 0 = .ok (.nop ⟨g, 0, false, 0, 0⟩) ∧ decode 0x0500000000000000 = .ok (.join ⟨g, 0, false, 0, 0⟩) ∧
  decode 0x0600000000000000 = .ok (.exit ⟨g, 0, false, 0, 0⟩)

/-- Every instruction is what its own word decodes to (R78 to R85): no field of an instruction is lost in its encoding. -/
def Obligations.DecodeEncode : Prop := ∀ i w, encode i = [w] → decode w = .ok i

/-- Every word that decodes is the encoding of what it decodes to: no bit of an assigned word is ignored. -/
def Obligations.EncodeDecode : Prop := ∀ w i, decode w = .ok i → encode i = [w]

/-- The words that do not decode are those of the unassigned opcodes; such a word raises ILLEGAL_OP when it is reached,
whatever else it holds and wherever it stands; a word with a header's tag in an instruction's place is an opcode 0xA0 to 0xAF,
and outside a class-1 clause it raises ILLEGAL_OP (R90). That the trap's mask holds every lane of the clause is the model's choice
(log 15). -/
def Obligations.UnassignedOpcodes : Prop :=
  (∀ w : DWord, unassigned (w.toNat / 2 ^ 56) = true ↔ ∃ e, decode w = .error e) ∧
  (∀ s q x word, s.issues q x word → unassigned (word.toNat / 2 ^ 56) = true →
    step s = .next (((s.served q x).raiseTrap x 1 0 x.cl.lanes 0).settled (fetchWalks q))) ∧
  ∀ s x w i, s.issue? = some x → x.cl.mac = none → hdrTagOk w = true → decode w = .ok i →
    0xA0 ≤ opcodeOf i ∧ opcodeOf i ≤ 0xAF ∧ (x.cl.cls ≠ 1 → exec i s = .next (s.raiseTrap x 1 0 x.cl.lanes 0))

/-- A step of a sequencer runs the instruction that its next word decodes to, with that sequencer in focus and the fetch of the word
served; around it the step only settles (uncorrectable errors, DRAM arrivals, watched words, leaf stall counts), a tick and its
clocks pass, and nothing stays in focus. A holding instruction second to last whose clause's last word no cache shows runs once that word
is fetched: it waits for its page, or has the trap of that fetch; that is the model's choice (log 76). -/
def Obligations.StepRunsDecoded : Prop :=
  ∀ s q x word i, s.issues q x word → decode word = .ok i →
    ((s.served q x).awaitsLast x i = false →
      let t := s.runs q x i
      let r := t.requestersOf (some x.w) i
      t.issue? = some x ∧ step s = settleOutcome r (exec i t) ∧
      ∀ u, exec i t = .next u → step s = .next (u.settled r) ∧ (u.settled r).tick = u.tick + 1 ∧ (u.settled r).focus = none ∧
        (u.settled r).clocks = u.clocks + BitVec.ofNat 64 (1 + Config.clocks u.tick)) ∧
    ((s.served q x).awaitsLast x i = true →
      match (s.served q x).fetch x.w x.wg.ctx x.lastVa with
      | .word u _ =>
        let t : State := { u.keepBody x.w [] with focus := some q }
        step s = settleOutcome (t.requestersOf (t.seq q).active i) (exec i t)
      | .wait u => step s = settleOutcome (fetchWalks q) (.next (u.keepBody x.w [word]))
      | .trap u cause => step s = settleOutcome (fetchWalks q)
          (.next ((u.keepBody x.w []).raiseTrap x cause (BitVec.ofNat 64 x.lastVa) x.cl.lanes 0)))

/-- Every step keeps the invariant, and a tick passes: no sequencer stays in the middle of an instruction, a held MWAIT whose
word has changed is over (R225), and YIELD waits only for waves that are ready (R186). -/
def Obligations.StepKeepsInv : Prop := ∀ s t, s.Inv → step s = .next t → t.Inv ∧ t.tick = s.tick + 1

/-- The invariant holds after reset. -/
def Obligations.ResetInv : Prop := State.reset.Inv

/-- What the reset columns of R326, R327, R404, R365 and the reset program of R308 give is what the registers read as after
reset; every frame is DIRTY (R428), the first launch number is 1 (R398), and nothing runs, waits or is stored. -/
def Obligations.ResetValues : Prop :=
  let s := State.reset
  (∀ n, s.readReg (.node n 0) = 0x200 ∧ ∀ w, w ≠ 0 → s.readReg (.node n w) = 0) ∧
  (∀ x, s.readReg (.leaf x 0) = 0x3FFFC000 ∧ (∀ w, w ≠ 0 → w < 16 → s.readReg (.leaf x w) = 0) ∧
    s.readReg (.leaf x 16) = 0x80400000 ∧ ∀ w, 16 < w → s.readReg (.leaf x w) = 0) ∧
  (∀ q, s.readReg (.hq q 0) = 4 * 2 + 2 * 2 ^ 6 ∧ s.readReg (.hq q 1) = 0 ∧ s.readReg (.hq q 2) = 0 ∧
    s.readReg (.hq q 3) = 4) ∧
  (∀ c, s.readReg (.ctx c 5) = 1 + 4095 * 2 ^ 8 + 1024 * 2 ^ 20 + 256 * 2 ^ 32 + 64 * 2 ^ 44 ∧
    s.readReg (.ctx c 0) = 0 ∧ s.readReg (.ctx c 6) = 0) ∧
  (∀ d, (s.root d).isOpen = false) ∧ (∀ f, s.frame f = 0x800#12) ∧ s.host.nextLaunch = 1 ∧
  s.waves = [] ∧ s.wgs = [] ∧ s.ops = [] ∧ s.trl.items = [] ∧ s.mem.cells = [] ∧ s.mem.wf = true

/-! Instructions that compute in lanes. -/

/-- IADD to LEA and MOV retire with each lane's value. IADD, ISUB, IMUL, IMAD, IMULH, IABS, INEG, IMIN, IMAX, NMIN and NMAX
give the exact value, clamped with SATURATE where SAT is set and it does not fit, else modulo 2^W (R131). -/
def Obligations.IntegerArithmetic : Prop :=
  (AluRetires .iadd aluIadd ∧ AluRetires .isub aluIsub ∧ AluRetires .imul aluImul ∧ AluRetires .imulh aluImulh ∧
    AluRetires .imad aluImad ∧ AluRetires .iabs aluIabs ∧ AluRetires .ineg aluIneg ∧ AluRetires .imin aluMin ∧
    AluRetires .imax aluMax ∧ AluRetires .nmin aluMin ∧ AluRetires .nmax aluMax) ∧
  ∀ (f : VR) (a b c : Nat),
    let x := rdInt f.ty a
    let y := rdInt f.ty b
    intMeans f f.sat (aluIadd f a b c) (x + y) ∧ intMeans f f.sat (aluIsub f a b c) (x - y) ∧
    intMeans f f.sat (aluImul f a b c) (x * y) ∧ intMeans f f.sat (aluImad f a b c) (x * y + rdInt f.ty c) ∧
    intMeans f f.sat (aluIabs f a b c) (if x < 0 then -x else x) ∧ intMeans f f.sat (aluIneg f a b c) (-x) ∧
    intMeans f false (aluImulh f a b c) (x * y / ((2 ^ tyWidth f.ty : Nat) : Int)) ∧
    intMeans f false (aluMin f a b c) (min x y) ∧ intMeans f false (aluMax f a b c) (max x y)

/-- IADDC, ISUBB, LEA and MOV retire with each lane's value. The low word and the carry or borrow of IADDC and ISUBB are the
two parts of one exact sum or difference (R132); LEA is a + (b << shift) modulo 2^64 (R133); MOV copies. None sets a bit. -/
def Obligations.CarryAndAddress : Prop :=
  (AluRetires .iaddc aluIaddc ∧ AluRetires .isubb aluIsubb ∧ AluRetires .lea aluLea ∧ AluRetires .mov aluMov) ∧
  ∀ (f : VR) (a b c : Nat),
    let m := 2 ^ tyWidth f.ty
    let low : VR := { f with sub := 0 }
    (∀ k : BitVec 2, k ≠ 0 →
      let high : VR := { f with sub := k }
      (aluIaddc low a b c).1 + m * (aluIaddc high a b c).1 = a % m + b % m + c % 2 ∧ (aluIaddc low a b c).1 < m ∧
      (aluIsubb low a b c).1 + b % m + c % 2 = a % m + m * (aluIsubb high a b c).1 ∧ (aluIsubb low a b c).1 < m) ∧
    (aluLea f a b c).1 < 2 ^ 64 ∧
    (2 ^ 64 : Int) ∣ (a : Int) + rdInt f.ty b * 2 ^ (c % 64) - ((aluLea f a b c).1 : Int) ∧
    (aluMov f a b c).1 = a % m ∧
    (aluIaddc f a b c).2 = 0 ∧ (aluIsubb f a b c).2 = 0 ∧ (aluLea f a b c).2 = 0 ∧ (aluMov f a b c).2 = 0

/-- The logic and bit instructions retire with each lane's value, whose bits are those of R136 and R138: bit by bit for AND to
NOT, the shifts with 0 from W on, the rotation, the reversal and the selection table; POPC counts the ones, CLZ the leading
zeroes. None sets a bit. -/
def Obligations.LogicAndBits : Prop :=
  (AluRetires .and aluAnd ∧ AluRetires .or aluOr ∧ AluRetires .xor aluXor ∧ AluRetires .andn aluAndn ∧ AluRetires .not aluNot ∧
    AluRetires .bmix aluBmix ∧ AluRetires .shl aluShl ∧ AluRetires .shr aluShr ∧ AluRetires .sar aluSar ∧
    AluRetires .rol aluRol ∧ AluRetires .popc aluPopc ∧ AluRetires .clz aluClz ∧ AluRetires .brev aluBrev) ∧
  ∀ (f : VR) (a b c : Nat),
    let w := tyWidth f.ty
    let n := b % 2 ^ 32
    (∀ k, k < (if f.dk = .vec then 32 else 64) →
      (aluBmix f a b c).1.testBit k = f.table.testBit (bit1 (a.testBit k) + 2 * bit1 (b.testBit k) + 4 * bit1 (c.testBit k))) ∧
    (∀ r ∈ [aluAnd f a b c, aluOr f a b c, aluXor f a b c, aluAndn f a b c, aluNot f a b c, aluBmix f a b c, aluShl f a b c,
      aluShr f a b c, aluSar f a b c, aluRol f a b c, aluPopc f a b c, aluClz f a b c, aluBrev f a b c], r.2 = 0) ∧
    (a < 2 ^ w → b < 2 ^ w →
    (∀ k, k < w →
      (aluAnd f a b c).1.testBit k = (a.testBit k && b.testBit k) ∧ (aluOr f a b c).1.testBit k = (a.testBit k || b.testBit k) ∧
      (aluXor f a b c).1.testBit k = (a.testBit k != b.testBit k) ∧
      (aluAndn f a b c).1.testBit k = (a.testBit k && !b.testBit k) ∧ (aluNot f a b c).1.testBit k = !a.testBit k ∧
      (aluShl f a b c).1.testBit k = (decide (n ≤ k) && a.testBit (k - n)) ∧
      (aluShr f a b c).1.testBit k = a.testBit (k + n) ∧
      (tySigned f.ty = true → (aluSar f a b c).1.testBit k = a.testBit (min (k + n) (w - 1))) ∧
      (tySigned f.ty = false → (aluSar f a b c).1.testBit k = a.testBit (k + n)) ∧
      (aluRol f a b c).1.testBit k = a.testBit ((k + w - b % w) % w) ∧
      (aluBrev f a b c).1.testBit k = a.testBit (w - 1 - k)) ∧
    (aluPopc f a b c).1 = ((List.range w).filter fun k => a.testBit k).length ∧
    (a = 0 → (aluClz f a b c).1 = w) ∧
    (a ≠ 0 → (aluClz f a b c).1 < w ∧ a / 2 ^ (w - 1 - (aluClz f a b c).1) = 1))

/-- BFE, BFI and BPERM retire with each lane's value: BFE is the field, sign-extended for the signed types, 0 outside the word;
BFI replaces exactly the field's bits (R137); each byte of BPERM is the byte, or the sign of the byte, that its selector names
(R139). -/
def Obligations.BitFields : Prop :=
  (AluRetires .bfe aluBfe ∧ AluRetires .bfi aluBfi ∧ AluRetires .bperm aluBperm) ∧
  ∀ (f : VR) (a b c : Nat),
    let w := tyWidth f.ty
    (let o := b % 256
     let n := min (c % 256) (w - o)
     (w ≤ o ∨ c % 256 = 0 → (aluBfe f a b c).1 = 0) ∧
     (o < w → c % 256 ≠ 0 → ∀ k, k < w → (aluBfe f a b c).1.testBit k =
       (if k < n then a.testBit (o + k) else tySigned f.ty && a.testBit (o + n - 1)))) ∧
    (let o := c % 256
     let n := min (c / 256 % 256) (w - o)
     ∀ k, k < w → (aluBfi f a b c).1.testBit k =
       (if o ≤ k ∧ k < o + n then b.testBit (k - o) else a.testBit k)) ∧
    (let byte (s : Nat) : Nat := (if s < 4 then a / 256 ^ s else b / 256 ^ (s - 4)) % 256
     ∀ k, k < 4 → (aluBperm f a b c).1 / 256 ^ k % 256 =
       (let s := c / 16 ^ k % 16
        if s ≤ 7 then byte s else if byte (s - 8) ≥ 128 then 255 else 0)) ∧
    (aluBfe f a b c).2 = 0 ∧ (aluBfi f a b c).2 = 0 ∧ (aluBperm f a b c).2 = 0

/-- FADD to FRND and FCLASS, and CVT, CVTSR and FDOT2, retire with each lane's value; FABS clears and FNEG inverts the sign of
each element and nothing else, without a bit, and a 16-bit element stands under zeroes (R107, R142); FCLASS gives the bit of its class:
NaNs, infinities, zeroes, subnormals and normals by sign (R145). -/
def Obligations.FloatArithmetic : Prop :=
  (AluRetires .fadd aluFadd ∧ AluRetires .fsub aluFsub ∧ AluRetires .fmul aluFmul ∧ AluRetires .ffma aluFfma ∧
    AluRetires .fmin aluFmin ∧ AluRetires .fmax aluFmax ∧ AluRetires .fabs aluFabs ∧ AluRetires .fneg aluFneg ∧
    AluRetires .frnd aluFrnd ∧ AluRetires .fclass aluFclass ∧ AluRetires .cvt aluCvt ∧ AluRetires .cvtsr aluCvtsr ∧
    AluRetires .fdot2 aluFdot2) ∧
  ∀ (f : VR) (a b c : Nat),
    (f.ty = .f32 → a < 2 ^ 32 →
      (∀ k, k < 31 → (aluFabs f a b c).1.testBit k = a.testBit k ∧ (aluFneg f a b c).1.testBit k = a.testBit k) ∧
      (aluFabs f a b c).1.testBit 31 = false ∧ (aluFneg f a b c).1.testBit 31 = !a.testBit 31) ∧
    (f.ty = .f16 ∨ f.ty = .bf16 →
      ∀ k, (aluFabs f a b c).1.testBit k = (decide (k < 15) && a.testBit k) ∧
        (aluFneg f a b c).1.testBit k = (decide (k < 16) && ((k == 15) != a.testBit k))) ∧
    (∀ m, f.ty ∈ [Ty.f32, .f16, .bf16] → fmtOf f.ty = some m →
      let y := a % 2 ^ (1 + m.eb + m.fb)
      let r := (aluFclass f a b c).1
      match decodeFloat m y with
      | .nan sig => r = if sig then 1 else 2
      | .inf neg => r = if neg then 4 else 512
      | .fin neg v _ =>
        r = if v = 0 then (if neg then 32 else 64)
          else if y / 2 ^ m.fb % 2 ^ m.eb = 0 then (if neg then 16 else 128) else (if neg then 8 else 256)) ∧
    (f.ty = .f16x2 ∨ f.ty = .bf16x2 → a < 2 ^ 32 →
      ∀ k, k < 32 → (aluFabs f a b c).1.testBit k = (k % 16 != 15 && a.testBit k) ∧
        (aluFneg f a b c).1.testBit k = ((k % 16 == 15) != a.testBit k)) ∧
    (aluFabs f a b c).2 = 0 ∧ (aluFneg f a b c).2 = 0 ∧ (aluFclass f a b c).2 = 0

/-- FADD, FSUB, FMUL, FFMA and FDOT2 give the exact sum or product with one rounding (R141, R149): sums of products and addends, a
zero's sign by R114, an overflow by R115, an infinity under SAT as the largest finite value, NaNs and invalid operations as the
canonical NaN; the bits are those of R119. A product of finite numbers is exact. FMIN and FMAX give the smaller and the larger, with
-0 below +0 and NaNs by sub-op (R142); FRND the nearest integral value in its mode (R143); FCMP is 1 exactly where the condition
holds, with -0 equal to +0 and NaNs unordered (R155). Packed types do so in each half (R107). -/
def Obligations.FloatValues : Prop :=
  (∀ (f : VR) (a b c : Nat), f.ty ∈ [Ty.f32, .f16, .bf16, .f16x2, .bf16x2] →
    eachElem f.ty a b c (aluFadd f a b c)
      (fun m x y _ r => m.sumIs f.rnd f.sat [] [decodeFloat m x, decodeFloat m y] r) ∧
    eachElem f.ty a b c (aluFsub f a b c)
      (fun m x y _ r => m.sumIs f.rnd f.sat [] [decodeFloat m x, negNum (decodeFloat m y)] r) ∧
    eachElem f.ty a b c (aluFmul f a b c)
      (fun m x y _ r => m.sumIs f.rnd f.sat [(decodeFloat m x, decodeFloat m y)] [] r) ∧
    eachElem f.ty a b c (aluFfma f a b c)
      (fun m x y z r => m.sumIs f.rnd f.sat [(decodeFloat m x, decodeFloat m y)] [decodeFloat m z] r) ∧
    eachElem f.ty a b c (aluFmin f a b c) (fun m x y _ r => m.extremeIs false (f.sub == 1) x y r) ∧
    eachElem f.ty a b c (aluFmax f a b c) (fun m x y _ r => m.extremeIs true (f.sub == 1) x y r) ∧
    eachElem f.ty a b c (aluFrnd f a b c) (fun m x _ _ r => m.integralIs f.rnd x r)) ∧
  (∀ (f : VR) (a b c : Nat) m, f.ty ∈ [Ty.f16x2, .bf16x2] → fmtOf f.ty = some m →
    let el (v k : Nat) : Machine.Num := decodeFloat m (v / 2 ^ (16 * k) % 2 ^ 16)
    fp32.sumIs f.rnd f.sat [(el a 0, el b 0), (el a 1, el b 1)] [decodeFloat fp32 (c % 2 ^ 32)] (aluFdot2 f a b c)) ∧
  (∀ t m, fmtOf t = some m → ∀ a b, ∀ s e g (z : Bool) (u w : Nat),
    decodeFloat m a = .fin s u e → decodeFloat m b = .fin z w g →
      (mulNum (decodeFloat m a) (decodeFloat m b)).1.units * 2 ^ 320 = (decodeFloat m a).units * (decodeFloat m b).units ∧
      isNegNum (mulNum (decodeFloat m a) (decodeFloat m b)).1 = (s != z)) ∧
  ∀ (f : VR) (a b c : Nat) m, f.ty ∈ [Ty.f32, .f16, .bf16] → fmtOf f.ty = some m →
    let w := 1 + m.eb + m.fb
    let x := decodeFloat m (a % 2 ^ w)
    let y := decodeFloat m (b % 2 ^ w)
    let nan := isNanNum x || isNanNum y
    let r := aluFcmp f a b c
    r.1 ≤ 1 ∧ r.2 = stickyIf (isSigNum x || isSigNum y || (nan && decide (2 ≤ f.sub.toNat))) .invalid ∧
    (nan = true → (r.1 = 1 ↔ f.sub = 1)) ∧
    (nan = false → (f.sub = 0 → (r.1 = 1 ↔ x.units = y.units)) ∧ (f.sub = 1 → (r.1 = 1 ↔ x.units ≠ y.units)) ∧
      (f.sub = 2 → (r.1 = 1 ↔ x.units < y.units)) ∧ (f.sub = 3 → (r.1 = 1 ↔ x.units ≤ y.units)))

/-- The narrow-format instructions retire with the values of their groups of lanes. QAMAX gives every lane of a group the same
value, which has a clear sign bit (R151); QSCALE gives a code of 8 bits and sets no bit (R152). -/
def Obligations.NarrowFormats : Prop :=
  ((∀ f, VrRetires (.qamax f) f (planQamax f)) ∧
    AluRetires .qscale (fun f a _ _ => match fmtOf f.ty with
      | some m => (blockScale m [decodeFloat fp32 (a % 2 ^ 32)], 0)
      | none => (0, 0)) ∧
    (∀ f, VrRetires (.qpack f) f (planQpack f)) ∧ ∀ f, VrRetires (.qunpk f) f (planQunpk f)) ∧
  (∀ (f : VR) s x e l k, l < 32 → k < 32 → e.getLsbD l = true → e.getLsbD k = true →
    l / (if f.sub = 0 then 16 else 32) = k / (if f.sub = 0 then 16 else 32) →
    ((planQamax f s x e).res.getD l (0, 0)).1 = ((planQamax f s x e).res.getD k (0, 0)).1 ∧
    ((planQamax f s x e).res.getD l (0, 0)).1 < 2 ^ 31) ∧
  ∀ (m : Fmt) (a : Nat), blockScale m [decodeFloat fp32 (a % 2 ^ 32)] < 256

/-- CVT gives the source's element in the destination's type (R147): float to float by the table of R117, float to integer and integer
to integer by that of R118, integer to float with one rounding. CVTSR rounds by its random word (R116, R148). QAMAX gives the largest
magnitude of a group's lanes of EXEC, QSCALE the scale code of a maximum, QPACK the quantised elements or the Q4E block of a group in
their places, QUNPK each lane's element times its scale (R110 to R113, R151 to R154). What SAT does with an infinity and with an unsigned
number in a signed type is the model's choice (log 35), and so are the lane that carries the bits of a whole Q4E block, the first of
EXEC in its group, and FMTERR of QUNPK in every lane of the group (log 38). -/
def Obligations.ConversionValues : Prop :=
  (∀ (f : VR) (a b c : Nat),
    let ints := [Ty.i16, .i32, .i64, .n16, .n32, .n64]
    let r := aluCvt f a b c
    (∀ m, fmtOf f.cvtS = some m →
      let w := 1 + m.eb + m.fb
      let x := decodeFloat m (a / 2 ^ (w * (b % if w ≤ 8 then 32 / w else 1)) % 2 ^ w)
      (∀ d, fmtOf f.ty = some d → d.converts f.rnd f.sat x r) ∧ (f.ty ∈ ints → intConverts f.ty f.rnd x r)) ∧
    (f.cvtS ∈ ints →
      let v := rdInt f.cvtS a
      (∀ d, fmtOf f.ty = some d → d.converts f.rnd f.sat (.fin (v < 0) v.natAbs 0) r) ∧
      (f.ty ∈ ints → intMeans f f.sat r v)) ∧
    ∀ d, fmtOf f.ty = some d → d.stochastic f.sat (b % 2 ^ 32) (decodeFloat fp32 (a % 2 ^ 32)) (aluCvtsr f a b c)) ∧
  (∀ (f : VR) s x e l, l < 32 → e.getLsbD l = true →
    let r := (planQamax f s x e).res.getD l (0, 0)
    let v (k : Nat) : Machine.Num := decodeFloat fp32 (s.opnd x .f32 f.a k)
    let n := if f.sub = 0 then 16 else 32
    let group := (lanesIn e).filter fun k => k / n == l / n
    r.2 = stickyIf (isSigNum (v l)) .invalid ∧
    ((∃ k ∈ group, isNanNum (v k) = true) → r.1 = fp32.nanCode) ∧
    ((∀ k ∈ group, isNanNum (v k) = false) → r.1 < 2 ^ 31 ∧ isNanNum (decodeFloat fp32 r.1) = false ∧
      (∃ k ∈ group, (decodeFloat fp32 r.1).units = (v k).units.natAbs) ∧
      ∀ k ∈ group, ((v k).units.natAbs : Int) ≤ (decodeFloat fp32 r.1).units)) ∧
  (∀ m a, m ∈ [fE4M3, fE5M2, fE2M1] → scaleIs m [decodeFloat fp32 (a % 2 ^ 32)] (blockScale m [decodeFloat fp32 (a % 2 ^ 32)])) ∧
  (∀ (f : VR) s x e l, l < 32 →
    let r := (planQpack f s x e).res.getD l (0, 0)
    let v (k : Nat) : Machine.Num := decodeFloat fp32 (s.opnd x .f32 f.a k)
    (∀ m, m ∈ [fE4M3, fE5M2, fE2M1] → fmtOf f.ty = some m →
      let w := 1 + m.eb + m.fb
      ∃ el : Nat → Nat × Sticky,
        (∀ k, if e.getLsbD k = true then m.quantisedIs (s.opnd x .n32 f.b k % 256) (v k) (el k) else el k = (0, 0)) ∧
        r = (if l % (32 / w) = 0 then ((List.range (32 / w)).map fun j => (el (l + j)).1 * 2 ^ (w * j)).sum else 0, (el l).2)) ∧
    (f.ty = .q4e →
      let base := l / 16 * 16
      ∃ bytes st, q4eCodes ((List.range 16).map fun j => if e.getLsbD (base + j) then v (base + j) else .fin false 0 0) bytes st ∧
        r.1 = (if l % 16 < 5 then bytes.getD (2 * (l % 16)) 0 + 256 * bytes.getD (2 * (l % 16) + 1) 0 else 0) ∧
        r.2 = if e.getLsbD l && (List.range (l % 16)).all fun j => !e.getLsbD (base + j) then st else 0)) ∧
  ∀ (f : VR) s x e l, l < 32 → e.getLsbD l = true →
    let r := (planQunpk f s x e).res.getD l (0, 0)
    let a := s.opnd x .n32 f.a
    (∀ m, m ∈ [fE4M3, fE5M2, fE2M1] → fmtOf f.ty = some m →
      let w := 1 + m.eb + m.fb
      let n := 32 / w
      let code := s.opnd x .n32 f.b l % 256
      if code = 0xFF then r = (fp32.nanCode, 0)
      else fp32.converts f.rnd f.sat (scaleNum (decodeFloat m (a (l / n * n) / 2 ^ (w * (l % n)) % 2 ^ w)) (127 - (code : Int))) r) ∧
    (f.ty = .q4e →
      let bytes := (List.range 10).map fun j => a (l / 16 * 16 + j / 2) / 256 ^ (j % 2) % 256
      ∃ y, fp32.converts f.rnd f.sat (q4eElem bytes (l % 16)) y ∧ r = (y.1, y.2 ||| stickyIf (q4eThird bytes) .fmterr))

/-- The compares, SEL, PLOP and PMOV retire with each lane's value. ICMP and NCMP give 1 exactly where the condition holds and set
no bit (R155); SEL copies a where the lane's bit of pK is 1, on the scalar path where pK is not 0, and b otherwise (R156);
PLOP takes the table's bit (R157). -/
def Obligations.ComparesAndPredicates : Prop :=
  (AluRetires .icmp aluCmp ∧ AluRetires .ncmp aluCmp ∧ AluRetires .fcmp aluFcmp ∧ (∀ f, VrRetires (.sel f) f (planSel f)) ∧
    (∀ f, VrRetires (.plop f) f (planPlop f)) ∧ ∀ f, VrRetires (.pmov f) f (planPmov f)) ∧
  (∀ (f : VR) (a b c : Nat),
    let x := rdInt f.ty a
    let y := rdInt f.ty b
    (aluCmp f a b c).2 = 0 ∧
    (f.sub = 0 → ((aluCmp f a b c).1 = 1 ↔ x = y) ∧ (aluCmp f a b c).1 ≤ 1) ∧
    (f.sub = 1 → ((aluCmp f a b c).1 = 1 ↔ x ≠ y) ∧ (aluCmp f a b c).1 ≤ 1) ∧
    (f.sub = 2 → ((aluCmp f a b c).1 = 1 ↔ x < y) ∧ (aluCmp f a b c).1 ≤ 1) ∧
    (f.sub = 3 → ((aluCmp f a b c).1 = 1 ↔ x ≤ y) ∧ (aluCmp f a b c).1 ≤ 1)) ∧
  ∀ (f : VR) (s : State) (x : Issue) (e : Mask) (l : Nat), l < 32 → e.getLsbD l = true →
    (f.dk = .vec → (planSel f s x e).res.getD l (0, 0) =
      (if (x.wave.pred (f.c.num.toNat % 8)).getLsbD l then s.opnd x f.ty f.a l else s.opnd x f.ty f.b l, 0)) ∧
    (f.dk = .scl ∨ f.dk = .grp → (planSel f s x e).res =
      [(if x.wave.pred (f.c.num.toNat % 8) = 0 then s.opnd x f.ty f.b 0 else s.opnd x f.ty f.a 0, 0)]) ∧
    ((planPlop f s x e).res.getD l (0, 0)).1 = f.table / 2 ^ (bit1 ((x.wave.pred (f.a.num.toNat % 8)).getLsbD l) +
      2 * bit1 ((x.wave.pred (f.b.num.toNat % 8)).getLsbD l) + 4 * bit1 ((x.wave.pred (f.c.num.toNat % 8)).getLsbD l)) % 2

/-- The cross-lane instructions, REDUCE and SCAN retire with the values of their plans. ACTIVE gives EXEC, its lanes counted, or its
lowest lane (R170); BALLOT's mask holds exactly the lanes of EXEC that vote, by a value that is not 0 or by a predicate, and stands in every lane of EXEC, in
the scalar register, or as each lane's bit of the predicate (R168); SHFL reads within its segment (R171). -/
def Obligations.CrossLane : Prop :=
  ((∀ f, VrRetires (.ballot f) f (planBallot f)) ∧ (∀ f, VrRetires (.lrank f) f (planLrank f)) ∧
    (∀ f, VrRetires (.shfl f) f (planShfl f)) ∧ (∀ f, VrRetires (.bcast f) f (planBcast f)) ∧
    (∀ f, VrRetires (.rdlane f) f (planRdlane f)) ∧ (∀ f, VrRetires (.wrlane f) f (planWrlane f)) ∧
    (∀ f, VrRetires (.reduce f) f (planReduce f)) ∧ (∀ f, VrRetires (.scan f) f (planScan f)) ∧
    (∀ f, VrRetires (.compress f) f (planCompress f)) ∧ (∀ f, VrRetires (.expand f) f (planExpand f)) ∧
    ∀ f, VrRetires (.active f) f (planActive f)) ∧
  ∀ (f : VR) (s : State) (x : Issue) (e : Mask) (l : Nat), l < 32 → e.getLsbD l = true →
    (f.sub = 0 → (planActive f s x e).res.getD l (0, 0) = (e.toNat, 0)) ∧
    (f.sub = 1 → (planActive f s x e).res.getD l (0, 0) = (((List.range 32).filter fun k => e.getLsbD k).length, 0)) ∧
    (f.sub = 2 → ∃ k, (planActive f s x e).res.getD l (0, 0) = (k, 0) ∧ e.getLsbD k = true ∧ ∀ j, j < k → e.getLsbD j = false) ∧
    (∃ m : Nat, (∀ k, m.testBit k = (e.getLsbD k &&
        if f.sub = 1 then (x.wave.pred (f.a.num.toNat % 8)).getLsbD k else s.opnd x .n32 f.a k != 0)) ∧
      let p := planBallot f s x e
      p.lanes = e ∧ (∀ j, j < 32 → p.res.getD j (0, 0) = (if f.dk = .pred then bit1 (m.testBit j) else m, 0)) ∧
      (f.dk = .vec → ∀ j, j < 32 → ∃ v, vrPuts f p.ty p.lanes p.res = [.vec f.dst.toNat e v] ∧ laneOf v j = BitVec.ofNat 32 m) ∧
      (f.dk = .scl → vrPuts f p.ty p.lanes p.res = [.scl f.dst.toNat (BitVec.ofNat 64 m)]) ∧
      (f.dk = .pred → ∃ v, vrPuts f p.ty p.lanes p.res = [.pred f.dst.toNat e v] ∧ ∀ j, e.getLsbD j = true → v.getLsbD j = m.testBit j)) ∧
    ∀ sub d c, let w := if c % 64 ∈ [1, 2, 4, 8, 16, 32] then c % 64 else 32
      shflLane sub l d c / w = l / w ∧
      (sub = 0 → shflLane sub l d c % w = d % w) ∧
      (sub = 1 → shflLane sub l d c = if d ≤ l % w then l - d else l) ∧
      (sub = 2 → shflLane sub l d c = if l % w + d < w then l + d else l) ∧
      (3 ≤ sub → shflLane sub l d c % w = (l % w) ^^^ (d % w))

/-- What each lane receives from LRANK, SHFL, BCAST, RDLANE, WRLANE, COMPRESS, EXPAND and PMOV (R158, R169, R171 to R174), which lanes
they write, and what REDUCE and SCAN make of the lanes of EXEC (R175 to R177): an integer sum is exact and then clamped or reduced; the
other operations follow the pairwise tree over lane positions, or the prefixes in ascending order; a NaN is canonical and a
signalling one sets INVALID. That a clamped integer sum sets SATURATE is the model's choice (log 38). -/
def Obligations.LaneValues : Prop :=
  (∀ (f : VR) s x e l, l < 32 → e.getLsbD l = true →
    let v := s.laneVal x f.ty f.a
    let b := s.opnd x .n32 f.b
    let low := lowestLane e
    (f.dk = .vec →
      let m := if f.sub = 1 then (x.wave.pred (f.a.num.toNat % 8)).toNat else s.opnd x .n32 f.a l
      let among (p : Nat → Bool) : Nat := ((List.range 32).filter fun k => m.testBit k && p k).length
      let r := (planLrank f s x e).res.getD l (0, 0)
      r.2 = 0 ∧ (f.rnd = .rne → r.1 = (among (fun k => k < l) + b l) % 2 ^ 32) ∧
      (f.rnd = .rtz → r.1 = (among (fun k => k ≤ l) + b l) % 2 ^ 32) ∧
      (f.rnd = .rdn → r.1 = (among (fun k => l < k) + b l) % 2 ^ 32)) ∧
    (planShfl f s x e).lanes = e ∧
    (planShfl f s x e).res.getD l (0, 0) = (v (shflLane f.sub.toNat l (b l) (s.opnd x .n32 f.c l)), 0) ∧
    (planBcast f s x e).lanes = e ∧
    (planBcast f s x e).res.getD l (0, 0) = (v (if f.sub = 0 then b 0 % 32 else low), 0) ∧
    (planRdlane f s x e).res = [(v (if f.sub = 0 then b 0 % 32 else low), 0)] ∧
    (planWrlane f s x e).lanes.getLsbD l = decide (l = b 0 % 32) ∧
    (planWrlane f s x e).res.getD l (0, 0) = (s.opnd x f.ty f.a l, 0)) ∧
  (∀ (f : VR) s x e l, l < 32 →
    let v := s.laneVal x f.ty f.a
    let m : Mask := if f.sub = 0 then BitVec.ofNat 32 (s.opnd x .n32 f.b 0) else x.wave.pred (f.b.num.toNat % 8)
    let rank (k : Nat) : Nat := ((List.range k).filter fun j => m.getLsbD j).length
    (planCompress f s x e).lanes.getLsbD l = (e.getLsbD l && decide (l < rank 32)) ∧
    (∀ k, k < 32 → m.getLsbD k = true → rank k = l → e.getLsbD l = true → (planCompress f s x e).res.getD l (0, 0) = (v k, 0)) ∧
    (planExpand f s x e).lanes.getLsbD l = (e.getLsbD l && m.getLsbD l) ∧
    (e.getLsbD l = true → m.getLsbD l = true → (planExpand f s x e).res.getD l (0, 0) = (v (rank l), 0)) ∧
    let p := x.wave.pred (f.a.num.toNat % 8)
    let a := s.opnd x .n32 f.a l
    (planPmov f s x e).lanes = e ∧
    (planPmov f s x e).res.getD l (0, 0) = (if f.sub = 0 then a / 2 ^ l % 2 else if f.sub = 1 then p.toNat
      else if f.sub = 2 then bit1 (p.getLsbD l) else bit1 (a % 2 ^ 32 != 0), 0)) ∧
  ∀ (f : VR) s x (e : Mask), e ≠ 0 → f.ty ∈ [Ty.i32, .n32, .i64, .n64, .f32, .f16, .bf16] →
    let v := s.laneVal x f.ty f.a
    (∀ l, l < 32 → e.getLsbD l = true ∨ f.dk = .scl →
      let r := (planReduce f s x e).res.getD l (0, 0)
      (fmtOf f.ty = none → f.sub = 0 → intMeans f f.sat r ((lanesIn e).map fun k => rdInt f.ty (v k)).sum) ∧
      (fmtOf f.ty ≠ none ∨ f.sub ≠ 0 →
        ∃ y z, treeIs (combinedIs f) (fun k => if e.getLsbD k then some (elemOf f.ty (v k), 0) else none) 5 0 (some y) ∧
          aloneIs f.ty y.1 z ∧ r = (z.1, y.2 ||| stickyIf ((lanesIn e).any fun k => sigElem f.ty (v k)) .invalid))) ∧
    ∃ acc : Nat → Nat, ∀ l, l < 32 → e.getLsbD l = true →
      let r := (planScan f s x e).res.getD l (0, 0)
      ((∀ p, p < l → e.getLsbD p = false) → ∃ z, aloneIs f.ty (v l) z ∧ acc l = z.1 ∧ r = (if f.sat then identityOf f else z.1, z.2)) ∧
      ∀ p, p < l → e.getLsbD p = true → (∀ q, p < q → q < l → e.getLsbD q = false) →
        ∃ c, combinedIs f (acc p) (elemOf f.ty (v l)) c ∧ acc l = c.1 ∧
          r = (if f.sat then acc p else c.1, c.2 ||| stickyIf (sigElem f.ty (v l)) .invalid)

/-- FRCP, FRSQ, FSQRT, FEXP2, FLOG2 and FSINCOS are long-latency: they retire with their results outstanding (R37). The special
inputs, both zeroes, both infinities, negative numbers and NaNs, give the results of R144's table, an infinite one under SAT the
largest finite value with SATURATE. -/
def Obligations.Transcendentals : Prop :=
  (AluIssues .frcp aluFrcp ∧ AluIssues .frsq aluFrsq ∧ AluIssues .fsqrt aluFsqrt ∧ AluIssues .fexp2 aluFexp2 ∧
    AluIssues .flog2 aluFlog2 ∧ AluIssues .fsincos aluFsincos) ∧
  ∀ (f : VR) (b c : Nat),
    let cap := fp32.cap f.sat
    let nan (sig : Bool) : Nat × Sticky := (0x7FC00000, stickyIf sig .invalid)
    (∀ neg : Bool,
      let nil0 := if neg then 0x80000000 else 0
      let inf := if neg then 0xFF800000 else 0x7F800000
      aluFrcp f nil0 b c = cap (inf, .divzero) ∧ aluFrcp f inf b c = (nil0, 0) ∧
      aluFrsq f nil0 b c = cap (inf, .divzero) ∧ aluFrsq f inf b c = (if neg then nan true else (0, 0)) ∧
      aluFsqrt f nil0 b c = (nil0, 0) ∧ aluFsqrt f inf b c = (if neg then nan true else cap (inf, 0)) ∧
      aluFexp2 f nil0 b c = (0x3F800000, 0) ∧ aluFexp2 f inf b c = (if neg then (0, 0) else cap (inf, 0)) ∧
      aluFlog2 f nil0 b c = cap (0xFF800000, .divzero) ∧ aluFlog2 f inf b c = (if neg then nan true else cap (inf, 0)) ∧
      aluFsincos f nil0 b c = (if f.sub = 1 then 0x3F800000 else nil0, 0) ∧ aluFsincos f inf b c = nan true) ∧
    aluFlog2 f 0x3F800000 b c = (0, 0) ∧
    ∀ a, a < 2 ^ 32 →
      (∀ v e, decodeFloat fp32 a = .fin true v e → v ≠ 0 →
        aluFrsq f a b c = nan true ∧ aluFsqrt f a b c = nan true ∧ aluFlog2 f a b c = nan true) ∧
      ∀ sig, decodeFloat fp32 a = .nan sig → ∀ r ∈ [aluFrcp f a b c, aluFrsq f a b c, aluFsqrt f a b c, aluFexp2 f a b c,
        aluFlog2 f a b c, aluFsincos f a b c], r = nan sig

/-! Special and group registers. -/

/-- MOVI writes imm32 to vD in every lane of EXEC (R135). RDSR writes the register as each lane reads it, or all 64 bits into sD
(R160). RDCLK writes SR_RETIRED in deterministic mode, else the clocks since its core's last reset (R164). Each retires and changes nothing else. -/
def Obligations.MoviRdsrRdclk : Prop :=
  (∀ f s x, s.performs (.movi f) f.g x → s.readable x [] [(.vec, f.dst.toNat)] →
    Retires (.movi f) s x [] [.vec f.dst.toNat (x.exec f.g) (mkLanes fun _ => f.imm)] 0) ∧
  (∀ f s x, s.performs (.rdsr f) f.g x → s.readable x [] [(if f.imm = 1 then .scl else .vec, f.dst.toNat)] →
    Retires (.rdsr f) s x []
      [if f.imm = 1 then .scl f.dst.toNat (s.srValue x f.sr.toNat 0)
       else .vec f.dst.toNat (x.exec f.g) (mkLanes fun l => (s.srValue x f.sr.toNat l).setWidth 32)] 0) ∧
  ∀ f s x, s.performs (.rdclk f) f.g x → s.readable x [] [(.scl, f.dst.toNat)] →
    Retires (.rdclk f) s x [] [.scl f.dst.toNat (if x.wg.det then x.wave.retired else s.coreClock x.core)] 0

/-- What a lane reads of the registers that name its place: SR_LANE, SR_WAVEID, SR_WAVESLOT, SR_CORE, SR_WGID, SR_EXEC,
SR_RETIRED and the trap registers (R42). -/
def Obligations.SpecialRegisters : Prop :=
  ∀ (s : State) (x : Issue) (l : Nat),
    s.srValue x 0x00 l = BitVec.ofNat 64 l ∧ s.srValue x 0x01 l = BitVec.ofNat 64 x.wave.waveId ∧
    s.srValue x 0x02 l = BitVec.ofNat 64 (x.w % 32) ∧ s.srValue x 0x03 l = BitVec.ofNat 64 (x.w / 32) ∧
    s.srValue x 0x04 l = BitVec.ofNat 64 (x.w / 32 / 12) ∧ s.srValue x 0x05 l = BitVec.ofNat 64 (x.w / 32 / 96) ∧
    s.srValue x 0x07 l = BitVec.ofNat 64 x.wg.wgid ∧ s.srValue x 0x21 l = x.wave.trapen ∧
    s.srValue x 0x22 l = x.lanes.setWidth 64 ∧ s.srValue x 0x34 l = x.wave.retired ∧
    s.srValue x 0x50 l = BitVec.ofNat 64 x.wave.trap.cause ∧ s.srValue x 0x51 l = BitVec.ofNat 64 x.wave.trap.pc ∧
    s.srValue x 0x52 l = BitVec.ofNat 64 x.wave.trap.idx ∧ s.srValue x 0x53 l = x.wave.trap.addr ∧
    s.srValue x 0x54 l = x.wave.trap.mask.setWidth 64 ∧
    (∀ k, k < 8 → s.srValue x (0x38 + k) l = (x.wg.tlsel.getD k 0).setWidth 64) ∧
    (∀ k, k < 9 → (s.srValue x 0x20 l).getLsbD k = x.wave.sticky.getLsbD k) ∧
    (s.srValue x 0x20 l).getLsbD 16 = x.wave.inTrap ∧ (s.srValue x 0x20 l).getLsbD 17 = x.wg.det

/-- WRSR (R161): a 1 clears the sticky bit of SR_STATUS, SR_TRAPEN takes its enables, a selector takes its 16 bits; nothing else
changes. A SCOPE of 6 or 7 raises ILLEGAL_OPERAND instead. RELR releases its registers and nothing else (R70 to R72). -/
def Obligations.WrsrRelr : Prop :=
  (∀ f s x, s.performs (.wrsr f) f.g x →
    let v : DWord := BitVec.ofNat 64 (s.opnd x .n64 f.a 0)
    let n := f.sr.toNat
    s.readable x (x.srcReads .n64 f.a (x.exec f.g)) [] →
    (0x38 ≤ n → 6 ≤ v.toNat / 2 ^ 12 % 8 → exec (.wrsr f) s = .next (s.raiseTrap x 2 0 (x.exec f.g) 0)) ∧
    (n < 0x38 ∨ v.toNat / 2 ^ 12 % 8 < 6 →
      let y : Wave := if n = 0x20 then { x.wave with sticky := x.wave.sticky &&& ~~~(v.setWidth 9) }
        else if n = 0x21 then { x.wave with trapen := v &&& 0x9F } else x.wave
      let g : Wg := if n = 0x20 ∨ n = 0x21 then x.wg
        else { x.wg with tlsel := lsetD 0 x.wg.tlsel (n - 0x38) (v.setWidth 16) }
      ∃ t, exec (.wrsr f) s = .next t ∧
        ((s.setWg x.wave.wg g).setWave x.w y).retired t { x with wave := y, wg := g }
          (x.srcRels .n64 f.a (x.exec f.g)) [] 0 ∧ t.wentOn x)) ∧
  ∀ f s x, s.performs (.relr f) f.g x → s.readable x [] [] →
    let count := f.imm.toNat / 2 ^ 9 % 2 ^ 9
    let regs := (List.range count).map fun k => f.dst.toNat + k
    Retires (.relr f) s x
      (if f.imm.toNat / 2 ^ 18 % 4 = 0 then (regs.filter fun n => !(x.cl.handler && n ≥ 240)).map fun n => ⟨.vec, n, x.exec f.g⟩
       else regs.map fun n => ⟨.scl, n, allLanes⟩) [] 0

/-- GWR writes a group register and claims it (R162); GCLAIM claims gD for the issuing wave without writing it, and a claim that the
wave holds stays (R163). Where another wave of the workgroup holds the claim both raise GROUP_WRITER (R33). -/
def Obligations.GroupWriters : Prop :=
  (∀ f s x, s.performs (.gwr f) f.g x →
    let k := f.imm.toNat % 32
    let t : Ty := if f.a.kind = .vec then .n32 else .n64
    let reads := if f.a.kind = .vec then x.vecReads f.a.num.toNat 1 (maskOf fun l => l == k) ((lanesIn (x.exec f.g)).map fun l => (l, k))
      else x.srcReads t f.a (x.exec f.g)
    s.readable x reads [] →
    (∀ id, x.wg.claims.getD f.dst.toNat none = some id → id ≠ x.wave.waveId →
      exec (.gwr f) s = .next (s.raiseTrap x 7 0 (x.exec f.g) 0)) ∧
    ((∀ id, x.wg.claims.getD f.dst.toNat none = some id → id = x.wave.waveId) →
      Retires (.gwr f) s x (x.srcRels t f.a (x.exec f.g)) [.grp f.dst.toNat (BitVec.ofNat 64 (s.opnd x t f.a k))] 0 ∧
      ∀ u g, exec (.gwr f) s = .next u → u.wg? x.wave.wg = some g → g.claims.getD f.dst.toNat none = some x.wave.waveId)) ∧
  ∀ f s x, s.issue? = some x → s.positionOk x (.gclaim f) = true → x.operandsOk (.gclaim f) = true → s.readable x [] [] →
    (x.exec f.g = 0 → exec (.gclaim f) s = .next (s.finish x [] [] [] 0)) ∧
    (x.exec f.g ≠ 0 →
      (∀ id, x.wg.claims.getD f.dst.toNat none = some id → id ≠ x.wave.waveId →
        exec (.gclaim f) s = .next (s.raiseTrap x 7 0 (x.exec f.g) 0)) ∧
      ((∀ id, x.wg.claims.getD f.dst.toNat none = some id → id = x.wave.waveId) →
        let g : Wg := { x.wg with claims := lsetD none x.wg.claims f.dst.toNat (some x.wave.waveId) }
        (x.wg.claims.getD f.dst.toNat none = some x.wave.waveId → g = x.wg) ∧
        ∃ t, exec (.gclaim f) s = .next t ∧ (s.setWg x.wave.wg g).retired t { x with wg := g } [] [] 0 ∧ t.wentOn x))

/-! Control. -/

/-- NOP only lets its lanes go to the next clause (R182). BRA sends the lanes of EXEC to the clause's header + 8 × offset; CALL
does too and writes the address of its next clause into the link pair; the rest go to the next clause (R179, R180). BRX and RET
send each lane of EXEC to its own target, which BRX offsets by 8 × offset. A misaligned target raises MISALIGN, else a target of 0
or with bits [63:60] raises PROTECTION, at the lanes that meet the check and with the target of the lowest (R181). -/
def Obligations.BranchesAndCalls : Prop :=
  ((∀ f s x, s.performs (.nop f) f.g x → s.readable x [] [] → Retires (.nop f) s x [] [] 0) ∧
  (∀ f s x, s.performs (.bra f) f.g x → s.readable x [] [] →
    Moves (.bra f) s x (x.exec f.g) [] [] [((BitVec.ofInt 64 ((x.cl.pc : Int) + 8 * f.off.toInt)).toNat, x.exec f.g)]) ∧
  ∀ f s x, s.performs (.call f) f.g x → s.readable x [] [(.vec, f.link.toNat), (.vec, f.link.toNat + 1)] →
    Moves (.call f) s x (x.exec f.g) []
      [.vec f.link.toNat (x.exec f.g) (mkLanes fun _ => BitVec.ofNat 32 x.cl.nextPc),
        .vec (f.link.toNat + 1) (x.exec f.g) (mkLanes fun _ => BitVec.ofNat 32 (x.cl.nextPc / 2 ^ 32 % 2 ^ 28))]
      [((BitVec.ofInt 64 ((x.cl.pc : Int) + 8 * f.off.toInt)).toNat, x.exec f.g)]) ∧
  ∀ (ret : Bool) f s x,
    let i : Instr := if ret then .ret f else .brx f
    let e := x.exec f.g
    let tgt (l : Nat) : Nat := wrapInt 64 ((s.vecVal x f.link.toNat true l : Int) + (if ret then 0 else 8 * f.off.toInt))
    s.performs i f.g x → s.readable x (x.vecReads f.link.toNat 2 e []) [] →
    ((∀ l ∈ lanesIn e, tgt l % 8 = 0 ∧ tgt l ≠ 0 ∧ tgt l < 2 ^ 60) →
      Moves i s x e (if f.last then (x.vecReads f.link.toNat 2 e []).map fun r => ⟨.vec, r.reg, e⟩ else []) []
        (groupTargets tgt e)) ∧
    (∀ m, m ≠ 0 → (∀ l, m.getLsbD l = (e.getLsbD l && decide (tgt l % 8 ≠ 0))) →
      exec i s = .next (s.raiseTrap x 3 (BitVec.ofNat 64 (tgt (lowestLane m))) m 0)) ∧
    ((∀ l ∈ lanesIn e, tgt l % 8 = 0) →
      ∀ m, m ≠ 0 → (∀ l, m.getLsbD l = (e.getLsbD l && decide (tgt l = 0 ∨ 2 ^ 60 ≤ tgt l))) →
        exec i s = .next (s.raiseTrap x 5 (BitVec.ofNat 64 (tgt (lowestLane m))) m 0))

/-- JOIN (R183): its lanes stand in a JOINED entry at the clause's header until the JOINED entries there hold every lane that has
not exited; then one READY entry at the next clause holds them all. -/
def Obligations.JoinHolds : Prop :=
  ∀ f s x, s.performs (.join f) f.g x → s.readable x [] [] →
    let l := s.movedEntries x [(x.cl.nextPc, x.cl.lanes &&& ~~~(x.exec f.g))] ++ [x.joined (x.exec f.g)]
    ∃ t y, exec (.join f) s = .next t ∧ t.wave? x.w = some y ∧ y.clause = none ∧ y.retired = x.wave.retired + 1 ∧
      ((∀ e ∈ l, e.st = .joined → joinedLanes l e.pc ≠ lanesOfEntries l) → y.frontier = l) ∧
      (x.cl.mac = none → (∀ e ∈ l, e.st = .joined → e.pc = x.cl.pc ∧ e.index = x.cl.index) → joinedLanes l x.cl.pc = lanesOfEntries l →
        ∃ e ∈ y.frontier, e.st = .ready ∧ e.pc = x.cl.nextPc ∧ e.mask &&& lanesOfEntries l = lanesOfEntries l)

/-- EXIT ends the lanes of EXEC: where others remain, they read as released in every vector register and stand in no entry; with
the wave's last lane the wave ends (R17, R51, R185). YIELD retires as NOP does, and in a handler or in deterministic mode does
nothing else; otherwise the waves of its sequencer that are ready go first, and it pauses for its count of clocks (R186). -/
def Obligations.ExitAndYield : Prop :=
  (∀ f s x, s.performs (.exit f) f.g x → s.readable x [] [] →
    let l := s.movedEntries x [(x.cl.nextPc, x.cl.lanes &&& ~~~(x.exec f.g))]
    ∃ t, exec (.exit f) s = .next t ∧
      (lanesOfEntries l = 0 → t.wave? x.w = none) ∧
      (lanesOfEntries l ≠ 0 → ∃ y, t.wave? x.w = some y ∧ y.clause = none ∧ y.retired = x.wave.retired + 1 ∧
        lanesOfEntries y.frontier = lanesOfEntries l ∧
        ∀ n k, (x.exec f.g).getLsbD k = true → (y.released .vec n).getLsbD k = true)) ∧
  ∀ f s x, s.performs (.yield f) f.g x → s.readable x [] [] →
    ∃ u t, s.retired u x [] [] 0 ∧ u.wentOn x ∧ exec (.yield f) s = .next t ∧
      (x.cl.handler = true ∨ x.wg.det = true → t = u) ∧
      (x.cl.handler = false → x.wg.det = false → ∃ y others, u.wave? x.w = some y ∧
        t = u.setWave x.w { y with
          passing := others, pause := if f.off = 0 then none else some (s.coreClock x.core + f.off.zeroExtend 64) } ∧
        ∀ v, v ∈ others ↔ (v ≠ x.w ∧ v / 8 = x.w / 8 ∧ v ∈ u.waves.map (·.1) ∧ u.ready v = true))

/-- TRAP raises SOFTWARE and BRKPT raises BREAK at the lanes of EXEC with address 0; in a handler both act as NOP (R187). -/
def Obligations.TrapBrkpt : Prop :=
  ∀ (brk : Bool) f s x,
    let i : Instr := if brk then .brkpt f else .trap f
    s.performs i f.g x → s.readable x [] [] →
    (x.cl.handler = true → Retires i s x [] [] 0) ∧
    (s.canTrap x → ∃ t, exec i s = .next t ∧ s.inHandler t x (if brk then 0x0D else 9) 0 (x.exec f.g))

/-- RETT ends the handler (R188, R371): by mode 0 the trapped entry issues its instruction again, by mode 1 it goes on behind it,
or at its next clause if it was the last, and by mode 2 its lanes exit. The sequencer then serves its queue: where no wave of it
waits for a handler, nothing more happens (R45). -/
def Obligations.RettReturns : Prop :=
  ∀ f s x e, s.performs (.rett f) f.g x → s.readable x [] [] → x.wave.trapped? = some e →
    ∃ t : State, exec (.rett f) s = .next (t.serveTraps (seqOfWave x.w)) ∧
      (s.noneQueued x → t.serveTraps (seqOfWave x.w) = t) ∧
      ((s.seq (seqOfWave x.w)).owner = some x.w → (t.seq (seqOfWave x.w)).owner = none ∧ (t.seq (seqOfWave x.w)).bank = []) ∧
      (f.off = 0 ∨ f.off = 1 →
        ∃ y, t.wave? x.w = some y ∧ y.inTrap = false ∧ y.handlers = [] ∧ y.clause = none ∧
          (f.off = 0 → y.retired = x.wave.retired + 1 ∧ y.frontier = x.wave.untrapped ++ [{ e with st := .resume }]) ∧
          (f.off = 1 → y.retired = x.wave.retired + 2 ∧ (e.mac = none →
            (e.index + 1 < e.count →
              y.frontier = x.wave.untrapped ++ [{ e with st := .resume, index := e.index + 1, failed := false, addrs := [] }]) ∧
            (e.count ≤ e.index + 1 → e.mask ≠ 0 →
              ∃ a ∈ y.frontier, a.st = .ready ∧ a.pc = e.pc + 8 * (e.count + 1) ∧ a.mask &&& e.mask = e.mask)))) ∧
      (f.off = 2 → (lanesOfEntries x.wave.untrapped = 0 → t.wave? x.w = none) ∧
        (lanesOfEntries x.wave.untrapped ≠ 0 → ∃ y, t.wave? x.w = some y ∧ y.inTrap = false ∧
          lanesOfEntries y.frontier = lanesOfEntries x.wave.untrapped ∧
          ∀ n k, e.mask.getLsbD k = true → (y.released .vec n).getLsbD k = true))

/-- MDEF fetches its body behind the words that the sequencer keeps of it. With all words there, it writes them into the core's macro
slot for its launch (R189), or raises MACRO where one may not stand in a body (R92); a word on its way leaves the sequencer waiting
with those that came, and one that cannot be fetched traps with its address (R189, R359). MCALL retires, and the clause goes on with
the first operation of the expansion, which keeps the EXEC of the MCALL (R93, R190). -/
def Obligations.MacroInstructions : Prop :=
  (∀ (f : B) (s : State) (x : Issue), s.performs (.mdef f) f.g x → s.readable x [] [] →
    let got := (s.seq (seqOfWave x.w)).body.drop 1
    match s.fetchBody x.w x.wg.ctx (bitsOf f.mid.toNat 6 5 + 1 - got.length) (x.targetOf f.off + 8 * got.length) got with
    | .words u ws =>
      let v := u.keepBody x.w []
      (ws.all macroWordOk = false → exec (.mdef f) s = .next (v.raiseTrap x 0x0E 0 (x.exec f.g) 0)) ∧
      (ws.all macroWordOk = true → ∃ t, exec (.mdef f) s = .next t ∧
        let c : Core := { v.core x.core with macros := tput (v.core x.core).macros f.link.toNat ⟨x.wg.launch, ws⟩ }
        (v.setCore x.core c).retired t x [] [] 0 ∧ t.wentOn x)
    | .wait u l => exec (.mdef f) s = .next (u.keepBody x.w (encode (.mdef f) ++ l))
    | .trap u cause va =>
      exec (.mdef f) s = .next ((u.keepBody x.w []).raiseTrap x cause (BitVec.ofNat 64 va) (x.exec f.g) 0)) ∧
  ∀ f s x ops, s.performs (.mcall f) f.g x → s.readable x [] [] → (s.core x.core).expansion f x.wg.launch = some ops →
    ∃ t y, exec (.mcall f) s = .next t ∧ s.retired t x [] [] 0 ∧ t.wave? x.w = some y ∧
      y.clause = some { x.cl with mac := some ⟨ops, 0, x.exec f.g⟩, failed := false, addrs := [] }

/-! Memory. -/

/-- The loads read every lane of EXEC at its own address (LDG, LDS, LDX), at A + W × l (LDB), or at consecutive elements by rank
in EXEC (EXLD); they retire with the bytes outstanding as their result (R202, R203). LDC makes one access for every lane of EXEC into
consecutive scalar registers (R204). PFG retires whatever its address register holds, with no effect, flag or trap, and releases the
register under L (R205). -/
def Obligations.LoadsRead : Prop :=
  (∀ f, Loads (.ldg f) f .global (fun s x e => s.laneAddrs x (.ldg f) f e) ∧
    Loads (.lds f) f .spad (fun s x e => s.laneAddrs x (.lds f) f e) ∧
    Loads (.ldx f) f .remote (fun s x e => s.laneAddrs x (.ldx f) f e) ∧
    Loads (.ldb f) f .global (fun s x e => s.strideAddrs x (.ldb f) f e) ∧
    Loads (.exld f) f .global (fun s x e => s.rankAddrs x (.exld f) f e)) ∧
  (∀ f, AccessRetires (.ldc f) f (ldcAccess f) (oneAddr (.ldc f) f) (fun x e => x.addrRels (.ldc f) f e) (fun _ _ _ _ => True)
    (ldcWork f)) ∧
  ∀ f s x, s.performs (.pfg f) f.g x → s.exitFaults x = 0 → s.spillConflict x (x.addrReads (.pfg f) f (x.exec f.g)) [] = false →
    (∀ r ∈ x.addrReads (.pfg f) f (x.exec f.g), r.needsFill x = false) →
    Retires (.pfg f) s x (x.addrRels (.pfg f) f (x.exec f.g)) [] 0

/-- The stores write every lane of EXEC in ascending order at the lane's own address (STG, STS, STX), at A + W × l (STB), or at
consecutive elements by rank in EXEC (CSTG), and retire (R206). -/
def Obligations.StoresWrite : Prop :=
  ∀ f, Stores (.stg f) f .global (fun s x e => s.laneAddrs x (.stg f) f e) ∧
    Stores (.sts f) f .spad (fun s x e => s.laneAddrs x (.sts f) f e) ∧
    Stores (.stx f) f .remote (fun s x e => s.laneAddrs x (.stx f) f e) ∧
    Stores (.stb f) f .global (fun s x e => s.strideAddrs x (.stb f) f e) ∧
    Stores (.cstg f) f .global (fun s x e => s.rankAddrs x (.cstg f) f e)

/-- The atomics and reductions step every lane of EXEC in lane order; the atomics leave the old values outstanding, the reductions
return nothing (R213, R214). The integer steps are those of R213's table; the floating sum is rounded once to nearest, in each half of a
packed type, and the floating minimum and maximum pass NaNs over and keep bits (R213, R215). -/
def Obligations.AtomicsStep : Prop :=
  (∀ f, Steps (.atomg f) f .global true ∧ Steps (.atoms f) f .spad true ∧ Steps (.atomx f) f .remote true ∧
    Steps (.redg f) f .global false ∧ Steps (.reds f) f .spad false) ∧
  ∀ (t : Ty) (m x c : Nat), m < 2 ^ tyWidth t → x < 2 ^ tyWidth t →
    (atomicStep 0 t m x c = (m + x) % 2 ^ tyWidth t) ∧
    rdInt t (atomicStep 1 t m x c) = min (rdInt t m) (rdInt t x) ∧ rdInt t (atomicStep 2 t m x c) = max (rdInt t m) (rdInt t x) ∧
    (∀ k, (atomicStep 3 t m x c).testBit k = (m.testBit k && x.testBit k) ∧
      (atomicStep 4 t m x c).testBit k = (m.testBit k || x.testBit k) ∧
      (atomicStep 5 t m x c).testBit k = (m.testBit k != x.testBit k)) ∧
    atomicStep 6 t m x c = x ∧ (m = c → atomicStep 7 t m x c = x) ∧ (m ≠ c → atomicStep 7 t m x c = m) ∧
    (m < x → atomicStep 8 t m x c = m + 1) ∧ (x ≤ m → atomicStep 8 t m x c = 0) ∧
    (m = 0 ∨ x < m → atomicStep 9 t m x c = x) ∧ (m ≠ 0 → m ≤ x → atomicStep 9 t m x c = m - 1) ∧
    (t ∈ [Ty.f32, .f16x2, .bf16x2] → ∃ st, eachElem t m x c (atomicStep 10 t m x c, st)
      fun d a b _ r => d.sumIs .rne false [] [decodeFloat d a, decodeFloat d b] r) ∧
    (t = .f32 → ∀ larger : Bool,
      let r := atomicStep (if larger then 12 else 11) t m x c
      let a := decodeFloat fp32 m
      let b := decodeFloat fp32 x
      (isNanNum b = true → r = m) ∧ (isNanNum a = true → isNanNum b = false → r = x) ∧
      (isNanNum a = false → isNanNum b = false → (r = m ∨ r = x) ∧
        let z := decodeFloat fp32 r
        if larger then a.leq z ∧ b.leq z else z.leq a ∧ z.leq b))

/-- XRED adds every lane's value to the exact accumulator object at its address, in lane order, and retires (R216). XRD leaves the
object's rounded value or its bytes outstanding (R217); where a rounding meets an enabled condition, log entry 16 says what
happens. A finite value adds itself to SUM modulo 2^480, anything else leaves it; the flags gather what was added (R120, R121); two
additions may change places; XRead gives a NaN, an infinity, a zero, or SUM rounded once (R122). -/
def Obligations.ExactAccumulators : Prop :=
  (∀ f, AccessRetires (.xred f) f (xredAccess f) (fun s x e => s.laneAddrs x (.xred f) f e)
      (fun x e => x.addrRels (.xred f) f e ++ x.dataRels f.data.toNat 1 f.last e) (fun _ _ _ _ => True) (xredWork f) ∧
    AccessRetires (.xrd f) f (xrdAccess f) (fun s x e => s.laneAddrs x (.xrd f) f e) (fun x e => x.addrRels (.xrd f) f e)
      (xrdOk f) (xrdWork f)) ∧
  (∀ (d : Fmt) (o : XObj) v, d ∈ [fp32, fp16, bfl16] →
    let x := decodeFloat d v
    let p := xAdd d o v
    (∀ neg m e, x = .fin neg m e → p.sum < 2 ^ 480 ∧ ∃ k : Int, ((p.sum : Int) - o.sum - k * 2 ^ 480) * 2 ^ 171 = x.units) ∧
    (isNanNum x = true ∨ isInfNum x = true → p.sum = o.sum) ∧
    ∀ k, p.flags.testBit k = (o.flags.testBit k || match k with
      | 0 => isNanNum x
      | 1 => isSigNum x
      | 2 => x == .inf false
      | 3 => x == .inf true
      | 4 => true
      | 5 => !(isZeroNum x && isNegNum x)
      | _ => false)) ∧
  (∀ t d v m, fmtOf t = some d → m < 2 ^ 512 → xredStep t v m < 2 ^ 512 ∧
    XObj.ofBytes (xredStep t v m) =
      if isPacked t then xAdd d (xAdd d (XObj.ofBytes m) (v % 2 ^ 16)) (v / 2 ^ 16 % 2 ^ 16)
      else xAdd d (XObj.ofBytes m) (v % 2 ^ (1 + d.eb + d.fb))) ∧
  (∀ t u v w m, m < 2 ^ 512 → xredStep t v (xredStep u w m) = xredStep u w (xredStep t v m)) ∧
  ∀ mode (o : XObj), o.sum < 2 ^ 480 →
    let r := xRead mode o
    let v : Int := if o.sum < 2 ^ 479 then o.sum else (o.sum : Int) - 2 ^ 480
    let flag (k : Nat) : Bool := o.flags.testBit k
    let nan := flag 0 || (flag 2 && flag 3)
    (nan = true → r = (0x7FC00000, stickyIf (flag 1 || (flag 2 && flag 3)) .invalid)) ∧
    (nan = false → (flag 2 = true → r = (0x7F800000, 0)) ∧ (flag 3 = true → r = (0xFF800000, 0)) ∧
      (flag 2 = false → flag 3 = false →
        (v = 0 → r = (if flag 4 && !flag 5 then 0x80000000 else 0, 0)) ∧
        (v ≠ 0 → fp32.delivers mode false (v < 0) (v.natAbs * 2 ^ 171) r ∧ r.2 &&& .underflow = 0)))

/-- LLOCK gives each lane's line its status, LUNLK releases the lines of the lanes, CFLUSH performs the narrower copies of the
lines at the scope, and CINV also drops code from CLUSTER scope on (R207, R208). LLOCK tests in the order 3, 1, 2, 4: the line is not
local HBM's or its page is uncacheable; the context holds it on this die; its quota is full; the set has no lockable way left; else the
line is locked. A lane finds what the lower lanes have locked (R207). -/
def Obligations.LinesAndCaches : Prop :=
  (∀ (s : State) ctx die c,
    let r := s.lockLine ctx die c
    let away : Prop := ∀ pa u, c = .mem pa u → u = true ∨ ∀ off, s.target pa ≠ .hbm off
    (away → r = (s, 3)) ∧
    (¬away → ∀ pa u, c = .mem pa u →
      let line := pa / 128
      let full : Prop := 8 ≤ s.setLocked die line ∧ ∀ k ∈ s.mem.locks, k.die = die → k.line ≠ line
      (⟨ctx, die, line⟩ ∈ s.mem.locks → r = (s, 1)) ∧
      (⟨ctx, die, line⟩ ∉ s.mem.locks →
        ((s.ctx ctx).quota ≤ s.locksUsed ctx die → r = (s, 2)) ∧
        (s.locksUsed ctx die < (s.ctx ctx).quota → (full → r = (s, 4)) ∧
          (¬full → r = (s.setMem { s.mem with locks := s.mem.locks ++ [⟨ctx, die, line⟩] }, 0) ∧
            r.1.locksUsed ctx die = s.locksUsed ctx die + 1))))) ∧
  (∀ (s : State) ctx die a p b,
    let low := (s.lockLanes ctx die a).1
    (s.lockLanes ctx die (a ++ p :: b)).2[a.length]? = some (p.lane, (low.lockLine ctx die p.loc).2) ∧
    (s.lockLanes ctx die (a ++ [p])).1 = (low.lockLine ctx die p.loc).1) ∧
  ∀ f,
    AccessRetires (.llock f) f (fun _ x e => x.lineAccess (.llock f) f e (dataRegs f.data.toNat 1))
      (fun s x e => s.laneAddrs x (.llock f) f e) (fun x e => x.addrRels (.llock f) f e) (fun _ _ _ _ => True) (llockWork f) ∧
    AccessRetires (.lunlk f) f (fun _ x e => x.lineAccess (.lunlk f) f e []) (fun s x e => s.laneAddrs x (.lunlk f) f e)
      (fun x e => x.addrRels (.lunlk f) f e) (fun _ _ _ _ => True) (lunlkWork f) ∧
    AccessRetires (.cflush f) f (fun _ x e => x.lineAccess (.cflush f) f e []) (fun s x e => s.laneAddrs x (.cflush f) f e)
      (fun x e => x.addrRels (.cflush f) f e) (fun _ _ _ _ => True) (cflushWork f) ∧
    AccessRetires (.cinv f) f (fun _ x e => x.lineAccess (.cinv f) f e []) (fun s x e => s.laneAddrs x (.cinv f) f e)
      (fun x e => x.addrRels (.cinv f) f e) (fun _ _ _ _ => True) (cinvWork f)

/-- HALLOC serves every lane of EXEC from the descriptor and leaves the pointers outstanding: outside deterministic mode lane by
lane (R210), in it from the wave's slice (R211). The class of a request is the least whose block holds it (R209). A lane takes the block
at the head of its class's list, whose link becomes the head, or with an empty list the next aligned block behind BUMP, as far as LIMIT
reaches; a slice's blocks lie behind its offset, in its slice, apart. HFREE gives every lane's block back to the free list of its class,
lane by lane (R212); in deterministic mode it has no effect beyond its reads and releases. A pointer that is 0, misaligned or outside
the arena is passed over. A block whose link is uncorrectable leaves its list as it is: that is the model's choice (log 17). -/
def Obligations.HeapOperations : Prop :=
  ((∀ f s x t d, s.performs (.halloc f) f.g x → s.descriptor x (.halloc f) f (!x.wg.det) t d →
    let e := x.exec f.g
    let reads := x.addrReads (.halloc f) f e
    let rels := x.addrRels (.halloc f) f e
    let gives (l : List (Nat × Nat × Bool)) : List Put := [.later (x.heapResult f.data.toNat l)]
    s.readable x reads (dataRegs f.data.toNat 2) →
    (x.wg.det = false → ∀ u l, t.heapAlloc x d (s.heapSize x f) (lanesIn e) = (u, l, .all) →
      s.dataOnly u ∧ RetiresFrom (.halloc f) s u x x.wave rels (gives l)) ∧
    (x.wg.det = true →
      let key := sliceKey x.wg.launch x.slice
      let r := heapSliceAlloc (t.heapGet x d 0) (t.heapGet x d 8) (t.heapGet x d 24) x.slice
        (s.heapSize x f) (lanesIn e) ((tget (t.core x.core).slices key).getD 0)
      s.dataOnly t ∧ RetiresFrom (.halloc f) s (t.updCore x.core fun c => { c with slices := tput c.slices key r.2 }) x
        x.wave rels (gives (r.1.map fun p => (p.1, p.2, false))))) ∧
  (∀ n, ((n = 0 ∨ 65536 < n) ↔ heapClass n = none) ∧
    ∀ c z, heapClass n = some (c, z) → c ≤ 12 ∧ z = 2 ^ (c + 4) ∧ n ≤ z ∧ ∀ k, k < c → 2 ^ (k + 4) < n) ∧
  (∀ (s : State) x d size l rest,
    let get := s.heapGet x d
    let gets (u : State) (ptr : Nat) (bad : Bool) : Prop := s.heapAlloc x d size (l :: rest) =
      ((u.heapAlloc x d size rest).1, (l, ptr, bad) :: (u.heapAlloc x d size rest).2.1, (u.heapAlloc x d size rest).2.2)
    (heapClass (size l) = none → gets s 0 false) ∧
    ∀ c z, heapClass (size l) = some (c, z) →
      let head := get (32 + 8 * c)
      (head = 0 → ∃ b, z ∣ b ∧ get 16 ≤ b ∧ b < get 16 + z ∧
        (b + z ≤ get 8 → gets (s.heapPut x d 16 (b + z)) ((get 0 + b) % 2 ^ 64) false) ∧ (get 8 < b + z → gets s 0 false)) ∧
      (head ≠ 0 → ∀ u b, s.reach x .global ⟨true, false, false⟩ 8 (BitVec.ofNat 64 head) = (u, .lands b) →
        let r := u.readLoc x 4 b 8
        (r.1.badLoc x.core 4 b 8 = false → gets (r.1.heapPut x d (32 + 8 * c) r.2) head false) ∧
        (r.1.badLoc x.core 4 b 8 = true → gets r.1 head true))) ∧
  ∀ arena limit dslice n (size : Nat → Nat),
    (∀ l rest off,
      let gets (next ptr : Nat) : Prop := heapSliceAlloc arena limit dslice n size (l :: rest) off =
        ((l, ptr) :: (heapSliceAlloc arena limit dslice n size rest next).1, (heapSliceAlloc arena limit dslice n size rest next).2)
      (heapClass (size l) = none → gets off 0) ∧
      ∀ c z, heapClass (size l) = some (c, z) → ∃ b, z ∣ b ∧ off ≤ b ∧ b < off + z ∧
        (b + z ≤ dslice → n * dslice + b + z ≤ limit → gets (b + z) ((arena + n * dslice + b) % 2 ^ 64)) ∧
        (dslice < b + z ∨ limit < n * dslice + b + z → gets off 0)) ∧
    (arena + limit ≤ 2 ^ 64 → ∀ lanes off,
      let l := (heapSliceAlloc arena limit dslice n size lanes off).1
      (l.Pairwise fun a b => a.2 ≠ 0 → b.2 ≠ 0 → ∀ c z, heapClass (size a.1) = some (c, z) → a.2 + z ≤ b.2) ∧
      ∀ a ∈ l, a.2 ≠ 0 → ∃ c z, heapClass (size a.1) = some (c, z) ∧ arena + n * dslice ≤ a.2 ∧
        a.2 + z ≤ arena + (n + 1) * dslice ∧ a.2 + z ≤ arena + limit)) ∧
  (∀ f s x, s.performs (.hfree f) f.g x →
    let e := x.exec f.g
    let reads := x.addrReads (.hfree f) f e ++ x.dataReads f.data.toNat 2 e
    let rels := x.addrRels (.hfree f) f e ++ x.dataRels f.data.toNat 2 f.last e
    s.readable x reads [] →
    (x.wg.det = true → Retires (.hfree f) s x rels [] 0) ∧
    (x.wg.det = false → ∀ t d u, s.descriptor x (.hfree f) f true t d →
      t.heapFree x d (s.dataVal x f.data.toNat 2) (s.heapSize x f) (lanesIn e) = (u, .all) →
      s.dataOnly u ∧ RetiresFrom (.hfree f) s u x x.wave rels [])) ∧
  (∀ arena limit ptr size c, freeClass arena limit ptr size = some c ↔
    ptr ≠ 0 ∧ arena ≤ ptr ∧ ptr < arena + limit ∧ heapClass size = some (c, 2 ^ (c + 4)) ∧ ptr % 2 ^ (c + 4) = 0) ∧
  ∀ (s : State) x d ptr size l rest,
    let class' := freeClass (s.heapGet x d 0) (s.heapGet x d 8) (ptr l) (size l)
    (class' = none → s.heapFree x d ptr size (l :: rest) = s.heapFree x d ptr size rest) ∧
    ∀ c u b, class' = some c → s.reach x .global ⟨false, true, false⟩ 8 (BitVec.ofNat 64 (ptr l)) = (u, .lands b) →
      let v := u.writeLoc x 4 (BitVec.ofNat 64 (ptr l)) b 8 (u.heapGet x d (32 + 8 * c))
      s.heapFree x d ptr size (l :: rest) = (v.heapPut x d (32 + 8 * c) (ptr l)).heapFree x d ptr size rest

/-- Every access by lanes raises RELEASED_READ as R53 says, then MISALIGN and PROTECTION as R197 says, before it performs anything; LDC
and the accesses of one word trap for every lane of EXEC. -/
def Obligations.AccessesTrap : Prop :=
  ∀ f, AccessTraps (.ldg f) f (loadAccess .global (.ldg f) f) (fun s x e => s.laneAddrs x (.ldg f) f e) ∧
    AccessTraps (.lds f) f (loadAccess .spad (.lds f) f) (fun s x e => s.laneAddrs x (.lds f) f e) ∧
    AccessTraps (.ldx f) f (loadAccess .remote (.ldx f) f) (fun s x e => s.laneAddrs x (.ldx f) f e) ∧
    AccessTraps (.ldb f) f (loadAccess .global (.ldb f) f) (fun s x e => s.strideAddrs x (.ldb f) f e) ∧
    AccessTraps (.exld f) f (loadAccess .global (.exld f) f) (fun s x e => s.rankAddrs x (.exld f) f e) ∧
    AccessTraps (.ldc f) f (ldcAccess f) (oneAddr (.ldc f) f) ∧
    AccessTraps (.stg f) f (storeAccess .global (.stg f) f) (fun s x e => s.laneAddrs x (.stg f) f e) ∧
    AccessTraps (.sts f) f (storeAccess .spad (.sts f) f) (fun s x e => s.laneAddrs x (.sts f) f e) ∧
    AccessTraps (.stx f) f (storeAccess .remote (.stx f) f) (fun s x e => s.laneAddrs x (.stx f) f e) ∧
    AccessTraps (.stb f) f (storeAccess .global (.stb f) f) (fun s x e => s.strideAddrs x (.stb f) f e) ∧
    AccessTraps (.cstg f) f (storeAccess .global (.cstg f) f) (fun s x e => s.rankAddrs x (.cstg f) f e) ∧
    AccessTraps (.atomg f) f (atomicAccess .global true (.atomg f) f) (fun s x e => s.laneAddrs x (.atomg f) f e) ∧
    AccessTraps (.atoms f) f (atomicAccess .spad true (.atoms f) f) (fun s x e => s.laneAddrs x (.atoms f) f e) ∧
    AccessTraps (.atomx f) f (atomicAccess .remote true (.atomx f) f) (fun s x e => s.laneAddrs x (.atomx f) f e) ∧
    AccessTraps (.redg f) f (atomicAccess .global false (.redg f) f) (fun s x e => s.laneAddrs x (.redg f) f e) ∧
    AccessTraps (.reds f) f (atomicAccess .spad false (.reds f) f) (fun s x e => s.laneAddrs x (.reds f) f e) ∧
    AccessTraps (.xred f) f (xredAccess f) (fun s x e => s.laneAddrs x (.xred f) f e) ∧
    AccessTraps (.xrd f) f (xrdAccess f) (fun s x e => s.laneAddrs x (.xrd f) f e) ∧
    AccessTraps (.syacq f) f (wordAcc (.syacq f) f .global ⟨true, false, false⟩ 0 (sclDsts f)) (oneAddr (.syacq f) f) ∧
    AccessTraps (.syrel f) f (wordAcc (.syrel f) f .global ⟨false, true, false⟩ 1 []) (oneAddr (.syrel f) f) ∧
    AccessTraps (.sybind f) f (wordAcc (.sybind f) f .global ⟨true, false, false⟩ 2 []) (oneAddr (.sybind f) f) ∧
    AccessTraps (.mwatch f) f (wordAcc (.mwatch f) f (if f.scope = 1 then .spad else .global) ⟨true, false, false⟩ 0 (sclDsts f))
      (oneAddr (.mwatch f) f)

/-! Synchronisation. -/

/-- BAR and BARC hold their wave (R218, R219, R194). While a wave of the workgroup has not arrived, the wave has arrived and waits;
as the last it completes the barrier: its hold is over with 1 outside deterministic mode, those of the other arrived waves with
0 (R220), and a new group-register phase begins (R33). BARC without a cluster-bound group does the same among its own waves. -/
def Obligations.BarriersHold : Prop :=
  (∀ f s x, s.performs (.bar f) f.g x → s.readable x [] (sclDsts f) → (∀ o ∈ x.wave.ll, o.grp = none) →
    x.wave.waveId ∉ x.wg.bar → ∃ t y, exec (.bar f) s = .next t ∧ t.wave? x.w = some y ∧ y.retired = x.wave.retired ∧
      y.clause = some x.cl ∧ (t.seq (seqOfWave x.w)).active ≠ some x.w ∧
      ((∃ k ∈ x.wg.ids, k ≠ x.wave.waveId ∧ k ∉ x.wg.bar) →
        y.hold = some ⟨.bar f, x.exec f.g, 0, 0, false, false⟩ ∧ t.wg? x.wave.wg = some { x.wg with bar := x.wg.bar ++ [x.wave.waveId] }) ∧
      ((∀ k ∈ x.wg.ids, k = x.wave.waveId ∨ k ∈ x.wg.bar) → x.wg.key? x.wave.waveId = some x.w → x.wg.det = false →
        y.hold = some ⟨.bar f, x.exec f.g, 1, 0, true, false⟩ ∧
        t.wg? x.wave.wg = some { x.wg with bar := [], claims := List.replicate 32 none } ∧
        ∀ k v z h, k ∈ x.wg.bar → x.wg.key? k = some v → v ≠ x.w → s.wave? v = some z → z.hold = some h →
          ∃ z', t.wave? v = some z' ∧ z'.hold = some { h with done := true, arg := 0 })) ∧
  ∀ f s x, s.performs (.barc f) f.g x → s.readable x [] (sclDsts f) → (∀ o ∈ x.wave.ll, o.grp = none) →
    (∀ a ∈ x.wg.barc, a.1 ≠ x.wave.waveId) →
    (x.wg.task = true ∨ ∀ l, s.launch? x.wg.launch = some l → recHasCluster l.record = false) →
    ∃ t y, exec (.barc f) s = .next t ∧ t.wave? x.w = some y ∧ y.retired = x.wave.retired ∧ y.clause = some x.cl ∧
      ((∃ k ∈ x.wg.ids, k ≠ x.wave.waveId ∧ ∀ a ∈ x.wg.barc, a.1 ≠ k) →
        y.hold = some ⟨.barc f, x.exec f.g, 0, 0, false, false⟩ ∧
        t.wg? x.wave.wg = some { x.wg with barc := x.wg.barc ++ [(x.wave.waveId, s.tick)] }) ∧
      ((∀ k ∈ x.wg.ids, k = x.wave.waveId ∨ ∃ a ∈ x.wg.barc, a.1 = k) → x.wg.key? x.wave.waveId = some x.w →
        (∃ h, y.hold = some h ∧ h.instr = .barc f ∧ h.done = true) ∧ t.wg? x.wave.wg = some { x.wg with barc := [] })

/-- FENCE performs the wave's earlier writes at its scope and retires once its accesses are complete, and holds the wave until then
(R221). SYACQ acquires and SYREL releases the word of an object over its bound ranges (R222); SYBIND sets or clears a range
slot (R223). -/
def Obligations.FencesAndObjects : Prop :=
  (∀ f s x, s.performs (.fence f) f.g x → s.readable x [] [] →
    (x.wave.quiet = true → RetiresFrom (.fence f) s (s.perform x.core f.scope.toNat fun _ => true) x x.wave [] []) ∧
    (x.wave.quiet = false → ∃ t, exec (.fence f) s = .next t ∧ s.heldAt t x ⟨.fence f, x.exec f.g, 0, 0, false, false⟩)) ∧
  ∀ f,
    AccessRetires (.syacq f) f (wordAcc (.syacq f) f .global ⟨true, false, false⟩ 0 (sclDsts f)) (oneAddr (.syacq f) f)
      (fun x e => x.addrRels (.syacq f) f e) (wordsGood f) (syacqWork f) ∧
    AccessRetires (.syrel f) f (wordAcc (.syrel f) f .global ⟨false, true, false⟩ 1 []) (oneAddr (.syrel f) f)
      (fun x e => x.addrRels (.syrel f) f e ++ Issue.sclRels f 1) (fun _ _ _ _ => True) (syrelWork f) ∧
    AccessRetires (.sybind f) f (wordAcc (.sybind f) f .global ⟨true, false, false⟩ 2 []) (oneAddr (.sybind f) f)
      (fun x e => x.addrRels (.sybind f) f e ++ Issue.sclRels f 2) (sybindOk f) (sybindWork f)

/-- MWATCH reads a word and watches it (R224). MWAIT retires at once where nothing is watched, or where the word, read as a load reads
it (R277), already differs from sD, which it then writes; else it holds its wave (R225). A word with uncorrectable data raises
UNCORRECTABLE at the MWAIT, which is the model's choice (log 18). -/
def Obligations.WatchedWords : Prop :=
  (∀ f, AccessRetires (.mwatch f) f
    (wordAcc (.mwatch f) f (if f.scope = 1 then .spad else .global) ⟨true, false, false⟩ 0 (sclDsts f)) (oneAddr (.mwatch f) f)
    (fun x e => x.addrRels (.mwatch f) f e) (wordsGood f) (mwatchWork f)) ∧
  ∀ f s x, s.performs (.mwait f) f.g x →
    let e := x.exec f.g
    let rels := x.addrRels (.mwait f) f e
    s.readable x (Issue.sclReads f 1 e ++ x.addrReads (.mwait f) f e) (sclDsts f) → x.wave.hold = none →
    (x.wave.watch = none → Retires (.mwait f) s x rels [] 0) ∧
    (∀ a, x.wave.watch = some a →
      let u := s.settleWatch x
      let v := u.watchLook x.core x.wg a
      (u.watchBad x.core x.wg a = true → exec (.mwait f) s = .next (u.raiseTrap x 6 a.addr e 0)) ∧
      (u.watchBad x.core x.wg a = false → v ≠ s.sreg x f.data.toNat → ∃ t, exec (.mwait f) s = .next t ∧
        let y : Wave := { x.wave with watch := some { a with last := v } }
        (u.setWave x.w y).retired t { x with wave := y } rels (sclPuts f v.toNat) (u.watchAcquire x a) ∧ t.wentOn x) ∧
      (u.watchBad x.core x.wg a = false → v = s.sreg x f.data.toNat → ∃ t, exec (.mwait f) s = .next t ∧ u.heldAt t x ⟨.mwait f, e, v, 0, false, false⟩))

/-- WAITTL (R226): a timeline that is not bound to the context raises PROTECTION; a fault at or below the number raises
ENGINE_FAULT with it; a timeline that has reached the number lets the instruction retire; another one holds the wave. -/
def Obligations.TimelineWaits : Prop :=
  ∀ f s x, s.performs (.waittl f) f.g x →
    let e := x.exec f.g
    let l := s.timeline (x.waitLine f)
    let n := s.waitNumber x f
    s.readable x (x.addrReads (.waittl f) f e) [] →
    (l.bound ≠ some x.wg.ctx → exec (.waittl f) s = .next (s.raiseTrap x 5 0 e 0)) ∧
    (l.bound = some x.wg.ctx →
      (∀ st k a, l.fault = some (st, k, a) → k ≤ n →
        exec (.waittl f) s = .next (s.raiseTrap x 0x0F (BitVec.ofNat 64 k) e 0)) ∧
      ((∀ st k a, l.fault = some (st, k, a) → n < k) →
        (n ≤ l.done → Retires (.waittl f) s x (x.addrRels (.waittl f) f e) [] 0) ∧
        (l.done < n → ∃ t, exec (.waittl f) s = .next t ∧ s.heldAt t x ⟨.waittl f, e, 0, 0, false, false⟩)))

/-- ORDW and ORDA (R227, R228): before the counter reaches the ticket the wave is held; a status of 1 without a destination raises
ABANDONED_TICKET; else the status is written and the mark consumed, and ORDA at its own ticket performs the wave's writes at its
scope and passes the ticket on. -/
def Obligations.OrderedTickets : Prop :=
  ∀ (adv : Bool) f s x,
    let i : Instr := if adv then .orda f else .ordw f
    s.performs i f.g x → s.readable x [] (sclDsts f) → x.wave.hold = none →
    (s.ticketStatus x.wg = none → ∃ t, exec i s = .next t ∧ s.heldAt t x ⟨i, x.exec f.g, 0, 0, false, false⟩) ∧
    (s.ticketStatus x.wg = some 1 → dstOf f = none → exec i s = .next (s.raiseTrap x 0x10 0 (x.exec f.g) 0)) ∧
    ∀ k, s.ticketStatus x.wg = some k → (k = 1 → dstOf f ≠ none) →
      let u := if k = 1 then s.updLaunch x.wg.launch fun l => { l with mark := false } else s
      let g : Wg := if adv = true ∧ k ≤ 1 then { x.wg with ticket := true } else x.wg
      let v := if adv = true ∧ k ≤ 1 then
        ((u.perform x.core f.scope.toNat fun _ => true).setWg x.wave.wg g).passTicket x.wg.launch false else u
      ∃ t, exec i s = .next t ∧ v.retired t { x with wg := g } [] (sclPuts f k) 0 ∧ t.wentOn x

/-- WAITQ (R230): a root that is not granted or not open gives status 3 at once; an open root holds the wave until its outstanding
weight is 0, and with none the hold is already over. A wave that holds weight in the root first performs its writes at the root's scope
and returns it all: an open root's O falls by it, and one that would fall below 0 stays at 0 with ERR; one that is not open counts it as
late (R230, R292, R338). QOPEN opens a granted, closed root with the wave's weight and gives 0, or its
status 3, 2 or 1 (R229, R328). QCLOSE closes a root without outstanding weight, or gives 3, 2 or 1 (R231, R328). -/
def Obligations.RootOperations : Prop :=
  (∀ f s x, s.performs (.waitq f) f.g x →
    let d := s.opnd x .n32 f.base 0
    let e := x.exec f.g
    s.readable x (x.addrReads (.waitq f) f e) (sclDsts f) → (∀ a, x.wave.weight = some a → a.root ≠ d) →
    ((s.rootGranted d x.wg.ctx && (s.root d).isOpen) = false → Retires (.waitq f) s x (x.addrRels (.waitq f) f e) (sclPuts f 3) 0) ∧
    ((s.rootGranted d x.wg.ctx && (s.root d).isOpen) = true →
      ((s.root d).o ≠ 0 → ∃ t, exec (.waitq f) s = .next t ∧ s.heldAt t x ⟨.waitq f, e, BitVec.ofNat 64 d, 0, false, false⟩) ∧
      ((s.root d).o = 0 → d < 2 ^ 64 → ∃ t y h, exec (.waitq f) s = .next t ∧ t.wave? x.w = some y ∧ y.hold = some h ∧
        h.instr = .waitq f ∧ h.done = true ∧ h.arg.toNat % 256 = (s.root d).status ∧ y.retired = x.wave.retired))) ∧
  (∀ f s x a, s.performs (.waitq f) f.g x →
    let d := s.opnd x .n32 f.base 0
    let e := x.exec f.g
    let u := s.returnOwn x d
    let y : Wave := { x.wave with weight := none }
    s.readable x (x.addrReads (.waitq f) f e) (sclDsts f) → x.wave.weight = some a → a.root = d → x.wave.hold = none →
    u.wave? x.w = some y ∧ u.mem = (s.perform x.core (s.root d).scope fun _ => true).mem ∧
    ((∀ b ∈ s.qd.borrows, b.root ≠ d) → (∀ r ∈ s.qd.returns, r.root ≠ d) →
      ((s.root d).isOpen = false → u.root d = { s.root d with late := true, discard := (s.root d).discard + 1 }) ∧
      ((s.root d).isOpen = true → (u.root d).isOpen = true ∧ (u.root d).o = (s.root d).o - a.w ∧
        (u.root d).err = ((s.root d).err || decide ((s.root d).o < a.w)))) ∧
    ((s.rootGranted d x.wg.ctx && (s.root d).isOpen) = false →
      RetiresFrom (.waitq f) s u x y (x.addrRels (.waitq f) f e) (sclPuts f 3)) ∧
    ((s.rootGranted d x.wg.ctx && (s.root d).isOpen) = true → d < 2 ^ 64 → ∃ t z h, exec (.waitq f) s = .next t ∧
      t.root d = u.root d ∧ t.wave? x.w = some z ∧ z.weight = none ∧ z.retired = x.wave.retired ∧ z.hold = some h ∧
      h.instr = .waitq f ∧ (h.done = true ↔ (u.root d).o = 0) ∧ (h.done = true → h.arg.toNat % 256 = (u.root d).status))) ∧
  (∀ f s x, s.performs (.qopen f) f.g x →
    let d := s.opnd x .n32 f.base 0
    let w := s.opnd x .n64 f.index 0
    let rels := x.addrRels (.qopen f) f (x.exec f.g)
    s.readable x (x.addrReads (.qopen f) f (x.exec f.g)) (sclDsts f) →
    (s.rootGranted d x.wg.ctx = false ∨ 2 ^ 62 < w → Retires (.qopen f) s x rels (sclPuts f 3) 0) ∧
    (s.rootGranted d x.wg.ctx = true → w ≤ 2 ^ 62 →
      (x.wave.weight ≠ none → Retires (.qopen f) s x rels (sclPuts f 2) 0) ∧
      (x.wave.weight = none → ((s.root d).isOpen = true → Retires (.qopen f) s x rels (sclPuts f 1) 0) ∧
        ((s.root d).isOpen = false →
          let o := if w = 0 then 2 ^ 62 else w
          RetiresFrom (.qopen f) s (s.setRoot d { s.root d with
              isOpen := true, o := o, scope := f.scope.toNat, place := s.placeOf x.core, abort := false, err := (s.root d).late
              late := false, foreign := false }) x { x.wave with weight := some ⟨d, o⟩ } rels (sclPuts f 0))))) ∧
  ∀ f s x, s.performs (.qclose f) f.g x →
    let d := s.opnd x .n32 f.base 0
    let rels := x.addrRels (.qclose f) f (x.exec f.g)
    s.readable x (x.addrReads (.qclose f) f (x.exec f.g)) (sclDsts f) →
    (s.rootGranted d x.wg.ctx = false → Retires (.qclose f) s x rels (sclPuts f 3) 0) ∧
    (s.rootGranted d x.wg.ctx = true →
      ((s.root d).isOpen = false → Retires (.qclose f) s x rels (sclPuts f 2) 0) ∧
      ((s.root d).isOpen = true → ((s.root d).o ≠ 0 → Retires (.qclose f) s x rels (sclPuts f 1) 0) ∧
        ((s.root d).o = 0 →
          RetiresFrom (.qclose f) s (s.setRoot d { s.root d with isOpen := false, abort := false, err := false, foreign := false })
            x x.wave rels (sclPuts f 0))))

/-! Engines. -/

/-- With its way clear, a copy or fabric instruction takes the next number of its timeline and half of the wave's weight (R236, R241,
R333); a tile operation takes its number and the accumulator that it names, and with RB its readback waits (R262, R274); each
retires. -/
def Obligations.EnginesIssue : Prop :=
  (∀ f, Copies (.acopy f) f 5 false ∧ Copies (.acopys f) f 7 false ∧ Copies (.afill f) f 5 false ∧ Copies (.fsend f) f 5 true ∧
    Copies (.fget f) f 5 true) ∧
  ∀ f, TileIssues (.oload f) f false (fun s x e => s.oloadPlan x e f) ∧
    TileIssues (.ogath f) f false (fun s x e => s.ogathPlan x e f) ∧
    TileIssues (.mma f) f false (fun s x e => s.mmaPlan x e f false) ∧
    TileIssues (.mmab f) f false (fun s x e => s.mmaPlan x e f true) ∧
    TileIssues (.mzero f) f false (fun s x _ => s.mzeroPlan x f) ∧
    TileIssues (.mdrain f) f true (fun s x e => s.mdrainPlan x e f)

/-- With its way clear, SPAWN takes the next number of its timeline, half of the wave's weight goes to the task, whose item is on its
way, and the instruction retires (R241, R249, R251); in deterministic mode it stalls until a round boundary admits the task
(R393). TLRD gives the timeline's word that it names and retires, and clears the fault record where asked (R257). -/
def Obligations.SpawnAndTlrd : Prop :=
  (∀ f s x, s.performs (.spawn f) f.g x →
    let e := x.exec f.g
    let leaves := if s.staticPlace x.wg then [dispatchLeaf x.core] else List.range 192
    s.engineClear x (blockReads f (List.range 4) e) (retDsts f)
      (s.tableChecks x f leaves ++ spawnChecks (s.blk x f 0) (s.blk x f 1) x.wg.depth) (s.spawnStall x f) →
    (x.wg.det = false →
      let r := s.spawnStart x e f
      let u := r.1.pushTask r.2.1
      let y : Wave := { x.wave with weight := (splitWeight x.wave.weight).1 }
      ∃ t, exec (.spawn f) s = .next t ∧ s.queuedOnly u x.w ∧ s.numbered u x (.spawn f) f e ∧
        (∃ j k, u.item? j = some k ∧ k.kind = .task s.uid ∧ k.weight = (splitWeight x.wave.weight).2) ∧
        u.retired t { x with wave := y } (blockRels f 4) (retPuts f ((s.timeline (x.lineOf f)).issued + 1)) 0 ∧ t.wentOn x) ∧
    (x.wg.det = true → ∃ t y, exec (.spawn f) s = .next t ∧ t.wave? x.w = some y ∧ y.retired = x.wave.retired ∧
      y.clause = some x.cl ∧ (∃ k, y.stall = some k ∧ k.det = some (f, e, 0)) ∧ t.ops = s.ops)) ∧
  ∀ f s x, s.performs (.tlrd f) f.g x →
    s.engineClear x [] [(.scl, f.blk.toNat)] [s.lineCheck x f] none →
    let l := s.timeline (x.lineOf f)
    let u := if f.imm = 1 then s.setTimeline (x.lineOf f) { l with fault := none } else s
    let v : DWord := match f.aux.toNat % 4 with
      | 0 => BitVec.ofNat 64 l.done
      | 1 => BitVec.ofNat 64 l.issued
      | 2 => BitVec.ofNat 64 l.statusWord
      | _ => l.addrWord
    ∃ t, exec (.tlrd f) s = .next t ∧ u.retired t x [] [.scl f.blk.toNat v] 0 ∧ t.wentOn x

/-- ORES gives the status of R259, makes the record and zeroes its range where that is 0, and retires; without RET any other status
raises its trap. The status is 3 for a descriptor that breaks R258, else 1 where the record is valid, else 2 where the range meets that
of a record, even a released one that tile operations keep (R259, R260). OREL releases the workgroup's record and retires (R260). -/
def Obligations.RecordsReserveAndRelease : Prop :=
  (∀ f s x, s.performs (.ores f) f.g x →
    let k := f.imm.toNat % 16
    let desc := s.sreg x f.blk.toNat
    let st := s.oresStatus x.core k desc
    s.engineClear x (blockReads f [0] (x.exec f.g)) (retDsts f) [⟨st != 0 && (retOf f).isNone, oresCause st, 0⟩] none →
    ∃ t, exec (.ores f) s = .next t ∧
      (if st = 0 then s.reserve x k desc else s).retired t x (blockRels f 1) (retPuts f st) 0 ∧ t.wentOn x) ∧
  (∀ (s : State) core k (desc : DWord),
    let st := s.oresStatus core k desc
    let n := desc.toNat
    let base (w : Nat) : Nat := w % 2 ^ 14 * 16
    let len (w : Nat) : Nat := w / 2 ^ 14 % 2 ^ 15 * 16
    let fmt := n / 2 ^ 29 % 16
    let scales := n / 2 ^ 48 % 4
    let legal : Prop := 0 < len n ∧ base n + len n ≤ 2 ^ 18 ∧ fmt ≤ 8 ∧ n / 2 ^ 34 % 2 ^ 14 * 16 < len n ∧
      (scales = 0 ∨ (scales = 1 ∧ 2 ≤ fmt ∧ fmt ≤ 4)) ∧ n < 2 ^ 50
    let valid : Prop := ∃ r, tget (s.core core).obs k = some r ∧ r.valid = true
    let meets : Prop := ∃ p ∈ (s.core core).obs, base p.2.word.toNat < base n + len n ∧ base n < base p.2.word.toNat + len p.2.word.toNat
    (¬legal → st = 3) ∧ (legal → valid → st = 1) ∧ (legal → ¬valid → meets → st = 2) ∧ (legal → ¬valid → ¬meets → st = 0)) ∧
  (∀ (s : State) (x : Issue) (k : Nat) (desc : DWord), (tget ((s.reserve x k desc).core x.core).obs k).any (fun r => r.valid && r.wg == x.wave.wg) = true ∧
    ∀ a, (obBase desc ≤ a → a < obBase desc + obLen desc → cellGet ((s.reserve x k desc).core x.core).obuf a = 0) ∧
      (a < obBase desc ∨ obBase desc + obLen desc ≤ a →
        cellGet ((s.reserve x k desc).core x.core).obuf a = cellGet (s.core x.core).obuf a)) ∧
  ∀ f s x, s.performs (.orel f) f.g x →
    s.engineClear x [] [] [⟨s.foreignRecord x (f.imm.toNat % 16), 5, 0⟩] none →
    ∃ t, exec (.orel f) s = .next t ∧ (s.releaseRecord x.core (f.imm.toNat % 16)).retired t x [] [] 0 ∧ t.wentOn x

/-! Traps, memory and translation. -/

/-- An instruction of a wave that can take a trap enters the handler with every cause (R370). While another wave of the sequencer is
in its handler, a switch is asked (R377, R387) or a readback is outstanding, the trap is queued with its lanes in a TRAPPED entry (R45);
that a readback queues it, and that a wave that waits for one still goes before higher slots, is the model's choice (log 44). Of the
waves that could enter, the lowest slot is the next (R45); on a deterministic core the rotation decides (R390). RELEASED_READ comes before
every other condition of an instruction that reads a released lane outside a handler with RELREAD enabled (R53), and ARITH from the
enabled bits of a result (R44); accesses by lanes have theirs in AccessesTrap. -/
def Obligations.TrapsEnter : Prop :=
  (∀ (s : State) (x : Issue) cause addr mask, s.issue? = some x →
    (s.canTrap x → s.inHandler (s.raiseTrap x cause addr mask 0) x cause addr mask) ∧
    (x.cl.handler = false →
      ((s.seq (seqOfWave x.w)).owner ≠ none ∨ (s.noneQueued x ∧ (x.wg.switching = true ∨ x.wave.readback = true))) →
      ∃ y, (s.raiseTrap x cause addr mask 0).wave? x.w = some y ∧ y.inTrap = x.wave.inTrap ∧ y.clause = none ∧
        y.queued = some ⟨cause, x.cl.pc, x.cl.index, addr, mask⟩ ∧ y.retired = x.wave.retired ∧
        ∃ e ∈ y.frontier, e.st = .trapped ∧ e.pc = x.cl.pc ∧ e.index = x.cl.index ∧ e.mask = x.cl.lanes)) ∧
  (∀ (s : State) q w, (s.core (q / 4)).rota = [] → s.nextQueued q = some w →
    seqOfWave w = q ∧ (∃ x, (w, x) ∈ s.waves ∧ s.couldEnter x = true) ∧
    ∀ p ∈ s.waves, seqOfWave p.1 = q → s.couldEnter p.2 = true → w ≤ p.1) ∧
  (AluTraps .iadd aluIadd ∧ AluTraps .isub aluIsub ∧ AluTraps .imul aluImul ∧ AluTraps .imulh aluImulh ∧ AluTraps .imad aluImad ∧
    AluTraps .iabs aluIabs ∧ AluTraps .ineg aluIneg ∧ AluTraps .imin aluMin ∧ AluTraps .imax aluMax ∧ AluTraps .nmin aluMin ∧
    AluTraps .nmax aluMax ∧ AluTraps .iaddc aluIaddc ∧ AluTraps .isubb aluIsubb ∧ AluTraps .lea aluLea ∧ AluTraps .mov aluMov ∧
    AluTraps .and aluAnd ∧ AluTraps .or aluOr ∧ AluTraps .xor aluXor ∧ AluTraps .andn aluAndn ∧ AluTraps .not aluNot ∧
    AluTraps .bmix aluBmix ∧ AluTraps .shl aluShl ∧ AluTraps .shr aluShr ∧ AluTraps .sar aluSar ∧ AluTraps .rol aluRol ∧
    AluTraps .popc aluPopc ∧ AluTraps .clz aluClz ∧ AluTraps .brev aluBrev ∧ AluTraps .bfe aluBfe ∧ AluTraps .bfi aluBfi ∧
    AluTraps .bperm aluBperm) ∧
  (AluTraps .fadd aluFadd ∧ AluTraps .fsub aluFsub ∧ AluTraps .fmul aluFmul ∧ AluTraps .ffma aluFfma ∧ AluTraps .fmin aluFmin ∧
    AluTraps .fmax aluFmax ∧ AluTraps .fabs aluFabs ∧ AluTraps .fneg aluFneg ∧ AluTraps .frnd aluFrnd ∧
    AluTraps .fclass aluFclass ∧ AluTraps .cvt aluCvt ∧ AluTraps .cvtsr aluCvtsr ∧ AluTraps .fdot2 aluFdot2 ∧
    AluTraps .frcp aluFrcp ∧ AluTraps .frsq aluFrsq ∧ AluTraps .fsqrt aluFsqrt ∧ AluTraps .fexp2 aluFexp2 ∧
    AluTraps .flog2 aluFlog2 ∧ AluTraps .fsincos aluFsincos ∧ AluTraps .icmp aluCmp ∧ AluTraps .ncmp aluCmp ∧
    AluTraps .fcmp aluFcmp) ∧
  (∀ f, VrTraps (.qamax f) f (planQamax f) ∧ VrTraps (.qpack f) f (planQpack f) ∧ VrTraps (.qunpk f) f (planQunpk f) ∧
    VrTraps (.sel f) f (planSel f) ∧ VrTraps (.plop f) f (planPlop f) ∧ VrTraps (.pmov f) f (planPmov f) ∧
    VrTraps (.ballot f) f (planBallot f) ∧ VrTraps (.lrank f) f (planLrank f) ∧ VrTraps (.shfl f) f (planShfl f) ∧
    VrTraps (.bcast f) f (planBcast f) ∧ VrTraps (.rdlane f) f (planRdlane f) ∧ VrTraps (.wrlane f) f (planWrlane f) ∧
    VrTraps (.reduce f) f (planReduce f) ∧ VrTraps (.scan f) f (planScan f) ∧ VrTraps (.compress f) f (planCompress f) ∧
    VrTraps (.expand f) f (planExpand f) ∧ VrTraps (.active f) f (planActive f)) ∧
  (∀ f, ReleasedTraps (.wrsr f) f.g (fun _ x e => x.srcReads .n64 f.a e) (fun _ _ _ => []) ∧
    ReleasedTraps (.gwr f) f.g (fun _ x e =>
      if f.a.kind = .vec then x.vecReads f.a.num.toNat 1 (maskOf fun l => l == f.imm.toNat % 32) ((lanesIn e).map fun l => (l, f.imm.toNat % 32))
      else x.srcReads .n64 f.a e) (fun _ _ _ => [])) ∧
  (∀ f, ReleasedTraps (.brx f) f.g (fun _ x e => x.vecReads f.link.toNat 2 e []) (fun _ _ _ => []) ∧
    ReleasedTraps (.ret f) f.g (fun _ x e => x.vecReads f.link.toNat 2 e []) (fun _ _ _ => [])) ∧
  (∀ f, ReleasedTraps (.halloc f) f.g (fun _ x e => x.addrReads (.halloc f) f e) (fun _ _ _ => dataRegs f.data.toNat 2) ∧
    ReleasedTraps (.hfree f) f.g (fun _ x e => x.addrReads (.hfree f) f e ++ x.dataReads f.data.toNat 2 e) (fun _ _ _ => []) ∧
    ReleasedTraps (.mwait f) f.g (fun _ x e => Issue.sclReads f 1 e ++ x.addrReads (.mwait f) f e) (fun _ _ _ => sclDsts f) ∧
    ReleasedTraps (.waittl f) f.g (fun _ x e => x.addrReads (.waittl f) f e) (fun _ _ _ => []) ∧
    ReleasedTraps (.waitq f) f.g (fun _ x e => x.addrReads (.waitq f) f e) (fun _ _ _ => sclDsts f) ∧
    ReleasedTraps (.qopen f) f.g (fun _ x e => x.addrReads (.qopen f) f e) (fun _ _ _ => sclDsts f) ∧
    ReleasedTraps (.qclose f) f.g (fun _ x e => x.addrReads (.qclose f) f e) (fun _ _ _ => sclDsts f)) ∧
  ∀ f : E, ReleasedTraps (.acopy f) f.g (fun _ _ e => copyReads f 5 e) (fun _ _ _ => retDsts f) ∧
    ReleasedTraps (.acopys f) f.g (fun _ _ e => copyReads f 7 e) (fun _ _ _ => retDsts f) ∧
    ReleasedTraps (.afill f) f.g (fun _ _ e => copyReads f 5 e) (fun _ _ _ => retDsts f) ∧
    ReleasedTraps (.fsend f) f.g (fun _ _ e => copyReads f 5 e) (fun _ _ _ => retDsts f) ∧
    ReleasedTraps (.fget f) f.g (fun _ _ e => copyReads f 5 e) (fun _ _ _ => retDsts f) ∧
    ReleasedTraps (.spawn f) f.g (fun _ _ e => blockReads f (List.range 4) e) (fun _ _ _ => retDsts f) ∧
    ReleasedTraps (.ores f) f.g (fun _ _ e => blockReads f [0] e) (fun _ _ _ => retDsts f) ∧
    ReleasedTraps (.oload f) f.g (fun s x e => (s.oloadPlan x e f).reads) (fun _ _ _ => retDsts f) ∧
    ReleasedTraps (.ogath f) f.g (fun s x e => (s.ogathPlan x e f).reads) (fun _ _ _ => retDsts f) ∧
    ReleasedTraps (.mma f) f.g (fun s x e => (s.mmaPlan x e f false).reads) (fun _ _ _ => retDsts f) ∧
    ReleasedTraps (.mmab f) f.g (fun s x e => (s.mmaPlan x e f true).reads) (fun _ _ _ => retDsts f) ∧
    ReleasedTraps (.mdrain f) f.g (fun s x e => (s.mdrainPlan x e f).reads) (fun _ _ _ => retDsts f)

/-- A trap in a handler, or one of a context without a handler, kills the workgroup: every wave of it ends, it is gone, and
CTX_KILL says why (R374). -/
def Obligations.DoubleTrapsKill : Prop :=
  ∀ (s : State) (x : Issue) cause addr mask, s.issue? = some x → x.w ∈ x.wg.keys →
    (x.cl.handler = true ∨
      (trapPresent (s.ctx x.wg.ctx).trap = false ∧ s.noneQueued x ∧ (s.seq (seqOfWave x.w)).owner = none ∧
        x.wg.switching = false ∧ x.wave.readback = false)) →
    (∀ w ∈ x.wg.keys, (s.raiseTrap x cause addr mask 0).wave? w = none) ∧ (s.raiseTrap x cause addr mask 0).wg? x.wave.wg = none ∧
    ((s.raiseTrap x cause addr mask 0).ctx x.wg.ctx).kill = killRecord x.wg.wgid cause true false

/-- What a core stores at any scope it reads back at any scope, and at SYSTEM scope everyone does, where no byte is absent (R277, R347);
bytes of other blocks, of 16 bytes or of those in which narrow bytes are performed as one (R216, R351), read as before to every core at
every scope. A scratchpad byte reads as last written (R195). -/
def Obligations.MemoryReadsBack : Prop :=
  (∀ (s : State) a k j va pa n v, (∀ i, i < n → s.absentAt (pa + i) = false) →
    ((s.storeNat a k va pa n v).loadNat a.core j pa n).2 = v % 256 ^ n ∧
    (4 ≤ k → ∀ c j, (s.storeNat a k va pa n v).peekNat c j pa n = v % 256 ^ n)) ∧
  (∀ (s : State) a k va pa n v c j b, 0 < n → s.apart pa n b →
    (s.storeNat a k va pa n v).peek c j b = s.peek c j b ∧ ((s.loadNat a.core k pa n).1).peek c j b = s.peek c j b) ∧
  ∀ (m : List Host.Cell) a n v, cellsNat (cellsPut m a n v) a n = v % 256 ^ n ∧
    ∀ b, b < a ∨ a + n ≤ b → cellGet (cellsPut m a n v) b = cellGet m b

/-- The frame of stores and loads (R206): a store without a release changes no scratchpad byte but those at its lanes' locations, and
no byte of memory outside their blocks, of 16 bytes or of those in which narrow bytes are performed as one, as any core reads it at any
scope; a load changes no byte at all outside the blocks that it reads, and no scratchpad. -/
def Obligations.AccessesFrame : Prop :=
  ∀ (f : M) (s : State) x e t (l : List LaneLoc), f.width.toNat < 7 →
    let n := widthBytes f.width.toNat
    let apart (b : Nat) : Prop := ∃ k, 16 ∣ k ∧ (∀ c ∈ t.mem.narrow, max 16 c.span ∣ k) ∧
      ∀ p ∈ l, ∀ pa u, p.loc = .mem pa u → ∀ i, i < n → (pa + i) / k ≠ b / k
    (f.order.toNat < 2 →
      (∀ c j b, apart b → (storeWork f s x e t l).data.peek c j b = t.peek c j b) ∧
      ∀ c b, (∀ p ∈ l, ∀ off, p.loc = .spad c off → b < off ∨ off + n ≤ b) →
        cellGet ((storeWork f s x e t l).data.core c).spad b = cellGet (t.core c).spad b) ∧
    (∀ c j b, apart b → (loadWork f s x e t l).data.peek c j b = t.peek c j b) ∧
    ∀ c, ((loadWork f s x e t l).data.core c).spad = (t.core c).spad

/-- Translation (R195, R352 to R357, R410, R415, R422, R423). An address of 2^60 or more is refused; a domain address of another package
goes there, but not from a protected context. An access that is accepted stands under the leaf entry that the context's tables or its
TLBs give for the address: that of a cached translation of this context that covers it, with D set where the access writes, or the
leaf that the walk ends at, with A set, and D for a write, and cached. It grants the permissions that the access needs, is not on its
way to another package, and gives the physical address, which is in host memory or in local HBM whose frame the context may touch. The
walk goes from the root table by 12 and then 9 index bits a level through valid table entries to a valid leaf of a page size that its
level allows, which a protected context must own. -/
def Obligations.TranslationChecks : Prop :=
  (∀ (s : State) core c va need,
    (2 ^ 60 ≤ va → s.resolve core c va need = (s, .prot)) ∧
    (va < 2 ^ 60 → bitOf va 59 = true → bitsOf va 53 6 ≠ s.cmd.pkgId →
      s.resolve core c va need = (s, if (s.ctx c).ctl.bit 1 then .prot else .remote (bitsOf va 53 6) va)) ∧
    ∀ t pa u, s.resolve core c va need = (t, .ok pa u) → va < 2 ^ 60 ∧
      (∃ e size,
        ((∃ y, s.tlbHit core c va = some y ∧ y ∈ s.mem.tlb ∧ y.ctx = c ∧ y.va ≤ va ∧ va < y.va + y.size ∧ e = y.entry ∧
            size = y.size ∧ t = s ∧ (need.w = true → bitOf e 11 = true ∨ ∃ r, s.walk c va = .absent r)) ∨
          ∃ a w, s.walk c va = .leaf a w size ∧ e = w ||| (2 ^ 10 ||| if need.w then 2 ^ 11 else 0) ∧
            t = (s.touch a w need.w).1.cacheLeaf core c va size e ∧ ⟨false, core, c, va - va % size, size, e⟩ ∈ t.mem.tlb) ∧
        pa = bitsOf e 12 40 * 4096 + va % size ∧ (need.r = true → bitOf e 5 = true) ∧ (need.w = true → bitOf e 6 = true) ∧
        (need.x = true → bitOf e 7 = true) ∧ bitsOf e 52 2 ≠ 2 ∧ (need.w = true → bitsOf e 52 2 ≠ 1) ∧
        (u = true ↔ bitsOf e 8 2 = 1)) ∧
      (t.target pa = .host ∨ ∃ off, t.target pa = .hbm off ∧ t.frameAllows c pa = true)) ∧
  ∀ (s : State) c va a w size, s.walk c va = .leaf a w size →
    (s.ctx c).xlt.bit 0 = true ∧ w = s.sysNat a 8 ∧ bitOf w 0 = true ∧ bitOf w 1 = false ∧ size = (pageSize (bitsOf w 2 3)).1 ∧
    ((s.ctx c).ctl.bit 1 = true → s.ownsPage c (bitsOf w 12 40 * 4096) size = true) ∧
    ∃ (k : Nat) (table : Nat → Nat), k ≤ 2 ∧ malformed k w = false ∧ a = table k + 8 * bitsOf va (12 + 9 * k) 9 ∧
      table 4 = (s.ctx c).xlt.fld 15 37 * 2 ^ 15 ∧
      ∀ j, k ≤ j → j < 4 →
        let e := s.sysNat (table (j + 1) + 8 * bitsOf va (12 + 9 * (j + 1)) (if j = 3 then 12 else 9)) 8
        bitOf e 0 = true ∧ bitOf e 1 = true ∧ malformed (j + 1) e = false ∧ table j = bitsOf e 12 40 * 4096

/-! Events. Each takes place in the states that meet its condition; in any other an internal event is not enabled. -/

/-- The events of sequencers: a clause that issues under a legal header takes its entry and becomes the wave's clause (R22, R26); a
line that arrives holds the words that the L2 shows, or memory for an uncacheable page, and frees the sequencers frozen on it (R29, R77,
R349); YIELD's restriction ends once
its clocks have passed (R186); a deterministic core's turn goes to the next wave, which issues unless it is skipped, or its boundary
begins or ends (R390, R391), and a turn that is not over goes on first (log 79); the queued trap enters its handler (R45). -/
def Obligations.SequencerEvents : Prop :=
  (∀ q s w x g e h, s.canClauseIssue q = true → s.nextWave q = some w → s.wave? w = some x → s.wg? x.wg = some g →
    x.clause = none → (s.noted w g.ctx x).head? = some e → e.st = .ready → e.failed = false → x.ll = [] → x.due = [] →
    (s.seq (seqOfWave w)).fetchFail ≠ some e.pc → s.holdsWord (coreOfWave w) g.ctx e.pc h →
    hdrTagOk h = true → h.fld 0 6 = 0 → (∀ n ∈ [hdrSetA h, hdrSetB h], n < 12 ∨ 14 < n) → x.passes h e = true →
    ∃ t y, exec (.clauseIssue q) s = .next t ∧ t.wave? w = some y ∧ y.clause = some (clauseOf e h x.inTrap) ∧
      y.entries x.inTrap = ((s.noted w g.ctx x).entries x.inTrap).filter (fun a => a != e) ∧ y.retired = x.retired) ∧
  (∀ k c l s, s.canArrive k c l = true → ∃ t, exec (.icacheLineArrival k c l) s = .next t ∧ t.waves = s.waves ∧
    (∀ a, s.lineWords (k * 12) c l = some a →
      ⟨k, c, l, some a.words, a.bad, s.mem.icache.any fun b => b.isAt k c l && b.walked, a.once⟩ ∈ t.mem.icache) ∧
    ∀ q, (t.seq q).frozen = if (s.seq q).frozen = some (.line c l) ∧ clusterOfCore (q / 4) = k then none else (s.seq q).frozen) ∧
  (∀ w s x t, s.wave? w = some x → x.pause = some t → (s.coreClock (coreOfWave w) - t).msb = false →
    exec (.yieldRestrictionEnd w) s = .next (s.setWave w { x with pause := none })) ∧
  (∀ c s w, s.canDetTurn c = true → s.midTurn? c = some w → exec (.detTurn c) s = .next (s.issueClause w)) ∧
  (∀ c (s : State) w, s.canDetTurn c = true → s.midTurn? c = none → (s.core c).boundary = false → s.turnWave c = some w →
    let y := s.core c
    let u := s.setCore c (if y.rota.length ≤ y.pos + 1
      then { y with pos := 0, boundary := true, edge := false, turn := some (slotOfWave w) }
      else { y with pos := y.pos + 1, edge := false, turn := some (slotOfWave w) })
    (s.turnSkips w = true → exec (.detTurn c) s = .next u) ∧ (s.turnSkips w = false → exec (.detTurn c) s = .next ((u.openTurn w).issueClause w))) ∧
  (∀ c s, s.canDetTurn c = true → s.midTurn? c = none → (s.core c).boundary = false → s.turnWave c = none →
    exec (.detTurn c) s = .next (s.setCore c { s.core c with pos := 0, boundary := true, edge := false })) ∧
  (∀ c s, s.canDetTurn c = true → s.midTurn? c = none → (s.core c).boundary = true → s.boundaryStep c = .ended →
    (∀ w x, s.wave? w = some x → x.stall = none) →
    exec (.detTurn c) s = .next (s.setCore c { s.core c with boundary := false, edge := true })) ∧
  ∀ w s x g i, s.canTrapEntry w = true → s.wave? w = some x → s.wg? x.wg = some g → x.queued = some i →
    trapPresent (s.ctx g.ctx).trap = true →
    ∃ t y, exec (.trapEntry w) s = .next t ∧ t.wave? w = some y ∧ y.inTrap = true ∧ y.trap = i ∧ y.queued = none ∧ y.ll = [] ∧
      (t.seq (seqOfWave w)).owner = some w ∧ (t.seq (seqOfWave w)).bank = List.replicate 16 (List.replicate 32 0)

/-- The events of registers and results: a spill write that ends leaves the register SPILLED unless it has left its physical register
meanwhile, a fill that ends leaves the queue, and the pool serves on (R65, R67); a long-latency result that completes waits for its
flag's clause, or becomes visible at once (R38, R39); a held MWAIT ends with the current value, which it acquires where that has changed
(R225, R280), or in UNCORRECTABLE (log 18); a hold that is over ends with its result, and a held WAITTL looks at the fault record only
once its number is reached (R194, R226). -/
def Obligations.RegisterEvents : Prop :=
  (∀ c r s v, ((s.core c).pool r).spill = some v → ∃ u : State, exec (.spillWriteComplete c r) s = .next (u.serve c r) ∧
    ((u.core c).pool r).spill = none ∧
    ∀ x k, coreOfWave v.wave = c → s.wave? v.wave = some x → x.reg? r v.reg = some k →
      ∃ y, u.wave? v.wave = some y ∧
        y.reg? r v.reg = some { k with home := if k.home = .bank v.phys then .spilled false else k.home }) ∧
  (∀ c r s, ((s.core c).pool r).filling = true → exec (.fillComplete c r) s = .next (State.serve (s.setCore c
    ((s.core c).setPool r { (s.core c).pool r with filling := false, queue := ((s.core c).pool r).queue.drop 1 })) c r)) ∧
  (∀ w k s x o, s.wave? w = some x → x.ll[k]? = some o → o.done = false → o.op = none → x.hold = none →
    (o.flags ≠ [] → exec (.longLatencyComplete w k) s = .next (s.setWave w { x with ll := lset x.ll k { o with done := true } })) ∧
    (o.flags = [] → s.host.upsets = [] → o.poison = 0 → ∃ t y, exec (.longLatencyComplete w k) s = .next t ∧
      t.wave? w = some y ∧ y.sticky = x.sticky ||| o.sticky ∧ y.ll.length + 1 = x.ll.length ∧
      ∀ v l, o.writes = [v] → v.file = .vec → v.reg < 256 → l < 32 →
        y.readsAs .vec v.reg l = if v.mask.getLsbD l then laneOf v.lanes l else x.readsAs .vec v.reg l)) ∧
  (∀ w s x f h, s.issueOf w = some x → x.wave.hold = some h → h.instr = .mwait f → h.done = false → x.cl.lanes ≠ 0 →
    s.opnd x .n32 f.index 0 ≠ 0 →
    let u := s.settleWatch x
    let old := s.sreg x f.data.toNat
    let ends (y : Wave) (v : DWord) (st : Sticky) : Prop := ∃ t, exec (.mwaitTimeout w) s = .next t ∧
      (u.setWave x.w y).retired t { x with wave := y } (x.addrRels (.mwait f) f h.exec) (sclPuts f v.toNat) (st ||| h.sticky) ∧ t.wentOn x
    (x.wave.watch = none → ends { x.wave with hold := none } old 0) ∧
    ∀ a, x.wave.watch = some a →
      let v := u.watchLook x.core x.wg a
      (u.watchBad x.core x.wg a = true → exec (.mwaitTimeout w) s = .next (u.raiseTrap x 6 a.addr h.exec 0)) ∧
      (u.watchBad x.core x.wg a = false →
        ends { x.wave with hold := none, watch := some { a with last := v } } v (if v = old then 0 else u.watchAcquire x a))) ∧
  ∀ w s x h, s.issueOf w = some x → x.wave.hold = some h → x.cl.lanes ≠ 0 →
    let y : Wave := { x.wave with hold := none }
    (∀ f, h.instr = .bar f ∨ h.instr = .barc f → h.done = true → ∃ t, exec (.holdEnd w) s = .next t ∧
      (s.setWave x.w y).retired t { x with wave := y } [] (sclPuts f h.arg.toNat) h.sticky ∧ t.wentOn x) ∧
    (∀ f, h.instr = .waitq f → h.done = true → ∃ t, exec (.holdEnd w) s = .next t ∧
      (s.setWave x.w y).retired t { x with wave := y } (x.addrRels (.waitq f) f h.exec) (sclPuts f (h.arg.toNat % 256))
        (stickyIf (h.arg.toNat ≥ 256) .scopemis ||| h.sticky) ∧ t.wentOn x) ∧
    (∀ f, h.instr = .fence f → x.wave.quiet = true → ∃ t, exec (.holdEnd w) s = .next t ∧
      ((s.perform x.core f.scope.toNat fun _ => true).setWave x.w y).retired t { x with wave := y } [] [] h.sticky ∧ t.wentOn x) ∧
    (∀ f a, h.instr = .mwait f → h.done = true → h.bad = true → x.wave.watch = some a →
      exec (.holdEnd w) s = .next ((s.settleWatch x).raiseTrap x 6 a.addr h.exec 0)) ∧
    (∀ f, h.instr = .mwait f → h.done = true → h.bad = false → ∃ t, exec (.holdEnd w) s = .next t ∧
      let z : Wave := { y with watch := x.wave.watch.map fun a => { a with last := h.arg } }
      ((s.settleWatch x).setWave x.w z).retired t { x with wave := z } (x.addrRels (.mwait f) f h.exec) (sclPuts f h.arg.toNat)
        h.sticky ∧ t.wentOn x) ∧
    ∀ f, h.instr = .waittl f →
      let l := s.timeline (x.waitLine f)
      let n := s.waitNumber x f
      (l.done < n → exec (.holdEnd w) s = .fault .notEnabled) ∧
      (n ≤ l.done →
        (∀ st k a, l.fault = some (st, k, a) → k ≤ n →
          exec (.holdEnd w) s = .next (s.raiseTrap x 0x0F (BitVec.ofNat 64 k) h.exec 0)) ∧
        ((∀ st k a, l.fault = some (st, k, a) → n < k) → ∃ t, exec (.holdEnd w) s = .next t ∧
          (s.setWave x.w y).retired t { x with wave := y } (x.addrRels (.waittl f) f h.exec) [] h.sticky ∧ t.wentOn x))

/-- What engines move and compute. A copy's segments lie between 64 KiB boundaries of the destination (R246); a segment moves one granule
after another, AFILL's bytes by their place in the pattern (R246, R287), and ends at its end or where an access fails (R248). A port sends
an FSEND's bytes and weight, or asks for an FGET's bytes, and writes those that answer (R255, R256); a protected context's packets stay at
home (R422). OLOAD and OGATH copy into the operand
buffer (R263, R264); MMA and MMAB add their sums to the window's cells and their conditions to the status (R123, R124, R266, R267); MZERO
clears (R270); MDRAIN stores the window's rows and scales and takes the maximum to memory (R272 to R274). That these stores of engines
are performed at SYSTEM scope, and what another package answers, is the model's choice (log 5, log 12). -/
def Obligations.EngineWork : Prop :=
  (∀ (c : CopyShape) k, c.rows = 1 → c.bySrc = false → 0 < c.chunk → k < c.segments →
    let p := c.place k
    let cut := (c.dst / c.chunk + k) * c.chunk
    p.1 = max c.dst cut ∧ p.1 + p.2.2 = min (c.dst + c.bytes) (cut + c.chunk) ∧ p.2.1 + c.dst = p.1 + c.src) ∧
  (∀ i s x id k o c, s.segmentRunning i = some (x, id, k, o, c) →
    let p := c.place k
    let n := granuleLen (p.1 + x.done) (p.2.2 - x.done)
    let ends (t : State) (bad : Option (Nat × Nat)) : Prop :=
      exec (.copySegmentComplete i) s = .next (t.segmentOver i id k x o bad)
    let gets (t : State) (v : Nat) : Prop :=
      if c.fill then t = s ∧ v = leNat ((List.range n).map fun j => BitVec.ofNat 8 (c.src / 256 ^ ((p.1 + x.done + j) % 8)))
      else s.engineReads o c.ssp (p.2.1 + x.done) n t v
    (x.failed = true → ends s (some (2, x.faultVa))) ∧
    (x.failed = false → p.2.2 ≤ x.done → ends s none) ∧
    (x.failed = false → x.done < p.2.2 →
      (∀ t v u, gets t v → t.engineWrites o c.dsp (endsGranule p.1 x.done n) (p.1 + x.done) n v u →
        exec (.copySegmentComplete i) s = exec (.copySegmentComplete i) (u.updItem i fun y => { y with done := x.done + n })) ∧
      (∀ t st, c.fill = false → c.ssp = false → (p.2.1 + x.done) % 4096 + n ≤ 4096 →
        s.engineFails o false (p.2.1 + x.done) n t st → ends t (some (st, p.2.1 + x.done))) ∧
      ∀ t v u st, gets t v → c.dsp = false → t.engineFails o true (p.1 + x.done) n u st → ends u (some (st, p.1 + x.done)))) ∧
  (∀ i s x id k o c, s.packetAt i = some (x, id, k, o, c) →
    let p := c.place k
    let va := if c.bySrc then p.2.1 else p.1
    let on (t : State) : State := t.updItem i fun y => { y with sent := true, waiting := false }
    let finish (t : State) (bad : Option (Nat × Nat)) : State := t.segmentOver i id k x o bad
    (x.sent = false → x.failed = true → exec (.packetResend i) s = .next (finish s (some (2, x.faultVa)))) ∧
    (x.sent = false → x.failed = false →
      (s.homeOf va = none → exec (.packetResend i) s = .next (finish s (some (4, va)))) ∧
      ∀ h, s.homeOf va = some h →
        ((s.ctx o.ctx).ctl.bit 1 = true → exec (.packetResend i) s = .next (finish s (some (1, va)))) ∧
        ((s.ctx o.ctx).ctl.bit 1 = false → s.routed h = false → exec (.packetResend i) s = .next (finish s (some (4, va)))) ∧
        ((s.ctx o.ctx).ctl.bit 1 = false → s.routed h = true →
          (c.bySrc = true →
            exec (.packetResend i) s = .next (on (s.send (.packet i h (BitVec.ofNat 64 va) [] none s.cmd.pkgId)))) ∧
          (c.bySrc = false → ∀ t l, s.readsRun o c.ssp p.2.1 p.2.2 (p.2.2 / 16 + 2) 0 t l →
            exec (.packetResend i) s = .next (on (t.send (.packet i h (BitVec.ofNat 64 va) l x.weight s.cmd.pkgId)))))) ∧
    (x.sent = true →
      (Config.remoteDenies s.tick = true → exec (.packetAck i) s = .next (finish s (some (1, va)))) ∧
      (Config.remoteDenies s.tick = false → c.bySrc = true → Config.remotePoisons s.tick va = true →
        exec (.packetAck i) s = .next (finish s (some (3, va)))) ∧
      (Config.remoteDenies s.tick = false → c.bySrc = false →
        exec (.packetAck i) s = .next (((s.dropItem i).setOp id (o.ended k none)).flushPool o.core)) ∧
      (Config.remoteDenies s.tick = false → c.bySrc = true → Config.remotePoisons s.tick va = false → ∀ t,
        s.writesRun o c.dsp p.1 ((List.range p.2.2).map fun j => Config.remoteByte s.tick (p.2.1 + j)) (p.2.2 / 16 + 2) 0 t →
        exec (.packetAck i) s = .next (finish t none)))) ∧
  ∀ q s i x id o g, s.tileRunning q = some (i, x, id, o) → s.wg? o.wg = some g → ∃ t, exec (.tileTaskComplete q) s = .next t ∧
    let b (k : Nat) : DWord := o.blk.getD k 0
    let A := s.core o.core
    let spadAt (a : Nat) : Byte := cellGet (s.core g.core).spad (g.spadBase + a)
    (∀ f, o.instr = .oload f →
      let src := (b 0).toNat
      let dst := obBase (b 2) + (b 1).toNat % 2 ^ 19
      let n := (b 1).toNat / 2 ^ 20 % 2 ^ 19
      src + n ≤ g.spadSize → t.tileOver i id o none ∧ t.mem = s.mem ∧
        ∀ a, cellGet (t.core o.core).obuf a = if dst ≤ a ∧ a < dst + n then spadAt (src + (a - dst)) else cellGet A.obuf a) ∧
    (∀ f, o.instr = .ogath f →
      let r := gatherOf (b 0).toNat (b 1).toNat (b 2).toNat
      let from' (l : Nat) : Nat := r.src (laneOf o.rows l)
      let to' (l : Nat) : Nat := obBase (b 3) + r.dst l
      let holds (l a : Nat) : Prop := l ∈ lanesIn o.exec ∧ to' l ≤ a ∧ a < to' l + r.bytes
      (∀ l ∈ lanesIn o.exec, from' l + r.bytes ≤ g.spadSize) → t.tileOver i id o none ∧ t.mem = s.mem ∧
        ∀ a, ((∀ l, ¬holds l a) → cellGet (t.core o.core).obuf a = cellGet A.obuf a) ∧
          ∀ l, holds l a → (∀ k, l < k → ¬holds k a) → cellGet (t.core o.core).obuf a = spadAt (from' l + (a - to' l))) ∧
    (∀ (bin : Bool) f, o.instr = (if bin then .mmab f else .mma f) →
      let m := mmaTask f o.blk
      let kept (u v : Nat) : List Nat := A.keptSums id m.n u v
      let old (u v : Nat) : Word := s.accCell o.core m.acc (m.row + u) (m.col + v)
      let new (u v : Nat) : Word := t.accCell o.core m.acc (m.row + u) (m.col + v)
      let whole (u v : Nat) (term : Nat → Int) : Prop := new u v = BitVec.ofInt 32 ((old u v).toInt + wholeSum m.k (kept u v) term)
      m.row + m.m ≤ 128 → m.col + m.n ≤ 128 → m.k ≤ 256 → t.tileOver i id o none ∧ t.mem = s.mem ∧
      (∀ a r c, r < 128 → c < 128 →
        a ≠ m.acc ∨ r < m.row ∨ m.row + m.m ≤ r ∨ c < m.col ∨ m.col + m.n ≤ c → t.accCell o.core a r c = s.accCell o.core a r c) ∧
      (bin = true → ∀ u v, u < m.m → v < m.n → whole u v fun q =>
        let p := A.obBit m.a (m.aoff + u * m.k + q)
        let r := A.obBit m.b (m.boff + v * m.k + q)
        if (if f.aux.toNat % 2 = 1 then p && r else p != r) then 1 else 0) ∧
      (bin = false → 6 ≤ obFmt m.a → ∀ u v, u < m.m → v < m.n → whole u v fun q =>
        A.obInt m.a (m.aoff + u * m.k + q) * A.obInt m.b (m.boff + v * m.k + q)) ∧
      (bin = true ∨ 6 ≤ obFmt m.a → t.accStatus o.core m.acc = s.accStatus o.core m.acc) ∧
      (bin = false → obFmt m.a < 6 → ∃ y : Nat → Nat → Nat × Sticky,
        (∀ u v, u < m.m → v < m.n → m.floatIs A (kept u v) (old u v) u v (y u v) ∧ new u v = BitVec.ofNat 32 (y u v).1) ∧
        let met (cond : Nat → Nat → Bool) : Prop := ∃ u v, u < m.m ∧ v < m.n ∧ cond u v = true
        let escapes (r : DWord) (off n : Nat) : Prop := obFmt r = 5 ∧ ∃ k, k < (n + 15) / 16 ∧
          q4eThird ((List.range 10).map fun j => A.obByte r (10 * ((off + 16 * k) / 16) + j)) = true
        let was := s.accStatus o.core m.acc
        let is := t.accStatus o.core m.acc
        (is.getLsbD 0 = true ↔ was.getLsbD 0 = true ∨ met fun u v => isNanNum (decodeFloat fp32 (y u v).1)) ∧
        (is.getLsbD 1 = true ↔ was.getLsbD 1 = true ∨ met fun u v => isInfNum (decodeFloat fp32 (y u v).1)) ∧
        (is.getLsbD 2 = true ↔ was.getLsbD 2 = true ∨ met fun u v => (y u v).2 &&& .overflow != 0) ∧
        (is.getLsbD 3 = true ↔ was.getLsbD 3 = true ∨ escapes m.a m.aoff (m.m * m.k) ∨ escapes m.b m.boff (m.n * m.k)))) ∧
    (∀ f, o.instr = .mzero f → t.tileOver i id o none ∧ t.mem = s.mem ∧ t.accStatus o.core (f.imm.toNat % 4) = 0 ∧
      ∀ a r c, t.accCell o.core a r c = if a = f.imm.toNat % 4 then 0 else s.accCell o.core a r c) ∧
    ∀ f, o.instr = .mdrain f →
      let d := drainOf f o.blk
      let cell (r c : Nat) : Word := s.accCell o.core d.acc (d.row + r) (d.col + c)
      let all (p : Word → Prop) : Prop := ∀ r c, r < d.m → c < d.n → p (cell r c)
      let some' (p : Word → Prop) : Prop := ∃ r c, r < d.m ∧ c < d.n ∧ p (cell r c)
      let num (w : Word) : Machine.Num := decodeFloat fp32 w.toNat
      d.ofmt ≤ 7 → (∀ r, r < d.m → d.dst + r * d.pitch + drainRow d.ofmt d.n ≤ g.spadSize) →
      (d.qb = true → ∀ r, r < d.m → d.soff + r * d.spitch + d.n / 16 ≤ g.spadSize) →
      ∃ (bytes scales : Nat → List Nat) (st : Nat → Sticky) (big : Nat),
        (∀ r, r < d.m → d.rowIs ((List.range d.n).map (cell r)) (bytes r) (scales r) (st r)) ∧
        (let data (r a : Nat) : Prop := r < d.m ∧ d.dst + r * d.pitch ≤ a ∧ a < d.dst + r * d.pitch + (bytes r).length
         let scale (r a : Nat) : Prop := r < d.m ∧ d.soff + r * d.spitch ≤ a ∧ a < d.soff + r * d.spitch + (scales r).length
         ∀ a, let now := cellGet (t.core g.core).spad (g.spadBase + a)
           ((∀ r, ¬data r a ∧ ¬scale r a) → now = spadAt a) ∧
           (∀ r, data r a → (∀ k, k ≠ r → ¬data k a) → (∀ k, ¬scale k a) →
             now = BitVec.ofNat 8 ((bytes r).getD (a - (d.dst + r * d.pitch)) 0)) ∧
           ∀ r, scale r a → (∀ k, ¬data k a) → (∀ k, k ≠ r → ¬scale k a) →
             now = BitVec.ofNat 8 ((scales r).getD (a - (d.soff + r * d.spitch)) 0)) ∧
        (∀ a r c, t.accCell o.core a r c = s.accCell o.core a r c) ∧ (∀ a, t.accStatus o.core a = s.accStatus o.core a) ∧
        big < 2 ^ 31 ∧
        (d.ofmt ≠ 7 → (some' (fun w => isNanNum (num w) = true) → big = fp32.nanCode) ∧
          (all (fun w => isNanNum (num w) = false) → isNanNum (decodeFloat fp32 big) = false ∧
            some' (fun w => (decodeFloat fp32 big).units = (num w).units.natAbs) ∧
            all fun w => ((num w).units.natAbs : Int) ≤ (decodeFloat fp32 big).units)) ∧
        (d.ofmt = 7 → ∃ w y, some' (fun v => v = w) ∧ (all fun v => v.toInt.natAbs ≤ w.toInt.natAbs) ∧
          fp32.converts .rne false (.fin false w.toInt.natAbs 0) y ∧ big = y.1) ∧
        (∀ w y l, s.wave? w = some y → y.ll = [l] → l.op = some id → l.flags ≠ [] →
          (∀ p ∈ s.waves, p.1 ≠ w → ∀ k ∈ p.2.ll, k.op ≠ some id) → d.amax = false →
          ∃ z v, t.wave? w = some z ∧ z.ll = [l.known v] ∧ v.toNat % 2 ^ 32 = big ∧
            v.toNat / 2 ^ 32 % 16 = (s.accStatus o.core d.acc).toNat ∧
            (v.getLsbD 36 = true ↔ ∃ r, r < d.m ∧ st r &&& .saturate ≠ 0) ∧
            (v.getLsbD 37 = true ↔ some' fun w => d.special (num w) = true)) ∧
        (d.amax = false → t.tileOver i id o none ∧ t.mem = s.mem) ∧
        (d.amax = true → x.failed = true → t.tileOver i id o (some (2, x.faultVa)) ∧ t.mem = s.mem) ∧
        (d.amax = true → x.failed = false → ∀ u,
          (s.resolve o.core o.ctx d.word ⟨true, true, false⟩ = (u, .prot) → t.tileOver i id o (some (1, d.word)) ∧ t.mem = u.mem) ∧
          ∀ pa n, s.resolve o.core o.ctx d.word ⟨true, true, false⟩ = (u, .ok pa n) →
            let w := u.gather pa 4
            let max' := atomicPick true (w.peekNat o.core 5 pa 4) big
            (w.poisonedRange o.core 5 pa 4 = true → t.tileOver i id o (some (3, d.word)) ∧ t.mem = w.mem) ∧
            (w.poisonedRange o.core 5 pa 4 = false → t.tileOver i id o none ∧
              t.mem = if max' = w.peekNat o.core 5 pa 4 then w.mem else (w.storeNat ⟨o.core, o.ctx⟩ 5 d.word pa 4 max').mem))

/-- The events of engines: a segmenter pushes its next segment (R297, R333); a segment, a packet or a tile operation in service runs
(R246, R255, R266); an operation that is due completes its number, with its landing word (R236, R247); requests of other packages are
answered, those by a physical address too, or go on to a third package (R362, R410); decanting begins and ends (R316). That an access
which the page forbids, or an address of 2^60 or more, is answered with PROTECTION, and how a forwarded request is answered, is the
model's choice (log 61); what other packages hold and answer is free (log 12). -/
def Obligations.EngineEvents : Prop :=
  (∀ id s o c, s.op? id = some o → copyShape o.instr o.blk = some c → o.ready = false → o.pushed < o.segs → o.mustBorrow = false →
    s.refusing segmenter (s.classPart o.cls) (s.pathOf (s.classEntry o.cls)) = none →
    let path := s.pathOf (s.classEntry o.cls)
    let last := decide (o.pushed + 1 = o.segs)
    let kept := if last then none else o.weight.map fun w => { w with w := w.w - w.w / 2 }
    ∃ t x, exec (.segmentPush id) s = .next t ∧
      t.op? id = some { o with pushed := o.pushed + 1, weight := kept } ∧ t.item? s.uid = some x ∧ t.uid = s.uid + 1 ∧
      x.kind = .segment id o.pushed ∧ x.place = .tree path ∧ x.ctx = o.ctx ∧ x.cls = o.cls ∧ x.done = 0 ∧
      x.weight = (if last then o.weight else o.weight.map fun w => { w with w := w.w / 2 }) ∧
      x.words = o.words s.cmd.pkgId (c.segment o.pushed).2.2 o.pushed ∧
      (t.part (s.classPart o.cls)).used = (s.part (s.classPart o.cls)).used + path.length ∧
      (∀ w, kept = some w → w.w = 1 → o.pushed + 2 < o.segs → t.qd.borrows.any (fun b => b.who == .op id o.core) = true) ∧
      ((∀ w, kept = some w → w.w = 1 → o.segs ≤ o.pushed + 2) → t.qd.borrows = s.qd.borrows)) ∧
  (∀ i s x id k o c, s.segmentRunning i = some (x, id, k, o, c) → ∃ t, exec (.copySegmentComplete i) s = .next t ∧
    (t.segmentEnded i id k o ∨ t.itemWaits i id o)) ∧
  (∀ q s i x id o, s.tileRunning q = some (i, x, id, o) → ∃ t, exec (.tileTaskComplete q) s = .next t ∧
    ((∃ bad, t.tileOver i id o bad) ∨ t.itemWaits i id o) ∧ ((∀ f, o.instr ≠ .mdrain f) → t.tileOver i id o none)) ∧
  (∀ id s o, s.op? id = some o →
    o.ready = true ∨ (o.carries = true ∧ o.pushed = o.segs ∧ o.finished = o.segs ∧ (o.segs ≠ 0 ∨ s.lowerPushed o = true)) →
    let l := s.timeline o.tl
    let bad := if o.killed then some (5, 0) else o.worst.map fun w => (w.2.1, w.2.2)
    ∃ t, exec (.operationComplete id) s = .next t ∧ t.op? id = none ∧ (∀ n, n ≠ o.tl → t.timeline n = s.timeline n) ∧
      let m := t.timeline o.tl
      m.issued = l.issued ∧ m.bound = l.bound ∧ l.done ≤ m.done ∧
      (∀ n, l.done < n → n ≤ m.done → n = o.seq ∨ n ∈ l.ahead) ∧ m.done + 1 ≠ o.seq ∧ m.done + 1 ∉ l.ahead ∧
      (∀ n, n ∈ m.ahead ↔ (n ∈ l.ahead ∨ n = o.seq) ∧ m.done < n) ∧
      (bad = none → m.fault = l.fault) ∧
      (∀ b, bad = some b →
        (∀ st n a, l.fault = some (st, n, a) → n ≤ o.seq → m.fault = l.fault) ∧
        ((∀ st n a, l.fault = some (st, n, a) → o.seq < n) → m.fault = some (b.1, o.seq, b.2))) ∧
      ∀ c g, copyShape o.instr o.blk = some c → c.land = true → s.wg? o.wg = some g → c.loff + 8 ≤ g.spadSize →
        cellsNat (t.core g.core).spad (g.spadBase + c.loff) 8 = (if bad = none then c.lval else ~~~c.lval).toNat) ∧
  (∀ i h s x id k o c, s.packetAt i = some (x, id, k, o, c) → x.sent = true →
    (x.refused + 1 < 64 → ∃ t, exec (.packetRefuse i h) s = .next t ∧
      t.item? i = some { x with sent := false, waiting := true, refused := x.refused + 1 }) ∧
    (64 ≤ x.refused + 1 → exec (.packetRefuse i h) s =
      .next (s.segmentOver i id k x o (some (4, if c.bySrc then (c.place k).2.1 else (c.place k).1))))) ∧
  (∀ i s x id k o c, s.packetAt i = some (x, id, k, o, c) →
    (x.sent = false → ∃ t, exec (.packetResend i) s = .next t ∧
      (t.segmentEnded i id k o ∨ t.itemWaits i id o ∨
        t.item? i = some { x with sent := true, waiting := false } ∧ s.host.outbox.length < t.host.outbox.length)) ∧
    (x.sent = true → ∃ t, exec (.packetAck i) s = .next t ∧ (t.segmentEnded i id k o ∨ t.itemWaits i id o))) ∧
  (∀ r s, ∃ t, exec (.remoteRequest r) s = .next t ∧
    (r.kind = .giveBack → (r.root = none → t = s) ∧ ∀ d, r.root = some d →
      let back : Return := ⟨d, r.weight, r.abort, ⟨r.pkg, none⟩⟩
      t = s.applyClock back ∧ ((∀ b ∈ s.qd.borrows, b.root = d → b.granted = true) → (∀ a ∈ s.qd.returns, a.root ≠ d) →
        t = (s.creditReturn back).testRoot d)) ∧
    (r.kind ≠ .giveBack → r.phys = false → 2 ^ 60 ≤ r.va.toNat → t = s.send (.reply r.pkg stProtection [])) ∧
    (r.kind ≠ .giveBack → ∀ u g, s.answer r = (u, g) → match g with
      | .refuse hint => t = u.send (.refuse r.pkg hint)
      | .deny => t = u.send (.reply r.pkg stProtection [])
      | .forward h pa =>
        let n := remoteLen r
        let poisons := r.kind ≠ .write ∧ Config.remotePoisons u.tick pa = true
        (u.routed h = false → t = u.send (.reply r.pkg stRefused [])) ∧
        (u.routed h = true → Config.remoteDenies u.tick = true → t = u.send (.reply r.pkg stProtection [])) ∧
        (u.routed h = true → Config.remoteDenies u.tick = false → poisons → t = u.send (.reply r.pkg stUncorrectable [])) ∧
        (u.routed h = true → Config.remoteDenies u.tick = false → ¬poisons →
          let v := u.send (.request h pa n r.bytes (if r.kind = .atomic then some r.op else none))
          (r.kind = .write → (r.root = none → t = v.send (.reply r.pkg 0 [])) ∧
            ∀ d, r.root = some d → t = (v.fabGiveBack r.homePkg ⟨d, r.weight⟩ r.abort).send (.reply r.pkg 0 [])) ∧
          (r.kind ≠ .write → ∃ w : State, w = v ∧ t = v.send (.reply r.pkg 0 (leBytes n (w.farNat pa n)))))
      | .perform pa =>
        let n := if r.kind = .read then r.size else if r.ty.is64 then 8 else 4
        let w := u.gather pa n
        let old := w.sysNat pa n
        let new := atomicStep r.op r.ty old (leNat (r.bytes.take n)) (leNat ((r.bytes.drop n).take n))
        let put (v : State) (len val : Nat) : State := (v.storeNat ⟨0, r.ctx⟩ 5 r.va.toNat pa len val).remoteRelease r pa len
        (r.kind = .write → ∀ v, v = put u r.bytes.length (leNat r.bytes) →
          (r.root = none → t = v.send (.reply r.pkg 0 [])) ∧
          ∀ d, r.root = some d → t = (v.fabGiveBack r.homePkg ⟨d, r.weight⟩ r.abort).send (.reply r.pkg 0 [])) ∧
        (r.kind ≠ .write → w.sysPoisonedRange pa n = true → t = w.send (.reply r.pkg stUncorrectable [])) ∧
        (r.kind = .read → w.sysPoisonedRange pa n = false → t = w.send (.reply r.pkg 0 (leBytes n old))) ∧
        (r.kind = .atomic → w.sysPoisonedRange pa n = false → new ≠ old → t = (put w n new).send (.reply r.pkg 0 (leBytes n old))) ∧
        (r.kind = .atomic → w.sysPoisonedRange pa n = false → new = old →
          t = (w.remoteRelease r pa n).send (.reply r.pkg 0 (leBytes n old))))) ∧
  (∀ (r : RemoteReq) (s : State), r.phys = true →
    (s.target r.va.toNat = .host ∨ (∃ off, s.target r.va.toNat = .hbm off ∧ s.frameAllows r.ctx r.va.toNat = true) →
      s.answer r = (s, .perform r.va.toNat)) ∧
    (∀ h, s.target r.va.toNat = .remote h → s.answer r = (s, .forward h r.va.toNat)) ∧
    (∀ off, s.target r.va.toNat = .hbm off → s.frameAllows r.ctx r.va.toNat = false → s.answer r = (s, .deny)) ∧
    ((∃ off, s.target r.va.toNat = .regs off) ∨ s.target r.va.toNat = .remoteRegs → s.answer r = (s, .deny))) ∧
  (∀ (r : RemoteReq) (s : State), r.phys = false → r.va.toNat < 2 ^ 60 →
    (∀ τ : TlbEntry, (s.mem.tlb.find? fun (τ : TlbEntry) => τ.ctx == r.ctx && τ.va ≤ r.va.toNat && r.va.toNat < τ.va + τ.size) = some τ →
      (bitsOf τ.entry 52 2 = 0 → judge (remoteNeed r) τ.entry = none → ((remoteNeed r).w = true → bitOf τ.entry 11 = true) →
        let pa := bitsOf τ.entry 12 40 * 4096 + r.va.toNat % τ.size
        (s.target pa = .host ∨ ∃ off, s.target pa = .hbm off ∧ s.frameAllows r.ctx pa = true) → s.answer r = (s, .perform pa)) ∧
      (bitsOf τ.entry 52 2 ≠ 0 → (remoteNeed r).w = false → s.answer r = (s, .refuse s.hintTransit))) ∧
    ((s.mem.tlb.find? fun (τ : TlbEntry) => τ.ctx == r.ctx && τ.va ≤ r.va.toNat && r.va.toNat < τ.va + τ.size) = none →
      ∀ a e size, s.walk r.ctx r.va.toNat = .leaf a e size → bitsOf e 52 2 = 0 → ∃ u, s.answer r = (u, .refuse s.hintMiss))) ∧
  (∀ q s n, (s.seq q).refused = some n → n < 64 → ∃ t, exec (.remoteAccessResend q) s = .next t ∧ t.waves = s.waves ∧ t.mem = s.mem ∧
    (Config.remoteRefuses s.tick = true → t.seq q = { s.seq q with refused := some (n + 1) }) ∧
    (Config.remoteRefuses s.tick = false → t.seq q = { s.seq q with refused := none, resend := true })) ∧
  (∀ i s x c b d, s.item? i = some x → s.mayDecant i x = some (c, b, d) → ∃ t y, exec (.decant i) s = .next t ∧
    t.item? i = some y ∧ y.decanting = !(s.regionsOf x).isEmpty ∧ y.decanted = (s.regionsOf x).isEmpty ∧ y.done = 0 ∧
    y.spad = (if d.spad = 0 then none else some b) ∧ y.spadLen = d.length ∧ (t.core c).carve = d.carve) ∧
  ∀ i s x c d, s.canStage i = some (x, c, d) → ∃ t, exec (.decantComplete i) s = .next t ∧
    let finish (u : State) (bad : Option DWord) : State :=
      u.updItem i fun y => { y with decanting := false, decanted := true, failed := false, decantFail := bad }
    let todo := (stageList (s.regionsOf x)).drop x.done
    let base := x.spad.getD 0
    (x.failed = true → t = finish s (some (BitVec.ofNat 64 x.faultVa))) ∧
    (x.failed = false → ∀ u, s.stagesRun c d.ctx base todo u → t = finish u none) ∧
    (x.failed = false → ∀ before g rest u v, todo = before ++ g :: rest → s.stagesRun c d.ctx base before u →
      u.resolve c d.ctx g.1 ⟨true, false, false⟩ = (v, .prot) → t = finish v (some (BitVec.ofNat 64 g.1)))

/-- The events of the trellis. An operation of a rank program puts its result into its scratch word or state word (R305, R306); a push
and each insertion run the node's program on the item's words and insert with the rank that it emits (R299). Releases move items to
their leaves (R298, R311), and a leaf ranks what arrives, a tile item no earlier than its workgroup's before it (R312). A pop starts
its item. Pre-emption chooses and stops (R315, R317 to R319). A probe token travels, and home it admits the item of the unit that has
waited the longest (R322). A switch-out saves every workgroup of its set and pushes their resume items (R380). A restore brings its
workgroup back, or kills it when its record fails the checks (R386). The lowest free wave slots for a workgroup (log 45), the
entries that n15 and COUNT count (log 33), pre-emption as an event of its own after the insertion (log 51), and a token sent as soon as a
unit is blocked, admitting the item of the unit blocked longest (log 52) are the model's choice. -/
def Obligations.TrellisEvents : Prop :=
  (∀ (v : RankEnv) (r : RankRun) sel,
    (sel < 8 → rankSrc v r sel = r.w.getD sel 0) ∧ (8 ≤ sel → sel < 16 → rankSrc v r sel = v.words.getD (sel - 8) 0) ∧
    (0x40 ≤ sel → sel < 0x80 → rankSrc v r sel = BitVec.ofNat 32 (sel - 0x40))) ∧
  (∀ (v : RankEnv) (r : RankRun) (op : BitVec 32),
    let code := op.toNat / 2 ^ 27
    let a := rankSrc v r (op.toNat / 2 ^ 16 % 2 ^ 8)
    let b := rankSrc v r (op.toNat / 2 ^ 8 % 2 ^ 8)
    let c := rankSrc v r (op.toNat % 2 ^ 8)
    let puts (y : BitVec 32) : Prop := rankOp v r op = { r with w := lset r.w (op.toNat / 2 ^ 24 % 8) y }
    let n := op.toNat / 2 ^ 16 % 16
    let cond : Prop := match op.toNat % 8 with
      | 0 => a = b
      | 1 => a ≠ b
      | 2 => a.toNat < b.toNat
      | 3 => a.toNat ≤ b.toNat
      | 4 => 32768 ≤ (a - b).toNat % 2 ^ 16
      | _ => 32768 ≤ (a - b).toNat % 2 ^ 16 ∨ (a - b).toNat % 2 ^ 16 = 0
    (code = 1 → puts (a + b)) ∧ (code = 2 → puts (a - b)) ∧ (code = 3 → puts (a * b)) ∧
    (code = 4 → puts (BitVec.ofNat 32 (a.toNat / 2 ^ (b.toNat % 32)))) ∧
    (code = 5 → puts (BitVec.ofNat 32 (min a.toNat b.toNat))) ∧ (code = 6 → puts (BitVec.ofNat 32 (max a.toNat b.toNat))) ∧
    (code = 7 → puts (if c ≠ 0 then a else b)) ∧
    (code = 8 → puts (BitVec.ofNat 32 (op.toNat % 2 ^ 16 * if op.getLsbD 16 then 2 ^ 16 else 1))) ∧
    (code = 9 → (n < 14 → puts (r.st.getD n 0)) ∧ (n = 14 → puts (BitVec.ofNat 32 v.hzn)) ∧ (n = 15 → puts (BitVec.ofNat 32 v.count))) ∧
    (code = 10 → rankOp v r op = { r with st := lset r.st (op.toNat % 16) a }) ∧
    (code = 11 → (∀ g, v.group = some g → puts ((tget r.flows (flowKey g a.toNat (op.toNat % 4))).getD 0)) ∧
      (v.group = none → rankOp v r op = { r with w := lset r.w (op.toNat / 2 ^ 24 % 8) 0, noflow := true })) ∧
    (code = 12 → (∀ g, v.group = some g → rankOp v r op = { r with flows := tput r.flows (flowKey g a.toNat (op.toNat % 4)) b }) ∧
      (v.group = none → rankOp v r op = { r with noflow := true })) ∧
    (code = 13 → puts (BitVec.ofNat 32 (min (max a.toNat b.toNat) c.toNat))) ∧
    (code = 14 → (cond → puts 1) ∧ (¬cond → puts 0)) ∧ (code = 15 → puts v.pops) ∧
    (code = 16 → rankOp v r op = { r with rank := a.toNat % 2 ^ 16 })) ∧
  (∀ i s n rest x, s.waitingAt i = some (n, rest, x) →
    (n = x.entry → ∃ t, exec (.trellisPush i) s = .next t ∧ s.arrived i n rest x (.item i) t) ∧
    (n ≠ x.entry → ∃ t, exec (.ancestorInsert i n) s = .next t ∧ s.arrived i n rest x (.child (s.childTowards x.entry n)) t)) ∧
  (∀ n s i x p l rest, s.nextRelease n = some (i, x, p) → s.destinations i x = some (l :: rest) →
    ∃ t, exec (.topNodeRelease n) s = .next t ∧
      ((∀ id, x.kind ≠ .launch id) → x.saved = none → (∃ y, t.item? i = some y ∧ y.kind = x.kind ∧ y.place = .toLeaf l) ∧
        (t.part x.part).used = (s.part x.part).used - (s.pathOf x.entry).length ∧
        ∀ q ∈ p, ∀ e ∈ (t.node q.1).entries, e.order ≠ q.2.order) ∧
      ∀ id a, x.kind = .launch id → s.launch? id = some a →
        (∃ m, t.launch? id = some m ∧ m.released = a.released + a.nextGroup.length) ∧
        (∀ w, a.nextGroup = [w] → i ≠ s.uid → ∃ y, t.item? s.uid = some y ∧ y.kind = .workgroup id w ∧ y.place = .toLeaf l) ∧
        (recCount a.record ≤ a.released + a.nextGroup.length → t.item? i = none)) ∧
  (∀ i s l x, s.arriving i = some (l, x) → ∃ t y, exec (.leafInsert i) s = .next t ∧ t.item? i = some y ∧ y.place = .leaf l ∧
    y.kind = x.kind ∧ (t.leaf l).entries = (s.leaf l).entries ++ [⟨.item i, y.rank, (s.leaf l).nextOrder, 0, false⟩] ∧
    ((∀ o, x.kind ≠ .tile o) → y.rank = (s.leafRun l x.words).rank) ∧
    ∀ u, s.tileWg x = some u → ∀ e ∈ (s.leaf l).entries, e.promoted = false → (s.tileOf u e).isSome = true →
      rankKey (s.leaf l).hzn e.rank ≤ rankKey (s.leaf l).hzn y.rank) ∧
  (∀ l s e i x, s.headOf l = some (e, i, x) → s.canPop l i x = true → ∃ t, exec (.enginePop l) s = .next t ∧
    (192 ≤ l → l < 576 → (∃ y, t.item? i = some y ∧ y.kind = x.kind ∧ y.place = .service l) ∧
      ∀ a ∈ (t.leaf l).entries, a.order ≠ e.order) ∧
    (l < 192 → ∀ id w a b, x.kind = .workgroup id w → s.launch? id = some a → recDet a.record = false →
      x.spad = some b ∨ (x.spad = none ∧ s.spadStart l a.demand (some i) = some b) →
      t.item? i = none ∧ ∃ g, t.hasStarted s.uid l ((s.freeSlots l).take (recExtent a.record 1)) (recProgram a.record) g ∧
        g.wgid = w ∧ g.launch = a.id ∧ g.ctx = a.ctx ∧ g.spadBase = if recSpad a.record = 0 then 0 else b) ∧
    (l < 192 → ∀ o p g d b, x.kind = .task o → s.op? o = some p → p.spawner = some g → s.demandOf x = some d →
      x.spad = some b ∨ (x.spad = none ∧ s.spadStart l d (some i) = some b) →
      t.item? i = none ∧ ∃ h, t.hasStarted s.uid l ((s.freeSlots l).take 1) (p.blk.getD 0 0).toNat h ∧ h.task = true ∧
        h.spawnOp = some o ∧ h.depth = g.depth + 1)) ∧
  (∀ l s e i x, s.headOf l = some (e, i, x) → s.victimOf l = none → (s.leaf l).fresh = true → s.canPop l i x = false →
    ∃ t, exec (.leafPreempt l) s = .next t ∧ (t.leaf l).fresh = false ∧
      (192 ≤ l → l < 576 → ∀ v z, s.item? v = some z → (v, z) ∈ s.inService l →
        (let key (a : Item) : Nat := rankKey (s.leaf l).hzn a.rank * 2 ^ 64 + a.order
         ∀ p ∈ s.inService l, p ≠ (v, z) → key p.2 < key z) →
        ((s.leaf l).marginOk z.rank e.rank && s.tileTurn x) = true → t.item? v = some { z with victim := true }) ∧
      (192 ≤ l → l < 576 → (∀ p ∈ s.inService l, ((s.leaf l).marginOk p.2.rank e.rank && s.tileTurn x) = false) →
        t.trl.items = s.trl.items) ∧
      (l < 192 → ∀ d out, s.demandOf x = some d → ((s.victims l).any fun p => (s.leaf l).marginOk p.2.leafRank e.rank) = true →
        (let s' := s.setLeaf l { s.leaf l with fresh := false }
         s'.enough l d (some i) ((s'.victims l).filter fun p => (s.leaf l).marginOk p.2.leafRank e.rank)
          (s'.wgs.filter fun p => p.2.core == l && p.2.switching) = some out →
          t = s'.askSwitch out))) ∧
  (∀ l s e i x v z, s.headOf l = some (e, i, x) → s.victimOf l = some (v, z) → ∃ t, exec (.leafPreempt l) s = .next t ∧
    (l < 384 → ∀ o id p, s.tileRunning (l - 192) = some (v, z, id, p) → s.item? v = some o → p.hasSteps = false →
      t.item? v = some { o with victim := false }) ∧
    (384 ≤ l → ∀ y id k o c, s.segmentRunning v = some (y, id, k, o, c) →
      (c.place k).2.2 ≤ stopPoint (c.place k).1 z.done → t.segmentEnded v id k o ∨ t.itemWaits v id o)) ∧
  (∀ n s out, s.reserveVictims n = some out → exec (.reserveSetPreempt n) s = .next (s.askSwitch out)) ∧
  (∀ (s : State) (out : List (Nat × Wg)), (∀ p ∈ out, s.wg? p.1 = some p.2) →
    (s.slotsFor (out.filter fun p => !p.2.switching) = true → ∀ p ∈ out, (s.askSwitch out).wg? p.1 = some { p.2 with switching := true }) ∧
    (s.slotsFor (out.filter fun p => !p.2.switching) = false → (s.askSwitch out).wgs = s.wgs)) ∧
  (∀ q s n, s.canProbe q = true → s.blockedOf q = some n → ∃ t, exec (.probeTokenSend q) s = .next t ∧
    t.trl.tokens = s.trl.tokens ++ [⟨q, n, 1⟩] ∧ t.trl.items = s.trl.items) ∧
  (∀ k s a, s.trl.tokens[k]? = some a → ∃ t, exec (.probeTokenArrival k) s = .next t ∧ t.trl.items = s.trl.items ∧
    (a.at' = a.home ∨ 16 ≤ a.hops ∨ s.blockedOf a.at' = none → t.trl.tokens = dropAt s.trl.tokens k) ∧
    (a.at' = a.home → (s.reserveBusy a.home = true → t.trl.grants = s.trl.grants) ∧
      (s.reserveBusy a.home = false → ∀ who, s.longestOn a.home who → t.trl.grants = s.trl.grants ++ [(a.home, who)])) ∧
    (a.at' ≠ a.home → a.hops < 16 → ∀ n, s.blockedOf a.at' = some n →
      t.trl.tokens = lset s.trl.tokens k { a with at' := n, hops := a.hops + 1 })) ∧
  (∀ (s : State) w part path q, (q, w) ∈ s.trl.grants → s.refusing w part path ≠ some q) ∧
  (∀ u s set, s.canSwitch u = some set → ∃ t, exec (.switchOut u) s = .next t ∧
    (s.slotsFor set = false → ∀ p ∈ set, ∀ g, t.wg? p.1 = some g → g.switching = false) ∧
    (s.slotsFor set = true →
      (∀ p ∈ set, (∀ g, t.wg? p.1 = some g → s.uid ≤ p.1) ∧
        (∀ g, s.wg? p.1 = some g → ∀ w ∈ g.keys, ∀ y, t.wave? w = some y → s.uid ≤ y.wg) ∧
        ∃ j y v c slot core, s.uid ≤ j ∧ t.item? j = some y ∧ y.saved = some v ∧ v.uid = p.1 ∧
          y.kind = .resume c slot core ∧ v.wg.ctx = c ∧ v.wg.core = core ∧ slot ∈ (t.ctx c).saved) ∧
      ∀ p, set = [p] → (t.leaf (dispatchLeaf p.2.core)).preempts = (s.leaf (dispatchLeaf p.2.core)).preempts + 1)) ∧
  ∀ i s set, s.canRestore i = some set → ∃ t, exec (.restore i) s = .next t ∧
    (∀ v core slot b cs, set = [(i, v, core, slot)] → v.wg.det = false →
      let base := saveBase (s.ctx v.wg.ctx) slot
      (s.recordOk base v = true → s.spadStart core v.wg.demand (some i) = some b →
        s.restoreSlots core (v.waves.map (·.inTrap)) = some cs →
        slot ∉ (t.ctx v.wg.ctx).saved ∧ t.item? i = none ∧
        (∃ g, t.wg? v.uid = some g ∧ g.core = core ∧ g.wgid = v.wg.wgid ∧ g.launch = v.wg.launch ∧
          g.spadBase = if v.wg.spadSize = 0 then 0 else b) ∧
        ∀ p ∈ cs, ∀ x, v.waves[p.1]? = some x → ∃ y, t.wave? (32 * core + p.2) = some y ∧ y.wg = x.wg ∧ y.waveId = x.waveId ∧
          y.window = []) ∧
      (s.recordOk base v = false → slot ∉ (t.ctx v.wg.ctx).saved ∧ t.item? i = none ∧ t.wg? v.uid = none ∧ (t.ctx v.wg.ctx).kill = killRecord v.wg.wgid 0 false true)) ∧
    ((set.any fun p => p.2.1.wg.det) = true → turnsOk (s.turnWords set) = false → ∀ p ∈ set, t.item? p.1 = none)

/-- The events of faults, weight and memory: a fault record takes its place in the ring (R358), RETRY and FAIL answer what waits on a
record (R359), borrows, returns and forced roots (R333, R337, R338, R342), DRAM requests (R366), the host's accesses
(R411, R413, R423): a load's bytes, and a store's that everyone then reads; wider performance (R277) and the end of an invalidation
(R356). That a host fence changes nothing (log 73), and that narrow bytes are performed by whole granules of 16 bytes or more (log 5), is
the model's choice. -/
def Obligations.FaultWeightAndMemoryEvents : Prop :=
  (∀ k s r, s.cmd.faults[k]? = some r → r.written = false →
    let c := s.ctx r.ctx
    (ringValid c.fring = false → exec (.faultRecordWrite k) s = .next (s.answerFault r.ctx r.token true)) ∧
    (ringValid c.fring = true → (c.fhead - c.ftail).toNat < ringSize c.fring → ∃ t, exec (.faultRecordWrite k) s = .next t ∧
      (t.ctx r.ctx).fhead = c.fhead + 1 ∧ t.cmd.faults = lset s.cmd.faults k { r with written := true } ∧
      t.mem = (s.sysPut (ringBase c.fring + 32 * (c.fhead.toNat % ringSize c.fring)) 32 (faultWords r)).mem)) ∧
  (∀ (fail : Bool) c token s, ∃ t : State, exec (if fail then .faultFail c token else .faultRetry c token) s = .next (s.respondMgmt t 0) ∧
    (s.cmd.faults.any (fun r => r.ctx == c && r.token == token && r.written) = false → t = s) ∧
    (s.cmd.faults.any (fun r => r.ctx == c && r.token == token && r.written) = true →
      (∀ r ∈ t.cmd.faults, ¬(r.ctx = c ∧ r.token = token)) ∧ ∀ w x, s.wave? w = some x → t.wave? w = some (x.answer token fail))) ∧
  (∀ k s b, s.qd.borrows[k]? = some b →
    (b.granted = false → ∃ t, exec (.borrowRequest k) s = .next t ∧ (t.root b.root).borrows = (s.root b.root).borrows + 1 ∧
      ((s.root b.root).o + 2 ^ 32 < 2 ^ 64 → (t.root b.root).o = (s.root b.root).o + 2 ^ 32)) ∧
    (b.granted = true → ∃ t, exec (.borrowGrant k) s = .next t ∧
      (∀ o c x, b.who = .op o c → s.op? o = some x → weightIn x.weight b.root = true →
        t.op? o = some { x with weight := addGrant x.weight } ∧ t.qd.borrows = dropAt s.qd.borrows k) ∧
      ∀ w x c, b.who = .wave w → s.wave? w = some x → weightIn x.weight b.root = true → x.stall = some c → c.borrow = true →
        t.wave? w = some { x with weight := addGrant x.weight, stall := c.granted } ∧ t.qd.borrows = dropAt s.qd.borrows k)) ∧
  (∀ k s r, s.qd.returns[k]? = some r → ∃ t, exec (.rootReturn k) s = .next t ∧
    t.qd.returns.length < s.qd.returns.length ∧ t.wgs = s.wgs ∧ t.mem = s.mem ∧
    ((∀ b ∈ s.qd.borrows, b.root = r.root → b.granted = true) →
      (∀ j a, j ≠ k → s.qd.returns[j]? = some a → a.root ≠ r.root) →
      t = ((s.setQd { s.qd with returns := dropAt s.qd.returns k }).creditReturn r).testRoot r.root)) ∧
  (∀ k s e, s.qd.fab[k]? = some e → ∃ t, exec (.fabricReturnFlush k) s = .next t ∧ t.qd.fab = dropAt s.qd.fab k ∧
    t.host.outbox = s.host.outbox ++ [.giveBack e.pkg e.root e.sum e.abort]) ∧
  (∀ d s, ∃ t : State, exec (.qdrForce d) s = .next (s.respondMgmt t 0) ∧
    ((s.root d).isOpen = true → t.root d = { s.root d with err := true, o := 0 }) ∧ ((s.root d).isOpen = false → t = s)) ∧
  (∀ d r, ∀ (s : State), (s.root d).isOpen = true → r ≤ (s.root d).o → ∀ p,
    (((s.creditReturn ⟨d, r, false, p⟩).testRoot d).root d).o = (s.root d).o - r) ∧
  (∀ d c s, exec (.rootgrant d c) s = .next (s.respondMgmt (s.grantRoot d c).1 (s.grantRoot d c).2) ∧
    (d < 1024 → c < 1024 → (s.root d).isOpen = false →
      (s.grantRoot d c).2 = 0 ∧ ((s.grantRoot d c).1.root d).granted = true ∧ ((s.grantRoot d c).1.root d).ctx = c)) ∧
  (∀ ch s, (s.channel ch).reqs ≠ [] → ∃ t, exec (.dramRequestIssue ch) s = .next t ∧ t.mem = s.mem ∧ t.waves = s.waves ∧
    ((t.channel ch).reqs = (s.channel ch).reqs ∨
      ∃ j, j < (s.channel ch).reqs.length ∧ (t.channel ch).reqs = dropAt (s.channel ch).reqs j)) ∧
  (∀ a s, ∃ t, exec (.hostAccess a) s = .next t ∧ (a.kind = .fence → t = s) ∧
    ((∃ off, s.target (s.hostPa a.addr) = .hbm off) → (∃ k, k < hostLen a ∧ s.protFrame (s.hostPa a.addr + k) = true) →
      t.mem = s.mem ∧ (a.kind = .load → t.host.outbox.getLast? = some (.hostData false (List.replicate a.size 0xFF#8)))) ∧
    (let pa := s.hostPa a.addr
     let n := hostLen a
     (∀ off, s.target pa ≠ .regs off) → (∀ k, k < n → s.protFrame (pa + k) = false) →
      (a.kind = .load → let u := s.gather pa n
        t.mem = u.mem ∧ t.host.outbox = s.host.outbox ++ [.hostData (u.sysPoisonedRange pa n) (leBytes n (u.sysNat pa n))]) ∧
      (a.kind = .store → t.host.outbox = s.host.outbox ∧ t.mem = ((s.storeNat ⟨0, 0⟩ 5 pa pa n (leNat a.bytes)).hostRelease a pa).mem ∧
        ((∀ k, k < n → s.absentAt (pa + k) = false) → ∀ c j, t.peekNat c j pa n = leNat a.bytes)))) ∧
  (∀ k s n, s.mem.narrow[k]? = some n → ∃ t, exec (.widerScopePerform k) s = .next t ∧ t.waves = s.waves ∧
    (∀ m ∈ t.mem.narrow, m.pa / 16 = n.pa / 16 → m.core = n.core → m.die ≠ n.die) ∧
    t = s.widenAll (fun m => m == n) (if n.core.isSome then 3 else 5)) ∧
  ∀ k s v, s.cmd.xinvs[k]? = some v → ∃ t, exec (.xinvComplete k) s = .next t ∧ t.cmd.xinvs = dropAt s.cmd.xinvs k

/-- The events of the host's queues: doorbells move TAIL (R405, R421), a packet runs (R407 to R409), a launch that is idle completes and
its outputs are digested (R400), its record, the packet's completion entry and events take their places in the rings (R397, R406,
R414). -/
def Obligations.HostQueueEvents : Prop :=
  (∀ q tail s, ∃ t, exec (.hostQueueDoorbell q tail) s = .next t ∧
    t.queue q = { s.queue q with tail := tailAfter (s.queue q).head (s.queue q).tail tail (ringSize (s.queue q).ring) } ∧
    ∀ p, p ≠ q → t.queue p = s.queue p) ∧
  (∀ tail s, ∃ t, exec (.mgmtDoorbell tail) s = .next t ∧
    t.host = { s.host with mgmtTail := tailAfter s.host.mgmtHead s.host.mgmtTail tail (ringSize s.host.mgmtRing) }) ∧
  (∀ q s, s.queueReady q = true → exec (.caskPacketRun q) s = .next (s.runPacket q)) ∧
  (∀ q s t, s.queueReady q = false → s.resumePacket q = some t → exec (.caskPacketRun q) s = .next t) ∧
  (∀ q s, s.queueReady q = true → tget s.host.casks ((s.queue q).ctx.fld 16 8) = none →
    ∃ t, exec (.caskPacketRun q) s = .next t ∧ (t.queue q).head = (s.queue q).head + 1 ∧
      (t.queue q).packets = (s.queue q).packets ++ [⟨(s.queue q).head.toNat, [], 0x23, 0, []⟩]) ∧
  (∀ id s l, s.launch? id = some l → l.complete = false → s.launchIdle id = true → ∃ t, exec (.launchComplete id) s = .next t ∧
    (∃ m, t.launch? id = some m ∧ m.complete = true) ∧ t.host.vtgQueue = s.host.vtgQueue ++ [id]) ∧
  (∀ id s l, s.launch? id = some l → l.digestDue = true → ∃ t, exec (.outputDigest id) s = .next t ∧
    (l.digestFail = true → ∃ m, t.launch? id = some m ∧ m.digested = true ∧ m.digest = none) ∧
    ∀ u b, l.digestFail = false → s.digestAll l.ctx ((List.range (recOCount l.record)).map (recOut l.record)) [] = (u, .bytes b) →
      ∃ m, t.launch? id = some m ∧ m.digested = true ∧ m.digest = some (sha256 b)) ∧
  (∀ id l s, s.vintageNext = some (id, l) → ∃ t, exec .vintageRecordWrite s = .next t ∧ t.host.vtgQueue = s.host.vtgQueue.drop 1 ∧
    (∃ m, t.launch? id = some m ∧ m.written = true) ∧
    (s.host.vtgRing.bit 0 = true → t.host.vtgHead = s.host.vtgHead + 1)) ∧
  (∀ q s p, s.entryDue q = some p → ∃ t, exec (.completionEntryWrite q) s = .next t ∧
    (t.queue q).entries = (s.queue q).entries + 1 ∧ t.mem = (s.sysPut (s.queue q).entryAddr 16 (s.entryOf p)).mem ∧
    ∀ id ∈ p.launches, t.launch? id = none) ∧
  ∀ s e, s.eventNext = some e → ∃ t, exec .eventRingWrite s = .next t ∧ t.host.evqHead = s.host.evqHead + 1 ∧
    t.host.events = s.host.events.drop 1

/-- The commands of the management core (R421, R431): each has its effect or is refused with a status, and answers the request that is
pending: HEAD goes on, and the response stands in the completion ring. Kills and resets end the work that stands there, and clear what R431 names:
workgroups and waves, leaves and their engines' operations, sequencers with SR_SLIPS, macros, L1, TLBs, instruction cache, L2 and
locks, roots, keys. A register write takes the masked bits that the block lets be written and no others (R412). Program loads,
map-out (R368) and racking (R428). That a cold reset
keeps memory's cells (log 62), that the management command for a map-out writes the numbers and REQUEST at once and only the first of the
three bits acts (logs 60, 74), and that a TEARDOWN does its first steps in one step (log 64) are the model's choice. -/
def Obligations.ManagementEvents : Prop :=
  (∀ (s t : State) st, s.mgmtPending = false → s.respondMgmt t st = t) ∧
  (∀ (s t : State) st, s.mgmtPending = true → (s.respondMgmt t st).host.mgmtHead = t.host.mgmtHead + 1 ∧
    (s.respondMgmt t st).mem = (t.sysPut s.host.mgmtPlace 16 (s.host.mgmtHead.toNat + (st % 256 + 2 ^ 56) * 2 ^ 64)).mem) ∧
  (∀ c p s, Answers (.ctxcreate c p) s (s.ctxCreate c p) ∧
    (c < 1024 → (c = 0 → p = false) → ctxValid (s.ctx c) = false → (s.ctxCreate c p).2 = 0 ∧
      ctxValid ((s.ctxCreate c p).1.ctx c) = true ∧ (s.ctxCreate c p).1.ctxState c = (if p then 1 else 2))) ∧
  (∀ c k u s, Answers (.ctxgrant c k u) s (s.ctxGrant c k u) ∧ (s.ctxState c ≠ 1 → (s.ctxGrant c k u).1 = s)) ∧
  (∀ c s, Answers (.teardown c) s (s.tearDown c) ∧
    (s.ctxState c ≠ 1 → s.ctxState c ≠ 2 → c < 1024 → s.tearDown c = (s, 2))) ∧
  (∀ c s, Answers (.ctxfree c) s (s.ctxFree c) ∧
    (c < 1024 → s.ctxState c = 6 → (s.ctxFree c).2 = 0 ∧ ((s.ctxFree c).1.ctx c).ctl = 0)) ∧
  (∀ c k s, Answers (.waveKill c k) s (s.killWaveAt c k) ∧
    ∀ x g, c < 192 → k < 32 → s.wave? (32 * c + k) = some x → s.wg? x.wg = some g →
      (s.killWaveAt c k).2 = 0 ∧ (s.killWaveAt c k).1.wave? (32 * c + k) = none) ∧
  (∀ c n s, Answers (.workgroupKill c n) s (s.killWgsAt c n) ∧
    ((∀ p ∈ s.wgs, p.2.core = c → p.2.wgid ≠ n) → s.killWgsAt c n = (s, 1)) ∧
    ∀ u g, s.wg? u = some g → g.core = c → g.wgid = n → (s.killWgsAt c n).2 = 0 ∧ (s.killWgsAt c n).1.wg? u = none ∧
      ((∀ p ∈ s.wgs, p.2.core = c → p.2.wgid = n → p.1 = u) →
        ((s.killWgsAt c n).1.ctx g.ctx).kill = killRecord n 0 false false)) ∧
  (∀ c s, Answers (.coreReset c) s (if c < 192 then (s.resetCore c, 0) else (s, 1)) ∧ (s.resetCore c).coreCleared c ∧
    ∀ q, q / 4 = c → (s.resetCore c).seq q = Seq.reset) ∧
  (∀ k u s, Answers (.engineReset k u) s (if u < (if k = .port then 16 else 192) then (s.resetEngine k u, 0) else (s, 1)) ∧
    let t := s.resetEngine k u
    (k ≠ .staging → (∀ i x, t.item? i = some x → x.inLeaf (engineLeaf k u) = false) ∧
      ∀ i x o p, s.item? i = some x → x.inLeaf (engineLeaf k u) = true → x.kind = .tile o ∨ (∃ n, x.kind = .segment o n) →
        (∀ e ∈ s.trl.items, e.2.inLeaf (engineLeaf k u) = true → e.1 = i) → s.op? o = some p → p.ready = false → ∃ q, t.op? o = some q ∧ q.killed = true ∧ q.ready = true) ∧
    (k = .staging → ∀ i x, s.item? i = some x → x.decanting = true → x.place = .leaf (dispatchLeaf u) →
      ∃ y, t.item? i = some y ∧ y.decanted = true ∧ y.decanting = false ∧ y.decantFail.isSome = true)) ∧
  (∀ n s, Answers (.trellisNodeFlush n) s (if n < 512 then (s.flushNode n, 0) else (s, 1)) ∧
    ((s.flushNode n).node n).hzn = 0 ∧ ((s.flushNode n).node n).pops = 0 ∧ ((s.flushNode n).node n).aged = 0 ∧
    ((s.flushNode n).node n).ctl = (s.node n).ctl ∧
    ∀ i x rest, (s.flushNode n).item? i = some x → x.place = .tree rest → (s.pathOf x.entry).contains n = false) ∧
  (∀ k s, Answers (.clusterReset k) s (if k < 16 then (s.resetCluster k, 0) else (s, 1)) ∧
    (∀ j, j < 12 → (∀ p ∈ (s.resetCluster k).wgs, p.2.core ≠ 12 * k + j) ∧
      ∀ w, w / 32 = 12 * k + j → (s.resetCluster k).wave? w = none) ∧
    (∀ l ∈ (s.resetCluster k).mem.icache, l.cluster ≠ k) ∧ ∀ e ∈ (s.resetCluster k).mem.tlb, ¬(e.cluster = true ∧ e.unit = k)) ∧
  (∀ d s, Answers (.dieReset d) s (if d < 2 then (s.resetDie d, 0) else (s, 1)) ∧
    (∀ c, dieOfCore c = d → c < 192 → (∀ p ∈ (s.resetDie d).wgs, p.2.core ≠ c) ∧ ∀ w, w / 32 = c → (s.resetDie d).wave? w = none) ∧
    (∀ n ∈ (s.resetDie d).mem.narrow, ¬(n.core = none ∧ n.die = d)) ∧ ∀ l ∈ (s.resetDie d).mem.locks, l.die ≠ d) ∧
  (∀ s, Answers .packageWarmReset s (s.warmReset, 0) ∧ s.warmReset.ops = [] ∧ s.warmReset.timelines = [] ∧
    s.warmReset.cmd.keys = [] ∧ (∀ i, s.warmReset.item? i = none) ∧ (∀ d, (s.warmReset.root d).isOpen = false) ∧
    (∀ p ∈ s.warmReset.wgs, 192 ≤ p.2.core) ∧ (∀ q, (s.warmReset.queue q).ring.bit 0 = false) ∧
    ∀ c, (s.ctx c).ctl.bit 1 = true → s.ctxState c = 1 ∨ s.ctxState c = 2 → s.warmReset.ctxState c = 4) ∧
  (∀ s, exec .coldReset s = .next s.coldReset ∧ s.coldReset.waves = [] ∧ s.coldReset.trl.items = [] ∧
    s.coldReset.mem.cells = s.mem.cells ∧ s.coldReset.cmd.keys = []) ∧
  (∀ off v m s, Answers (.regwrite off v m) s (match regAt off with | some r => (s.writeReg r v m, 0) | none => (s, 1))) ∧
  (∀ (old new mask : DWord) (rw k : Nat), k < 64 →
    (writeBits old new mask rw).getLsbD k = if mask.getLsbD k && rw.testBit k then new.getLsbD k else old.getLsbD k) ∧
  (∀ (s : State) v m c,
    ((s.writeReg (.classA c) v m).classA c = writeBits (s.classA c) v m (bitsMask 49 0) ∧
      ∀ k, k ≠ c → (s.writeReg (.classA c) v m).classA k = s.classA k) ∧
    (s.writeReg (.classB c) v m).classB c = writeBits (s.classB c) v m (bitsMask 15 0) ∧
    (s.writeReg (.trlCore c) v m).trlCore c = writeBits (s.trlCore c) v m (bitsMask 4 0) ∧
    (∀ x, x = s.ctx c →
      (s.writeReg (.ctx c 1) v m).ctx c = { x with xlt := writeBits x.xlt v m (1 + bitsMask 51 15) } ∧
      (s.writeReg (.ctx c 5) v m).ctx c = { x with qos := writeBits x.qos v m (bitsMask 1 0 + bitsMask 55 8) } ∧
      (s.writeReg (.ctx c 6) v m).ctx c = { x with trap := writeBits x.trap v m (1 + bitsMask 59 3) } ∧
      (s.writeReg (.ctx c 7) v m).ctx c = { x with kill := if v.bit 42 && m.bit 42 then x.kill.setFld 42 1 0 else x.kill } ∧
      (s.writeReg (.ctx c 8) v m).ctx c = { x with save := writeBits x.save v m (bitsMask 4 0 + bitsMask 51 22) }) ∧
    (∀ x, x = s.node c → x.count ≠ 0 →
      DWord.fld ((s.writeReg (.node c 0) v m).node c).ctl 0 10 = DWord.fld x.ctl 0 10 ∧ s.writeReg (.node c 2) v m = s) ∧
    ∀ w, s.writeReg (.slot c w) v m = s) ∧
  (∀ k pa n s, Answers (.progloadTrellisSlot k pa n) s (s.loadSlot k pa n) ∧
    (k < 256 → progStatus false (s.progWords pa n 17) = 0 →
      s.loadSlot k pa n = (s.setTrl { s.trl with slots := tput s.trl.slots k (s.progWords pa n 17) }, 0))) ∧
  (∀ l pa n s, Answers (.progloadLeaf l pa n) s (s.loadLeaf l pa n) ∧
    (l < 592 → progStatus true (s.progWords pa n 17) ≠ 0 → s.loadLeaf l pa n = (s, 0x10 + progStatus true (s.progWords pa n 17)))) ∧
  (∀ k pa n s, Answers (.progloadCaskSlot k pa n) s (s.loadCask k pa n) ∧ (256 ≤ k → s.loadCask k pa n = (s, 1))) ∧
  (∀ k l s, Answers (.hbmMapoutRequest k l) s (s.writeMapout (BitVec.ofNat 64 (k % 16 + l % 16 * 16 + 2 ^ 10)) (BitVec.ofNat 64 (255 + 2 ^ 10)), 0)) ∧
  (∀ k l s, exec (.hbmMapoutAutoRequest k l) s = .next (s.mapRequest k l)) ∧
  (∀ s, Answers .hbmMapoutCommit s (s.mapCommit, 0) ∧ (s.mapState = 1 → s.mapCommit.mapState = 2)) ∧
  (∀ s, Answers .hbmMapoutCancel s (s.mapCancel, 0) ∧ (s.mapState = 1 → s.mapCancel.mapState = 0)) ∧
  (∀ s, s.mapState = 2 → ∃ t, exec .hbmMapoutDone s = .next t ∧ t.mapState = 3 ∧
    ∀ pa, s.cmd.pkgId * 2 ^ 45 + bandSize * s.cmd.mapout.fld 4 4 ≤ pa →
      pa < s.cmd.pkgId * 2 ^ 45 + bandSize * s.cmd.mapout.fld 4 4 + bandSize → t.memByte pa = 0) ∧
  ∀ s t, s.rackStep = some t → exec .rackChunk s = .next t

/-- The events of attestation, key release, firmware, telemetry and links (R425, R426, R429, R430, R432 to R434, R411): a connection is
negotiated step by step, keys are released only on what the session has measured, an image becomes active by a switch and goes
back by a revert, an UNOWNED package takes an owner that CLAIM's own pair signs, an owner's TRANSFER tears every protected context down,
and the sensors, the log, the links and the address answer. That GET_VERSION begins the connection anew, ends the session, and replies
are free (log 13), that a device with an owner turns CLAIM down and a trial image's bank is not written (log 27), and what the sensors count
(logs 67, 74) are the model's choice. -/
def Obligations.SecurityEvents : Prop :=
  (∀ s, ∃ t, exec .getVersion s = .next t ∧ t.cmd.versioned = 1 ∧ t.cmd.session = none) ∧
  (∀ s, ∃ t, exec .getCapabilities s = .next t ∧ t.cmd.versioned = if s.cmd.versioned = 1 then 2 else s.cmd.versioned) ∧
  (∀ s, ∃ t, exec .negotiateAlgorithms s = .next t ∧ t.cmd.versioned = if s.cmd.versioned = 2 then 3 else s.cmd.versioned) ∧
  (∀ s, exec .getDigests s = .next s.spdmReply) ∧
  (∀ a b c s, exec (.getCertificate a b c) s = .next s.spdmReply) ∧ (∀ n s, exec (.challenge n) s = .next s.spdmReply) ∧
  (∀ k c n s, ∃ t, exec (.getMeasurements k c n) s = .next t ∧ (s.cmd.versioned ≠ 3 → t = s.spdmReply) ∧
    (s.cmd.versioned = 3 → ∀ x, s.cmd.session = some x → ∃ y, t.cmd.session = some y ∧
      y.transcript = x.transcript ++ (indicesOf k).map fun j => ⟨j, c, n, s.measured j c⟩)) ∧
  (∀ n s, ∃ t, exec (.keyExchange n) s = .next t ∧ (s.cmd.versioned = 3 → t.cmd.session = some ⟨false, []⟩)) ∧
  (∀ s, ∃ t, exec .finish s = .next t ∧ (s.cmd.versioned = 3 → ∀ x, s.cmd.session = some x →
    t.cmd.session = some { x with secured := true })) ∧
  (∀ s, ∃ t, exec .endSession s = .next t ∧ (s.cmd.versioned = 3 → t.cmd.session = none)) ∧
  (∀ c s, ∃ t, exec (.keyrelease c) s = .next t ∧ (s.mayRelease c = false → t = s.send (.spdm 2)) ∧
    (s.mayRelease c = true → t.ctxState c = 2 ∧ (tget t.cmd.keys ((s.ctx c).ctl.fld 5 10)).isSome = true)) ∧
  (∀ i s, ∃ t, exec (.firmwareImageUpdate i) s = .next t ∧ (s.secured = false ∨ s.cmd.fw.trial = true → t = s.send (.pldm 1)) ∧
    (s.secured = true → s.cmd.fw.trial = false → t.cmd.fw.active = s.cmd.fw.active ∧
      t.cmd.fw.bank s.cmd.fw.active = s.cmd.fw.bank s.cmd.fw.active ∧
      t.cmd.fw.bank (!s.cmd.fw.active) = if s.cmd.fw.accepts i then some i else none)) ∧
  (∀ s, ∃ t, exec .activateFirmware s = .next t ∧
    (s.secured = true → s.cmd.fw.trial = false → (s.cmd.fw.bank (!s.cmd.fw.active)).isSome = true → t.cmd.fw.pending = true)) ∧
  (∀ s, s.cmd.fw.pending = true → s.cmd.fw.trial = false → (∀ p ∈ s.host.queues, p.2.inRun = none) → ∃ t, exec .firmwareSwitch s = .next t ∧
    t.cmd.fw = { s.cmd.fw with active := !s.cmd.fw.active, pending := false, trial := true }) ∧
  (∀ s, s.cmd.fw.trial = true → (∃ t, exec .firmwareReady s = .next t ∧ t.cmd.fw.trial = false ∧
      ∀ i, s.cmd.fw.bank s.cmd.fw.active = some i → t.cmd.fw.svnMin = i.svn.toNat) ∧
    ∃ t, exec .firmwareRevert s = .next t ∧
      t.cmd.fw = { s.cmd.fw with active := !s.cmd.fw.active, trial := false, reverted := true }) ∧
  (∀ a b g s, ∃ t, exec (.claim a b g) s = .next t ∧ (s.cmd.fw.owner.isSome = true → t = s.send (.pldm 1)) ∧
    let x := Config.digest384 [a]
    let y := Config.digest384 [b]
    let good := Config.ownEn s.tick && Config.signatureOk x y g && Config.signatureOk y x g
    (good = false → t = s.send (.pldm 1)) ∧
    (s.cmd.fw.owner = none → good = true → t.cmd.fw = { s.cmd.fw with owner := some (x, y) } ∧
      t.host.outbox = s.host.outbox ++ [.pldm 0])) ∧
  (∀ g s, ∃ t, exec (.transfer g) s = .next t ∧ (s.cmd.fw.owner = none → t = s.send (.pldm 1)) ∧
    ∀ x y, s.cmd.fw.owner = some (x, y) →
      ((Config.signatureOk x y g && Config.signatureOk y x g) = false → t = s.send (.pldm 1)) ∧
      (Config.signatureOk x y g = true → Config.signatureOk y x g = true → t.cmd.fw.owner = none ∧
        t.host.outbox.getLast? = some (.pldm 0) ∧
        ∀ c, c < 1024 → ctxProt (s.ctx c) = true → s.ctxState c = 1 ∨ s.ctxState c = 2 → t.ctxState c = 4)) ∧
  (∀ k s, ∃ t, exec (.sensorRead k) s = .next t ∧
    (isSensor k = true → t = s.send (.pldm ((tget s.cmd.sensors k).getD 0)))) ∧
  (∀ k v s, ∃ t, exec (.sensorUpdate k v) s = .next t ∧ (isSensor k = true → tget t.cmd.sensors k = some (s.sensed k v))) ∧
  (∀ s, exec .errorLogRead s = .next (s.send (.logRead s.cmd.log))) ∧
  (∀ p s, ∃ t, exec (.laneFailure p) s = .next t ∧ p ∈ t.cmd.training ∧
    tget t.cmd.badLanes p = some ((tget s.cmd.badLanes p).getD 0 + 1)) ∧
  (∀ p s, ∃ t, exec (.linkRetrainComplete p) s = .next t ∧ p ∉ t.cmd.training) ∧
  (∀ b s, ∃ t, exec (.yclLinkEnumeration b) s = .next t ∧ t.cmd.hbase = some b) ∧
  ∀ a s, ∃ t, exec (.i3cDynamicAddressAssign a) s = .next t ∧ t.cmd.i3c = some a
end

