-- ==== Sys2Proof/Laws/Memory.lean ====
section
/-! SUPPORT. Byte memories: what a byte reads as after a write, and that every operation on memory keeps the canonical form. -/

namespace Sys2Proof.Machine

/-! One byte. -/

theorem cellGet_cellPut (m : List Host.Cell) (a b : Nat) (v : Byte) :
    cellGet (cellPut m a v) b = if b = a then v else cellGet m b := by
  unfold cellGet cellPut
  split
  · rename_i hv
    by_cases hb : b = a
    · subst hb; rw [tget_terase_same, if_pos rfl, hv]; rfl
    · rw [tget_terase_other m hb, if_neg hb]
  · by_cases hb : b = a
    · subst hb; rw [tget_tput_same, if_pos rfl]; rfl
    · rw [tget_tput_other m v hb, if_neg hb]

theorem all_tput {α : Type} (p : Nat × α → Bool) (t : Table α) (n : Nat) (x : α) (h : t.all p = true) (hx : p (n, x) = true) :
    (tput t n x).all p = true := by
  induction t with
  | nil => simp [tput, hx]
  | cons a t ih =>
    obtain ⟨k, v⟩ := a
    rw [List.all_cons, Bool.and_eq_true] at h
    unfold tput
    split
    · simp only [List.all_cons, hx, h.1, h.2, Bool.and_self]
    · split
      · simp only [List.all_cons, hx, h.2, Bool.and_self]
      · simp only [List.all_cons, h.1, ih h.2, Bool.and_self]

theorem all_filter {α : Type} (p q : α → Bool) (l : List α) (h : l.all p = true) : (l.filter q).all p = true := by
  rw [List.all_eq_true] at *
  intro a ha
  exact h a (List.mem_filter.1 ha).1

theorem cellsWf_iff (m : List Host.Cell) : cellsWf m = true ↔ twf m = true ∧ (m.all fun c => c.2 != 0) = true := by
  unfold cellsWf
  rw [Bool.and_eq_true]

theorem cellsWf_filter (m : List Host.Cell) (p : Host.Cell → Bool) (h : cellsWf m = true) : cellsWf (m.filter p) = true := by
  rw [cellsWf_iff] at *
  exact ⟨twf_filter _ _ h.1, all_filter _ _ _ h.2⟩

theorem cellsWf_cellPut (m : List Host.Cell) (a : Nat) (v : Byte) (h : cellsWf m = true) : cellsWf (cellPut m a v) = true := by
  unfold cellPut
  split
  · exact cellsWf_filter _ _ h
  · rename_i hv
    rw [cellsWf_iff] at *
    exact ⟨twf_tput _ _ _ h.1, all_tput _ _ _ _ h.2 (by simpa using hv)⟩

theorem cellsWf_cellsPut (n : Nat) (m : List Host.Cell) (a v : Nat) (h : cellsWf m = true) : cellsWf (cellsPut m a n v) = true := by
  induction n generalizing m a v with
  | zero => exact h
  | succ n ih => exact ih _ _ _ (cellsWf_cellPut _ _ _ h)

theorem cellsWf_cellsClear (m : List Host.Cell) (a n : Nat) (h : cellsWf m = true) : cellsWf (cellsClear m a n) = true :=
  cellsWf_filter _ _ h

theorem cellGet_cellsClear (m : List Host.Cell) (a n b : Nat) :
    cellGet (cellsClear m a n) b = if a ≤ b ∧ b < a + n then 0 else cellGet m b := by
  unfold cellsClear cellGet
  induction m with
  | nil => simp
  | cons c m ih =>
    obtain ⟨k, v⟩ := c
    rw [List.filter_cons]
    split
    · rename_i hk
      simp only [tget]
      split
      · rename_i hb
        subst hb
        simp only [Bool.or_eq_true, decide_eq_true_eq] at hk
        rw [if_neg (by omega)]
      · exact ih
    · rename_i hk
      simp only [tget]
      rw [ih]
      split
      · rfl
      · rename_i hn
        simp only [Bool.or_eq_true, decide_eq_true_eq] at hk
        rw [if_neg (by omega)]

/-! Memory. -/

/-- Memory in canonical form before an operation is so after it. -/
structure State.keepsForm (s t : State) : Prop where
  out : s.mem.wf = true → t.mem.wf = true

theorem State.keepsForm_refl (s : State) : s.keepsForm s := ⟨id⟩
theorem State.keepsForm_trans {s t u : State} (h : s.keepsForm t) (k : t.keepsForm u) : s.keepsForm u := ⟨fun w => k.out (h.out w)⟩
theorem State.keepsForm_mem {s t : State} (h : t.mem.cells = s.mem.cells) : s.keepsForm t := by
  refine ⟨?_⟩
  unfold Mem.wf
  rw [h]
  exact id

theorem State.keepsForm_ite {s : State} {c : Prop} [Decidable c] {a b : State} (h : s.keepsForm a) (k : s.keepsForm b) :
    s.keepsForm (if c then a else b) := by split <;> assumption

theorem State.keepsForm_foldl {α : Type} {f : State → α → State} (h : ∀ (s : State) (a : α), s.keepsForm (f s a)) (l : List α)
    (s : State) : s.keepsForm (l.foldl f s) := by
  induction l generalizing s with
  | nil => exact s.keepsForm_refl
  | cons a l ih => exact State.keepsForm_trans (h s a) (ih _)

theorem State.keepsForm_pokeCell (s : State) (pa : Nat) (b : Byte) : s.keepsForm (s.pokeCell pa b) :=
  State.keepsForm_ite s.keepsForm_refl ⟨fun h => cellsWf_cellPut _ _ _ h⟩

theorem State.keepsForm_thenPoke {s t : State} (h : s.keepsForm t) (pa : Nat) (b : Byte) : s.keepsForm (t.pokeCell pa b) :=
  State.keepsForm_trans h (t.keepsForm_pokeCell pa b)

theorem State.keepsForm_thenMem {s t : State} (h : s.keepsForm t) (m : Mem) (hm : m.cells = t.mem.cells) : s.keepsForm (t.setMem m) :=
  State.keepsForm_trans h (State.keepsForm_mem hm)

theorem State.keepsForm_widen (s : State) (n : NarrowByte) (k : Nat) : s.keepsForm (s.widen n k) := by
  unfold State.widen
  dsimp only
  refine State.keepsForm_ite s.keepsForm_refl (State.keepsForm_ite (State.keepsForm_ite s.keepsForm_refl ?_) ?_)
  · exact State.keepsForm_mem rfl
  · refine State.keepsForm_thenPoke ?_ _ _
    exact State.keepsForm_mem rfl

theorem State.keepsForm_clearWhole (s : State) (l : List NarrowByte) : s.keepsForm (s.clearWhole l) := State.keepsForm_mem rfl

theorem State.keepsForm_widenAll (s : State) (p : NarrowByte → Bool) (k : Nat) : s.keepsForm (s.widenAll p k) := by
  unfold State.widenAll
  dsimp only
  have h (l : List NarrowByte) : s.keepsForm (l.foldl (fun s n => s.widen n k) s) := State.keepsForm_foldl (fun s n => s.keepsForm_widen n k) _ _
  exact State.keepsForm_ite (State.keepsForm_trans (h _) (State.keepsForm_clearWhole _ _)) (h _)

theorem State.keepsForm_perform (s : State) (c k : Nat) (p : NarrowByte → Bool) : s.keepsForm (s.perform c k p) :=
  s.keepsForm_widenAll ..
theorem State.keepsForm_gather (s : State) (a n : Nat) : s.keepsForm (s.gather a n) := s.keepsForm_widenAll ..
theorem State.keepsForm_gatherDies (s : State) (c a n : Nat) : s.keepsForm (s.gatherDies c a n) := s.keepsForm_widenAll ..
theorem State.keepsForm_settle (s : State) (c k a n : Nat) : s.keepsForm (s.settle c k a n) :=
  State.keepsForm_ite s.keepsForm_refl (s.keepsForm_widenAll ..)

theorem State.keepsForm_storeByte (s : State) (a : Who) (k n va pa : Nat) (b : Byte) : s.keepsForm (s.storeByte a k n va pa b) := by
  unfold State.storeByte
  dsimp only
  refine State.keepsForm_ite (State.keepsForm_mem rfl) (State.keepsForm_ite (State.keepsForm_mem rfl) ?_)
  refine State.keepsForm_thenPoke ?_ _ _
  exact State.keepsForm_mem rfl

theorem State.keepsForm_heal (s : State) (c k : Nat) (l : List (Nat × Nat)) : s.keepsForm (s.heal c k l) := by
  unfold State.heal
  exact State.keepsForm_ite (State.keepsForm_mem rfl) (State.keepsForm_ite s.keepsForm_refl (State.keepsForm_mem rfl))

theorem State.keepsForm_storeNat (s : State) (a : Who) (k va pa n x : Nat) : s.keepsForm (s.storeNat a k va pa n x) := by
  unfold State.storeNat
  dsimp only
  refine State.keepsForm_trans ?_ (State.keepsForm_heal _ _ _ _)
  have h1 : s.keepsForm (if k ≥ 4 then s.gather pa n else s.settle a.core k pa n) :=
    State.keepsForm_ite (s.keepsForm_gather ..) (s.keepsForm_settle ..)
  refine State.keepsForm_trans h1 ?_
  generalize (if k ≥ 4 then s.gather pa n else s.settle a.core k pa n) = t
  have h2 : t.keepsForm ((List.range n).foldl
      (fun s k' => s.storeByte a k (if n ≤ 16 then 16 else 64) (va + k') (pa + k') (BitVec.ofNat 8 (x / 256 ^ k'))) t) :=
    State.keepsForm_foldl (fun s _ => s.keepsForm_storeByte ..) _ _
  refine State.keepsForm_trans h2 ?_
  exact State.keepsForm_ite (State.keepsForm_mem rfl) (State.keepsForm_refl _)

theorem State.keepsForm_sysPut (s : State) (pa n x : Nat) : s.keepsForm (s.sysPut pa n x) := by
  unfold State.sysPut
  split
  · exact State.keepsForm_mem rfl
  · exact s.keepsForm_refl
  · exact s.keepsForm_refl
  · exact s.keepsForm_storeNat ..

theorem State.keepsForm_loadNat (s : State) (c k pa n : Nat) : s.keepsForm (s.loadNat c k pa n).1 := s.keepsForm_settle ..

theorem State.keepsForm_touch (s : State) (a e : Nat) (w : Bool) : s.keepsForm (s.touch a e w).1 := by
  unfold State.touch
  dsimp only
  generalize (2 ^ 10 ||| if w = true then 2 ^ 11 else 0) = e'
  split
  · exact s.keepsForm_refl
  · exact State.keepsForm_trans (s.keepsForm_gather a 8) (State.keepsForm_sysPut ..)

theorem State.keepsForm_readLoc (s : State) (x : Issue) (k : Nat) (c : Loc) (n : Nat) : s.keepsForm (s.readLoc x k c n).1 := by
  cases c
  · exact s.keepsForm_loadNat ..
  · exact State.keepsForm_mem rfl
  · exact s.keepsForm_refl

theorem State.keepsForm_writeLoc (s : State) (x : Issue) (k : Nat) (va : DWord) (c : Loc) (n v : Nat) :
    s.keepsForm (s.writeLoc x k va c n v) := by
  cases c
  · exact s.keepsForm_storeNat ..
  · exact State.keepsForm_mem rfl
  · exact State.keepsForm_mem rfl

theorem State.keepsForm_readLanes (s : State) (x : Issue) (k n : Nat) (l : List LaneLoc) : s.keepsForm (s.readLanes x k n l).1 := by
  induction l generalizing s with
  | nil => exact s.keepsForm_refl
  | cons p l ih => exact State.keepsForm_trans (s.keepsForm_readLoc x k p.loc n) (ih _)

theorem State.keepsForm_gatherLoc (s : State) (c k : Nat) (l : Loc) (n : Nat) : s.keepsForm (s.gatherLoc c k l n) := by
  cases l
  · exact State.keepsForm_ite (s.keepsForm_gatherDies ..) (s.keepsForm_gather ..)
  · exact s.keepsForm_refl
  · exact s.keepsForm_refl

theorem State.keepsForm_stepLoc (s : State) (x : Issue) (k n op : Nat) (args : List Byte) (p : LaneLoc) (new : Nat → Nat) :
    s.keepsForm (s.stepLoc x k n op args p new).1 := by
  unfold State.stepLoc
  split
  · exact State.keepsForm_mem rfl
  · dsimp only
    have h : s.keepsForm ((s.gatherLoc x.core k p.loc n).readLoc x k p.loc n).1 :=
      State.keepsForm_trans (s.keepsForm_gatherLoc ..) (State.keepsForm_readLoc ..)
    split
    · exact h
    · exact State.keepsForm_trans h (State.keepsForm_writeLoc ..)

theorem State.keepsForm_stepLanes (s : State) (x : Issue) (k n op : Nat) (args : Nat → List Byte) (new : Nat → Nat → Nat)
    (l : List LaneLoc) : s.keepsForm (s.stepLanes x k n op args new l).1 := by
  induction l generalizing s with
  | nil => exact s.keepsForm_refl
  | cons p l ih => exact State.keepsForm_trans (s.keepsForm_stepLoc x k n op (args p.lane) p (new p.lane)) (ih _)

/-- Memory after reset is in canonical form. -/
theorem State.reset_memory_wf : State.reset.mem.wf = true := by decide

end Sys2Proof.Machine
end

