-- ==== Sys2Proof/Laws/PerInstr.lean ====
section
/-! SUPPORT. Statements made of every instruction as syntax, one lemma per constructor. -/

namespace Sys2Proof.Laws

/-- The parts of an instruction's word fit their places: the opcode in bits [63:56], the rest below it (R78 to R85). -/
def Encoded.Statement (i : Instr) : Prop := ∀ op r, encodeParts i = some (op, r) → op < 256 ∧ r < 2 ^ 56

theorem bit1_le (b : Bool) : bit1 b ≤ 1 := by cases b <;> decide

theorem encGuard_lt (g : Guard) : encGuard g ≤ 2 ^ 56 - 2 ^ 52 := by
  unfold encGuard
  have := bit1_le g.neg
  have := g.p.isLt
  omega

theorem encSrc_lt (x : Src) (lo : Nat) : encSrc x lo ≤ 2047 * 2 ^ lo := by
  obtain ⟨k, l, n⟩ := x
  have h := n.isLt
  have hl := bit1_le l
  unfold encSrc
  rw [Nat.pow_add, Nat.pow_add]
  have h1 : bit1 l * (2 ^ lo * 2 ^ 8) ≤ 1 * (2 ^ lo * 2 ^ 8) := Nat.mul_le_mul_right _ hl
  have h2 : n.toNat * 2 ^ lo ≤ 255 * 2 ^ lo := Nat.mul_le_mul_right _ (by omega)
  generalize bit1 l * (2 ^ lo * 2 ^ 8) = a at *
  generalize n.toNat * 2 ^ lo = b at *
  generalize 2 ^ lo = p at *
  cases k <;> dsimp only <;> omega

theorem tyCode_lt (t : Ty) : tyCode t < 16 := by cases t <;> decide
theorem rndCode_lt (r : Rnd) : rndCode r < 4 := by cases r <;> decide

theorem encVR_lt (f : VR) : encVR f < 2 ^ 56 := by
  unfold encVR
  have h0 := encGuard_lt f.g
  have h1 := f.dst.isLt
  have h2 := encSrc_lt f.a 31
  have h3 := encSrc_lt f.b 20
  have h4 := encSrc_lt f.c 9
  have h5 := tyCode_lt f.ty
  have h6 := rndCode_lt f.rnd
  have h7 := bit1_le f.sat
  have h8 := f.sub.isLt
  cases f.dk <;> dsimp only <;> omega

theorem encVI_lt (f : VI) : encVI f < 2 ^ 56 := by
  unfold encVI
  have h0 := encGuard_lt f.g
  have h1 := f.dst.isLt
  have h2 := f.a.isLt
  have h3 := f.r.isLt
  have h4 := f.imm.isLt
  omega

theorem encM_lt (f : M) : encM f < 2 ^ 56 := by
  unfold encM
  have h0 := encGuard_lt f.g
  have h1 := f.data.isLt
  have h2 := bit1_le f.last
  have h3 := encSrc_lt f.base 32
  have h4 := encSrc_lt f.index 21
  have h5 := f.width.isLt
  have h6 := f.scope.isLt
  have h7 := f.order.isLt
  have h8 := f.cache.isLt
  have h9 := f.off.isLt
  omega

theorem encE_lt (f : E) : encE f < 2 ^ 56 := by
  unfold encE
  have h0 := encGuard_lt f.g
  have h1 := f.blk.isLt
  have h2 := bit1_le f.last
  have h3 := f.tl.isLt
  have h4 := f.cls.isLt
  have h5 := f.aux.isLt
  have h6 := f.imm.isLt
  omega

theorem encB_lt (f : B) : encB f < 2 ^ 56 := by
  unfold encB
  have h0 := encGuard_lt f.g
  have h1 := f.link.isLt
  have h2 := bit1_le f.last
  have h3 := f.mid.isLt
  have h4 := f.off.isLt
  omega

theorem encS_lt (f : S) : encS f < 2 ^ 56 := by
  unfold encS
  have h0 := encGuard_lt f.g
  have h1 := f.dst.isLt
  have h2 := encSrc_lt f.a 33
  have h3 := f.sr.isLt
  have h4 := f.imm.isLt
  omega

theorem Encoded.nop (f : B) : Encoded.Statement (.nop f) := by rintro op r ⟨⟩; exact ⟨by decide, encB_lt f⟩
theorem Encoded.bra (f : B) : Encoded.Statement (.bra f) := by rintro op r ⟨⟩; exact ⟨by decide, encB_lt f⟩
theorem Encoded.brx (f : B) : Encoded.Statement (.brx f) := by rintro op r ⟨⟩; exact ⟨by decide, encB_lt f⟩
theorem Encoded.call (f : B) : Encoded.Statement (.call f) := by rintro op r ⟨⟩; exact ⟨by decide, encB_lt f⟩
theorem Encoded.ret (f : B) : Encoded.Statement (.ret f) := by rintro op r ⟨⟩; exact ⟨by decide, encB_lt f⟩
theorem Encoded.join (f : B) : Encoded.Statement (.join f) := by rintro op r ⟨⟩; exact ⟨by decide, encB_lt f⟩
theorem Encoded.exit (f : B) : Encoded.Statement (.exit f) := by rintro op r ⟨⟩; exact ⟨by decide, encB_lt f⟩
theorem Encoded.yield (f : B) : Encoded.Statement (.yield f) := by rintro op r ⟨⟩; exact ⟨by decide, encB_lt f⟩
theorem Encoded.trap (f : B) : Encoded.Statement (.trap f) := by rintro op r ⟨⟩; exact ⟨by decide, encB_lt f⟩
theorem Encoded.rett (f : B) : Encoded.Statement (.rett f) := by rintro op r ⟨⟩; exact ⟨by decide, encB_lt f⟩
theorem Encoded.mcall (f : B) : Encoded.Statement (.mcall f) := by rintro op r ⟨⟩; exact ⟨by decide, encB_lt f⟩
theorem Encoded.mdef (f : B) : Encoded.Statement (.mdef f) := by rintro op r ⟨⟩; exact ⟨by decide, encB_lt f⟩
theorem Encoded.brkpt (f : B) : Encoded.Statement (.brkpt f) := by rintro op r ⟨⟩; exact ⟨by decide, encB_lt f⟩
theorem Encoded.iadd (f : VR) : Encoded.Statement (.iadd f) := by rintro op r ⟨⟩; exact ⟨by decide, encVR_lt f⟩
theorem Encoded.isub (f : VR) : Encoded.Statement (.isub f) := by rintro op r ⟨⟩; exact ⟨by decide, encVR_lt f⟩
theorem Encoded.imul (f : VR) : Encoded.Statement (.imul f) := by rintro op r ⟨⟩; exact ⟨by decide, encVR_lt f⟩
theorem Encoded.imulh (f : VR) : Encoded.Statement (.imulh f) := by rintro op r ⟨⟩; exact ⟨by decide, encVR_lt f⟩
theorem Encoded.imad (f : VR) : Encoded.Statement (.imad f) := by rintro op r ⟨⟩; exact ⟨by decide, encVR_lt f⟩
theorem Encoded.iaddc (f : VR) : Encoded.Statement (.iaddc f) := by rintro op r ⟨⟩; exact ⟨by decide, encVR_lt f⟩
theorem Encoded.isubb (f : VR) : Encoded.Statement (.isubb f) := by rintro op r ⟨⟩; exact ⟨by decide, encVR_lt f⟩
theorem Encoded.iabs (f : VR) : Encoded.Statement (.iabs f) := by rintro op r ⟨⟩; exact ⟨by decide, encVR_lt f⟩
theorem Encoded.ineg (f : VR) : Encoded.Statement (.ineg f) := by rintro op r ⟨⟩; exact ⟨by decide, encVR_lt f⟩
theorem Encoded.imin (f : VR) : Encoded.Statement (.imin f) := by rintro op r ⟨⟩; exact ⟨by decide, encVR_lt f⟩
theorem Encoded.imax (f : VR) : Encoded.Statement (.imax f) := by rintro op r ⟨⟩; exact ⟨by decide, encVR_lt f⟩
theorem Encoded.nmin (f : VR) : Encoded.Statement (.nmin f) := by rintro op r ⟨⟩; exact ⟨by decide, encVR_lt f⟩
theorem Encoded.nmax (f : VR) : Encoded.Statement (.nmax f) := by rintro op r ⟨⟩; exact ⟨by decide, encVR_lt f⟩
theorem Encoded.lea (f : VR) : Encoded.Statement (.lea f) := by rintro op r ⟨⟩; exact ⟨by decide, encVR_lt f⟩
theorem Encoded.mov (f : VR) : Encoded.Statement (.mov f) := by rintro op r ⟨⟩; exact ⟨by decide, encVR_lt f⟩
theorem Encoded.movi (f : VI) : Encoded.Statement (.movi f) := by rintro op r ⟨⟩; exact ⟨by decide, encVI_lt f⟩
theorem Encoded.and (f : VR) : Encoded.Statement (.and f) := by rintro op r ⟨⟩; exact ⟨by decide, encVR_lt f⟩
theorem Encoded.or (f : VR) : Encoded.Statement (.or f) := by rintro op r ⟨⟩; exact ⟨by decide, encVR_lt f⟩
theorem Encoded.xor (f : VR) : Encoded.Statement (.xor f) := by rintro op r ⟨⟩; exact ⟨by decide, encVR_lt f⟩
theorem Encoded.andn (f : VR) : Encoded.Statement (.andn f) := by rintro op r ⟨⟩; exact ⟨by decide, encVR_lt f⟩
theorem Encoded.not (f : VR) : Encoded.Statement (.not f) := by rintro op r ⟨⟩; exact ⟨by decide, encVR_lt f⟩
theorem Encoded.bmix (f : VR) : Encoded.Statement (.bmix f) := by rintro op r ⟨⟩; exact ⟨by decide, encVR_lt f⟩
theorem Encoded.shl (f : VR) : Encoded.Statement (.shl f) := by rintro op r ⟨⟩; exact ⟨by decide, encVR_lt f⟩
theorem Encoded.shr (f : VR) : Encoded.Statement (.shr f) := by rintro op r ⟨⟩; exact ⟨by decide, encVR_lt f⟩
theorem Encoded.sar (f : VR) : Encoded.Statement (.sar f) := by rintro op r ⟨⟩; exact ⟨by decide, encVR_lt f⟩
theorem Encoded.rol (f : VR) : Encoded.Statement (.rol f) := by rintro op r ⟨⟩; exact ⟨by decide, encVR_lt f⟩
theorem Encoded.bfe (f : VR) : Encoded.Statement (.bfe f) := by rintro op r ⟨⟩; exact ⟨by decide, encVR_lt f⟩
theorem Encoded.bfi (f : VR) : Encoded.Statement (.bfi f) := by rintro op r ⟨⟩; exact ⟨by decide, encVR_lt f⟩
theorem Encoded.popc (f : VR) : Encoded.Statement (.popc f) := by rintro op r ⟨⟩; exact ⟨by decide, encVR_lt f⟩
theorem Encoded.clz (f : VR) : Encoded.Statement (.clz f) := by rintro op r ⟨⟩; exact ⟨by decide, encVR_lt f⟩
theorem Encoded.brev (f : VR) : Encoded.Statement (.brev f) := by rintro op r ⟨⟩; exact ⟨by decide, encVR_lt f⟩
theorem Encoded.bperm (f : VR) : Encoded.Statement (.bperm f) := by rintro op r ⟨⟩; exact ⟨by decide, encVR_lt f⟩
theorem Encoded.fadd (f : VR) : Encoded.Statement (.fadd f) := by rintro op r ⟨⟩; exact ⟨by decide, encVR_lt f⟩
theorem Encoded.fsub (f : VR) : Encoded.Statement (.fsub f) := by rintro op r ⟨⟩; exact ⟨by decide, encVR_lt f⟩
theorem Encoded.fmul (f : VR) : Encoded.Statement (.fmul f) := by rintro op r ⟨⟩; exact ⟨by decide, encVR_lt f⟩
theorem Encoded.ffma (f : VR) : Encoded.Statement (.ffma f) := by rintro op r ⟨⟩; exact ⟨by decide, encVR_lt f⟩
theorem Encoded.fmin (f : VR) : Encoded.Statement (.fmin f) := by rintro op r ⟨⟩; exact ⟨by decide, encVR_lt f⟩
theorem Encoded.fmax (f : VR) : Encoded.Statement (.fmax f) := by rintro op r ⟨⟩; exact ⟨by decide, encVR_lt f⟩
theorem Encoded.fabs (f : VR) : Encoded.Statement (.fabs f) := by rintro op r ⟨⟩; exact ⟨by decide, encVR_lt f⟩
theorem Encoded.fneg (f : VR) : Encoded.Statement (.fneg f) := by rintro op r ⟨⟩; exact ⟨by decide, encVR_lt f⟩
theorem Encoded.frnd (f : VR) : Encoded.Statement (.frnd f) := by rintro op r ⟨⟩; exact ⟨by decide, encVR_lt f⟩
theorem Encoded.frcp (f : VR) : Encoded.Statement (.frcp f) := by rintro op r ⟨⟩; exact ⟨by decide, encVR_lt f⟩
theorem Encoded.frsq (f : VR) : Encoded.Statement (.frsq f) := by rintro op r ⟨⟩; exact ⟨by decide, encVR_lt f⟩
theorem Encoded.fsqrt (f : VR) : Encoded.Statement (.fsqrt f) := by rintro op r ⟨⟩; exact ⟨by decide, encVR_lt f⟩
theorem Encoded.fexp2 (f : VR) : Encoded.Statement (.fexp2 f) := by rintro op r ⟨⟩; exact ⟨by decide, encVR_lt f⟩
theorem Encoded.flog2 (f : VR) : Encoded.Statement (.flog2 f) := by rintro op r ⟨⟩; exact ⟨by decide, encVR_lt f⟩
theorem Encoded.fsincos (f : VR) : Encoded.Statement (.fsincos f) := by rintro op r ⟨⟩; exact ⟨by decide, encVR_lt f⟩
theorem Encoded.fclass (f : VR) : Encoded.Statement (.fclass f) := by rintro op r ⟨⟩; exact ⟨by decide, encVR_lt f⟩
theorem Encoded.cvt (f : VR) : Encoded.Statement (.cvt f) := by rintro op r ⟨⟩; exact ⟨by decide, encVR_lt f⟩
theorem Encoded.cvtsr (f : VR) : Encoded.Statement (.cvtsr f) := by rintro op r ⟨⟩; exact ⟨by decide, encVR_lt f⟩
theorem Encoded.fdot2 (f : VR) : Encoded.Statement (.fdot2 f) := by rintro op r ⟨⟩; exact ⟨by decide, encVR_lt f⟩
theorem Encoded.qamax (f : VR) : Encoded.Statement (.qamax f) := by rintro op r ⟨⟩; exact ⟨by decide, encVR_lt f⟩
theorem Encoded.qscale (f : VR) : Encoded.Statement (.qscale f) := by rintro op r ⟨⟩; exact ⟨by decide, encVR_lt f⟩
theorem Encoded.qpack (f : VR) : Encoded.Statement (.qpack f) := by rintro op r ⟨⟩; exact ⟨by decide, encVR_lt f⟩
theorem Encoded.qunpk (f : VR) : Encoded.Statement (.qunpk f) := by rintro op r ⟨⟩; exact ⟨by decide, encVR_lt f⟩
theorem Encoded.icmp (f : VR) : Encoded.Statement (.icmp f) := by rintro op r ⟨⟩; exact ⟨by decide, encVR_lt f⟩
theorem Encoded.ncmp (f : VR) : Encoded.Statement (.ncmp f) := by rintro op r ⟨⟩; exact ⟨by decide, encVR_lt f⟩
theorem Encoded.fcmp (f : VR) : Encoded.Statement (.fcmp f) := by rintro op r ⟨⟩; exact ⟨by decide, encVR_lt f⟩
theorem Encoded.sel (f : VR) : Encoded.Statement (.sel f) := by rintro op r ⟨⟩; exact ⟨by decide, encVR_lt f⟩
theorem Encoded.plop (f : VR) : Encoded.Statement (.plop f) := by rintro op r ⟨⟩; exact ⟨by decide, encVR_lt f⟩
theorem Encoded.pmov (f : VR) : Encoded.Statement (.pmov f) := by rintro op r ⟨⟩; exact ⟨by decide, encVR_lt f⟩
theorem Encoded.ballot (f : VR) : Encoded.Statement (.ballot f) := by rintro op r ⟨⟩; exact ⟨by decide, encVR_lt f⟩
theorem Encoded.lrank (f : VR) : Encoded.Statement (.lrank f) := by rintro op r ⟨⟩; exact ⟨by decide, encVR_lt f⟩
theorem Encoded.shfl (f : VR) : Encoded.Statement (.shfl f) := by rintro op r ⟨⟩; exact ⟨by decide, encVR_lt f⟩
theorem Encoded.bcast (f : VR) : Encoded.Statement (.bcast f) := by rintro op r ⟨⟩; exact ⟨by decide, encVR_lt f⟩
theorem Encoded.rdlane (f : VR) : Encoded.Statement (.rdlane f) := by rintro op r ⟨⟩; exact ⟨by decide, encVR_lt f⟩
theorem Encoded.wrlane (f : VR) : Encoded.Statement (.wrlane f) := by rintro op r ⟨⟩; exact ⟨by decide, encVR_lt f⟩
theorem Encoded.reduce (f : VR) : Encoded.Statement (.reduce f) := by rintro op r ⟨⟩; exact ⟨by decide, encVR_lt f⟩
theorem Encoded.scan (f : VR) : Encoded.Statement (.scan f) := by rintro op r ⟨⟩; exact ⟨by decide, encVR_lt f⟩
theorem Encoded.compress (f : VR) : Encoded.Statement (.compress f) := by rintro op r ⟨⟩; exact ⟨by decide, encVR_lt f⟩
theorem Encoded.expand (f : VR) : Encoded.Statement (.expand f) := by rintro op r ⟨⟩; exact ⟨by decide, encVR_lt f⟩
theorem Encoded.active (f : VR) : Encoded.Statement (.active f) := by rintro op r ⟨⟩; exact ⟨by decide, encVR_lt f⟩
theorem Encoded.rdsr (f : S) : Encoded.Statement (.rdsr f) := by rintro op r ⟨⟩; exact ⟨by decide, encS_lt f⟩
theorem Encoded.wrsr (f : S) : Encoded.Statement (.wrsr f) := by rintro op r ⟨⟩; exact ⟨by decide, encS_lt f⟩
theorem Encoded.gwr (f : S) : Encoded.Statement (.gwr f) := by rintro op r ⟨⟩; exact ⟨by decide, encS_lt f⟩
theorem Encoded.gclaim (f : S) : Encoded.Statement (.gclaim f) := by rintro op r ⟨⟩; exact ⟨by decide, encS_lt f⟩
theorem Encoded.rdclk (f : S) : Encoded.Statement (.rdclk f) := by rintro op r ⟨⟩; exact ⟨by decide, encS_lt f⟩
theorem Encoded.relr (f : S) : Encoded.Statement (.relr f) := by rintro op r ⟨⟩; exact ⟨by decide, encS_lt f⟩
theorem Encoded.ldg (f : M) : Encoded.Statement (.ldg f) := by rintro op r ⟨⟩; exact ⟨by decide, encM_lt f⟩
theorem Encoded.lds (f : M) : Encoded.Statement (.lds f) := by rintro op r ⟨⟩; exact ⟨by decide, encM_lt f⟩
theorem Encoded.ldx (f : M) : Encoded.Statement (.ldx f) := by rintro op r ⟨⟩; exact ⟨by decide, encM_lt f⟩
theorem Encoded.ldb (f : M) : Encoded.Statement (.ldb f) := by rintro op r ⟨⟩; exact ⟨by decide, encM_lt f⟩
theorem Encoded.exld (f : M) : Encoded.Statement (.exld f) := by rintro op r ⟨⟩; exact ⟨by decide, encM_lt f⟩
theorem Encoded.pfg (f : M) : Encoded.Statement (.pfg f) := by rintro op r ⟨⟩; exact ⟨by decide, encM_lt f⟩
theorem Encoded.ldc (f : M) : Encoded.Statement (.ldc f) := by rintro op r ⟨⟩; exact ⟨by decide, encM_lt f⟩
theorem Encoded.stg (f : M) : Encoded.Statement (.stg f) := by rintro op r ⟨⟩; exact ⟨by decide, encM_lt f⟩
theorem Encoded.sts (f : M) : Encoded.Statement (.sts f) := by rintro op r ⟨⟩; exact ⟨by decide, encM_lt f⟩
theorem Encoded.stx (f : M) : Encoded.Statement (.stx f) := by rintro op r ⟨⟩; exact ⟨by decide, encM_lt f⟩
theorem Encoded.stb (f : M) : Encoded.Statement (.stb f) := by rintro op r ⟨⟩; exact ⟨by decide, encM_lt f⟩
theorem Encoded.cstg (f : M) : Encoded.Statement (.cstg f) := by rintro op r ⟨⟩; exact ⟨by decide, encM_lt f⟩
theorem Encoded.llock (f : M) : Encoded.Statement (.llock f) := by rintro op r ⟨⟩; exact ⟨by decide, encM_lt f⟩
theorem Encoded.lunlk (f : M) : Encoded.Statement (.lunlk f) := by rintro op r ⟨⟩; exact ⟨by decide, encM_lt f⟩
theorem Encoded.cflush (f : M) : Encoded.Statement (.cflush f) := by rintro op r ⟨⟩; exact ⟨by decide, encM_lt f⟩
theorem Encoded.cinv (f : M) : Encoded.Statement (.cinv f) := by rintro op r ⟨⟩; exact ⟨by decide, encM_lt f⟩
theorem Encoded.halloc (f : M) : Encoded.Statement (.halloc f) := by rintro op r ⟨⟩; exact ⟨by decide, encM_lt f⟩
theorem Encoded.hfree (f : M) : Encoded.Statement (.hfree f) := by rintro op r ⟨⟩; exact ⟨by decide, encM_lt f⟩
theorem Encoded.atomg (f : M) : Encoded.Statement (.atomg f) := by rintro op r ⟨⟩; exact ⟨by decide, encM_lt f⟩
theorem Encoded.atoms (f : M) : Encoded.Statement (.atoms f) := by rintro op r ⟨⟩; exact ⟨by decide, encM_lt f⟩
theorem Encoded.atomx (f : M) : Encoded.Statement (.atomx f) := by rintro op r ⟨⟩; exact ⟨by decide, encM_lt f⟩
theorem Encoded.redg (f : M) : Encoded.Statement (.redg f) := by rintro op r ⟨⟩; exact ⟨by decide, encM_lt f⟩
theorem Encoded.reds (f : M) : Encoded.Statement (.reds f) := by rintro op r ⟨⟩; exact ⟨by decide, encM_lt f⟩
theorem Encoded.xred (f : M) : Encoded.Statement (.xred f) := by rintro op r ⟨⟩; exact ⟨by decide, encM_lt f⟩
theorem Encoded.xrd (f : M) : Encoded.Statement (.xrd f) := by rintro op r ⟨⟩; exact ⟨by decide, encM_lt f⟩
theorem Encoded.bar (f : M) : Encoded.Statement (.bar f) := by rintro op r ⟨⟩; exact ⟨by decide, encM_lt f⟩
theorem Encoded.barc (f : M) : Encoded.Statement (.barc f) := by rintro op r ⟨⟩; exact ⟨by decide, encM_lt f⟩
theorem Encoded.fence (f : M) : Encoded.Statement (.fence f) := by rintro op r ⟨⟩; exact ⟨by decide, encM_lt f⟩
theorem Encoded.syacq (f : M) : Encoded.Statement (.syacq f) := by rintro op r ⟨⟩; exact ⟨by decide, encM_lt f⟩
theorem Encoded.syrel (f : M) : Encoded.Statement (.syrel f) := by rintro op r ⟨⟩; exact ⟨by decide, encM_lt f⟩
theorem Encoded.sybind (f : M) : Encoded.Statement (.sybind f) := by rintro op r ⟨⟩; exact ⟨by decide, encM_lt f⟩
theorem Encoded.mwatch (f : M) : Encoded.Statement (.mwatch f) := by rintro op r ⟨⟩; exact ⟨by decide, encM_lt f⟩
theorem Encoded.mwait (f : M) : Encoded.Statement (.mwait f) := by rintro op r ⟨⟩; exact ⟨by decide, encM_lt f⟩
theorem Encoded.waittl (f : M) : Encoded.Statement (.waittl f) := by rintro op r ⟨⟩; exact ⟨by decide, encM_lt f⟩
theorem Encoded.ordw (f : M) : Encoded.Statement (.ordw f) := by rintro op r ⟨⟩; exact ⟨by decide, encM_lt f⟩
theorem Encoded.orda (f : M) : Encoded.Statement (.orda f) := by rintro op r ⟨⟩; exact ⟨by decide, encM_lt f⟩
theorem Encoded.waitq (f : M) : Encoded.Statement (.waitq f) := by rintro op r ⟨⟩; exact ⟨by decide, encM_lt f⟩
theorem Encoded.qopen (f : M) : Encoded.Statement (.qopen f) := by rintro op r ⟨⟩; exact ⟨by decide, encM_lt f⟩
theorem Encoded.qclose (f : M) : Encoded.Statement (.qclose f) := by rintro op r ⟨⟩; exact ⟨by decide, encM_lt f⟩
theorem Encoded.acopy (f : E) : Encoded.Statement (.acopy f) := by rintro op r ⟨⟩; exact ⟨by decide, encE_lt f⟩
theorem Encoded.acopys (f : E) : Encoded.Statement (.acopys f) := by rintro op r ⟨⟩; exact ⟨by decide, encE_lt f⟩
theorem Encoded.afill (f : E) : Encoded.Statement (.afill f) := by rintro op r ⟨⟩; exact ⟨by decide, encE_lt f⟩
theorem Encoded.spawn (f : E) : Encoded.Statement (.spawn f) := by rintro op r ⟨⟩; exact ⟨by decide, encE_lt f⟩
theorem Encoded.fsend (f : E) : Encoded.Statement (.fsend f) := by rintro op r ⟨⟩; exact ⟨by decide, encE_lt f⟩
theorem Encoded.fget (f : E) : Encoded.Statement (.fget f) := by rintro op r ⟨⟩; exact ⟨by decide, encE_lt f⟩
theorem Encoded.tlrd (f : E) : Encoded.Statement (.tlrd f) := by rintro op r ⟨⟩; exact ⟨by decide, encE_lt f⟩
theorem Encoded.ores (f : E) : Encoded.Statement (.ores f) := by rintro op r ⟨⟩; exact ⟨by decide, encE_lt f⟩
theorem Encoded.orel (f : E) : Encoded.Statement (.orel f) := by rintro op r ⟨⟩; exact ⟨by decide, encE_lt f⟩
theorem Encoded.oload (f : E) : Encoded.Statement (.oload f) := by rintro op r ⟨⟩; exact ⟨by decide, encE_lt f⟩
theorem Encoded.ogath (f : E) : Encoded.Statement (.ogath f) := by rintro op r ⟨⟩; exact ⟨by decide, encE_lt f⟩
theorem Encoded.mma (f : E) : Encoded.Statement (.mma f) := by rintro op r ⟨⟩; exact ⟨by decide, encE_lt f⟩
theorem Encoded.mmab (f : E) : Encoded.Statement (.mmab f) := by rintro op r ⟨⟩; exact ⟨by decide, encE_lt f⟩
theorem Encoded.mzero (f : E) : Encoded.Statement (.mzero f) := by rintro op r ⟨⟩; exact ⟨by decide, encE_lt f⟩
theorem Encoded.mdrain (f : E) : Encoded.Statement (.mdrain f) := by rintro op r ⟨⟩; exact ⟨by decide, encE_lt f⟩
theorem Encoded.clauseIssue (q : Nat) : Encoded.Statement (.clauseIssue q) := by rintro op r ⟨⟩
theorem Encoded.icacheLineArrival (cluster ctx line : Nat) : Encoded.Statement (.icacheLineArrival cluster ctx line) := by rintro op r ⟨⟩
theorem Encoded.yieldRestrictionEnd (w : Nat) : Encoded.Statement (.yieldRestrictionEnd w) := by rintro op r ⟨⟩
theorem Encoded.spillWriteComplete (core : Nat) (file : RegFile) : Encoded.Statement (.spillWriteComplete core file) := by rintro op r ⟨⟩
theorem Encoded.fillComplete (core : Nat) (file : RegFile) : Encoded.Statement (.fillComplete core file) := by rintro op r ⟨⟩
theorem Encoded.mwaitTimeout (w : Nat) : Encoded.Statement (.mwaitTimeout w) := by rintro op r ⟨⟩
theorem Encoded.holdEnd (w : Nat) : Encoded.Statement (.holdEnd w) := by rintro op r ⟨⟩
theorem Encoded.longLatencyComplete (w k : Nat) : Encoded.Statement (.longLatencyComplete w k) := by rintro op r ⟨⟩
theorem Encoded.segmentPush (op : Nat) : Encoded.Statement (.segmentPush op) := by rintro op r ⟨⟩
theorem Encoded.copySegmentComplete (item : Nat) : Encoded.Statement (.copySegmentComplete item) := by rintro op r ⟨⟩
theorem Encoded.tileTaskComplete (core : Nat) : Encoded.Statement (.tileTaskComplete core) := by rintro op r ⟨⟩
theorem Encoded.operationComplete (op : Nat) : Encoded.Statement (.operationComplete op) := by rintro op r ⟨⟩
theorem Encoded.packetRefuse (item hint : Nat) : Encoded.Statement (.packetRefuse item hint) := by rintro op r ⟨⟩
theorem Encoded.packetResend (item : Nat) : Encoded.Statement (.packetResend item) := by rintro op r ⟨⟩
theorem Encoded.packetAck (item : Nat) : Encoded.Statement (.packetAck item) := by rintro op r ⟨⟩
theorem Encoded.remoteRequest (r : RemoteReq) : Encoded.Statement (.remoteRequest r) := by rintro op r ⟨⟩
theorem Encoded.remoteAccessResend (q : Nat) : Encoded.Statement (.remoteAccessResend q) := by rintro op r ⟨⟩
theorem Encoded.trellisPush (item : Nat) : Encoded.Statement (.trellisPush item) := by rintro op r ⟨⟩
theorem Encoded.ancestorInsert (item node : Nat) : Encoded.Statement (.ancestorInsert item node) := by rintro op r ⟨⟩
theorem Encoded.topNodeRelease (node : Nat) : Encoded.Statement (.topNodeRelease node) := by rintro op r ⟨⟩
theorem Encoded.leafInsert (item : Nat) : Encoded.Statement (.leafInsert item) := by rintro op r ⟨⟩
theorem Encoded.enginePop (leaf : Nat) : Encoded.Statement (.enginePop leaf) := by rintro op r ⟨⟩
theorem Encoded.leafPreempt (leaf : Nat) : Encoded.Statement (.leafPreempt leaf) := by rintro op r ⟨⟩
theorem Encoded.reserveSetPreempt (node : Nat) : Encoded.Statement (.reserveSetPreempt node) := by rintro op r ⟨⟩
theorem Encoded.probeTokenSend (queue : Nat) : Encoded.Statement (.probeTokenSend queue) := by rintro op r ⟨⟩
theorem Encoded.probeTokenArrival (token : Nat) : Encoded.Statement (.probeTokenArrival token) := by rintro op r ⟨⟩
theorem Encoded.decant (item : Nat) : Encoded.Statement (.decant item) := by rintro op r ⟨⟩
theorem Encoded.decantComplete (item : Nat) : Encoded.Statement (.decantComplete item) := by rintro op r ⟨⟩
theorem Encoded.trapEntry (w : Nat) : Encoded.Statement (.trapEntry w) := by rintro op r ⟨⟩
theorem Encoded.faultRecordWrite (k : Nat) : Encoded.Statement (.faultRecordWrite k) := by rintro op r ⟨⟩
theorem Encoded.faultRetry (ctx token : Nat) : Encoded.Statement (.faultRetry ctx token) := by rintro op r ⟨⟩
theorem Encoded.faultFail (ctx token : Nat) : Encoded.Statement (.faultFail ctx token) := by rintro op r ⟨⟩
theorem Encoded.borrowRequest (k : Nat) : Encoded.Statement (.borrowRequest k) := by rintro op r ⟨⟩
theorem Encoded.borrowGrant (k : Nat) : Encoded.Statement (.borrowGrant k) := by rintro op r ⟨⟩
theorem Encoded.rootReturn (k : Nat) : Encoded.Statement (.rootReturn k) := by rintro op r ⟨⟩
theorem Encoded.fabricReturnFlush (k : Nat) : Encoded.Statement (.fabricReturnFlush k) := by rintro op r ⟨⟩
theorem Encoded.switchOut (wg : Nat) : Encoded.Statement (.switchOut wg) := by rintro op r ⟨⟩
theorem Encoded.restore (item : Nat) : Encoded.Statement (.restore item) := by rintro op r ⟨⟩
theorem Encoded.detTurn (core : Nat) : Encoded.Statement (.detTurn core) := by rintro op r ⟨⟩
theorem Encoded.dramRequestIssue (channel : Nat) : Encoded.Statement (.dramRequestIssue channel) := by rintro op r ⟨⟩
theorem Encoded.hostAccess (a : HostAcc) : Encoded.Statement (.hostAccess a) := by rintro op r ⟨⟩
theorem Encoded.hostQueueDoorbell (q : Nat) (tail : BitVec 32) : Encoded.Statement (.hostQueueDoorbell q tail) := by rintro op r ⟨⟩
theorem Encoded.caskPacketRun (q : Nat) : Encoded.Statement (.caskPacketRun q) := by rintro op r ⟨⟩
theorem Encoded.launchComplete (id : Nat) : Encoded.Statement (.launchComplete id) := by rintro op r ⟨⟩
theorem Encoded.outputDigest (id : Nat) : Encoded.Statement (.outputDigest id) := by rintro op r ⟨⟩
theorem Encoded.vintageRecordWrite : Encoded.Statement .vintageRecordWrite := by rintro op r ⟨⟩
theorem Encoded.completionEntryWrite (q : Nat) : Encoded.Statement (.completionEntryWrite q) := by rintro op r ⟨⟩
theorem Encoded.eventRingWrite : Encoded.Statement .eventRingWrite := by rintro op r ⟨⟩
theorem Encoded.mgmtDoorbell (tail : BitVec 32) : Encoded.Statement (.mgmtDoorbell tail) := by rintro op r ⟨⟩
theorem Encoded.ctxcreate (c : Nat) (prot : Bool) : Encoded.Statement (.ctxcreate c prot) := by rintro op r ⟨⟩
theorem Encoded.ctxgrant (c kind unit : Nat) : Encoded.Statement (.ctxgrant c kind unit) := by rintro op r ⟨⟩
theorem Encoded.teardown (c : Nat) : Encoded.Statement (.teardown c) := by rintro op r ⟨⟩
theorem Encoded.ctxfree (c : Nat) : Encoded.Statement (.ctxfree c) := by rintro op r ⟨⟩
theorem Encoded.waveKill (core slot : Nat) : Encoded.Statement (.waveKill core slot) := by rintro op r ⟨⟩
theorem Encoded.workgroupKill (core wgid : Nat) : Encoded.Statement (.workgroupKill core wgid) := by rintro op r ⟨⟩
theorem Encoded.coreReset (core : Nat) : Encoded.Statement (.coreReset core) := by rintro op r ⟨⟩
theorem Encoded.engineReset (kind : EngineKind) (unit : Nat) : Encoded.Statement (.engineReset kind unit) := by rintro op r ⟨⟩
theorem Encoded.trellisNodeFlush (node : Nat) : Encoded.Statement (.trellisNodeFlush node) := by rintro op r ⟨⟩
theorem Encoded.clusterReset (cluster : Nat) : Encoded.Statement (.clusterReset cluster) := by rintro op r ⟨⟩
theorem Encoded.dieReset (die : Nat) : Encoded.Statement (.dieReset die) := by rintro op r ⟨⟩
theorem Encoded.packageWarmReset : Encoded.Statement .packageWarmReset := by rintro op r ⟨⟩
theorem Encoded.coldReset : Encoded.Statement .coldReset := by rintro op r ⟨⟩
theorem Encoded.rootgrant (root c : Nat) : Encoded.Statement (.rootgrant root c) := by rintro op r ⟨⟩
theorem Encoded.regwrite (off : Nat) (value mask : DWord) : Encoded.Statement (.regwrite off value mask) := by rintro op r ⟨⟩
theorem Encoded.progloadTrellisSlot (slot pa count : Nat) : Encoded.Statement (.progloadTrellisSlot slot pa count) := by rintro op r ⟨⟩
theorem Encoded.progloadLeaf (leaf pa count : Nat) : Encoded.Statement (.progloadLeaf leaf pa count) := by rintro op r ⟨⟩
theorem Encoded.progloadCaskSlot (slot pa count : Nat) : Encoded.Statement (.progloadCaskSlot slot pa count) := by rintro op r ⟨⟩
theorem Encoded.qdrForce (root : Nat) : Encoded.Statement (.qdrForce root) := by rintro op r ⟨⟩
theorem Encoded.hbmMapoutRequest (stack layer : Nat) : Encoded.Statement (.hbmMapoutRequest stack layer) := by rintro op r ⟨⟩
theorem Encoded.hbmMapoutAutoRequest (stack layer : Nat) : Encoded.Statement (.hbmMapoutAutoRequest stack layer) := by rintro op r ⟨⟩
theorem Encoded.hbmMapoutCommit : Encoded.Statement .hbmMapoutCommit := by rintro op r ⟨⟩
theorem Encoded.hbmMapoutCancel : Encoded.Statement .hbmMapoutCancel := by rintro op r ⟨⟩
theorem Encoded.hbmMapoutDone : Encoded.Statement .hbmMapoutDone := by rintro op r ⟨⟩
theorem Encoded.rackChunk : Encoded.Statement .rackChunk := by rintro op r ⟨⟩
theorem Encoded.getVersion : Encoded.Statement .getVersion := by rintro op r ⟨⟩
theorem Encoded.getCapabilities : Encoded.Statement .getCapabilities := by rintro op r ⟨⟩
theorem Encoded.negotiateAlgorithms : Encoded.Statement .negotiateAlgorithms := by rintro op r ⟨⟩
theorem Encoded.getDigests : Encoded.Statement .getDigests := by rintro op r ⟨⟩
theorem Encoded.getCertificate (slot offset length : Nat) : Encoded.Statement (.getCertificate slot offset length) := by rintro op r ⟨⟩
theorem Encoded.challenge (nonce : Nat) : Encoded.Statement (.challenge nonce) := by rintro op r ⟨⟩
theorem Encoded.getMeasurements (index ctx nonce : Nat) : Encoded.Statement (.getMeasurements index ctx nonce) := by rintro op r ⟨⟩
theorem Encoded.keyExchange (nonce : Nat) : Encoded.Statement (.keyExchange nonce) := by rintro op r ⟨⟩
theorem Encoded.finish : Encoded.Statement .finish := by rintro op r ⟨⟩
theorem Encoded.endSession : Encoded.Statement .endSession := by rintro op r ⟨⟩
theorem Encoded.keyrelease (c : Nat) : Encoded.Statement (.keyrelease c) := by rintro op r ⟨⟩
theorem Encoded.firmwareImageUpdate (img : FwImage) : Encoded.Statement (.firmwareImageUpdate img) := by rintro op r ⟨⟩
theorem Encoded.activateFirmware : Encoded.Statement .activateFirmware := by rintro op r ⟨⟩
theorem Encoded.firmwareSwitch : Encoded.Statement .firmwareSwitch := by rintro op r ⟨⟩
theorem Encoded.firmwareReady : Encoded.Statement .firmwareReady := by rintro op r ⟨⟩
theorem Encoded.firmwareRevert : Encoded.Statement .firmwareRevert := by rintro op r ⟨⟩
theorem Encoded.claim (rsaKey slhKey sig : Nat) : Encoded.Statement (.claim rsaKey slhKey sig) := by rintro op r ⟨⟩
theorem Encoded.transfer (sig : Nat) : Encoded.Statement (.transfer sig) := by rintro op r ⟨⟩
theorem Encoded.sensorRead (id : Nat) : Encoded.Statement (.sensorRead id) := by rintro op r ⟨⟩
theorem Encoded.sensorUpdate (id : Nat) (value : Int) : Encoded.Statement (.sensorUpdate id value) := by rintro op r ⟨⟩
theorem Encoded.errorLogRead : Encoded.Statement .errorLogRead := by rintro op r ⟨⟩
theorem Encoded.laneFailure (port : Nat) : Encoded.Statement (.laneFailure port) := by rintro op r ⟨⟩
theorem Encoded.widerScopePerform (k : Nat) : Encoded.Statement (.widerScopePerform k) := by rintro op r ⟨⟩
theorem Encoded.xinvComplete (k : Nat) : Encoded.Statement (.xinvComplete k) := by rintro op r ⟨⟩
theorem Encoded.linkRetrainComplete (port : Nat) : Encoded.Statement (.linkRetrainComplete port) := by rintro op r ⟨⟩
theorem Encoded.yclLinkEnumeration (base : Nat) : Encoded.Statement (.yclLinkEnumeration base) := by rintro op r ⟨⟩
theorem Encoded.i3cDynamicAddressAssign (addr : Nat) : Encoded.Statement (.i3cDynamicAddressAssign addr) := by rintro op r ⟨⟩

end Sys2Proof.Laws
end

