-- ==== Sys2Proof/Tests/Slice0.lean ====
section
/-! SUPPORT. Tests: the decoding of every instruction, checks of well-formedness, single steps with results worked out from the spec, and
witnesses of what the statements assume. -/

open Sys2Proof Sys2Proof.Machine
namespace Sys2Proof.Tests

set_option Elab.async false

/-- Words of the B format (R84, R178). -/
def words_control : List (Nat × Instr) :=
  [(0x0000000000000000, .nop ⟨⟨false, 0⟩, 0, false, 0x0, 0x0⟩),
   (0x01200000FFFFFFFC, .bra ⟨⟨false, 2⟩, 0, false, 0x0, 0xFFFFFFFC⟩),
   (0x0200680000000003, .brx ⟨⟨false, 0⟩, 6, true, 0x0, 0x3⟩),
   (0x0391400000000200, .call ⟨⟨true, 1⟩, 20, false, 0x0, 0x200⟩),
   (0x0401480000000000, .ret ⟨⟨false, 0⟩, 20, true, 0x0, 0x0⟩),
   (0x0500000000000000, .join ⟨⟨false, 0⟩, 0, false, 0x0, 0x0⟩),
   (0x0600000000000000, .exit ⟨⟨false, 0⟩, 0, false, 0x0, 0x0⟩),
   (0x07000000000000C8, .yield ⟨⟨false, 0⟩, 0, false, 0x0, 0xC8⟩),
   (0x0800000000000005, .trap ⟨⟨false, 0⟩, 0, false, 0x0, 0x5⟩),
   (0x0900000000000001, .rett ⟨⟨false, 0⟩, 0, false, 0x0, 0x1⟩),
   (0x0A0050D284010704, .mcall ⟨⟨false, 0⟩, 5, false, 0xD2, 0x84010704⟩),
   (0x0B005100FFFFFFFE, .mdef ⟨⟨false, 0⟩, 5, false, 0x100, 0xFFFFFFFE⟩),
   (0x0C00000000000009, .brkpt ⟨⟨false, 0⟩, 0, false, 0x0, 0x9⟩)]

theorem test_decode_control : (words_control.all fun p => decide (decodeTableWord 64 p.1 = some p.2) && wellFormed p.2) = true := by
  decide +kernel

/-- Words of the VR and VI formats (R79, R81, R130). -/
def words_integer : List (Nat × Instr) :=
  [(0x10001483E4100004, .iadd ⟨⟨false, 0⟩, .vec, 5, ⟨.vec, true, 0x7⟩, ⟨.con, false, 0x41⟩, ⟨.vec, false, 0x0⟩, .i32, .rne, true, 0⟩),
   (0x11302003203000A0, .isub ⟨⟨false, 3⟩, .vec, 8, ⟨.vec, false, 0x6⟩, ⟨.scl, false, 0x3⟩, ⟨.vec, false, 0x0⟩, .n16, .rne, false, 0⟩),
   (0x12041102C0200060, .imul ⟨⟨false, 0⟩, .scl, 4, ⟨.scl, false, 0x5⟩, ⟨.grp, false, 0x2⟩, ⟨.vec, false, 0x0⟩, .n64, .rne, false, 0⟩),
   (0x1300080200600040, .imulh ⟨⟨false, 0⟩, .vec, 2, ⟨.vec, false, 0x4⟩, ⟨.vec, false, 0x6⟩, ⟨.vec, false, 0x0⟩, .i64, .rne, false, 0⟩),
   (0x14000401103C0A84, .imad ⟨⟨false, 0⟩, .vec, 1, ⟨.vec, false, 0x2⟩, ⟨.vec, true, 0x3⟩, ⟨.con, false, 0x5⟩, .i16, .rne, true, 0⟩),
   (0x15041900202C0061, .iaddc ⟨⟨false, 0⟩, .scl, 6, ⟨.scl, false, 0x0⟩, ⟨.scl, false, 0x2⟩, ⟨.con, false, 0x0⟩, .n64, .rne, false, 1⟩),
   (0x1600240080200620, .isubb ⟨⟨false, 0⟩, .vec, 9, ⟨.vec, false, 0x1⟩, ⟨.vec, false, 0x2⟩, ⟨.vec, false, 0x3⟩, .n32, .rne, false, 0⟩),
   (0x1700240080000004, .iabs ⟨⟨false, 0⟩, .vec, 9, ⟨.vec, false, 0x1⟩, ⟨.vec, false, 0x0⟩, ⟨.vec, false, 0x0⟩, .i32, .rne, true, 0⟩),
   (0x18080D0080000040, .ineg ⟨⟨false, 0⟩, .grp, 3, ⟨.scl, false, 0x1⟩, ⟨.vec, false, 0x0⟩, ⟨.vec, false, 0x0⟩, .i64, .rne, false, 0⟩),
   (0x1900040100300000, .imin ⟨⟨false, 0⟩, .vec, 1, ⟨.vec, false, 0x2⟩, ⟨.vec, false, 0x3⟩, ⟨.vec, false, 0x0⟩, .i32, .rne, false, 0⟩),
   (0x1A00040100300080, .imax ⟨⟨false, 0⟩, .vec, 1, ⟨.vec, false, 0x2⟩, ⟨.vec, false, 0x3⟩, ⟨.vec, false, 0x0⟩, .i16, .rne, false, 0⟩),
   (0x1B00040100300020, .nmin ⟨⟨false, 0⟩, .vec, 1, ⟨.vec, false, 0x2⟩, ⟨.vec, false, 0x3⟩, ⟨.vec, false, 0x0⟩, .n32, .rne, false, 0⟩),
   (0x1CF00401003000A0, .nmax ⟨⟨true, 7⟩, .vec, 1, ⟨.vec, false, 0x2⟩, ⟨.vec, false, 0x3⟩, ⟨.vec, false, 0x0⟩, .n16, .rne, false, 0⟩),
   (0x1D000802006C0620, .lea ⟨⟨false, 0⟩, .vec, 2, ⟨.vec, false, 0x4⟩, ⟨.vec, false, 0x6⟩, ⟨.con, false, 0x3⟩, .n32, .rne, false, 0⟩),
   (0x1E03FF7E00000020, .mov ⟨⟨false, 0⟩, .vec, 255, ⟨.con, false, 0xFC⟩, ⟨.vec, false, 0x0⟩, ⟨.vec, false, 0x0⟩, .n32, .rne, false, 0⟩),
   (0x1F005000DEADBEEF, .movi ⟨⟨false, 0⟩, 5, 0, 0, 0xDEADBEEF⟩)]

theorem test_decode_integer : (words_integer.all fun p => decide (decodeTableWord 64 p.1 = some p.2) && wellFormed p.2) = true := by
  decide +kernel

/-- Words of the VR format (R136, R138). -/
def words_logic : List (Nat × Instr) :=
  [(0x2000040166A00020, .and ⟨⟨false, 0⟩, .vec, 1, ⟨.vec, false, 0x2⟩, ⟨.con, false, 0x6A⟩, ⟨.vec, false, 0x0⟩, .n32, .rne, false, 0⟩),
   (0x2100040166A00020, .or ⟨⟨false, 0⟩, .vec, 1, ⟨.vec, false, 0x2⟩, ⟨.con, false, 0x6A⟩, ⟨.vec, false, 0x0⟩, .n32, .rne, false, 0⟩),
   (0x2200040166A00020, .xor ⟨⟨false, 0⟩, .vec, 1, ⟨.vec, false, 0x2⟩, ⟨.con, false, 0x6A⟩, ⟨.vec, false, 0x0⟩, .n32, .rne, false, 0⟩),
   (0x2300040166A00020, .andn ⟨⟨false, 0⟩, .vec, 1, ⟨.vec, false, 0x2⟩, ⟨.con, false, 0x6A⟩, ⟨.vec, false, 0x0⟩, .n32, .rne, false, 0⟩),
   (0x2404050100000060, .not ⟨⟨false, 0⟩, .scl, 1, ⟨.scl, false, 0x2⟩, ⟨.vec, false, 0x0⟩, ⟨.vec, false, 0x0⟩, .n64, .rne, false, 0⟩),
   (0x2500040100320994, .bmix ⟨⟨false, 0⟩, .vec, 1, ⟨.vec, false, 0x2⟩, ⟨.vec, false, 0x3⟩, ⟨.vec, true, 0x4⟩, .e5m2, .rdn, true, 0⟩),
   (0x2600040160400020, .shl ⟨⟨false, 0⟩, .vec, 1, ⟨.vec, false, 0x2⟩, ⟨.con, false, 0x4⟩, ⟨.vec, false, 0x0⟩, .n32, .rne, false, 0⟩),
   (0x2700040160400020, .shr ⟨⟨false, 0⟩, .vec, 1, ⟨.vec, false, 0x2⟩, ⟨.con, false, 0x4⟩, ⟨.vec, false, 0x0⟩, .n32, .rne, false, 0⟩),
   (0x2800040160400000, .sar ⟨⟨false, 0⟩, .vec, 1, ⟨.vec, false, 0x2⟩, ⟨.con, false, 0x4⟩, ⟨.vec, false, 0x0⟩, .i32, .rne, false, 0⟩),
   (0x2900040160400020, .rol ⟨⟨false, 0⟩, .vec, 1, ⟨.vec, false, 0x2⟩, ⟨.con, false, 0x4⟩, ⟨.vec, false, 0x0⟩, .n32, .rne, false, 0⟩),
   (0x2A000401604C1000, .bfe ⟨⟨false, 0⟩, .vec, 1, ⟨.vec, false, 0x2⟩, ⟨.con, false, 0x4⟩, ⟨.con, false, 0x8⟩, .i32, .rne, false, 0⟩),
   (0x2B00040100340820, .bfi ⟨⟨false, 0⟩, .vec, 1, ⟨.vec, false, 0x2⟩, ⟨.vec, false, 0x3⟩, ⟨.scl, false, 0x4⟩, .n32, .rne, false, 0⟩),
   (0x2C00040100000060, .popc ⟨⟨false, 0⟩, .vec, 1, ⟨.vec, false, 0x2⟩, ⟨.vec, false, 0x0⟩, ⟨.vec, false, 0x0⟩, .n64, .rne, false, 0⟩),
   (0x2D00040180000020, .clz ⟨⟨false, 0⟩, .vec, 1, ⟨.vec, false, 0x3⟩, ⟨.vec, false, 0x0⟩, ⟨.vec, false, 0x0⟩, .n32, .rne, false, 0⟩),
   (0x2E00040180000020, .brev ⟨⟨false, 0⟩, .vec, 1, ⟨.vec, false, 0x3⟩, ⟨.vec, false, 0x0⟩, ⟨.vec, false, 0x0⟩, .n32, .rne, false, 0⟩),
   (0x2F00040100300820, .bperm ⟨⟨false, 0⟩, .vec, 1, ⟨.vec, false, 0x2⟩, ⟨.vec, false, 0x3⟩, ⟨.vec, false, 0x4⟩, .n32, .rne, false, 0⟩)]

theorem test_decode_logic : (words_logic.all fun p => decide (decodeTableWord 64 p.1 = some p.2) && wellFormed p.2) = true := by
  decide +kernel

/-- Words of the VR format (R140). -/
def words_float : List (Nat × Instr) :=
  [(0x30000401684000CC, .fadd ⟨⟨false, 0⟩, .vec, 1, ⟨.vec, false, 0x2⟩, ⟨.con, false, 0x84⟩, ⟨.vec, false, 0x0⟩, .f32, .rtz, true, 0⟩),
   (0x31000401003000F0, .fsub ⟨⟨false, 0⟩, .vec, 1, ⟨.vec, false, 0x2⟩, ⟨.vec, false, 0x3⟩, ⟨.vec, false, 0x0⟩, .f16, .rdn, false, 0⟩),
   (0x3200040100300118, .fmul ⟨⟨false, 0⟩, .vec, 1, ⟨.vec, false, 0x2⟩, ⟨.vec, false, 0x3⟩, ⟨.vec, false, 0x0⟩, .bf16, .rup, false, 0⟩),
   (0x3300040100320920, .ffma ⟨⟨false, 0⟩, .vec, 1, ⟨.vec, false, 0x2⟩, ⟨.vec, false, 0x3⟩, ⟨.vec, true, 0x4⟩, .f16x2, .rne, false, 0⟩),
   (0x3400040100300141, .fmin ⟨⟨false, 0⟩, .vec, 1, ⟨.vec, false, 0x2⟩, ⟨.vec, false, 0x3⟩, ⟨.vec, false, 0x0⟩, .bf16x2, .rne, false, 1⟩),
   (0x35000401003000C0, .fmax ⟨⟨false, 0⟩, .vec, 1, ⟨.vec, false, 0x2⟩, ⟨.vec, false, 0x3⟩, ⟨.vec, false, 0x0⟩, .f32, .rne, false, 0⟩),
   (0x36000401000000C0, .fabs ⟨⟨false, 0⟩, .vec, 1, ⟨.vec, false, 0x2⟩, ⟨.vec, false, 0x0⟩, ⟨.vec, false, 0x0⟩, .f32, .rne, false, 0⟩),
   (0x37000401000000E0, .fneg ⟨⟨false, 0⟩, .vec, 1, ⟨.vec, false, 0x2⟩, ⟨.vec, false, 0x0⟩, ⟨.vec, false, 0x0⟩, .f16, .rne, false, 0⟩),
   (0x38000401000000D0, .frnd ⟨⟨false, 0⟩, .vec, 1, ⟨.vec, false, 0x2⟩, ⟨.vec, false, 0x0⟩, ⟨.vec, false, 0x0⟩, .f32, .rdn, false, 0⟩),
   (0x39000401000000C0, .frcp ⟨⟨false, 0⟩, .vec, 1, ⟨.vec, false, 0x2⟩, ⟨.vec, false, 0x0⟩, ⟨.vec, false, 0x0⟩, .f32, .rne, false, 0⟩),
   (0x3A000401000000C8, .frsq ⟨⟨false, 0⟩, .vec, 1, ⟨.vec, false, 0x2⟩, ⟨.vec, false, 0x0⟩, ⟨.vec, false, 0x0⟩, .f32, .rtz, false, 0⟩),
   (0x3B000401000000D0, .fsqrt ⟨⟨false, 0⟩, .vec, 1, ⟨.vec, false, 0x2⟩, ⟨.vec, false, 0x0⟩, ⟨.vec, false, 0x0⟩, .f32, .rdn, false, 0⟩),
   (0x3C000401000000D8, .fexp2 ⟨⟨false, 0⟩, .vec, 1, ⟨.vec, false, 0x2⟩, ⟨.vec, false, 0x0⟩, ⟨.vec, false, 0x0⟩, .f32, .rup, false, 0⟩),
   (0x3D000401000000C0, .flog2 ⟨⟨false, 0⟩, .vec, 1, ⟨.vec, false, 0x2⟩, ⟨.vec, false, 0x0⟩, ⟨.vec, false, 0x0⟩, .f32, .rne, false, 0⟩),
   (0x3E000401000000C1, .fsincos ⟨⟨false, 0⟩, .vec, 1, ⟨.vec, false, 0x2⟩, ⟨.vec, false, 0x0⟩, ⟨.vec, false, 0x0⟩, .f32, .rne, false, 1⟩),
   (0x3F00040100000100, .fclass ⟨⟨false, 0⟩, .vec, 1, ⟨.vec, false, 0x2⟩, ⟨.vec, false, 0x0⟩, ⟨.vec, false, 0x0⟩, .bf16, .rne, false, 0⟩)]

theorem test_decode_float : (words_float.all fun p => decide (decodeTableWord 64 p.1 = some p.2) && wellFormed p.2) = true := by
  decide +kernel

/-- Words of the VR format (R146 to R154). -/
def words_conversion : List (Nat × Instr) :=
  [(0x4000040100000C0C, .cvt ⟨⟨false, 0⟩, .vec, 1, ⟨.vec, false, 0x2⟩, ⟨.vec, false, 0x0⟩, ⟨.vec, false, 0x6⟩, .i32, .rtz, true, 0⟩),
   (0x4100040100300160, .cvtsr ⟨⟨false, 0⟩, .vec, 1, ⟨.vec, false, 0x2⟩, ⟨.vec, false, 0x3⟩, ⟨.vec, false, 0x0⟩, .e4m3, .rne, false, 0⟩),
   (0x4200040100300940, .fdot2 ⟨⟨false, 0⟩, .vec, 1, ⟨.vec, false, 0x2⟩, ⟨.vec, false, 0x3⟩, ⟨.vec, false, 0x4⟩, .bf16x2, .rne, false, 0⟩),
   (0x43000401000000C1, .qamax ⟨⟨false, 0⟩, .vec, 1, ⟨.vec, false, 0x2⟩, ⟨.vec, false, 0x0⟩, ⟨.vec, false, 0x0⟩, .f32, .rne, false, 1⟩),
   (0x4400040100000180, .qscale ⟨⟨false, 0⟩, .vec, 1, ⟨.vec, false, 0x2⟩, ⟨.vec, false, 0x0⟩, ⟨.vec, false, 0x0⟩, .e5m2, .rne, false, 0⟩),
   (0x45000401003001A0, .qpack ⟨⟨false, 0⟩, .vec, 1, ⟨.vec, false, 0x2⟩, ⟨.vec, false, 0x3⟩, ⟨.vec, false, 0x0⟩, .e2m1, .rne, false, 0⟩),
   (0x46000401000001C0, .qunpk ⟨⟨false, 0⟩, .vec, 1, ⟨.vec, false, 0x2⟩, ⟨.vec, false, 0x0⟩, ⟨.vec, false, 0x0⟩, .q4e, .rne, false, 0⟩)]

theorem test_decode_conversion : (words_conversion.all fun p => decide (decodeTableWord 64 p.1 = some p.2) && wellFormed p.2) = true := by
  decide +kernel

/-- Words of the VR format (R155 to R158). -/
def words_compare : List (Nat × Instr) :=
  [(0x500C0C02E0A00002, .icmp ⟨⟨false, 0⟩, .pred, 3, ⟨.vec, false, 0x5⟩, ⟨.con, false, 0xA⟩, ⟨.vec, false, 0x0⟩, .i32, .rne, false, 2⟩),
   (0x5100040100300023, .ncmp ⟨⟨false, 0⟩, .vec, 1, ⟨.vec, false, 0x2⟩, ⟨.vec, false, 0x3⟩, ⟨.vec, false, 0x0⟩, .n32, .rne, false, 3⟩),
   (0x520C0401680000C1, .fcmp ⟨⟨false, 0⟩, .pred, 1, ⟨.vec, false, 0x2⟩, ⟨.con, false, 0x80⟩, ⟨.vec, false, 0x0⟩, .f32, .rne, false, 1⟩),
   (0x53000401600008C0, .sel ⟨⟨false, 0⟩, .vec, 1, ⟨.vec, false, 0x2⟩, ⟨.con, false, 0x0⟩, ⟨.vec, false, 0x4⟩, .f32, .rne, false, 0⟩),
   (0x540C04010030092C, .plop ⟨⟨false, 0⟩, .pred, 1, ⟨.vec, false, 0x2⟩, ⟨.vec, false, 0x3⟩, ⟨.vec, false, 0x4⟩, .f16x2, .rtz, true, 0⟩),
   (0x550C080080000003, .pmov ⟨⟨false, 0⟩, .pred, 2, ⟨.vec, false, 0x1⟩, ⟨.vec, false, 0x0⟩, ⟨.vec, false, 0x0⟩, .i32, .rne, false, 3⟩)]

theorem test_decode_compare : (words_compare.all fun p => decide (decodeTableWord 64 p.1 = some p.2) && wellFormed p.2) = true := by
  decide +kernel

/-- Words of the VR format (R165 to R177). -/
def words_lanes : List (Nat × Instr) :=
  [(0x5804040100000000, .ballot ⟨⟨false, 0⟩, .scl, 1, ⟨.vec, false, 0x2⟩, ⟨.vec, false, 0x0⟩, ⟨.vec, false, 0x0⟩, .i32, .rne, false, 0⟩),
   (0x5900040160100000, .lrank ⟨⟨false, 0⟩, .vec, 1, ⟨.vec, false, 0x2⟩, ⟨.con, false, 0x1⟩, ⟨.vec, false, 0x0⟩, .i32, .rne, false, 0⟩),
   (0x5A000401601C40C3, .shfl ⟨⟨false, 0⟩, .vec, 1, ⟨.vec, false, 0x2⟩, ⟨.con, false, 0x1⟩, ⟨.con, false, 0x20⟩, .f32, .rne, false, 3⟩),
   (0x5B00040160300020, .bcast ⟨⟨false, 0⟩, .vec, 1, ⟨.vec, false, 0x2⟩, ⟨.con, false, 0x3⟩, ⟨.vec, false, 0x0⟩, .n32, .rne, false, 0⟩),
   (0x5C04040100000021, .rdlane ⟨⟨false, 0⟩, .scl, 1, ⟨.vec, false, 0x2⟩, ⟨.vec, false, 0x0⟩, ⟨.vec, false, 0x0⟩, .n32, .rne, false, 1⟩),
   (0x5D00050160500020, .wrlane ⟨⟨false, 0⟩, .vec, 1, ⟨.scl, false, 0x2⟩, ⟨.con, false, 0x5⟩, ⟨.vec, false, 0x0⟩, .n32, .rne, false, 0⟩),
   (0x5E04040100000000, .reduce ⟨⟨false, 0⟩, .scl, 1, ⟨.vec, false, 0x2⟩, ⟨.vec, false, 0x0⟩, ⟨.vec, false, 0x0⟩, .i32, .rne, false, 0⟩),
   (0x5F00040100000024, .scan ⟨⟨false, 0⟩, .vec, 1, ⟨.vec, false, 0x2⟩, ⟨.vec, false, 0x0⟩, ⟨.vec, false, 0x0⟩, .n32, .rne, true, 0⟩),
   (0x6000040160000020, .compress ⟨⟨false, 0⟩, .vec, 1, ⟨.vec, false, 0x2⟩, ⟨.con, false, 0x0⟩, ⟨.vec, false, 0x0⟩, .n32, .rne, false, 0⟩),
   (0x6100040100300021, .expand ⟨⟨false, 0⟩, .vec, 1, ⟨.vec, false, 0x2⟩, ⟨.vec, false, 0x3⟩, ⟨.vec, false, 0x0⟩, .n32, .rne, false, 1⟩),
   (0x6200040000000002, .active ⟨⟨false, 0⟩, .vec, 1, ⟨.vec, false, 0x0⟩, ⟨.vec, false, 0x0⟩, ⟨.vec, false, 0x0⟩, .i32, .rne, false, 2⟩)]

theorem test_decode_lanes : (words_lanes.all fun p => decide (decodeTableWord 64 p.1 = some p.2) && wellFormed p.2) = true := by
  decide +kernel

/-- Words of the S format (R84, R159, R71). -/
def words_special : List (Nat × Instr) :=
  [(0x6800300003200001, .rdsr ⟨⟨false, 0⟩, 3, ⟨.vec, false, 0x0⟩, 0x32, 0x1⟩),
   (0x6900060803800000, .wrsr ⟨⟨false, 0⟩, 0, ⟨.scl, true, 0x4⟩, 0x38, 0x0⟩),
   (0x6A00700A0000001F, .gwr ⟨⟨false, 0⟩, 7, ⟨.vec, false, 0x5⟩, 0x0, 0x1F⟩),
   (0x6B01F00000000000, .gclaim ⟨⟨false, 0⟩, 31, ⟨.vec, false, 0x0⟩, 0x0, 0x0⟩),
   (0x6C00800000000000, .rdclk ⟨⟨false, 0⟩, 8, ⟨.vec, false, 0x0⟩, 0x0, 0x0⟩),
   (0x6D11000000000800, .relr ⟨⟨false, 1⟩, 16, ⟨.vec, false, 0x0⟩, 0x0, 0x800⟩)]

theorem test_decode_special : (words_special.all fun p => decide (decodeTableWord 64 p.1 = some p.2) && wellFormed p.2) = true := by
  decide +kernel

/-- Words of the M format (R82, R192, R202 to R212). -/
def words_memory : List (Nat × Instr) :=
  [(0x8000800A60695BFF, .ldg ⟨⟨false, 0⟩, 8, false, ⟨.vec, false, 0xA⟩, ⟨.scl, true, 0x3⟩, 4, 5, 1, 2, 0x3FF⟩),
   (0x81004003004C41FF, .lds ⟨⟨false, 0⟩, 4, false, ⟨.vec, false, 0x3⟩, ⟨.vec, false, 0x2⟩, 6, 1, 0, 0, 0x1FF⟩),
   (0x8200420A00488000, .ldx ⟨⟨false, 0⟩, 4, false, ⟨.scl, false, 0xA⟩, ⟨.vec, false, 0x2⟩, 4, 2, 0, 0, 0x0⟩),
   (0x8300420A404A0000, .ldb ⟨⟨false, 0⟩, 4, false, ⟨.scl, false, 0xA⟩, ⟨.scl, false, 0x2⟩, 5, 0, 0, 0, 0x0⟩),
   (0x8400420A40460000, .exld ⟨⟨false, 0⟩, 4, false, ⟨.scl, false, 0xA⟩, ⟨.scl, false, 0x2⟩, 3, 0, 0, 0, 0x0⟩),
   (0x8500000AC0080000, .pfg ⟨⟨false, 0⟩, 0, false, ⟨.vec, false, 0xA⟩, ⟨.con, false, 0x0⟩, 4, 0, 0, 0, 0x0⟩),
   (0x86020203C00CC001, .ldc ⟨⟨false, 0⟩, 32, false, ⟨.scl, false, 0x3⟩, ⟨.con, false, 0x0⟩, 6, 3, 0, 0, 0x1⟩),
   (0x8800180200688E00, .stg ⟨⟨false, 0⟩, 1, true, ⟨.vec, false, 0x2⟩, ⟨.vec, false, 0x3⟩, 4, 2, 0, 3, 0x200⟩),
   (0x89006002C00A4000, .sts ⟨⟨false, 0⟩, 6, false, ⟨.vec, false, 0x2⟩, ⟨.con, false, 0x0⟩, 5, 1, 0, 0, 0x0⟩),
   (0x8A00120200608000, .stx ⟨⟨false, 0⟩, 1, false, ⟨.scl, false, 0x2⟩, ⟨.vec, false, 0x3⟩, 0, 2, 0, 0, 0x0⟩),
   (0x8B00420AC0020000, .stb ⟨⟨false, 0⟩, 4, false, ⟨.scl, false, 0xA⟩, ⟨.con, false, 0x0⟩, 1, 0, 0, 0, 0x0⟩),
   (0x8C00420AC0080000, .cstg ⟨⟨false, 0⟩, 4, false, ⟨.scl, false, 0xA⟩, ⟨.con, false, 0x0⟩, 4, 0, 0, 0, 0x0⟩),
   (0x9000400AC000C000, .llock ⟨⟨false, 0⟩, 4, false, ⟨.vec, false, 0xA⟩, ⟨.con, false, 0x0⟩, 0, 3, 0, 0, 0x0⟩),
   (0x9100000AC000C000, .lunlk ⟨⟨false, 0⟩, 0, false, ⟨.vec, false, 0xA⟩, ⟨.con, false, 0x0⟩, 0, 3, 0, 0, 0x0⟩),
   (0x9200000AC0014000, .cflush ⟨⟨false, 0⟩, 0, false, ⟨.vec, false, 0xA⟩, ⟨.con, false, 0x0⟩, 0, 5, 0, 0, 0x0⟩),
   (0x9300000AC0008000, .cinv ⟨⟨false, 0⟩, 0, false, ⟨.vec, false, 0xA⟩, ⟨.con, false, 0x0⟩, 0, 2, 0, 0, 0x0⟩),
   (0x9400420A004B0000, .halloc ⟨⟨false, 0⟩, 4, false, ⟨.scl, false, 0xA⟩, ⟨.vec, false, 0x2⟩, 5, 4, 0, 0, 0x0⟩),
   (0x95004A0A004B0000, .hfree ⟨⟨false, 0⟩, 4, true, ⟨.scl, false, 0xA⟩, ⟨.vec, false, 0x2⟩, 5, 4, 0, 0, 0x0⟩)]

theorem test_decode_memory : (words_memory.all fun p => decide (decodeTableWord 64 p.1 = some p.2) && wellFormed p.2) = true := by
  decide +kernel

/-- Words of the M format (R82, R213 to R217). -/
def words_atomics : List (Nat × Instr) :=
  [(0x98010002C00330E0, .atomg ⟨⟨false, 0⟩, 16, false, ⟨.vec, false, 0x2⟩, ⟨.con, false, 0x0⟩, 1, 4, 3, 0, 0xE0⟩),
   (0x99004003C000401F, .atoms ⟨⟨false, 0⟩, 4, false, ⟨.vec, false, 0x3⟩, ⟨.con, false, 0x0⟩, 0, 1, 0, 0, 0x1F⟩),
   (0x9A00420A006680C0, .atomx ⟨⟨false, 0⟩, 4, false, ⟨.scl, false, 0xA⟩, ⟨.vec, false, 0x3⟩, 3, 2, 0, 0, 0xC0⟩),
   (0x9B00120AC0030130, .redg ⟨⟨false, 0⟩, 1, false, ⟨.scl, false, 0xA⟩, ⟨.con, false, 0x0⟩, 1, 4, 0, 0, 0x130⟩),
   (0x9C001002C0024040, .reds ⟨⟨false, 0⟩, 1, false, ⟨.vec, false, 0x2⟩, ⟨.con, false, 0x0⟩, 1, 1, 0, 0, 0x40⟩),
   (0x9D001002C00D0000, .xred ⟨⟨false, 0⟩, 1, false, ⟨.vec, false, 0x2⟩, ⟨.con, false, 0x0⟩, 6, 4, 0, 0, 0x0⟩),
   (0x9E010002C0030000, .xrd ⟨⟨false, 0⟩, 16, false, ⟨.vec, false, 0x2⟩, ⟨.con, false, 0x0⟩, 1, 4, 0, 0, 0x0⟩)]

theorem test_decode_atomics : (words_atomics.all fun p => decide (decodeTableWord 64 p.1 = some p.2) && wellFormed p.2) = true := by
  decide +kernel

/-- Words of the M format (R192, R218 to R231). -/
def words_sync : List (Nat × Instr) :=
  [(0xA00FF600C0004000, .bar ⟨⟨false, 0⟩, 255, false, ⟨.con, false, 0x0⟩, ⟨.con, false, 0x0⟩, 0, 1, 0, 0, 0x0⟩),
   (0xA100F600C0008000, .barc ⟨⟨false, 0⟩, 15, false, ⟨.con, false, 0x0⟩, ⟨.con, false, 0x0⟩, 0, 2, 0, 0, 0x0⟩),
   (0xA2000600C0014000, .fence ⟨⟨false, 0⟩, 0, false, ⟨.con, false, 0x0⟩, ⟨.con, false, 0x0⟩, 0, 5, 0, 0, 0x0⟩),
   (0xA300220AC00A8000, .syacq ⟨⟨false, 0⟩, 2, false, ⟨.scl, false, 0xA⟩, ⟨.con, false, 0x0⟩, 5, 2, 0, 0, 0x0⟩),
   (0xA4002A0AC00A8000, .syrel ⟨⟨false, 0⟩, 2, true, ⟨.scl, false, 0xA⟩, ⟨.con, false, 0x0⟩, 5, 2, 0, 0, 0x0⟩),
   (0xA500220AC00A0007, .sybind ⟨⟨false, 0⟩, 2, false, ⟨.scl, false, 0xA⟩, ⟨.con, false, 0x0⟩, 5, 0, 0, 0, 0x7⟩),
   (0xA600220AC00B4000, .mwatch ⟨⟨false, 0⟩, 2, false, ⟨.scl, false, 0xA⟩, ⟨.con, false, 0x0⟩, 5, 5, 0, 0, 0x0⟩),
   (0xA7002600C0800000, .mwait ⟨⟨false, 0⟩, 2, false, ⟨.con, false, 0x0⟩, ⟨.con, false, 0x4⟩, 0, 0, 0, 0, 0x0⟩),
   (0xA800720AC0000000, .waittl ⟨⟨false, 0⟩, 7, false, ⟨.scl, false, 0xA⟩, ⟨.con, false, 0x0⟩, 0, 0, 0, 0, 0x0⟩),
   (0xA90FF600C0004000, .ordw ⟨⟨false, 0⟩, 255, false, ⟨.con, false, 0x0⟩, ⟨.con, false, 0x0⟩, 0, 1, 0, 0, 0x0⟩),
   (0xAA003600C0014000, .orda ⟨⟨false, 0⟩, 3, false, ⟨.con, false, 0x0⟩, ⟨.con, false, 0x0⟩, 0, 5, 0, 0, 0x0⟩),
   (0xAB002201C0000000, .waitq ⟨⟨false, 0⟩, 2, false, ⟨.scl, false, 0x1⟩, ⟨.con, false, 0x0⟩, 0, 0, 0, 0, 0x0⟩),
   (0xAC00220140410000, .qopen ⟨⟨false, 0⟩, 2, false, ⟨.scl, false, 0x1⟩, ⟨.scl, false, 0x2⟩, 0, 4, 0, 0, 0x0⟩),
   (0xAD002201C0000000, .qclose ⟨⟨false, 0⟩, 2, false, ⟨.scl, false, 0x1⟩, ⟨.con, false, 0x0⟩, 0, 0, 0, 0, 0x0⟩)]

theorem test_decode_sync : (words_sync.all fun p => decide (decodeTableWord 64 p.1 = some p.2) && wellFormed p.2) = true := by
  decide +kernel

/-- Words of the E format (R84, R232). -/
def words_copies : List (Nat × Instr) :=
  [(0xB002042F00000301, .acopy ⟨⟨false, 0⟩, 8, false, 1, 0xBC, 0x0, 0x301⟩),
   (0xB1043FFFE1800000, .acopys ⟨⟨false, 0⟩, 16, true, 7, 0xFFF, 0x2180, 0x0⟩),
   (0xB201080040000000, .afill ⟨⟨false, 0⟩, 4, false, 2, 0x1, 0x0, 0x0⟩),
   (0xB302001680000000, .spawn ⟨⟨false, 0⟩, 8, false, 0, 0x5A, 0x0, 0x0⟩),
   (0xB401080000000000, .fsend ⟨⟨false, 0⟩, 4, false, 2, 0x0, 0x0, 0x0⟩),
   (0xB50EC80000000000, .fget ⟨⟨false, 0⟩, 59, false, 2, 0x0, 0x0, 0x0⟩),
   (0xB602400000020001, .tlrd ⟨⟨false, 0⟩, 9, false, 0, 0x0, 0x2, 0x1⟩)]

theorem test_decode_copies : (words_copies.all fun p => decide (decodeTableWord 64 p.1 = some p.2) && wellFormed p.2) = true := by
  decide +kernel

/-- Words of the E format (R84, R258 to R274). -/
def words_tile : List (Nat × Instr) :=
  [(0xC00100000000000F, .ores ⟨⟨false, 0⟩, 4, false, 0, 0x0, 0x0, 0xF⟩),
   (0xC100000000000003, .orel ⟨⟨false, 0⟩, 0, false, 0, 0x0, 0x0, 0x3⟩),
   (0xC201040000000002, .oload ⟨⟨false, 0⟩, 4, false, 1, 0x0, 0x0, 0x2⟩),
   (0xC3010401C0000010, .ogath ⟨⟨false, 0⟩, 4, false, 1, 0x7, 0x0, 0x10⟩),
   (0xC4050401C0002840, .mma ⟨⟨false, 0⟩, 20, false, 1, 0x7, 0x0, 0x2840⟩),
   (0xC505040000012840, .mmab ⟨⟨false, 0⟩, 20, false, 1, 0x0, 0x1, 0x2840⟩),
   (0xC600040000000003, .mzero ⟨⟨false, 0⟩, 0, false, 1, 0x0, 0x0, 0x3⟩),
   (0xC7050401C0106804, .mdrain ⟨⟨false, 0⟩, 20, false, 1, 0x7, 0x10, 0x6804⟩)]

theorem test_decode_tile : (words_tile.all fun p => decide (decodeTableWord 64 p.1 = some p.2) && wellFormed p.2) = true := by
  decide +kernel

/-! A small state: one wave on core 0 whose next instruction is a given word. -/

/-- A register that stands in the pool. -/
def bank (n : Nat) (l : Lanes) : Nat × Reg := (n, ⟨.bank n, 0, l, 0, 0, 0⟩)

/-- v2 holds the lane number, v3 three times that and 1, v4 the most negative integer but for the lane number, v6 to v9 small
numbers, v10 and v11 the address 0x4000 and 16 bytes on for every lane, the pairs from v12 on 2^60 - 8, 0 and 2^60. -/
def demoV : Table Reg :=
  [bank 1 (mkLanes fun _ => 0x11223344), bank 2 (mkLanes fun l => BitVec.ofNat 32 l), bank 3 (mkLanes fun l => BitVec.ofNat 32 (3 * l + 1)),
    bank 4 (mkLanes fun l => BitVec.ofNat 32 (0x80000000 + l)), bank 5 (mkLanes fun _ => 0x40000000),
    bank 6 (mkLanes fun _ => 0x3FC00000), bank 7 (mkLanes fun _ => 0), bank 8 (mkLanes fun _ => 7), bank 9 (mkLanes fun _ => 0),
    bank 10 (mkLanes fun l => BitVec.ofNat 32 (0x4000 + 16 * l)), bank 11 (mkLanes fun _ => 0),
    bank 12 (mkLanes fun _ => 0xFFFFFFF8), bank 13 (mkLanes fun _ => 0x0FFFFFFF), bank 14 (mkLanes fun _ => 0),
    bank 15 (mkLanes fun _ => 0), bank 16 (mkLanes fun _ => 0), bank 17 (mkLanes fun _ => 0x10000000)]

def demoS : Table Reg :=
  [bank 0 (scalarLanes 0xFFFFFFFFFFFFFFFF), bank 1 (scalarLanes 7), bank 2 (scalarLanes 5), bank 3 (scalarLanes 0),
    bank 4 (scalarLanes 0x6000), bank 5 (scalarLanes 0x5000),
    bank 10 (scalarLanes 0x4000), bank 12 (scalarLanes 0x6000), bank 13 (scalarLanes 0x8000), bank 14 (scalarLanes 64),
    bank 15 (scalarLanes 0), bank 16 (scalarLanes 0)]

/-- Page tables that map the first GiB of context 0 onto itself, every permission set (R352 to R354). -/
def pageTables : List Host.Cell :=
  cellsPut (cellsPut (cellsPut [] 0x8000 8 0x10003) 0x10000 8 0x11003) 0x11000 8 0xCF9

/-- The package around it: context 0 with page tables and a trap handler, root 7 granted, timeline 5 bound, and class 0 mapped to the
three leaves of core 0. -/
def demoBase : State :=
  let s : State := State.reset.setMem { State.reset.mem with cells := pageTables }
  let s := s.setCtx 0 { s.ctx 0 with xlt := 0x8001, trap := 0x2001, ctl := 1 }
  let s := s.setTimeline 5 { s.timeline 5 with bound := some 0 }
  let s := s.setRoot 7 { s.root 7 with granted := true }
  let s := s.writeReg (.node 0 0) 0x640000800200 0xFFFFFFFFFFFFFFFF
  let s := s.writeReg (.leaf 0 0) 0x200 0x200
  let s := s.writeReg (.leaf 192 0) 0x200 0x200
  let s := s.writeReg (.leaf 384 0) 0x200 0x200
  (s.writeReg (.part 0) 100 0xFFFFFFFFFFFFFFFF).writeReg (.classA 0) 0x200 0xFFFFFFFFFFFFFFFF

/-- The wave with these lanes, in front of the word. -/
def demo (w : Nat) (lanes : Mask) : State :=
  let s := demoBase.withFetchWord 64 w
  let s := s.updWave 0 fun x => { x with
    v := demoV, s := demoS, preds := [0x0000FFFF, 0xAAAAAAAA, 0x7FFFFFFF, 0x7FFFFFFF, 0, 0, 0x7FFFFFFF]
    clause := x.clause.map fun c => { c with lanes := lanes } }
  s.updWg 0 fun g => { g with spadSize := 4096, tlsel := lsetD 0 g.tlsel 0 0xD005 }

/-- The state after the next step. -/
def ran (s : State) : Option State := match step s with | .next t => some t | _ => none

/-- The state after the instruction itself, where what a step does around it reads free values (log 21). -/
def does (w : Nat) (lanes : Mask) : Option State :=
  match decodeTableWord 64 w with
  | some i => match exec i (demo w lanes) with | .next t => some t | _ => none
  | none => none

def vecAfter (w n l : Nat) : Option Word := ((ran (demo w allLanes)).bind (·.wave? 0)).map fun x => laneOf (x.lanes .vec n) l
def sclAfter (w n : Nat) : Option DWord := ((ran (demo w allLanes)).bind (·.wave? 0)).map (·.scalar n)
def bitsAfter (w : Nat) : Option Sticky := ((ran (demo w allLanes)).bind (·.wave? 0)).map (·.sticky)
def trapAfter (w : Nat) (lanes : Mask) : Option TrapInfo := ((ran (demo w lanes)).bind (·.wave? 0)).map (·.trap)

/-! What the statements assume, as checks. -/

def doesPerform (s : State) (x : Issue) (i : Instr) (g : Guard) : Bool :=
  decide (s.issue? = some x) && s.positionOk x i && x.operandsOk i && x.exec g != 0

theorem doesPerform_iff (s : State) (x : Issue) (i : Instr) (g : Guard) : doesPerform s x i g = true ↔ s.performs i g x := by
  simp [doesPerform, State.performs, and_assoc]

def canRead (s : State) (x : Issue) (reads : List Read) (dsts : List (RegFile × Nat)) : Bool :=
  !s.spillConflict x reads dsts && (reads.all fun r => r.relMask x == 0 && !r.needsFill x && r.poisonMask x == 0) && s.exitFaults x == 0

theorem canRead_iff (s : State) (x : Issue) (reads : List Read) (dsts : List (RegFile × Nat)) :
    canRead s x reads dsts = true ↔ s.readable x reads dsts := by
  simp [canRead, State.readable, and_assoc]

def vrIsClear (s : State) (x : Issue) (f : VR) (p : Plan) : Bool :=
  canRead s x p.reads (vrDsts f p.ty) && (f.dk != .grp || !x.groupTaken f.dst.toNat) &&
  (x.cl.handler || !arithEnabled x.wave.trapen (stickyAll (p.res.map (·.2))))

theorem vrIsClear_iff (s : State) (x : Issue) (f : VR) (p : Plan) : vrIsClear s x f p = true ↔ s.vrClear x f p := by
  by_cases h : f.dk = .grp <;> simp [vrIsClear, State.vrClear, canRead_iff, and_assoc, h]

def lands : Reach → Bool
  | .lands c => c.here
  | _ => false

def accessIsClear (s : State) (x : Issue) (c : Access) (addrs : List (Nat × DWord)) : Bool :=
  canRead s x c.reads c.dsts && (addrs.all fun p => p.2.toNat % c.align == 0) &&
  (s.reachAll x c.space c.need c.bytes addrs).2.all fun p => lands p.2.2

theorem lands_iff (r : Reach) : lands r = true ↔ ∃ c, r = .lands c ∧ c.here = true := by
  cases r <;> simp [lands]

theorem accessIsClear_iff (s : State) (x : Issue) (c : Access) (addrs : List (Nat × DWord)) :
    accessIsClear s x c addrs = true ↔ s.accessClear x c addrs := by
  simp only [accessIsClear, State.accessClear, Bool.and_eq_true, canRead_iff, List.all_eq_true, lands_iff, beq_iff_eq, and_assoc]

def engineIsClear (s : State) (x : Issue) (reads : List Read) (dsts : List (RegFile × Nat)) (checks : List Check)
    (wait : Option Stall) : Bool :=
  canRead s x reads dsts && (checks.all fun c => !c.fails) && wait.isNone

theorem engineIsClear_iff (s : State) (x : Issue) (reads : List Read) (dsts : List (RegFile × Nat)) (checks : List Check)
    (wait : Option Stall) : engineIsClear s x reads dsts checks wait = true ↔ s.engineClear x reads dsts checks wait := by
  simp [engineIsClear, State.engineClear, canRead_iff, and_assoc]

/-- The instruction that a state issues meets a check. -/
def issuing (s : State) (p : Issue → Bool) : Bool := match s.issue? with | some x => p x | none => false

theorem issuing_iff (s : State) (p : Issue → Bool) : issuing s p = true ↔ ∃ x, s.issue? = some x ∧ p x = true := by
  unfold issuing
  cases s.issue? <;> simp
/-! Ill-formed words: each decodes, and well-formedness refuses it. -/

/-- VR and VI formats. -/
def ill_vr : List Nat :=
  [ -- a predicate destination of IADD (R80)
   0x100C040080200000,
   -- p0 as a destination (R31)
   0x500C000080200000,
   -- a vector source under a scalar destination (R80)
   0x10040400A0200000,
   -- the lane constant under a scalar destination (R80)
   0x1004077E20200000,
   -- scalar destination 64 (R80)
   0x10050100A0200000,
   -- group destination 32 (R80)
   0x10088100A0200000,
   -- scalar source 64 (R85)
   0x1000052000200000,
   -- group source 32 (R85)
   0x1000061000200000,
   -- a reserved constant (R85)
   0x1000073800200000,
   -- a placeholder outside a macro (R85)
   0x1000077C00200000,
   -- an L bit on a constant (R85)
   0x1000078080200000,
   -- a float constant in a 16-bit integer type (R86)
   0x1000074200200080,
   -- an odd pair of a 64-bit type (R107)
   0x1000080280600040,
   -- an odd destination pair (R107)
   0x10000C0200600040,
   -- a source field that IADD does not use (R76)
   0x1000040100300800,
   -- a type that IADD does not have (R130)
   0x10000401003000C0,
   -- a rounding code of IADD (R88)
   0x1000040100300008,
   -- SAT of IMULH (R130)
   0x1300040100300004,
   -- a sub-op of IADD (R130)
   0x1000040100300001,
   -- bit 0 of BMIX (R138)
   0x2500040100300801,
   -- a predicate number above 7 of SEL (R156)
   0x5300040100301000,
   -- a source type of CVT that it does not have (R146)
   0x4000040100001C00,
   -- an inlined source of SHFL that is no vector (R167)
   0x5A000501601C4000,
   -- a vector lane number of BCAST (R167)
   0x5B00040100300000,
   -- a destination kind of RDLANE (R167)
   0x5C00040160100000,
   -- source bits of MOVI (R81)
   0x1F00100200000000]

theorem test_ill_vr : (ill_vr.all fun w => decide ((decodeTableWord 64 w).map wellFormed = some false)) = true := by decide +kernel

/-- M format. -/
def ill_m : List Nat :=
  [ -- width code 7 (R82)
   0x8000800AC00E0000,
   -- scope 6 (R82)
   0x8000800AC0098000,
   -- a scope that LDS does not have (R192)
   0x8100800AC0088000,
   -- an order that LDG does not have (R192)
   0x8000800AC0082000,
   -- a cache policy of LDS (R192)
   0x8100800AC0080400,
   -- an odd address pair (R83)
   0x8000800BC0080000,
   -- a destination of 128 bits that is no multiple of 4 (R82)
   0x8000600AC00C0000,
   -- the L bit of a destination (R192)
   0x8000880AC0080000,
   -- a vector base of LDB (R192)
   0x8300800AC0080000,
   -- a register of PFG (R192)
   0x8500100AC0080000,
   -- atomic operation 10 (R213)
   0x9800800AC0020140,
   -- a base other than 0x600 of BAR (R192)
   0xA00FF000C0004000,
   -- scope 0 of FENCE (R192)
   0xA2000600C0000000,
   -- bits [51:47] of WAITTL (R192)
   0xA800820AC0000000]

theorem test_ill_m : (ill_m.all fun w => decide ((decodeTableWord 64 w).map wellFormed = some false)) = true := by decide +kernel

/-- E format. -/
def ill_e : List Nat :=
  [ -- a block that passes s63 (R84)
   0xB50F080000000000,
   -- a timeline of ORES (R232)
   0xC001040000000001,
   -- a class of TLRD (R232)
   0xB602400040000000,
   -- RET without its bit (R232)
   0xB002040000800000,
   -- imm16 bits of ACOPY (R243)
   0xB002040000000008,
   -- record 16 (R258)
   0xC001000000000010,
   -- scaling 3 of MMA (R265)
   0xC405040000002C40]

theorem test_ill_e : (ill_e.all fun w => decide ((decodeTableWord 64 w).map wellFormed = some false)) = true := by decide +kernel

/-- B and S formats. -/
def ill_bs : List Nat :=
  [ -- an offset of NOP (R178)
   0x0000000000000001,
   -- an odd link pair (R178)
   0x0301500000000000,
   -- reserved bits of BRA (R84)
   0x0100000100000000,
   -- RETT mode 3 (R188)
   0x0900000000000003,
   -- a YIELD of 65,536 clocks (R186)
   0x0700000000010000,
   -- macro slot 64 (R84)
   0x0A04000000000000,
   -- reserved bits of MDEF (R84)
   0x0B00500100000000,
   -- an unassigned special register (R42)
   0x6800300001900001,
   -- a per-lane register into a scalar (R160)
   0x6800300000000001,
   -- a write of a read-only register (R161)
   0x6900040803400000,
   -- g32 (R162)
   0x6B02000000000000,
   -- RELR of no register (R71)
   0x6D00100000000000,
   -- RELR past v255 (R71)
   0x6D0FF00000000400]

theorem test_ill_bs : (ill_bs.all fun w => decide ((decodeTableWord 64 w).map wellFormed = some false)) = true := by decide +kernel

/-- Unit numbers outside the package (R1), and the greatest inside it. -/
theorem test_ill_events : ([.clauseIssue 768, .icacheLineArrival 16 0 0, .trapEntry 6144, .detTurn 192, .waveKill 0 32, .topNodeRelease 512,
    .probeTokenSend 1360, .enginePop 592, .ctxcreate 1024 false, .qdrForce 1024, .dramRequestIssue 384, .caskPacketRun 256,
    .engineReset .port 16, .engineReset .tile 192, .clusterReset 16, .dieReset 2, .progloadCaskSlot 256 0 0, .hbmMapoutRequest 12 0,
    .laneFailure 16].all fun i => !wellFormed i) = true ∧
    ([.clauseIssue 767, .trapEntry 6143, .detTurn 191, .enginePop 591, .qdrForce 1023, .engineReset .port 15, .dieReset 1].all wellFormed) = true := by
  decide +kernel

/-! One step. Expected values are worked out by hand from the rules named. -/

/-- IADD wraps (R131): -2^31 - 1. -/
theorem test_iadd_wraps : vecAfter 0x1000500264000000 20 0 = some 0x7FFFFFFF := by decide +kernel
/-- With SAT it clamps and sets SATURATE. -/
theorem test_iadd_saturates : vecAfter 0x1000500264000004 20 0 = some 0x80000000 ∧
    bitsAfter 0x1000500264000004 = some Sticky.saturate := by decide +kernel
/-- The carry of 2^64 - 1 + 5 (R132). -/
theorem test_iaddc_carry : sclAfter 0x15045100202C0061 20 = some 1 := by decide +kernel
/-- The borrow of 5 - 7, and the low word (R132). -/
theorem test_isubb : sclAfter 0x16045101201C0061 20 = some 1 ∧
    sclAfter 0x16045101201C0060 20 = some 0xFFFFFFFFFFFFFFFE := by decide +kernel
/-- (2^64 - 1)^2 ÷ 2^64 (R131). -/
theorem test_imulh : sclAfter 0x1304510020000060 20 = some 0xFFFFFFFFFFFFFFFE := by decide +kernel
/-- Lane 5: 5 × 16 + 1 (R131). -/
theorem test_imad : vecAfter 0x14005001003C0200 20 5 = some 81 := by decide +kernel
/-- Signed and unsigned minimum of 0x80000000 and 0 (R131). -/
theorem test_minimum : vecAfter 0x1900500200200000 20 0 = some 0x80000000 ∧
    vecAfter 0x1B00500200200020 20 0 = some 0 := by decide +kernel
/-- Lane 5: 0x4050 + (5 << 4) into a pair (R133). -/
theorem test_lea : vecAfter 0x1D005005002C0820 20 5 = some 0x40A0 := by decide +kernel
/-- Constant 0xFC is the lane number (R85). -/
theorem test_mov_lane : vecAfter 0x1E00537E00000020 20 31 = some 31 := by decide +kernel
theorem test_movi : vecAfter 0x1F014000DEADBEEF 20 9 = some 0xDEADBEEF := by decide +kernel

/-- Table 0xCA chooses b where c has a 1, and a elsewhere (R138). -/
theorem test_bmix : vecAfter 0x25005335E6A00394 20 0 = some 0xCCFF := by decide +kernel
/-- Shifts by W and more (R136). -/
theorem test_shifts : vecAfter 0x26005000E2000020 20 0 = some 0 ∧
    vecAfter 0x2800500263F00000 20 0 = some 0xFFFFFFFF := by decide +kernel
theorem test_rol : vecAfter 0x29005000E0800020 20 0 = some 0x22334411 := by decide +kernel
/-- Seven bits of 0x44, whose top bit is 1, as signed (R137). -/
theorem test_bfe_signed : vecAfter 0x2A005000E00C0E00 20 0 = some 0xFFFFFFC4 := by decide +kernel
/-- Offset 0, length 8 (R137). -/
theorem test_bfi : vecAfter 0x2B005000E6ACAA20 20 0 = some 0x112233FF := by decide +kernel
theorem test_popc_clz : sclAfter 0x2C04510000000060 20 = some 64 ∧
    vecAfter 0x2D00500100000020 20 0 = some 32 := by decide +kernel
/-- Selectors 15, 15, 0, 0: the sign of byte 7 twice, then byte 0 twice (R139). -/
theorem test_bperm : vecAfter 0x2F005000805CD420 20 0 = some 0x44440000 := by decide +kernel

/-- 1.5 + 1.0 and 1.5 × 1.5 + 1.0 (R141). -/
theorem test_fadd_ffma : vecAfter 0x30005003684000C0 20 0 = some 0x40200000 ∧
    vecAfter 0x33005003006D08C0 20 0 = some 0x40500000 := by decide +kernel
/-- -0.0 is the lesser zero (R142), and the sign of 1.5 is inverted (R143). -/
theorem test_fmin_fneg : vecAfter 0x34005340681000C0 20 0 = some 0x80000000 ∧
    vecAfter 0x37005003000000C0 20 0 = some 0xBFC00000 := by decide +kernel
/-- 1.5 rounds to 2 to nearest even and to 1 towards zero (R143). -/
theorem test_frnd : vecAfter 0x38005003000000C0 20 0 = some 0x40000000 ∧
    vecAfter 0x38005003000000C8 20 0 = some 0x3F800000 := by decide +kernel
/-- The reciprocal of 0 is outstanding with DIVZERO (R37, R144). -/
theorem test_frcp_zero : ((ran (demo 0x39005003800000C0 allLanes)).bind (·.wave? 0)).map (fun x => x.ll.map fun o =>
    (o.sticky, o.writes.map fun w => (w.reg, laneOf w.lanes 0))) = some [(Sticky.divzero, [(20, 0x7F800000)])] := by decide +kernel
/-- 1.5 is a positive normal number (R145). -/
theorem test_fclass : vecAfter 0x3F005003000000C0 20 0 = some 0x100 := by decide +kernel
/-- 1.5 as an integer, towards zero, and as FP16 (R146). -/
theorem test_cvt : vecAfter 0x4000500300000C08 20 0 = some 1 ∧
    vecAfter 0x4000500300000CE0 20 0 = some 0x3E00 := by decide +kernel
/-- The greatest magnitude of lanes that all hold 1.5 (R151). -/
theorem test_qamax : vecAfter 0x43005003000000C0 20 7 = some 0x3FC00000 := by decide +kernel

def predAfter (w n : Nat) : Option Mask := ((ran (demo w allLanes)).bind (·.wave? 0)).map (·.pred n)
/-- Every lane of v4 is negative (R155). -/
theorem test_icmp : predAfter 0x500C0C0260000002 3 = some 0xFFFFFFFF := by decide +kernel
/-- p1 is 1 in the low half (R156). -/
theorem test_sel : vecAfter 0x5300500100300220 20 3 = some 3 ∧
    vecAfter 0x5300500100300220 20 20 = some 61 := by decide +kernel
/-- The exclusive or of p1, p2 and p0 (R157). -/
theorem test_plop : predAfter 0x540C10008020012C 4 = some 0x5555AAAA := by decide +kernel

theorem test_ballot : sclAfter 0x5804500100000001 20 = some 0xAAAAAAAA := by decide +kernel
/-- By index 5, and by exclusive or with 1 (R171). -/
theorem test_shfl : vecAfter 0x5A005001E05C4020 20 9 = some 16 ∧
    vecAfter 0x5A005001E01C4023 20 0 = some 4 := by decide +kernel
/-- The sum of 0 to 31 (R175). -/
theorem test_reduce : sclAfter 0x5E04500100000020 20 = some 496 := by decide +kernel
theorem test_active : vecAfter 0x6200500000000001 20 0 = some 32 := by decide +kernel
/-- Lane 5 alone gets the value (R173). -/
theorem test_wrlane : vecAfter 0x5D000900E0500020 2 5 = some 7 ∧
    vecAfter 0x5D000900E0500020 2 6 = some 6 := by decide +kernel

/-- SR_TLSEL0 as the launch gave it (R35, R160). -/
theorem test_rdsr : sclAfter 0x6801400003800001 20 = some 0xD005 := by decide +kernel
/-- Lane 31 of v2 (R162). -/
theorem test_gwr : (ran (demo 0x6A0070040000001F allLanes)).bind (fun t => (t.wg? 0).map fun g =>
    (g.grp.getD 7 0, g.claims.getD 7 none)) = some (31, some 0) := by decide +kernel
/-- v2 and v3 are released (R71). -/
theorem test_relr : ((ran (demo 0x6D00200000000400 allLanes)).bind (·.wave? 0)).map (fun x =>
    (x.reg? .vec 2, x.reg? .vec 3, (x.reg? .vec 4).isSome)) = some (none, none, true) := by decide +kernel

def placesAfter (w : Nat) : Option (List (Nat × Mask)) :=
  ((ran (demo w allLanes)).bind (·.wave? 0)).map fun x => x.frontier.map fun e => (e.pc, e.mask)
/-- The lanes of p1 go back four words, the others on (R179). -/
theorem test_bra : placesAfter 0x01100000FFFFFFFC = some [(0xFFE0, 0xFFFF), (0x10010, 0xFFFF0000)] := by decide +kernel
/-- The link is the next clause (R180). -/
theorem test_call : vecAfter 0x0301400000000002 20 0 = some 0x10010 ∧
    placesAfter 0x0301400000000002 = some [(0x10010, 0xFFFFFFFF)] := by decide +kernel
/-- The last lanes exit, and the wave ends (R185, R51). -/
theorem test_exit : (ran (demo 0x0600000000000000 allLanes)).map (fun t => (t.wave? 0).isSome) = some false := by decide +kernel
/-- Cause 9 with the clause's PC and index (R187, R370). -/
theorem test_trap : trapAfter 0x0800000000000005 allLanes = some ⟨9, 0x10000, 0, 0, allLanes⟩ := by decide +kernel
/-- An unassigned opcode (R90), and a scalar destination above s63 (R80). -/
theorem test_illegal : (match (demo 0xFF00000000000000 allLanes).nextWord 0 with
      | .done t => (t.wave? 0).map (·.trap.cause)
      | .instr _ _ => none) = some 1 ∧
    (trapAfter 0x10050100A0200000 allLanes).map (·.cause) = some 2 := by decide +kernel
/-- A call of an undefined macro slot (R190). -/
theorem test_mcall_undefined : (trapAfter 0x0A00500000000000 allLanes).map (·.cause) = some 0x0E := by decide +kernel

/-- v1 at SYSTEM scope, its low byte at the lower address (R3, R206). -/
theorem test_stg : (does 0x8800100AC0094000 1).map (fun t =>
    (List.range 5).map fun k => t.memByte (0x4000 + k)) = some [0x44, 0x33, 0x22, 0x11, 0] := by decide +kernel
/-- The first entry of the page tables, a word (R203). -/
theorem test_ldc : ((does 0x8601420DC0094000 allLanes).bind (·.wave? 0)).map (fun x => x.ll.map fun o =>
    o.writes.map fun w => (w.reg, w.lanes)) = some [[(20, scalarLanes 0x10003)]] := by decide +kernel
/-- Lane 1 is not aligned to four bytes (R197). -/
theorem test_misaligned : ((does 0x81014002C0084000 6).bind (·.wave? 0)).map (·.trap) = some ⟨3, 0x10000, 0, 1, 6⟩ := by decide +kernel
/-- A scratchpad of 4,096 bytes: lane by lane, a halfword each (R195, R206). -/
theorem test_sts : (does 0x8900160000444000 allLanes).map (fun t =>
    cellsNat (t.core 0).spad 0 6) = some 0x334433443344 := by decide +kernel
/-- Every lane adds 7 to one word (R213, R198). -/
theorem test_reds : (does 0x9C008600C0024000 allLanes).map (fun t =>
    cellsNat (t.core 0).spad 0 4) = some 224 := by decide +kernel

/-- A barrier of one wave is complete at once, with 1 (R218, R220). -/
theorem test_bar : ((ran (demo 0xA0014600C0004000 allLanes)).bind (·.wave? 0)).map (fun x =>
    x.hold.map fun h => (h.done, h.arg)) = some (some (true, 1)) := by decide +kernel
/-- Root 7 opens with 2^62, which the wave holds (R229). -/
theorem test_qopen : (ran (demo 0xAC01420140610000 allLanes)).bind (fun t => (t.wave? 0).map fun x =>
    (x.weight, (t.root 7).isOpen, (t.root 7).o, x.scalar 20)) = some (some ⟨7, 2 ^ 62⟩, true, 2 ^ 62, 0) := by decide +kernel
/-- Root 7 is closed already: status 2 (R231). -/
theorem test_qclose : sclAfter 0xAD014201C0000000 20 = some 2 := by decide +kernel
/-- A copy of 64 bytes takes number 1 of timeline 5 and returns it (R236). -/
theorem test_acopy : (ran (demo 0xB00300002A000000 allLanes)).map (fun t =>
    ((t.timeline 5).issued, t.ops.length, (t.wave? 0).map (·.scalar 20))) = some (1, 1, some 1) := by decide +kernel
/-- MZERO claims ac3 (R262). -/
theorem test_mzero : (ran (demo 0xC600000000000003 allLanes)).map (fun t =>
    ((t.core 0).accs.map (·.wg), (t.timeline 5).issued)) = some ([none, none, none, some 0], 1) := by decide +kernel

/-! Events. -/

/-- A doorbell moves the TAIL of its own queue (R405). -/
theorem test_doorbell : (match exec (.hostQueueDoorbell 3 1) State.reset with
    | .next t => some ((t.queue 3).tail, (t.queue 4).tail)
    | _ => none) = some (1, 0) := by decide +kernel
/-- A package without work enables no completion. -/
theorem test_not_enabled : ([.rootReturn 0, .enginePop 0, .firmwareReady, .launchComplete 1].all fun i =>
    match exec i State.reset with | .fault .notEnabled => true | _ => false) = true := by decide +kernel
/-- After a write of SLACK0 alone the other fields stand (R365). -/
theorem test_regwrite : (match exec (.regwrite 0x200028 0x100 0xFFF00) State.reset with
    | .next t => some ((t.ctx 0).qos.toNat % 2 ^ 20)
    | _ => none) = some 0x101 := by decide +kernel
/-! Witnesses: for every statement with hypotheses, states and operands that meet them. -/

/-- The state in front of a word, changed. -/
def demoWith (w : Nat) (lanes : Mask) (e : State → State) : State := e (demo w lanes)
def onWave (f : Wave → Wave) (s : State) : State := s.updWave 0 f
def onWg (f : Wg → Wg) (s : State) : State := s.updWg 0 f
def onClause (f : Clause → Clause) : State → State := onWave fun x => { x with clause := x.clause.map f }

/-- The word's instruction meets a check in issue. -/
def meets (w : Nat) (lanes : Mask) (e : State → State) (p : State → Issue → Instr → Bool) : Bool :=
  match decodeTableWord 64 w with
  | some i => issuing (demoWith w lanes e) fun x => p (demoWith w lanes e) x i
  | none => false

def isB (p : State → Issue → Instr → B → Bool) (s : State) (x : Issue) (i : Instr) : Bool :=
  match i with
  | .nop f | .bra f | .brx f | .call f | .ret f | .join f | .exit f | .yield f | .trap f | .rett f | .mcall f | .mdef f | .brkpt f =>
    doesPerform s x i f.g && p s x i f
  | _ => false
def isS (p : State → Issue → Instr → S → Bool) (s : State) (x : Issue) (i : Instr) : Bool :=
  match i with
  | .rdsr f | .wrsr f | .gwr f | .gclaim f | .rdclk f | .relr f => doesPerform s x i f.g && p s x i f
  | _ => false
def isV (p : State → Issue → Instr → VR → Bool) (s : State) (x : Issue) (i : Instr) : Bool :=
  match vrOf i with | some f => doesPerform s x i f.g && p s x i f | none => false
def isM (p : State → Issue → Instr → M → Bool) (s : State) (x : Issue) (i : Instr) : Bool :=
  match mShapeOf i with | some (_, f) => doesPerform s x i f.g && p s x i f | none => false
def isE (p : State → Issue → Instr → E → Bool) (s : State) (x : Issue) (i : Instr) : Bool :=
  match eShapeOf i with | some (_, f) => doesPerform s x i f.g && p s x i f | none => false

def same (s : State) : State := s

/-- DecodeEncode, EncodeDecode, StepRunsDecoded: the words above encode what they decode to. -/
theorem wit_encode : ((words_control ++ words_integer ++ words_logic ++ words_float ++ words_conversion ++ words_compare ++
    words_lanes ++ words_special ++ words_memory ++ words_atomics ++ words_sync ++ words_copies ++ words_tile).all fun p =>
    decide (encode p.2 = [BitVec.ofNat 64 p.1])) = true := by decide +kernel

/-- UnassignedOpcodes: unassigned opcodes at the ends of their ranges. -/
theorem wit_UnassignedOpcodes : ([0x0D, 0x0F, 0x47, 0x6E, 0x7F, 0x87, 0xD0, 0xFF].all fun op => unassigned op) = true ∧
    ([0x0C, 0x10, 0x46, 0x50, 0x6D, 0x80, 0xC7].all fun op => !unassigned op) = true := by decide +kernel
theorem wit_issues (w : Nat) (h : w = 0xFF00000000000000 ∨ w = 0) :
    ∃ x, (demo w allLanes).issues 0 x (BitVec.ofNat 64 w) ∧ (demo w allLanes).issue? = some x := by
  rcases h with rfl | rfl
  all_goals
    refine ⟨_, ⟨by decide +kernel, by decide +kernel, rfl, ?_⟩, rfl⟩
    exact ⟨by decide +kernel, _, _, rfl, by decide +kernel, rfl, by decide +kernel, by decide +kernel⟩
/-- A header's tag in an instruction's place, in a clause of class 0. -/
theorem wit_headerTag : meets 0xA00FF600C0004000 allLanes (onClause fun c => { c with cls := 0 })
    (fun _ x i => x.cl.mac.isNone && x.cl.cls != 1 && opcodeOf i == 0xA0) = true ∧
    hdrTagOk (BitVec.ofNat 64 0xA00FF600C0004000) = true := by decide +kernel

def vrWitness (plan : Instr → VR → State → Issue → Mask → Plan) (w : Nat) : Bool :=
  meets w allLanes same (isV fun s x i f => vrIsClear s x f (plan i f s x (x.exec f.g)))
def aluWitness (fn : VR → Nat → Nat → Nat → Nat × Sticky) (w : Nat) : Bool :=
  vrWitness (fun i f => planAlu (vrShape i) f (fn f)) w
def aluWitnesses (words : List (Nat × Instr)) (fns : List (VR → Nat → Nat → Nat → Nat × Sticky)) : Bool :=
  words.length == fns.length && (words.zip fns).all fun p => aluWitness p.2 p.1.1

/-- IntegerArithmetic and CarryAndAddress. -/
theorem wit_integer : aluWitnesses (words_integer.take 15) [aluIadd, aluIsub, aluImul, aluImulh, aluImad, aluIaddc, aluIsubb, aluIabs,
    aluIneg, aluMin, aluMax, aluMin, aluMax, aluLea, aluMov] = true := by decide +kernel
/-- The clauses of `intMeans` at their bounds: just below the least value, just above the greatest, and both. -/
theorem wit_intMeans : (rdInt .i32 0x80000000 + rdInt .i32 0xFFFFFFFF = minOf .i32 - 1) ∧
    (rdInt .i32 0x7FFFFFFF + rdInt .i32 1 = maxOf .i32 + 1) ∧ (rdInt .i32 0x80000000 + rdInt .i32 0 = minOf .i32) ∧
    (rdInt .i32 0x7FFFFFFF + rdInt .i32 0 = maxOf .i32) ∧ ((1 : BitVec 2) ≠ 0) := by decide +kernel
/-- LogicAndBits and BitFields; the latter's clauses about offsets at W and lengths of 0. -/
theorem wit_logic : aluWitnesses words_logic [aluAnd, aluOr, aluXor, aluAndn, aluNot, aluBmix, aluShl, aluShr, aluSar, aluRol, aluBfe,
    aluBfi, aluPopc, aluClz, aluBrev, aluBperm] = true := by decide +kernel
theorem wit_BitFields : (tyWidth .n32 ≤ 32 % 256) ∧ (31 % 256 < tyWidth .n32 ∧ 1 % 256 ≠ 0) ∧ 256 % 256 = 0 ∧ (0 < 2 ^ tyWidth .n64) := by
  decide +kernel
/-- FloatArithmetic, and Transcendentals. -/
theorem wit_float : aluWitnesses words_float [aluFadd, aluFsub, aluFmul, aluFfma, aluFmin, aluFmax, aluFabs, aluFneg, aluFrnd,
    aluFrcp, aluFrsq, aluFsqrt, aluFexp2, aluFlog2, aluFsincos, aluFclass] = true ∧
    aluWitnesses (words_conversion.take 3) [aluCvt, aluCvtsr, aluFdot2] = true := by decide +kernel
/-- NarrowFormats, and two lanes of one group and of two. -/
theorem wit_NarrowFormats : vrWitness (fun _ f => planQamax f) (words_conversion.getD 3 (0, .eventRingWrite)).1 = true ∧
    aluWitness (fun f a _ _ => match fmtOf f.ty with
      | some m => (blockScale m [decodeFloat fp32 (a % 2 ^ 32)], 0)
      | none => (0, 0)) (words_conversion.getD 4 (0, .eventRingWrite)).1 = true ∧
    vrWitness (fun _ f => planQpack f) (words_conversion.getD 5 (0, .eventRingWrite)).1 = true ∧
    vrWitness (fun _ f => planQunpk f) (words_conversion.getD 6 (0, .eventRingWrite)).1 = true ∧ (15 / 16 = 0 / 16 ∧ 16 / 32 = 31 / 32) := by
  decide +kernel
/-- ComparesAndPredicates. -/
theorem wit_compares : aluWitnesses (words_compare.take 3) [aluCmp, aluCmp, aluFcmp] = true ∧
    vrWitness (fun _ f => planSel f) (words_compare.getD 3 (0, .eventRingWrite)).1 = true ∧
    vrWitness (fun _ f => planPlop f) (words_compare.getD 4 (0, .eventRingWrite)).1 = true ∧
    vrWitness (fun _ f => planPmov f) (words_compare.getD 5 (0, .eventRingWrite)).1 = true := by decide +kernel
/-- CrossLane. -/
theorem wit_CrossLane : (words_lanes.zip [planBallot, planLrank, planShfl, planBcast, planRdlane, planWrlane, planReduce, planScan,
    planCompress, planExpand, planActive]).all (fun p => vrWitness (fun _ f => p.2 f) p.1.1) = true ∧
    (allLanes.getLsbD 31 = true ∧ (31 : Nat) < 32) := by decide +kernel
/-- SpecialRegisters: the selectors and the sticky bits. -/
theorem wit_SpecialRegisters : (7 : Nat) < 8 ∧ (8 : Nat) < 9 := by decide +kernel

/-- MoviRdsrRdclk: in and outside deterministic mode. -/
theorem wit_MoviRdsrRdclk :
    meets 0x1F00500000000007 allLanes same (fun s x i => match i with
      | .movi f => doesPerform s x i f.g && canRead s x [] [(.vec, f.dst.toNat)]
      | _ => false) = true ∧
    meets 0x6801400003800001 allLanes same (isS fun s x _ f => canRead s x [] [(.scl, f.dst.toNat)]) = true ∧
    meets 0x6801400000000000 allLanes same (isS fun s x _ f => canRead s x [] [(.vec, f.dst.toNat)]) = true ∧
    ([false, true].all fun d => meets 0x6C00800000000000 allLanes (onWg fun g => { g with det := d })
      (isS fun s x _ f => canRead s x [] [(.scl, f.dst.toNat)] && x.wg.det == d)) = true := by decide +kernel
/-- WrsrRelr: scope 6, the least that is refused, scope 5, and SR_STATUS and SR_TRAPEN. -/
theorem wit_WrsrRelr :
    meets 0x6900040803800000 allLanes same (isS fun s x _ f => canRead s x (x.srcReads .n64 f.a (x.exec f.g)) [] &&
      (s.opnd x .n64 f.a 0) / 2 ^ 12 % 8 == 6 && f.sr == 0x38) = true ∧
    meets 0x6900040A03F00000 allLanes same (isS fun s x _ f => canRead s x (x.srcReads .n64 f.a (x.exec f.g)) [] &&
      (s.opnd x .n64 f.a 0) / 2 ^ 12 % 8 == 5) = true ∧
    ([0x6900040802000000, 0x6900040802100000].all fun w => meets w allLanes same (isS fun s x _ f =>
      canRead s x (x.srcReads .n64 f.a (x.exec f.g)) [] && f.sr.toNat < 0x38)) = true ∧
    meets 0x6D01000000000800 allLanes same (isS fun s x _ _ => canRead s x [] []) = true := by decide +kernel
/-- GroupWriters: the group register unclaimed, claimed by the wave, and by another. -/
theorem wit_GroupWriters : ([none, some 0, some 1].all fun c =>
    meets 0x6A0070040000001F allLanes (onWg fun g => { g with claims := lsetD none g.claims 7 c }) (isS fun s x _ f =>
      canRead s x (x.vecReads f.a.num.toNat 1 (maskOf fun l => l == 31) ((lanesIn (x.exec f.g)).map fun l => (l, 31))) [] &&
      decide (x.wg.claims.getD 7 none = c) && x.wave.waveId == 0)) = true ∧
    meets 0x6A01F40200000000 allLanes same (isS fun s x _ f => canRead s x (x.srcReads .n64 f.a (x.exec f.g)) []) = true ∧
    ([none, some 0, some 1].all fun c =>
      meets 0x6B01F00000000000 allLanes (onWg fun g => { g with claims := lsetD none g.claims 31 c }) (isS fun s x _ _ =>
        canRead s x [] [] && decide (x.wg.claims.getD 31 none = c))) = true ∧
    meets 0x6B51F00000000000 allLanes same (fun s x i => match i with
      | .gclaim f => decide (s.issue? = some x) && s.positionOk x i && x.operandsOk i && x.exec f.g == 0
      | _ => false) = true := by decide +kernel
def canReadNone (s : State) (x : Issue) : Bool := canRead s x [] []
/-- The wave in its handler, with a trapped entry of some lanes at a clause of the page tables' GiB. -/
def inHandlerNow (count : Nat) (m : Mask) (rest : List Entry) (x : Wave) : Wave :=
  { x with
    inTrap := true, frontier := rest ++ [⟨0x10000, some 0, m, .trapped, 0, none, none, false, [], count⟩]
    clause := x.clause.map fun c => { c with handler := true } }
def elsewhere : Entry := ⟨0x20000, some 0, 0xF0, .ready, 0, none, none, false, [], 0⟩

/-- BranchesAndCalls: NOP, BRA and CALL. -/
theorem wit_BranchesAndCalls : ([0, 0x01100000FFFFFFFC].all fun w => meets w allLanes same (isB fun s x _ _ => canReadNone s x)) = true ∧
    meets 0x0301400000000002 allLanes same (isB fun s x _ f =>
      canRead s x [] [(.vec, f.link.toNat), (.vec, f.link.toNat + 1)]) = true := by decide +kernel

def brxTarget (s : State) (x : Issue) (i : Instr) (f : B) (l : Nat) : Nat :=
  wrapInt 64 ((s.vecVal x f.link.toNat true l : Int) + (match i with | .ret _ => 0 | _ => 8 * f.off.toInt))
/-- BranchesAndCalls, BRX and RET: legal targets, one of them 2^60 - 8; targets that are not aligned; the target 0, and the target 2^60. -/
theorem wit_computedTargets :
    ([0x0200A00000000003, 0x0400C00000000000].all fun w => meets w allLanes same (isB fun s x i f =>
      canRead s x (x.vecReads f.link.toNat 2 (x.exec f.g) []) [] && (lanesIn (x.exec f.g)).all fun l =>
        brxTarget s x i f l % 8 == 0 && brxTarget s x i f l != 0 && decide (brxTarget s x i f l < 2 ^ 60))) = true ∧
    meets 0x0200200000000003 allLanes same (isB fun s x i f =>
      canRead s x (x.vecReads f.link.toNat 2 (x.exec f.g) []) [] && brxTarget s x i f 0 % 8 == 0 && brxTarget s x i f 1 % 8 == 1) = true ∧
    ([0x0400E00000000000, 0x0401000000000000].all fun w => meets w allLanes same (isB fun s x i f =>
      canRead s x (x.vecReads f.link.toNat 2 (x.exec f.g) []) [] && (lanesIn (x.exec f.g)).all fun l =>
        brxTarget s x i f l % 8 == 0 && (brxTarget s x i f l == 0 || brxTarget s x i f l == 2 ^ 60))) = true := by decide +kernel

def joinList (s : State) (x : Issue) (f : B) : List Entry :=
  s.movedEntries x [(x.cl.nextPc, x.cl.lanes &&& ~~~(x.exec f.g))] ++ [x.joined (x.exec f.g)]
/-- JoinHolds: lanes that have not joined, and all of them joined. -/
theorem wit_JoinHolds :
    meets 0x0510000000000000 allLanes same (isB fun s x _ f => canReadNone s x &&
      (joinList s x f).all fun e => e.st != .joined || joinedLanes (joinList s x f) e.pc != lanesOfEntries (joinList s x f)) = true ∧
    meets 0x0500000000000000 allLanes same (isB fun s x _ f => canReadNone s x && x.cl.mac.isNone &&
      ((joinList s x f).all fun e => e.st != .joined || (e.pc == x.cl.pc && e.index == x.cl.index)) &&
      joinedLanes (joinList s x f) x.cl.pc == lanesOfEntries (joinList s x f)) = true := by decide +kernel

def exitList (s : State) (x : Issue) (f : B) : List Entry := s.movedEntries x [(x.cl.nextPc, x.cl.lanes &&& ~~~(x.exec f.g))]
/-- ExitAndYield: the wave's last lanes, and some of them. -/
theorem wit_ExitAndYield :
    meets 0x0600000000000000 allLanes same (isB fun s x _ f => canReadNone s x && lanesOfEntries (exitList s x f) == 0) = true ∧
    meets 0x0610000000000000 allLanes same (isB fun s x _ f => canReadNone s x && lanesOfEntries (exitList s x f) != 0) = true := by
  decide +kernel
/-- ExitAndYield, TrapBrkpt: in a handler, in deterministic mode, and in neither. -/
theorem wit_YieldTrap :
    ([0x07000000000000C8, 0x0800000000000005, 0x0C00000000000000].all fun w =>
      meets w allLanes (onWave (inHandlerNow 0 0xF []) ∘ onClause fun c => { c with handler := true }) (isB fun s x _ _ =>
        canReadNone s x && x.cl.handler)) = true ∧
    meets 0x07000000000000C8 allLanes (onWg fun g => { g with det := true }) (isB fun s x _ _ => canReadNone s x && x.wg.det) = true ∧
    meets 0x0700000000000000 allLanes same (isB fun s x _ _ => canReadNone s x && !x.wg.det && !x.cl.handler) = true ∧
    ([0x0800000000000005, 0x0C00000000000000].all fun w => meets w allLanes same (isB fun s x _ _ => canReadNone s x && !x.cl.handler &&
      trapPresent (s.ctx x.wg.ctx).trap && (s.seq (seqOfWave x.w)).owner.isNone && !x.wg.switching && !x.wave.readback)) = true := by
  decide +kernel

/-- The page's first word is this header. -/
def withHeaders (h : DWord) (s : State) : State :=
  s.setMem { s.mem with icache := s.mem.icache.map fun l => { l with words := l.words.map fun ws => lset ws 0 h } }
/-- RettReturns: the three modes; a clause that goes on, one that ends; lanes left, and none. -/
theorem wit_RettReturns :
    ([0x0900000000000000, 0x0900000000000001, 0x0900000000000002].all fun w => [1, 2].all fun n =>
      meets w allLanes (onWave (inHandlerNow n 0xF [elsewhere])) (isB fun s x _ _ =>
        canReadNone s x && lanesOfEntries x.wave.untrapped != 0 && (s.waves.all fun p => p.2.queued.isNone) &&
        match x.wave.trapped? with
          | some e => e.mac.isNone && e.mask != 0 && e.count == n && e.index == 0
          | none => false)) = true ∧
    meets 0x0900000000000002 allLanes (onWave (inHandlerNow 1 0xF [])) (isB fun s x _ _ =>
      canReadNone s x && lanesOfEntries x.wave.untrapped == 0 && x.wave.trapped?.isSome) = true := by decide +kernel

/-- MacroInstructions: a body of one word, which is legal in a macro; and a slot of the launch with one operation. -/
theorem wit_MacroInstructions :
    meets 0x0B03F00000000002 allLanes (fun s => s.setMem { s.mem with icache := s.mem.icache.map fun l =>
        { l with words := l.words.map fun ws => lset ws 2 0x1F00500000000007 } }) (isB fun s x _ f => canReadNone s x &&
      (s.seq (seqOfWave x.w)).body.isEmpty && match s.fetchBody x.w x.wg.ctx (bitsOf f.mid.toNat 6 5 + 1) (x.targetOf f.off) [] with
      | .words _ ws => ws == [0x1F00500000000007] && ws.all macroWordOk
      | _ => false) = true ∧
    meets 0x0A03F00000000000 allLanes (fun s => s.updCore 0 fun c => { c with macros := tput c.macros 63 ⟨0, [0x1F00500000000007]⟩ })
      (isB fun s x _ f => canReadNone s x && decide ((s.core x.core).expansion f x.wg.launch = some [0x1F00500000000007])) = true := by
  decide +kernel

/-! Accesses. One lane executes, since a second access to a page may meet the TLB, whose use is free (log 7). -/

def accWitness (acc : Instr → M → State → Issue → Mask → Access) (addrs : Instr → M → State → Issue → Mask → List (Nat × DWord))
    (ok : M → State → Issue → State → List LaneLoc → Bool) (w : Nat) : Bool :=
  meets w 1 same (isM fun s x i f =>
    let c := acc i f s x (x.exec f.g)
    let a := addrs i f s x (x.exec f.g)
    accessIsClear s x c a && ok f s x (s.landing x c a).1 (s.landing x c a).2)
def byLane (i : Instr) (f : M) (s : State) (x : Issue) (e : Mask) : List (Nat × DWord) := s.laneAddrs x i f e
def byStride (i : Instr) (f : M) (s : State) (x : Issue) (e : Mask) : List (Nat × DWord) := s.strideAddrs x i f e
def byRank (i : Instr) (f : M) (s : State) (x : Issue) (e : Mask) : List (Nat × DWord) := s.rankAddrs x i f e
def always (_ : M) (_ : State) (_ : Issue) (_ : State) (_ : List LaneLoc) : Bool := true

/-- LoadsRead. -/
theorem wit_LoadsRead : accWitness (loadAccess .global) byLane always 0x8001400AC00D5000 = true ∧
    accWitness (loadAccess .spad) byLane always 0x8101460000EC4000 = true ∧
    accWitness (loadAccess .remote) byLane always 0x8201460000E88000 = true ∧
    accWitness (loadAccess .global) byStride always 0x8301420AC0010000 = true ∧
    accWitness (loadAccess .global) byRank always 0x8401420AC00B0000 = true ∧
    accWitness (fun _ f => ldcAccess f) (fun i f => oneAddr i f) always 0x8601420AC00D0000 = true ∧
    meets 0x8500000AC0080000 allLanes same (isM fun s x i f => canRead s x (x.addrReads i f (x.exec f.g)) []) = true := by
  decide +kernel
/-- StoresWrite. -/
theorem wit_StoresWrite : accWitness (storeAccess .global) byLane always 0x8800100AC0096000 = true ∧
    accWitness (storeAccess .spad) byLane always 0x8900860000EC4000 = true ∧
    accWitness (storeAccess .remote) byLane always 0x8A00160000E88000 = true ∧
    accWitness (storeAccess .global) byStride always 0x8B00120AC0010000 = true ∧
    accWitness (storeAccess .global) byRank always 0x8C00220AC00B0000 = true := by decide +kernel
/-- AtomicsStep, and its operands at their bounds. -/
theorem wit_AtomicsStep : accWitness (atomicAccess .global true) byLane always 0x9800800AC00330E0 = true ∧
    accWitness (atomicAccess .spad true) byLane always 0x99008600C0064000 = true ∧
    accWitness (atomicAccess .remote true) byLane always 0x9A008600C0028000 = true ∧
    accWitness (atomicAccess .global false) byLane always 0x9B00800AC0030000 = true ∧
    accWitness (atomicAccess .spad false) byLane always 0x9C008600C0024000 = true ∧
    ((2 ^ 32 - 1 < 2 ^ tyWidth .n32) ∧ 2 ^ 64 - 1 < 2 ^ tyWidth .i64) := by decide +kernel
/-- ExactAccumulators: with the object of zeros no rounding meets a condition. -/
theorem wit_ExactAccumulators : accWitness (fun _ f => xredAccess f) byLane always 0x9D00600AC00D0000 = true ∧
    accWitness (fun _ f => xrdAccess f) byLane (fun f s x _ l => x.cl.handler ||
      l.all fun p => !arithEnabled x.wave.trapen (xrdRead f (s.readLoc x f.scope.toNat p.loc 64).2).2)
      0x9E01400AC00D0000 = true := by decide +kernel
/-- LinesAndCaches. -/
theorem wit_LinesAndCaches :
    accWitness (fun i f _ x e => x.lineAccess i f e (dataRegs f.data.toNat 1)) byLane always 0x9001400AC000C000 = true ∧
    ([0x9100000AC000C000, 0x9200000AC0014000,
      0x9300000AC0004000].all fun w => accWitness (fun i f _ x e => x.lineAccess i f e []) byLane always w) = true := by
  decide +kernel

/-- A heap descriptor at 0x4000: an arena of 1 MiB at 0x100000, slices of 64 KiB. -/
def withHeap (s : State) : State :=
  s.setMem { s.mem with cells := cellsPut (cellsPut (cellsPut s.mem.cells 0x4000 8 0x100000) 0x4008 8 0x100000) 0x4018 8 0x10000 }
def descriptorHolds (s : State) (x : Issue) (i : Instr) (f : M) (write : Bool) (p : State → LaneLoc → Bool) : Bool :=
  let addr := s.addrOf x i f 0
  addr.toNat % 256 == 0 && match s.reach x .global ⟨true, write, false⟩ 256 addr with
    | (u, .lands c) => let t := u.settleLoc x.core 4 c 256
      c.here && !t.badLoc x.core 4 c 256 && p t ⟨lowestLane (x.exec f.g), addr, c⟩
    | _ => false
/-- HeapOperations, HALLOC: in and outside deterministic mode; the classes at their bounds. -/
theorem wit_heapAllocates : ([false, true].all fun d =>
    meets 0x9401420A402B0000 allLanes (withHeap ∘ onWg fun g => { g with det := d }) (isM fun s x i f =>
      canRead s x (x.addrReads i f (x.exec f.g)) (dataRegs f.data.toNat 2) && x.wg.det == d &&
      descriptorHolds s x i f (!d) fun t h => d || (t.heapAlloc x h (s.heapSize x f) (lanesIn (x.exec f.g))).2.2 == .all)) = true ∧
    (heapClass 0 = none ∧ heapClass 1 = some (0, 16) ∧ heapClass 16 = some (0, 16) ∧ heapClass 17 = some (1, 32) ∧
      heapClass 65536 = some (12, 65536) ∧ heapClass 65537 = none) := by decide +kernel
/-- HeapOperations, HFREE: the pointer 0 in every lane; a pointer that is freed. -/
theorem wit_heapFrees : ([false, true].all fun d =>
    meets 0x9500E20A402B0000 allLanes (withHeap ∘ onWg fun g => { g with det := d }) (isM fun s x i f =>
      canRead s x (x.addrReads i f (x.exec f.g) ++ x.dataReads f.data.toNat 2 (x.exec f.g)) [] && x.wg.det == d &&
      (d || descriptorHolds s x i f true fun t h =>
        (t.heapFree x h (s.dataVal x f.data.toNat 2) (s.heapSize x f) (lanesIn (x.exec f.g))).2 == .all))) = true ∧
    (freeClass 0x100000 0x100000 0x100040 64).isSome = true := by decide +kernel

/-- AccessesTrap: an access that is not aligned, and one that is aligned and not allowed. -/
def trapWitness (acc : Instr → M → State → Issue → Mask → Access) (addrs : Instr → M → State → Issue → Mask → List (Nat × DWord))
    (prot : Bool) (w : Nat) : Bool :=
  meets w 1 same (isM fun s x i f =>
    let c := acc i f s x (x.exec f.g)
    let a := addrs i f s x (x.exec f.g)
    canRead s x c.reads c.dsts && (if prot then (a.all fun q => q.2.toNat % c.align == 0) &&
        (s.reachAll x c.space c.need c.bytes a).2.any fun r => r.2.2 == .prot
      else a.any fun q => q.2.toNat % c.align != 0))
theorem wit_AccessesTrap :
    trapWitness (loadAccess .spad) byLane false 0x81014008C00A4000 = true ∧
    trapWitness (loadAccess .global) byLane true 0x80014010C0094000 = true ∧
    trapWitness (loadAccess .spad) byLane true 0x8101420E41CC41FF = true ∧
    trapWitness (loadAccess .remote) byLane true 0x82014200C0008000 = true ∧
    trapWitness (storeAccess .global) byStride false 0x8B001201C0090000 = true ∧
    trapWitness (fun _ f => ldcAccess f) (fun i f => oneAddr i f) false 0x86014202C0090000 = true ∧
    trapWitness (fun i f => wordAcc i f .global ⟨true, false, false⟩ 0 (sclDsts f)) (fun i f => oneAddr i f) false
      0xA3014201C00A8000 = true := by decide +kernel
/-! Synchronisation. -/

/-- A second wave of the workgroup in slot 1, held by an instruction. -/
def withSecond (h : Option Hold) (s : State) : State :=
  match s.wave? 0 with
  | some x => (s.setWave 1 { x with waveId := 1, hold := h, clause := x.clause.map fun c => { c with lanes := 1 } }).updWg 0 fun g =>
      { g with nwaves := 2, waves := [some 0, some 1] }
  | none => s
def heldBy (i : Option Instr) : Option Hold := i.map fun i => ⟨i, 1, 0, 0, false, false⟩
def noGroupResult (x : Issue) : Bool := x.wave.ll.all fun o => o.grp.isNone
/-- BarriersHold: a wave that has not arrived; the last of two; the other one held with it. -/
theorem wit_BarriersHold :
    ([0xA0014600C0004000, 0xA10FF600C0008000].all fun w =>
      meets w allLanes (withSecond none) (isM fun s x _ f => canRead s x [] (sclDsts f) && noGroupResult x && x.wg.bar.isEmpty &&
        x.wg.barc.isEmpty && (s.launch? x.wg.launch).isNone && x.wg.ids == [0, 1] && x.wave.waveId == 0)) = true ∧
    ([0xA0014600C0004000, 0xA10FF600C0008000].all fun w =>
      meets w allLanes (fun s => (withSecond (heldBy (decodeTableWord 64 w)) s).updWg 0 fun g => { g with bar := [1], barc := [(1, 0)] })
      (isM fun s x i f => canRead s x [] (sclDsts f) && noGroupResult x && x.wg.bar == [1] && x.wg.barc == [(1, 0)] &&
        x.wg.ids == [0, 1] && x.wg.key? 0 == some x.w && x.wg.key? 1 == some 1 && !x.wg.det &&
        (s.wave? 1).any fun z => z.hold == some ⟨i, 1, 0, 0, false, false⟩)) = true := by decide +kernel
/-- FencesAndObjects: a quiet wave, and one with a result outstanding. -/
theorem wit_FencesAndObjects : ([true, false].all fun q =>
    meets 0xA2000600C0014000 allLanes (onWave fun x => if q then x else { x with ll := [LLOp.of []] })
      (isM fun s x _ _ => canRead s x [] [] && x.wave.quiet == q)) = true ∧
    accWitness (fun i f => wordAcc i f .global ⟨true, false, false⟩ 0 (sclDsts f)) (fun i f => oneAddr i f)
      (fun f _ x t l => l.all fun p => !(t.readLoc x f.scope.toNat p.loc 8).1.badLoc x.core f.scope.toNat p.loc 8) 0xA301420AC00B4000 = true ∧
    accWitness (fun i f => wordAcc i f .global ⟨false, true, false⟩ 1 []) (fun i f => oneAddr i f) always
      0xA400120AC00B4000 = true ∧
    accWitness (fun i f => wordAcc i f .global ⟨true, false, false⟩ 2 []) (fun i f => oneAddr i f)
      (fun f s x t _ => decide ((s.sreg x f.data.toNat).toNat + (s.sreg x (f.data.toNat + 1)).toNat ≤ 2 ^ 60) &&
        (t.bindRange x.wg.ctx (s.addrOf x (.sybind f) f 0).toNat (f.off.toNat % 8) (s.sreg x f.data.toNat).toNat
          (s.sreg x (f.data.toNat + 1)).toNat).isSome) 0xA500220AC00A0007 = true := by decide +kernel
/-- WatchedWords: nothing watched, a word that differs from sD, and one that does not. -/
theorem wit_WatchedWords :
    accWitness (fun i f => wordAcc i f (if f.scope = 1 then .spad else .global) ⟨true, false, false⟩ 0 (sclDsts f)) (fun i f => oneAddr i f)
      (fun f _ x t l => l.all fun p => !(t.readLoc x f.scope.toNat p.loc 8).1.badLoc x.core f.scope.toNat p.loc 8) 0xA601420AC00B4000 = true ∧
    ([(none, 1), (some ⟨0, 1, 0⟩, 1), (some ⟨0, 1, 0⟩, 3)].all fun (p : Option Watch × Nat) =>
      match decodeTableWord 64 0xA7001600C0800000 with
      | some (.mwait f) =>
        let i : Instr := .mwait { f with data := BitVec.ofNat 8 p.2 }
        let s := demoWith 0xA700000000000000 allLanes (onWave fun x => { x with watch := p.1 })
        issuing s fun x => isM (fun s x i f => canRead s x (Issue.sclReads f 1 (x.exec f.g) ++ x.addrReads i f (x.exec f.g)) (sclDsts f) &&
          x.wave.hold.isNone && decide (x.wave.watch = p.1) && match p.1 with
            | some a => ((s.settleWatch x).watchLook x.core x.wg a == s.sreg x f.data.toNat) == (p.2 == 3)
            | none => true) s x i
      | _ => false) = true := by decide +kernel
/-- TimelineWaits: not bound; a fault at the number, and one above it; the number reached, and not. -/
theorem wit_TimelineWaits :
    let w := 0xA8000202C0000000
    let at' (p : Timeline → Bool) (e : Timeline → Timeline) := meets w allLanes (fun s => s.setTimeline 5 (e (s.timeline 5)))
      (isM fun s x i f => canRead s x (x.addrReads i f (x.exec f.g)) [] && s.waitNumber x f == 5 && p (s.timeline (x.waitLine f)))
    at' (fun l => l.bound != some 0) (fun l => { l with bound := none }) = true ∧
    at' (fun l => l.fault == some (1, 5, 0)) (fun l => { l with fault := some (1, 5, 0) }) = true ∧
    at' (fun l => l.fault == some (1, 6, 0) && l.done == 5) (fun l => { l with fault := some (1, 6, 0), done := 5 }) = true ∧
    at' (fun l => l.fault == none && l.done == 4) (fun l => { l with done := 4 }) = true := by decide +kernel

def someLaunch : Launch := ⟨0, 0, 0, 0, 0, 0, none, 0, none, 0, false, [], false, [], false, none, false, 0, none, false, false⟩
/-- OrderedTickets: the ticket not reached, reached with and without an abandon mark, and passed. -/
theorem wit_OrderedTickets :
    let at' (w : Nat) (k : Option Nat) (dst : Bool) (id ticket : Nat) (mark : Bool) := meets w allLanes
      (fun s => (s.setLaunch 0 { someLaunch with ticket := ticket, mark := mark }).updWg 0 fun g => { g with wgid := id })
      (isM fun s x _ f => canRead s x [] (sclDsts f) && x.wave.hold.isNone && s.ticketStatus x.wg == k && (dstOf f).isSome == dst)
    ([(0xA9014600C0004000, true), (0xAA0FF600C0014000, false)].all fun (p : Nat × Bool) =>
      at' p.1 none p.2 3 2 false && at' p.1 (some 1) p.2 3 3 true && at' p.1 (some 0) p.2 3 3 false && at' p.1 (some 2) p.2 3 4 true) = true := by
  decide +kernel
/-- RootOperations, WAITQ and QCLOSE: a root that is not open; one with weight outstanding; one without. -/
theorem wit_rootWaits :
    let at' (w : Nat) (r : Root → Root) (p : Root → Bool) := meets w allLanes (fun s => s.setRoot 7 (r (s.root 7)))
      (isM fun s x i f => canRead s x (x.addrReads i f (x.exec f.g)) (sclDsts f) && s.opnd x .n32 f.base 0 == 7 && x.wave.weight.isNone &&
        s.rootGranted 7 x.wg.ctx == (s.root 7).granted && p (s.root 7))
    at' 0xAB014201C0000000 id (fun r => !r.isOpen) = true ∧
    at' 0xAB014201C0000000 (fun r => { r with granted := false }) (fun r => !r.granted) = true ∧
    at' 0xAB014201C0000000 (fun r => { r with isOpen := true, o := 1 }) (fun r => r.isOpen && r.o != 0) = true ∧
    at' 0xAB014201C0000000 (fun r => { r with isOpen := true, o := 0 }) (fun r => r.isOpen && r.o == 0) = true ∧
    at' 0xAD014201C0000000 (fun r => { r with granted := false }) (fun r => !r.granted) = true ∧
    at' 0xAD014201C0000000 id (fun r => !r.isOpen) = true ∧
    at' 0xAD014201C0000000 (fun r => { r with isOpen := true, o := 1 }) (fun r => r.isOpen && r.o != 0) = true ∧
    at' 0xAD014201C0000000 (fun r => { r with isOpen := true, o := 0 }) (fun r => r.isOpen && r.o == 0) = true := by
  decide +kernel
/-- RootOperations, QOPEN: not granted; a weight above 2^62; 2^62 itself with a wave that holds weight, an open root, a closed one. -/
theorem wit_rootOpens :
    let at' (v : DWord) (e : State → State) (p : State → Issue → Nat → Bool) := meets 0xAC01420140610000 allLanes
      (e ∘ onWave fun x => { x with s := tput x.s 3 ⟨.bank 3, 0, scalarLanes v, 0, 0, 0⟩ })
      (isM fun s x i f => canRead s x (x.addrReads i f (x.exec f.g)) (sclDsts f) && s.opnd x .n32 f.base 0 == 7 &&
        p s x (s.opnd x .n64 f.index 0))
    at' 0 (fun s => s.setRoot 7 { s.root 7 with granted := false }) (fun s x _ => !s.rootGranted 7 x.wg.ctx) = true ∧
    at' 0x4000000000000001 same (fun _ _ w => w == 2 ^ 62 + 1) = true ∧
    at' 0x4000000000000000 (onWave fun x => { x with weight := some ⟨3, 1⟩ }) (fun s x w => w == 2 ^ 62 && x.wave.weight.isSome &&
      s.rootGranted 7 x.wg.ctx) = true ∧
    at' 0 (fun s => s.setRoot 7 { s.root 7 with isOpen := true }) (fun s x _ => x.wave.weight.isNone && (s.root 7).isOpen) = true ∧
    at' 0x4000000000000000 same (fun s x w => w == 2 ^ 62 && x.wave.weight.isNone && !(s.root 7).isOpen && s.rootGranted 7 x.wg.ctx) = true := by
  decide +kernel

/-! Engines. -/

/-- Blocks of scalar registers for the engines. -/
def blockValues : List (Nat × DWord) :=
  [(20, 0x0), (21, 0x1000000), (22, 0x0), (23, 0x800008), (24, 0x800000), (26, 0x0), (28, 0x8000000), (29, 0x0), (30, 0x0), (32, 0x20000), (33, 0x1), (34, 0x0), (35, 0x0), (36, 0x47D0),
    (40, 0x6000), (41, 0x8000), (42, 0x200000040), (43, 0x40), (44, 0x40), (45, 0x0), (46, 0x0), (50, 0x100000), (51, 0x200000),
    (52, 0x100000), (58, 0x20000), (59, 0x10000001), (60, 0), (61, 0), (55, 0x0820000000000000), (56, 0x8000), (57, 0x40)]
def tileRegs : State → State :=
  onWave fun x => { x with s := blockValues.foldl (fun t p => tput t p.1 ⟨.bank p.1, 0, scalarLanes p.2, 0, 0, 0⟩) x.s }
/-- Reservation records 0 to 2 of 4 KiB for BF16, BF16 and B1, held by the workgroup. -/
def withRecords (s : State) : State :=
  s.updCore 0 fun c => { c with obs := tput (tput (tput c.obs 2 ⟨0x0100000100400200, 0, true, []⟩) 0 ⟨0x0100000000400000, 0, true, []⟩) 1 ⟨0x0100000000400100, 0, true, []⟩ }
/-- EnginesIssue: the copies and fabric instructions. -/
theorem wit_copies : ([(0xB003000000000001, 5, false), (0xB10A000000000000, 7, false),
    (0xB20300002A000000, 5, false), (0xB403000000000000, 5, true),
    (0xB503000000000000, 5, true)].all fun (p : Nat × Nat × Bool) =>
    meets p.1 allLanes tileRegs (isE fun s x i f => match s.copyPlan x i f p.2.1 p.2.2 with
      | some c => engineIsClear s x (copyReads f p.2.1 (x.exec f.g)) (retDsts f) (s.copyChecks x f p.2.2 c) (s.opStall x f true (c.segs != 0) true)
      | none => false)) = true := by decide +kernel
def tileWitness (plan : Instr → E → State → Issue → Mask → TilePlan) (w : Nat) : Bool :=
  meets w 1 (withRecords ∘ tileRegs) (isE fun s x i f =>
    let p := plan i f s x (x.exec f.g)
    engineIsClear s x p.reads (retDsts f) p.checks (s.opStall x f false true false) && p.bad == 0)
theorem wit_tiles : tileWitness (fun _ f s x e => s.oloadPlan x e f) 0xC205000000000001 = true ∧
    tileWitness (fun _ f s x e => s.ogathPlan x e f) 0xC305800000000021 = true ∧
    tileWitness (fun _ f s x e => s.mmaPlan x e f false) 0xC406800000000040 = true ∧
    tileWitness (fun _ f s x e => s.mmaPlan x e f true) 0xC506800000000089 = true ∧
    tileWitness (fun _ f s x _ => s.mzeroPlan x f) 0xC600000000000003 = true ∧
    tileWitness (fun _ f s x e => s.mdrainPlan x e f) 0xC707000000000000 = true := by decide +kernel
/-- SpawnAndTlrd. -/
theorem wit_SpawnAndTlrd : ([false, true].all fun d => meets 0xB308000000000000 allLanes (tileRegs ∘ onWg fun g => { g with det := d })
    (isE fun s x _ f => x.wg.det == d && engineIsClear s x (blockReads f (List.range 4) (x.exec f.g)) (retDsts f)
      (s.tableChecks x f (if s.staticPlace x.wg then [dispatchLeaf x.core] else List.range 192) ++
        spawnChecks (s.blk x f 0) (s.blk x f 1) x.wg.depth) (s.spawnStall x f))) = true ∧
    meets 0xB602400000020001 allLanes same (isE fun s x _ f =>
      engineIsClear s x [] [(.scl, f.blk.toNat)] [s.lineCheck x f] none) = true := by decide +kernel
/-- RecordsReserveAndRelease. -/
theorem wit_Records : meets 0xC00900002A00000F allLanes tileRegs (isE fun s x _ f =>
    let st := s.oresStatus x.core (f.imm.toNat % 16) (s.sreg x f.blk.toNat)
    st == 0 && engineIsClear s x (blockReads f [0] (x.exec f.g)) (retDsts f) [⟨st != 0 && (retOf f).isNone, oresCause st, 0⟩] none) = true ∧
    meets 0xC00900002A000000 allLanes (withRecords ∘ tileRegs) (isE fun s x _ f =>
    let st := s.oresStatus x.core (f.imm.toNat % 16) (s.sreg x f.blk.toNat)
    st != 0 && engineIsClear s x (blockReads f [0] (x.exec f.g)) (retDsts f) [⟨st != 0 && (retOf f).isNone, oresCause st, 0⟩] none) = true ∧
    meets 0xC100000000000000 allLanes withRecords (isE fun s x _ f =>
      engineIsClear s x [] [] [⟨s.foreignRecord x (f.imm.toNat % 16), 5, 0⟩] none) = true := by decide +kernel
/-! Traps, memory and translation. -/

/-- TrapsEnter: a wave that can take a trap; one whose sequencer has a handler, one asked to switch, one with a readback outstanding. -/
theorem wit_TrapsEnter :
    ((demo 0 allLanes).waves.all fun p => p.2.queued.isNone) = true ∧
    issuing (demo 0 allLanes) (fun x => !x.cl.handler && trapPresent ((demo 0 allLanes).ctx x.wg.ctx).trap &&
      ((demo 0 allLanes).seq (seqOfWave x.w)).owner.isNone && !x.wg.switching && !x.wave.readback) = true ∧
    (let s := (demo 0 allLanes).updSeq 0 fun q => { q with owner := some 1 }
     issuing s fun x => !x.cl.handler && (s.seq (seqOfWave x.w)).owner.isSome) = true ∧
    issuing (demoWith 0 allLanes (onWg fun g => { g with switching := true })) (fun x => !x.cl.handler && x.wg.switching) = true ∧
    issuing (demoWith 0 allLanes (onWave fun x => { x with ll := [{ LLOp.of [] with op := some 1 }] })) (fun x =>
      !x.cl.handler && x.wave.readback) = true := by decide +kernel
/-- DoubleTrapsKill: a trap in a handler, and one without a handler. -/
theorem wit_DoubleTrapsKill :
    issuing (demoWith 0 allLanes (onClause fun c => { c with handler := true })) (fun x => x.wg.keys.contains x.w && x.cl.handler) = true ∧
    (let s := (demo 0 allLanes).updCtx 0 fun c => { c with trap := 0 }
     issuing s fun x => x.wg.keys.contains x.w && !trapPresent (s.ctx x.wg.ctx).trap && (s.seq (seqOfWave x.w)).owner.isNone &&
       !x.wg.switching && !x.wave.readback) = true := by decide +kernel
/-- MemoryReadsBack, AccessesFrame: present bytes up to the end of a band, an absent one behind it; granules 0 and 1. -/
theorem wit_MemoryReadsBack : ((List.range 16).all fun i => !State.reset.absentAt (bandSize - 16 + i)) = true ∧
    State.reset.absentAt (16 * bandSize) = true ∧ (((0 : Nat) + 15) / 16 ≠ 16 / 16) ∧ (6 : Nat) < 7 ∧ (1 : Nat) < 2 := by decide +kernel
/-- TranslationChecks: 2^60, the first address that is refused, and one that is accepted. -/
theorem wit_TranslationChecks :
    (2 ^ 60 ≤ 1152921504606846976) ∧ (match (demo 0 1).resolve 0 0 0x3FFFFFFF ⟨true, true, true⟩ with
      | (_, .ok pa _) => pa == 0x3FFFFFFF
      | _ => false) = true := by decide +kernel

/-! Events. -/

def holds (o : Option State) (p : State → Bool) : Bool := match o with | some s => p s | none => false
/-- Events and instructions one after another. -/
def go (l : List Instr) (s : Option State) : Option State :=
  l.foldl (fun s i => s.bind fun t => match exec i t with | .next u => some u | _ => none) s
def atWord (w : Nat) (e : State → State) : Option State := (decodeTableWord 64 w).bind fun i => go [i] (some (demoWith w 1 e))

/-- The wave between two clauses, at a header. -/
def between (h : DWord) : State :=
  let s := withHeaders h (demoWith 0 allLanes (onWave fun x => { x with
    clause := none, frontier := [⟨0x10000, some 0, allLanes, .ready, 0, none, none, false, [], 0⟩] }))
  s.updSeq 0 fun q => { q with active := none }
def detState (rota : List Nat) : State := (between 0xA000000000000000).updCore 0 fun c => { c with rota := rota }
/-- SequencerEvents: a clause under a header without flags; a line on its way; a pause; a turn of a slot without a wave, and the
boundary; a queued trap. -/
theorem wit_SequencerEvents :
    (let h : DWord := 0xA0000003FC000000 ||| (15 <<< 38) ||| (15 <<< 34)
     let s := between h
     s.canClauseIssue 0 && (s.nextWave 0 == some 0) && (match s.wave? 0 with
       | some x => x.clause.isNone && x.ll.isEmpty && x.due.isEmpty && (s.wg? x.wg).isSome && match x.head? with
         | some e => e.st == .ready && !e.failed && hdrTagOk h && h.fld 0 6 == 0 && 14 < hdrSetA h && 14 < hdrSetB h && x.passes h e &&
             s.mem.icache.any fun l => l.line == e.pc / 128 && l.bad.isEmpty && (l.words.getD []).getD 0 0 == h
         | none => false
       | none => false) && (s.seq 0).frozen.isNone) = true ∧
    (State.reset.setMem { State.reset.mem with icache := [⟨0, 0, 5, none, [], false, false⟩] }).canArrive 0 0 5 = true ∧
    holds (some (demoWith 0 1 (onWave fun x => { x with pause := some 9 }))) (fun s => (s.wave? 0).any fun x => x.pause == some 9) = true ∧
    ((detState [3]).canDetTurn 0 && ((detState [3]).midTurn? 0).isNone && !((detState [3]).core 0).boundary &&
      ((detState [3]).turnWave 0 == some 3) && (detState [3]).turnSkips 3) = true ∧
    (let s := (detState [3]).updCore 0 fun c => { c with pos := 1 }
     s.canDetTurn 0 && (s.midTurn? 0).isNone && !(s.core 0).boundary && (s.turnWave 0).isNone) = true ∧
    (let s := (between 0xA000000000000000).updWave 0 fun x => { x with queued := some ⟨9, 0, 0, 0, 1⟩ }
     s.canTrapEntry 0 && s.nextQueued 0 == some 0 && (s.core 0).rota.isEmpty && ((s.wave? 0).bind (·.queued)).isSome && trapPresent (s.ctx 0).trap) = true := by decide +kernel

def held (i : Instr) (done : Bool) : State := demoWith 0 allLanes (onWave fun x => { x with hold := some ⟨i, 1, 1, 0, done, false⟩ })
def isHeldIn (s : State) (p : Issue → Hold → Bool) : Bool :=
  match s.issueOf 0 with
  | some x => x.cl.lanes != 0 && x.wave.hold.any (p x)
  | none => false
def syncInstr (k : Nat) : Instr := (words_sync.getD k (0, .eventRingWrite)).2
/-- RegisterEvents: a spill, a fill, results with and without a flag, a held MWAIT with a timeout, and holds that are over. -/
theorem wit_RegisterEvents :
    (((State.reset.updCore 0 fun c => { c with vpool := ⟨[], some ⟨0, 4, 9⟩, true⟩ }).core 0).pool .vec).spill = some ⟨0, 4, 9⟩ ∧
    (((State.reset.updCore 0 fun c => { c with vpool := ⟨[], some ⟨0, 4, 9⟩, true⟩ }).core 0).pool .vec).filling = true ∧
    ([[], [3]].all fun fl => holds (some (demoWith 0 1 (onWave fun x => { x with ll := [{ LLOp.of [] with flags := fl }] }))) fun s =>
      (s.wave? 0).any fun x => x.hold.isNone && (x.ll[0]?).any fun o => !o.done && o.op.isNone && o.flags == fl) = true ∧
    (let s := held (syncInstr 7) false
     isHeldIn s fun x h => match h.instr with | .mwait f => !h.done && s.opnd x .n32 f.index 0 == 4 | _ => false) = true ∧
    ([(0, true), (1, true), (2, false), (11, true)].all fun (p : Nat × Bool) => isHeldIn (held (syncInstr p.1) p.2) fun x h =>
      h.instr == syncInstr p.1 && h.done == p.2 && x.wave.quiet) = true := by decide +kernel

def copyWord : Nat := 0xB00C800000000000
def copying : List Instr := [.trellisPush 2, .topNodeRelease 0, .leafInsert 2, .enginePop 384]
def withPort (s : State) : State :=
  let s := s.writeReg (.leaf 576 0) 0x200 0x200
  s.setCmd { s.cmd with fabRoute := tput s.cmd.fabRoute 1 1 }
def packetState (sent : Bool) (refused : Nat) : Option State :=
  (atWord 0xB40DC00000000000 (withPort ∘ tileRegs)).map fun s => s.updItem 2 fun x => { x with
    place := .service 576, sent := sent, refused := refused }
def taskState : Option State := go [.trellisPush 2, .topNodeRelease 0, .leafInsert 2] (atWord 0xB308000000000000 tileRegs)
/-- EngineEvents: a copy that pushes segments, one in service, one that is complete; a tile operation in service; a packet that has
been sent, one that has not, with 62 refusals; a remote request; an access refused 63 times; a task that is decanted, and one that
is being decanted. -/
theorem wit_copyEvents : holds (atWord copyWord tileRegs) (fun s => (s.canPush 1).isSome) = true ∧
    holds (go copying (atWord copyWord tileRegs)) (fun s => (s.segmentRunning 2).isSome) = true ∧
    holds ((atWord copyWord tileRegs).map fun s => s.updOp 1 fun o => { o with ready := true }) (fun s =>
      (s.op? 1).any fun o => s.opDue o) = true ∧
    holds (go [.trellisPush 2, .topNodeRelease 0, .leafInsert 2, .enginePop 192] (atWord 0xC600000000000003 same)) (fun s =>
      (s.tileRunning 0).isSome) = true := by decide +kernel
theorem wit_packetEvents : ([0, 62].all fun n => holds (packetState true n) fun s => (s.packetAt 2).any fun p =>
      p.1.sent && !p.2.2.2.2.bySrc && p.1.refused == n && decide (p.1.refused + 1 < 64)) = true ∧
    holds (packetState false 1) (fun s => (s.packetAt 2).any fun p => !p.1.sent) = true ∧
    (State.reset.setSeq 5 { Seq.reset with refused := some 63 }).seq 5 = { Seq.reset with refused := some 63 } ∧
    (2 ^ 60 ≤ (0x1000000000000000#64).toNat) := by decide +kernel
theorem wit_taskEvents : holds taskState (fun s => (s.item? 2).any fun x => (s.mayDecant 2 x).isSome) = true ∧
    holds (taskState.map fun s => s.updItem 2 fun x => { x with decanting := true }) (fun s => (s.canStage 2).isSome) = true := by
  decide +kernel

/-- A class that enters at a node below the top. -/
def twoLevels (s : State) : State :=
  let s := s.writeReg (.node 1 0) 0x640000800000 0xFFFFFFFFFFFFFFFF
  let s := s.writeReg (.leaf 384 0) 1 0x1FF
  (tileRegs s).writeReg (.classA 0) 0x201 0xFFFFFFFFFFFFFFFF
/-- TrellisEvents: an item at its entry node and above it; its release, its arrival and its pop. -/
theorem wit_TrellisMoves :
    holds (atWord copyWord twoLevels) (fun s => (s.waitingAt 2).any fun p => p.1 == 1 && p.2.2.entry == 1) = true ∧
    holds (go [.trellisPush 2] (atWord copyWord twoLevels)) (fun s => (s.waitingAt 2).any fun p => p.1 == 0 && p.2.2.entry == 1) = true ∧
    holds (go (copying.take 1) (atWord copyWord tileRegs)) (fun s => (s.nextRelease 0).isSome) = true ∧
    holds (go (copying.take 2) (atWord copyWord tileRegs)) (fun s => (s.arriving 2).isSome) = true ∧
    holds (go (copying.take 3) (atWord copyWord tileRegs)) (fun s => (s.headOf 384).any fun p => s.canPop 384 p.2.1 p.2.2) = true := by
  decide +kernel
/-- A tile operation at the leaf while another one is in service. -/
def tileWaits (victim : Bool) : Option State :=
  (go [.trellisPush 2, .topNodeRelease 0, .leafInsert 2] (atWord 0xC600000000000003 same)).map fun s =>
    match s.item? 2 with
    | some x => s.setItem 9 { x with place := .service 192, victim := victim }
    | none => s
/-- TrellisEvents: pre-emption at a leaf, with a victim and without; a probe token; a switch, whose slots do not suffice. -/
theorem wit_TrellisPreempt :
    holds (tileWaits false) (fun s => (s.headOf 192).any fun p => !s.canPop 192 p.2.1 p.2.2 && (s.victimOf 192).isNone &&
      (s.leaf 192).fresh) = true ∧
    holds (tileWaits true) (fun s => (s.victimOf 192).isSome) = true ∧
    ([⟨3, 3, 1⟩, ⟨3, 4, 16⟩].all fun (a : Token) => ((State.reset.setTrl { State.reset.trl with tokens := [a] }).trl.tokens[0]? == some a) &&
      (a.at' == a.home || decide (16 ≤ a.hops))) = true ∧
    (let s := (between 0xA000000000000000).updWg 0 fun g => { g with switching := true }
     match s.canSwitch 0 with | some l => !s.slotsFor l && !l.isEmpty | none => false) = true := by decide +kernel

/-- A borrow that reaches its root adds 2^32 to O, counts, and is granted (R333). -/
theorem test_borrow_reaches_root :
    (match exec (.borrowRequest 0) (State.reset.setQd { State.reset.qd with borrows := [⟨.op 3 0, 7, false⟩] }) with
      | .next t => some ((t.root 7).o, (t.root 7).borrows, t.qd.borrows)
      | _ => none) = some (0x100000000, 1, [⟨.op 3 0, 7, true⟩]) := by decide +kernel

/-- FaultWeightAndMemoryEvents: records with and without a ring, borrows, returns, a DRAM request, a protected frame, a narrow byte. -/
def faultState (ring : DWord) (written : Bool) : State :=
  let s := State.reset.setCmd { State.reset.cmd with faults := [⟨7, 0, 1, false, false, 0, 0, 0, 0, 0, written⟩] }
  s.setCtx 0 { s.ctx 0 with fring := ring }
theorem wit_FaultEvents :
    ((faultState 0 false).cmd.faults[0]?.any fun r => !r.written && !ringValid ((faultState 0 false).ctx r.ctx).fring) = true ∧
    ((faultState 9 false).cmd.faults[0]?.any fun r => ringValid ((faultState 9 false).ctx r.ctx).fring &&
      (((faultState 9 false).ctx 0).fhead - ((faultState 9 false).ctx 0).ftail).toNat < ringSize ((faultState 9 false).ctx 0).fring) = true ∧
    ((faultState 9 true).cmd.faults.any fun r => r.ctx == 0 && r.token == 7 && r.written) = true ∧
    ([false, true].all fun g => (State.reset.setQd { State.reset.qd with borrows := [⟨.op 3 0, 7, g⟩] }).qd.borrows[0]?.any fun b =>
      b.granted == g) = true ∧
    ((State.reset.setQd { State.reset.qd with returns := [⟨7, 1, false, ⟨0, none⟩⟩] }).qd.returns[0]?.isSome) = true ∧
    ((State.reset.root 1023).isOpen = false ∧ (1023 : Nat) < 1024) ∧
    (let s := State.reset.setRoot 7 { State.reset.root 7 with isOpen := true, o := 5 }; (s.root 7).isOpen && decide (5 ≤ (s.root 7).o)) = true ∧
    ((State.reset.setMem { State.reset.mem with narrow := [⟨0, 1, some 0, 0, 0, 0, 16⟩] }).mem.narrow[0]?.isSome) = true ∧
    (State.reset.setCmd { State.reset.cmd with xinvs := [⟨0, 0, 0, 0, 0⟩] }).cmd.xinvs[0]?.isSome = true := by decide +kernel

def ringAt (base : Nat) : DWord := BitVec.ofNat 64 (base + 1 + 4 * 2 + 2 * 2 ^ 6)
/-- HostQueueEvents: a queue with a packet and no program; a launch without work, one to digest, one to record; entries and events due. -/
theorem wit_HostQueueEvents :
    (let s := State.reset.setQueue 3 { State.reset.queue 3 with ring := ringAt 0x100000, tail := 1 }
     s.queueReady 3 && (tget s.host.casks ((s.queue 3).ctx.fld 16 8)).isNone) = true ∧
    (let s := State.reset.setLaunch 4 { someLaunch with id := 4 }
     (s.launch? 4).any fun l => !l.complete && s.launchIdle 4) = true ∧
    ((State.reset.setLaunch 4 { someLaunch with complete := true }).launch? 4).any (fun l => l.digestDue) = true ∧
    (let s := State.reset.setLaunch 4 { someLaunch with complete := true, digested := true }
     (s.setHost { s.host with vtgQueue := [4] }).vintageNext.isSome) = true ∧
    (let s := State.reset.setQueue 3 { State.reset.queue 3 with ready := [⟨0, [], 0, 0, []⟩] }; (s.entryDue 3).isSome) = true ∧
    (State.reset.setHost { State.reset.host with events := [⟨1, 0, 0⟩] }).eventNext.isSome = true := by decide +kernel

/-- ManagementEvents, SecurityEvents: a request that is pending; the states of a context and of a map-out; a session, an image under
trial, one that is pending. -/
theorem wit_ManagementEvents :
    (let s := State.reset.setHost { State.reset.host with mgmtRing := ringAt 0x100000, mgmtTail := 1, mgmtCq := 0x200004 }
     s.mgmtPending && !State.reset.mgmtPending) = true ∧
    ((State.reset.ctxCreate 1023 true).2 = 0 ∧ (State.reset.ctxCreate 1024 false).2 = 1) ∧
    ([1, 2, 6].all fun st => (State.reset.setCtxState 5 st).ctxState 5 == st) = true ∧
    ([1, 2].all fun st => (State.reset.setCmd { State.reset.cmd with mapout := BitVec.ofNat 64 (st * 2 ^ 8) }).mapState == st) = true ∧
    ((demo 0 1).wave? (32 * 0 + 0)).isSome = true ∧ State.reset.rackStep.isSome = true ∧
    ((191 : Nat) < 192 ∧ (31 : Nat) < 32 ∧ (255 : Nat) < 256 ∧ (591 : Nat) < 592) := by decide +kernel
theorem wit_SecurityEvents :
    (let s := State.reset.setCmd { State.reset.cmd with session := some ⟨true, []⟩, versioned := 3 }
     s.secured && !s.cmd.fw.trial && !s.mayRelease 1) = true ∧
    (let f := { State.reset.cmd.fw with pending := true, bankB := State.reset.cmd.fw.bankA }; f.pending && !f.trial && State.reset.host.queues.all fun p => p.2.inRun.isNone) = true ∧
    ctxProt { State.reset.ctx 5 with ctl := 7 } = true ∧ State.reset.cmd.fw.owner.isNone != { State.reset.cmd.fw with owner := some (1, 2) }.owner.isNone ∧
    ({ State.reset.cmd.fw with trial := true }.trial && { State.reset.cmd.fw with owner := some (1, 2) }.owner.isSome) = true ∧
    isSensor 0x60 = true := by decide +kernel
/-- A task at the leaf of core 0 that does not find room, since the resident workgroup holds the scratchpad. -/
def bigTask (l : List Instr) (e : State → State) : Option State :=
  (go l (atWord 0xB30E800000000000 tileRegs)).map (e ∘ onWg fun g => { g with spadSize := 720896 })
def ownedCore (s : State) : State :=
  ((s.updWg 0 fun g => { g with borrower := true }).writeReg (.trlCore 0) 0x10 0x1F).writeReg (.classA 0) 0x400000200 0xFFFFFFFFFFFFFFFF
/-- A popped item of a workgroup that is switched out; its record in memory is corrupt. -/
def resuming : Option State :=
  taskState.map fun s => match s.wg? 0, s.item? 2 with
    | some g, some x => (s.setLaunch 0 someLaunch).setItem 2 { x with
        kind := .resume 0 0 0, place := .service 0, saved := some ⟨0, g, [], []⟩ }
    | _, _ => s
/-- TrellisEvents: a leaf whose head waits for room on a core whose wave waits for the leaf; victims of the reserve-set rule; a
restoration. -/
theorem wit_TrellisBlocked :
    holds (bigTask [.trellisPush 2, .topNodeRelease 0, .leafInsert 2] (onWave fun x => { x with
      stall := some { Stall.none 0 with queue := some 512 } })) (fun s => s.canProbe 512 && s.blockedOf 512 == some 512) = true ∧
    holds (bigTask [.trellisPush 2] ownedCore) (fun s => (s.reserveVictims 0).isSome) = true ∧
    holds resuming (fun s => (s.canRestore 2).isSome) = true := by decide +kernel

/-- EngineWork: a copy of one row within segments; segments that move, that have ended, that have failed; readable and refused addresses. -/
theorem wit_EngineWork :
    holds (atWord copyWord tileRegs) (fun s => (s.op? 1).any fun o => (copyShape o.instr o.blk).any fun c =>
      c.rows == 1 && !c.bySrc && decide (0 < c.chunk) && decide (0 < c.segments)) = true ∧
    ([(false, 0), (false, 2 ^ 20), (true, 0)].all fun (p : Bool × Nat) => holds (go copying (atWord copyWord tileRegs)) fun s =>
      let t := s.updItem 2 fun x => { x with failed := p.1, done := p.2 }
      (t.segmentRunning 2).any fun (x, _, k, o, c) => x.failed == p.1 && (decide ((c.place k).2.2 ≤ x.done) == (p.2 != 0)) &&
        (p.1 || p.2 != 0 || match t.resolve o.core o.ctx (c.place k).2.1 ⟨true, false, false⟩ with
          | (u, .ok pa _) => !(u.loadNat o.core 1 pa 16).1.poisonedRange o.core 1 pa 16
          | _ => false)) = true ∧
    (((demo 0 1).resolve 0 0 (2 ^ 60) ⟨true, false, false⟩).2 == .prot && ((demo 0 1).resolve 0 0 (2 ^ 60) ⟨false, true, false⟩).2 == .prot) = true ∧
    ([true, false].all fun sent => [true, false].all fun failed => holds (packetState sent 1) fun s =>
      let t := s.updItem 2 fun x => { x with failed := failed }
      (t.packetAt 2).any fun (x, _, k, _, c) => x.sent == sent && x.failed == failed && !c.bySrc &&
        (t.homeOf (c.place k).1).all fun h => t.routed h) = true := by decide +kernel
/-- EngineWork: every tile operation in service, within its bounds. -/
theorem wit_tileWork : ([0xC205000000000001, 0xC305800000000021, 0xC406800000000040, 0xC506800000000089, 0xC600000000000003,
    0xC707000000000000].all fun w => holds (go [.trellisPush 2, .topNodeRelease 0, .leafInsert 2, .enginePop 192] (atWord w (withRecords ∘ tileRegs)))
    fun s => (s.tileRunning 0).any fun (_, _, _, o) => (s.wg? o.wg).any fun g =>
      let b (k : Nat) : DWord := o.blk.getD k 0
      match o.instr with
      | .oload _ => decide ((b 0).toNat + (b 1).toNat / 2 ^ 20 % 2 ^ 19 ≤ g.spadSize)
      | .ogath _ => o.exec != 0 && (lanesIn o.exec).all fun l =>
          let r := gatherOf (b 0).toNat (b 1).toNat (b 2).toNat
          decide (r.src (laneOf o.rows l) + r.bytes ≤ g.spadSize)
      | .mma f | .mmab f => let m := mmaTask f o.blk; decide (m.row + m.m ≤ 128 ∧ m.col + m.n ≤ 128 ∧ m.k ≤ 256)
      | .mzero _ => true
      | .mdrain f => let d := drainOf f o.blk; decide (d.ofmt ≤ 7) && (List.range d.m).all fun r =>
          decide (d.dst + r * d.pitch + drainRow d.ofmt d.n ≤ g.spadSize)
      | _ => false) = true := by decide +kernel

/-- EngineEvents: an operation whose segments have ended; a packet refused the 64th time; requests of another package under a cached
translation, behind a walk, and beyond 2^60. -/
theorem wit_remote :
    holds (atWord copyWord tileRegs) (fun s => (s.op? 1).any fun o =>
      let t := s.setOp 1 { o with pushed := o.segs, finished := o.segs }
      (t.op? 1).any fun p => p.carries && p.pushed == p.segs && p.finished == p.segs && p.segs != 0) = true ∧
    holds (packetState true 63) (fun s => (s.packetAt 2).any fun p => p.1.sent && decide (64 ≤ p.1.refused + 1)) = true ∧
    ([RemoteKind.read, .write, .atomic].all fun k =>
      let r : RemoteReq := ⟨k, 1, 0, 0, 0, .n32, 0, 0x4000, false, 4, [], none, 1, 0, false, none⟩
      let s := demo 0 1
      let u := s.setMem { s.mem with tlb := [⟨true, responderTlb, 0, 0, 0x40000000, 0xCF9⟩] }
      (match u.answer r with | (_, .perform pa) => pa == 0x4000 | _ => false) && (judge (remoteNeed r) 0xCF9).isNone && bitOf 0xCF9 11 &&
      (s.mem.tlb.find? fun (τ : TlbEntry) => τ.ctx == r.ctx && τ.va ≤ r.va.toNat && r.va.toNat < τ.va + τ.size).isNone &&
      (match s.walk 0 0x4000 with | .leaf _ e _ => bitsOf e 52 2 == 0 | _ => false)) = true := by decide +kernel

/-- A launch of one workgroup of one wave with a scratchpad of 4 KiB. -/
def oneWave : Nat := 0x10000 + (2 + 16 * 2 ^ 10) * 2 ^ 64 + (16 + 8 * 2 ^ 9 + 4096 * 2 ^ 16) * 2 ^ 128 + 2 ^ 192 +
  ((List.range 6).map fun j => 2 ^ (256 + 32 * j)).sum
/-- TrellisEvents: heads of a dispatch leaf that can start, a task and a workgroup. -/
theorem wit_dispatchPops : ([false, true].all fun wg =>
    holds (taskState.map fun s => let t := s.setLaunch 3 { someLaunch with id := 3, record := oneWave }
      if wg then t.updItem 2 fun x => { x with kind := .workgroup 3 0 } else t) fun s =>
    (s.headOf 0).any fun (_, i, x) => s.canPop 0 i x && x.spad.isNone && match x.kind with
      | .workgroup 3 0 => wg && (s.launch? 3).any fun a => !recDet a.record && s.spadStart 0 a.demand (some i) == some 4096
      | .task o => !wg && (s.op? o).any fun p => p.spawner.isSome && (s.demandOf x).any fun d => (s.spadStart 0 d (some i)).isSome
      | _ => false) = true := by decide +kernel
/-- TrellisEvents: a launch item that releases its only workgroup. -/
theorem wit_launchRelease : holds ((atWord copyWord tileRegs).map fun s =>
    let t := s.setLaunch 3 { someLaunch with id := 3, record := oneWave }
    (t.setItem 2 { ((s.item? 2).getD (Item.of (.launch 3) [] 0 0 0 0 none)) with kind := .launch 3 })) (fun s =>
    (go [.trellisPush 2] (some s)).any fun t => (t.nextRelease 0).any fun (i, x, _) => x.kind == .launch 3 && i != t.uid &&
      (t.destinations i x).isSome && (t.launch? 3).any fun a => a.nextGroup == [0] && recCount a.record == 1) = true := by decide +kernel
/-- TrellisEvents: of two tile tasks in service the later one may be stopped for the head; no margin lets it go; a dispatch head that waits for
room held by work whose key the margin exceeds. -/
def marginState (m : Nat) : Option State :=
  (tileWaits false).map fun s => let y := s.leaf 192
    (s.setLeaf 192 { y with ctl := y.ctl.setFld 14 16 m }).updItem 9 fun x => { x with rank := 5 }
theorem wit_Margins : ([1, 0xFFFF].all fun m => holds (marginState m) fun s => (s.headOf 192).any fun (e, i, x) =>
    !s.canPop 192 i x && (s.victimOf 192).isNone && (s.leaf 192).fresh && (s.item? 9).any fun z =>
      s.inService 192 == [(9, z)] && ((s.leaf 192).marginOk z.rank e.rank && s.tileTurn x) == (m == 1)) = true := by decide +kernel
theorem wit_copyVictim : holds (go copying (atWord copyWord tileRegs)) (fun s =>
    let t := s.updItem 2 fun x => { x with victim := true, done := 2 ^ 20 }
    (t.victimOf 384).any fun (v, z) => (t.segmentRunning v).any fun (_, _, k, _, c) =>
      decide ((c.place k).2.2 ≤ stopPoint (c.place k).1 z.done)) = true := by decide +kernel
/-- TrellisEvents: a token that is home with the reserve entry free and in use; the wave that has waited the longest. -/
theorem wit_tokens : ([false, true].all fun busy =>
    let s := demoWith 0 1 (onWave fun x => { x with stall := some { Stall.none 0 with queue := some 3 } })
    let s := s.setTrl { s.trl with tokens := [⟨3, 3, 4⟩], grants := if busy then [(3, 1)] else [] }
    s.reserveBusy 3 == busy && s.trl.tokens[0]? == some ⟨3, 3, 4⟩ && s.waves.all fun p => p.1 == 0 && p.2.stall.any fun c => c.queue == some 3) = true ∧
    ((demo 0 1).wgs.all fun p => (demo 0 1).wg? p.1 == some p.2) = true := by decide +kernel
/-- TrellisEvents: a switch for which a slot is free; a pop of the resume item; a sound record and a corrupt one; a share whose
rotation is not recorded. -/
def switching : State :=
  let s := ((between 0xA000000000000000).updWg 0 fun g => { g with switching := true, spadSize := 0 }).updCtx 0 fun c => { c with save := 0x800001 }
  let s := s.updWave 0 fun x => { x with v := [], s := [] }
  (s.setCmd { s.cmd with frame0 := 0 }).setLaunch 0 { someLaunch with record := oneWave }
theorem wit_SwitchOut : (switching.canSwitch 0).any (fun l => switching.slotsFor l && l.length == 1) = true := by decide +kernel
def popped : Option State :=
  go [.switchOut 0, .trellisPush switching.uid, .topNodeRelease 0, .leafInsert switching.uid, .enginePop 0] (some switching)
theorem wit_Restore : holds popped (fun s => (s.canRestore 1).any fun l => l.all fun (i, v, core, slot) =>
      i == 1 && !v.wg.det && s.recordOk (saveBase (s.ctx 0) slot) v && (s.spadStart core v.wg.demand (some i)).isSome &&
      (s.restoreSlots core (v.waves.map (·.inTrap))).isSome) = true := by decide +kernel
theorem wit_RestoreKills : holds resuming (fun s => (s.canRestore 2).any fun l => l.length == 1 && l.all fun (_, v, _, slot) =>
      !v.wg.det && !s.recordOk (saveBase (s.ctx 0) slot) v) = true ∧
    turnsOk [] = false ∧ turnsOk [(0, true), (1, true)] = false := by decide +kernel
/-- ManagementEvents: an engine with one item, an item that decants, and a workgroup to kill. -/
theorem wit_Resets : holds (go [.trellisPush 2, .topNodeRelease 0, .leafInsert 2, .enginePop 192] (atWord 0xC600000000000003 same)) (fun s =>
      s.trl.items.all fun p => p.1 == 2 && p.2.inLeaf (engineLeaf .tile 0) && match p.2.kind with
        | .tile o => (s.op? o).any fun q => !q.ready
        | _ => false) = true ∧
    holds (taskState.map fun s => s.updItem 2 fun x => { x with decanting := true }) (fun s => (s.item? 2).any fun x =>
      x.decanting && x.place == .leaf (dispatchLeaf 0)) = true ∧
    ((demo 0 1).wgs.map fun p => (p.1, p.2.core, p.2.wgid)) = [(0, 0, 0)] ∧
    ((demoBase.node 0).count = 0 ∧ holds (atWord copyWord tileRegs) (fun s => (s.node 0).count != 0) = true) := by decide +kernel
/-- FloatValues, ConversionValues: finite elements, a type of each kind, and the bounds of the element and lane numbers. -/
theorem wit_values : (decodeFloat fp32 0x3FC00000 = .fin false 0xC00000 (-23)) ∧ fmtOf .f16x2 = some fp16 ∧ fmtOf .e4m3 = some fE4M3 ∧
    ((words_conversion.take 1).all fun p => match p.2 with | .cvt f => (fmtOf f.cvtS).isSome && f.ty == .i32 | _ => false) = true ∧
    (allLanes.getLsbD 31 = true ∧ (5 : BitVec 32).getLsbD 2 = true ∧ (5 : BitVec 32).getLsbD 0 = true ∧ (5 : BitVec 32).getLsbD 1 = false) := by
  decide +kernel

/-! Witnesses of single clauses. -/

/-- StepRunsDecoded: a holding instruction second to last whose clause's last word lies on a page that is not mapped, and one whose last word
the cache holds. -/
def barBeforeLast (near : Bool) : State :=
  let s := demo 0 allLanes
  let s := s.setMem { s.mem with icache := s.mem.icache.map fun l =>
    { l with words := l.words.map fun ws => lset ws (if near then 14 else 15) 0xA0014600C0004000 } }
  onClause (fun c => { c with index := if near then 13 else 14, count := if near then 15 else 16 })
    ((s.setCtx 0 { s.ctx 0 with xlt := 0 }).updSeq 0 fun q => { q with body := [] })
theorem wit_awaitsLast : ([true, false].all fun near => (barBeforeLast near).choice == some (.issue 0) &&
    match decodeTableWord 64 0xA0014600C0004000, (barBeforeLast near).issueOf 0 with
    | some i, some x => ((barBeforeLast near).served 0 x).awaitsLast x i != near
    | _, _ => false) = true := by decide +kernel

/-- Every register released, with RELREAD enabled. -/
def allReleased : State → State := onWave fun x => { x with
  trapen := 0x80, v := x.v.map fun (p : Nat × Reg) => (p.1, { p.2 with released := allLanes })
  s := x.s.map fun (p : Nat × Reg) => (p.1, { p.2 with released := allLanes }) }
def findsReleased (s : State) (x : Issue) (reads : List Read) (dsts : List (RegFile × Nat)) : Bool :=
  !x.cl.handler && relreadEnabled x.wave.trapen && s.exitFaults x == 0 && !s.spillConflict x reads dsts &&
  reads.any fun r => r.relMask x != 0
/-- TrapsEnter, AccessesTrap: an instruction of each kind that reads released lanes; one of whose results one meets an enabled condition. -/
theorem wit_ReleasedTraps :
    meets 0x33000401003220C0 allLanes allReleased (isV fun s x i f => findsReleased s x (planAlu (vrShape i) f (aluFfma f) s x (x.exec f.g)).reads
      (vrDsts f (planAlu (vrShape i) f (aluFfma f) s x (x.exec f.g)).ty)) = true ∧
    meets 0x6900060803800000 allLanes allReleased (isS fun s x _ f => findsReleased s x (x.srcReads .n64 f.a (x.exec f.g)) []) = true ∧
    meets 0x0200A00000000003 allLanes allReleased (isB fun s x _ f => findsReleased s x (x.vecReads f.link.toNat 2 (x.exec f.g) []) []) = true ∧
    ([0x8001400AC00D5000, 0x9401420A402B0000, 0xA8000202C0000000, 0xAB014201C0000000].all fun w => meets w allLanes allReleased (isM fun s x i f =>
      findsReleased s x (x.addrReads i f (x.exec f.g)) [])) = true ∧
    meets 0xB003000000000001 allLanes (allReleased ∘ tileRegs) (isE fun s x _ f =>
      findsReleased s x (copyReads f 5 (x.exec f.g)) (retDsts f)) = true := by decide +kernel
theorem wit_ArithTraps :
    ([0x02, 0x1F].all fun en => meets 0x39000401000000C0 allLanes (onWave fun x => { x with trapen := en }) (isV fun s x i f =>
      let p := planAlu (vrShape i) f (aluFrcp f) s x (x.exec f.g)
      canRead s x p.reads (vrDsts f p.ty) && !x.cl.handler && s.exitFaults x == 0 && f.dk == .vec &&
        arithEnabled x.wave.trapen (stickyAll (p.res.map (·.2))))) = true := by decide +kernel

/-- LinesAndCaches: a line behind the end of local memory, one that the context has locked, a full quota, and a line that is locked. -/
theorem wit_LockStatuses :
    let s := State.reset.setCtx 3 { State.reset.ctx 3 with quota := 2 }
    let one := s.setMem { s.mem with locks := [⟨3, 0, 5⟩] }
    let two := s.setMem { s.mem with locks := [⟨3, 0, 5⟩, ⟨3, 0, 6⟩] }
    (s.lockLine 3 0 (.mem (2 ^ 51) false)).2 = 3 ∧ (s.lockLine 3 0 (.mem 0x280 true)).2 = 3 ∧ (one.lockLine 3 0 (.mem 0x280 false)).2 = 1 ∧
    (two.lockLine 3 0 (.mem 0x380 false)).2 = 2 ∧ one.locksUsed 3 0 < (one.ctx 3).quota ∧
    (s.lockLine 3 0 (.mem 0x280 false)).2 = 0 := by decide +kernel
/-- HeapOperations: an empty list and a list with a head; sizes at the ends of the classes and pointers at the arena's ends. -/
theorem wit_HeapRules : ([0, 0x100040].all fun head =>
    meets 0x9401420A402B0000 allLanes ((fun s => s.setMem { s.mem with cells := cellsPut s.mem.cells 0x4020 8 head }) ∘ withHeap) (isM fun s x i f =>
      descriptorHolds s x i f true fun t h => t.heapGet x h 32 == head)) = true ∧
    freeClass 0x100000 0x100000 0x100000 16 = some 0 ∧ freeClass 0x100000 0x100000 0x1FFFF0 16 = some 0 ∧
    freeClass 0x100000 0x100000 0x200000 16 = none ∧ freeClass 0x100000 0x100000 0xFFFF0 16 = none ∧ freeClass 0x100000 0x100000 0x100008 16 = none := by
  decide +kernel

/-- WatchedWords, RegisterEvents: a watched word that is uncorrectable; a hold that has ended on it; a value that has changed at a timeout. -/
theorem wit_watchBad :
    (let s := held (syncInstr 7) false
     let s := (s.setMem { s.mem with poisoned := [0x200] }).updWave 0 fun x => { x with watch := some ⟨0x4000, 4, 0⟩ }
     isHeldIn s fun x h => !h.done && x.wave.watch.any fun a => (s.settleWatch x).watchBad x.core x.wg a) = true ∧
    (let s := (held (syncInstr 7) true).updWave 0 fun x => { x with watch := some ⟨0x4000, 4, 0⟩, hold := x.hold.map fun h => { h with bad := true } }
     isHeldIn s fun x h => h.done && h.bad && x.wave.watch.isSome) = true ∧
    (let s := (held (syncInstr 7) false).updWave 0 fun x => { x with watch := some ⟨0x4000, 4, 0⟩ }
     isHeldIn s fun x h => match h.instr with
       | .mwait f => x.wave.watch.any fun a => !(s.settleWatch x).watchBad x.core x.wg a &&
         (s.settleWatch x).watchLook x.core x.wg a != s.sreg x f.data.toNat
       | _ => false) = true := by decide +kernel

/-- RootOperations: a wave that holds weight in the root on which it waits: an open one that takes it, one that would fall below 0, a closed
one. -/
theorem wit_waitsWithWeight : ([(true, 7), (true, 6), (false, 7)].all fun (p : Bool × Nat) =>
    meets 0xAB014201C0000000 allLanes ((fun s => s.setRoot 7 { s.root 7 with isOpen := p.1, o := p.2 }) ∘ onWave fun x => { x with weight := some ⟨7, 7⟩ })
      (isM fun s x i f => canRead s x (x.addrReads i f (x.exec f.g)) (sclDsts f) && s.opnd x .n32 f.base 0 == 7 && x.wave.hold.isNone &&
        x.wave.weight.any (fun a => a.root == 7) && s.qd.borrows.isEmpty && s.qd.returns.isEmpty && (s.root 7).isOpen == p.1)) = true := by
  decide +kernel

/-- RecordsReserveAndRelease: each status. -/
theorem wit_oresStatus :
    let s := withRecords State.reset
    s.oresStatus 0 3 0x0000000000400400 = 0 ∧ s.oresStatus 0 2 0x0000000000400800 = 1 ∧ s.oresStatus 0 3 0x0000000000400200 = 2 ∧
    s.oresStatus 0 3 0x0000000000000000 = 3 ∧ s.oresStatus 0 3 0x0004000000400400 = 3 := by decide +kernel

/-- MemoryReadsBack, AccessesFrame: blocks of 16 bytes and of 64 that two accesses do not share. -/
theorem wit_apart : State.reset.apart 0 16 16 ∧
    (State.reset.setMem { State.reset.mem with narrow := [⟨0, 1, some 0, 0, 0, 0, 64⟩] }).apart 0 64 64 := by
  refine ⟨⟨16, by decide, by decide, fun i hi => ?_⟩, 64, by decide, by decide, fun i hi => ?_⟩ <;> omega

/-- SequencerEvents: a deterministic core whose turn is not over. -/
theorem wit_midTurn :
    (let s := ((detState [3]).updCore 0 fun c => { c with turn := some 0 }).updSeq 0 fun q => { q with turn := some 0 }
     s.canDetTurn 0 && s.midTurn? 0 == some 0) = true := by decide +kernel

/-- EngineWork: a packet of a protected context to another package. -/
theorem wit_protectedPacket : holds ((packetState false 1).map fun s => s.setCtx 0 { s.ctx 0 with ctl := 3 }) (fun s =>
    (s.packetAt 2).any fun (x, _, k, o, c) => !x.sent && !x.failed && (s.ctx o.ctx).ctl.bit 1 && (s.homeOf (if c.bySrc then (c.place k).2.1 else (c.place k).1)).isSome) = true := by
  decide +kernel

/-- EngineEvents: requests by a physical address, to local memory, to the host and to a third package; weight that comes back. -/
def physReq (k : RemoteKind) (va : Nat) : RemoteReq := ⟨k, 1, 0, 0, 0, .n32, 0, BitVec.ofNat 64 va, true, 4, [], some 7, 1, 5, false, none⟩
theorem wit_physical :
    let s := State.reset
    (s.answer (physReq .read 0x4000)).2 = .perform 0x4000 ∧ (s.answer (physReq .read (2 ^ 51))).2 = .perform (2 ^ 51) ∧
    (s.answer (physReq .read (3 * 2 ^ 45))).2 = .forward 3 (3 * 2 ^ 45) ∧
    ((physReq .giveBack 0).root = some 7 ∧ s.qd.borrows = [] ∧ s.qd.returns = []) := by decide +kernel

/-- FaultWeightAndMemoryEvents: host loads and stores of local memory, and of a protected frame. -/
theorem wit_hostAccess : ([HostKind.load, .store].all fun k =>
    let a : HostAcc := ⟨k, 0x1000, [1, 2, 3, 4], 4, 0, .n32, false⟩
    let s := State.reset.setCmd { State.reset.cmd with hbase := some 0, frame0 := 0 }
    s.hostPa 0x1000 == 0x1000 && hostLen a == 4 && (List.range 4).all fun j => !s.protFrame (0x1000 + j) && !s.absentAt (0x1000 + j)) = true ∧
    (let s := State.reset.setCmd { State.reset.cmd with hbase := some 0, frame0 := 0x401 }
     s.protFrame 0x1000) = true := by decide +kernel

/-- FCLASS of a binary32 element. -/
def classWitness (a : Nat) : Nat := match words_float.getLast? with
  | some (_, .fclass f) => (aluFclass { f with ty := .f32 } a 0 0).1
  | _ => 0
/-- FloatArithmetic, Transcendentals, AtomicsStep, ExactAccumulators: an element of each class, numbers below zero and NaNs, and objects that
hold each kind of value. -/
theorem wit_classes : ([(0x7F800001, 1), (0x7FC00000, 2), (0xFF800000, 4), (0xBF800000, 8), (0x807FFFFF, 16), (0x80000000, 32), (0, 64), (1, 128),
      (0x00800000, 256), (0x7F800000, 512)].all fun (p : Nat × Nat) => (classWitness p.1 == p.2)) = true ∧
    decodeFloat fp32 0x7F800001 = .nan true ∧ decodeFloat fp32 0x7FC00000 = .nan false ∧
    ((match decodeFloat fp32 0xBF800000 with | .fin true v _ => v != 0 | _ => false) = true) ∧
    ([(1, 0), (3, 0), (12, 0), (4, 0), (8, 0), (16, 0), (48, 0), (48, 1), (48, 2 ^ 479)].all fun (p : Nat × Nat) =>
      decide ((⟨p.2, p.1⟩ : XObj).sum < 2 ^ 480)) = true := by decide +kernel

/-- StepKeepsInv: a wave held by MWAIT without a timeout, on a word of its scratchpad that has not changed; nothing else to do. -/
def heldWait : State :=
  let i : Instr := .mwait ⟨⟨false, 0⟩, 2, false, ⟨.con, false, 0⟩, ⟨.con, false, 0⟩, 0, 0, 0, 0, 0⟩
  let s := (held i false).updWave 0 fun x => { x with watch := some ⟨0, 1, 5⟩ }
  let s := (s.updCore 0 fun c => { c with spad := cellsPut [] 0 8 5 }).setCmd { s.cmd with frame0 := 0 }
  { s.updSeq 0 fun q => { q with active := none } with focus := none }
theorem mem_of_tget {α : Type} (t : Table α) (n : Nat) (x : α) (h : tget t n = some x) : (n, x) ∈ t := by
  induction t with
  | nil => exact nomatch h
  | cons a t ih =>
    obtain ⟨k, v⟩ := a
    unfold tget at h
    split at h
    · rename_i hk; subst hk; injection h with h; subst h; exact List.mem_cons_self ..
    · exact List.mem_cons_of_mem _ (ih h)
theorem heldWait_waves : (heldWait.waves.all fun p => p.1 == 0 && p.2.passing.isEmpty) = true := by decide +kernel
theorem wit_StepKeepsInv : heldWait.Inv ∧ ∃ t, step heldWait = .next t := by
  have hc : heldWait.choice = none := by decide +kernel
  refine ⟨⟨rfl, ?_, ?_⟩, heldWait.settled [], by unfold step; rw [hc]; rfl⟩
  · intro w x h f a v hx hh hi _ ha hv
    have hw : ∃ y, heldWait.wave? w = some y := by
      cases hy : heldWait.wave? w with
      | none => simp [State.issueOf, hy] at hx
      | some y => exact ⟨y, rfl⟩
    obtain ⟨y, hw⟩ := hw
    have e := List.all_eq_true.1 heldWait_waves _ (mem_of_tget _ _ _ hw)
    simp at e
    obtain rfl := e.1
    have h2 : (heldWait.issueOf 0).map (fun x => (x.wave.watch, x.wave.hold.map (·.instr), x.wave.scalar 2,
        heldWait.watchLook x.core x.wg ⟨0, 1, 5⟩)) =
        some (some ⟨0, 1, 5⟩, some (.mwait ⟨⟨false, 0⟩, 2, false, ⟨.con, false, 0⟩, ⟨.con, false, 0⟩, 0, 0, 0, 0, 0⟩), 5, 5) := by
      decide +kernel
    rw [hx] at h2
    simp only [Option.map_some, Option.some.injEq, Prod.mk.injEq, ha, hh, hi, Instr.mwait.injEq] at h2
    obtain ⟨rfl, rfl, hs, hl⟩ := h2
    exact ((hv heldWait.tick).symm.trans hl).trans hs.symm
  · intro w x v hw hv
    have := List.all_eq_true.1 heldWait_waves _ (mem_of_tget _ _ _ hw)
    simp at this
    rw [this.2] at hv
    exact nomatch hv

end Sys2Proof.Tests
end

section
/-! PROOFS. O20 Transcendentals: a long-latency VR-format instruction by its plan, and the special inputs of spec/05 R144. -/

namespace Sys2Proof.Machine

/-! Long-latency instructions of the VR format. -/

/-- The workgroup of an instruction whose wave claims a group register (R33). -/
def Issue.claimed (x : Issue) (n : Nat) : Wg := { x.wg with claims := lsetD none x.wg.claims n (some x.wave.waveId) }

theorem State.updWg_eq {s : State} {u : Nat} {g : Wg} (h : s.wg? u = some g) (c : Wg → Wg) : s.updWg u c = s.setWg u (c g) := by
  simp only [State.updWg, h]

/-- An instruction that runs as a long-latency VR-format instruction by a plan issues by it (R37, R38). -/
theorem VrIssues.of_exec {i : Instr} {f : VR} {plan : State → Issue → Mask → Plan}
    (he : ∀ s, exec i s = s.vr i f true plan) : VrIssues i f plan := by
  intro s x h hc
  obtain ⟨hw, hcl, hg⟩ := State.issue_spec h.1
  have hl := State.performs_lanes h
  have hx := (he s).trans (State.vr_issues h hc)
  cases hd : f.dk == .grp with
  | true =>
    rw [hd, if_pos rfl, State.updWg_eq hg] at hx
    exact ⟨_, hx, State.finish_after (s := s.setWg x.wave.wg (x.claimed f.dst.toNat))
      (y := { x with wg := x.claimed f.dst.toNat }) ⟨rfl, rfl, rfl, rfl⟩ hw (State.wg_setWg_same ..) hcl hl _ _ _ _⟩
  | false =>
    rw [hd, if_neg Bool.false_ne_true] at hx
    exact ⟨_, hx, State.finish_issue h _ _ _ _⟩

/-! Each function at its special inputs: one equation for each row of R144's table. -/

/-- The code of a zero or of an infinity with a sign. -/
def zeroCode (neg : Bool) : Nat := if neg then 0x80000000 else 0
def infCode (neg : Bool) : Nat := if neg then 0xFF800000 else 0x7F800000

theorem decodeFloat_zeroCode (neg : Bool) : decodeFloat fp32 (zeroCode neg % 2 ^ 32) = .fin neg 0 (-149) := by
  cases neg <;> decide
theorem decodeFloat_infCode (neg : Bool) : decodeFloat fp32 (infCode neg % 2 ^ 32) = .inf neg := by
  cases neg <;> decide
theorem signed_fp32_zero (neg : Bool) : signed fp32 neg 0 = zeroCode neg := by cases neg <;> rfl

/-- An infinite result ends as R141 has it. -/
theorem infFn_eq_cap (sat neg : Bool) (st : Sticky) : infFn sat neg st = fp32.cap sat (infCode neg, st) := by
  have hinf : isInfNum (decodeFloat fp32 (infCode neg)) = true := by cases neg <;> decide
  have hsat : infFn sat neg st = if sat then (infCode neg - 1, .saturate ||| st) else (infCode neg, 0 ||| st) := by
    cases sat <;> cases neg <;> rfl
  rw [hsat, Fmt.cap, hinf]
  cases sat <;> simp [BitVec.or_comm]

/-- 2^0, a cosine of 0, and the logarithm of 1 are exact in every mode. -/
theorem finishFn_one (mode : Rnd) (sat : Bool) : finishFn mode sat false 1 0 false = (0x3F800000, 0) := by
  cases mode <;> cases sat <;> decide
theorem finishFn_zero (mode : Rnd) (sat : Bool) : finishFn mode sat false 0 0 false = (0, 0) := by
  cases mode <;> cases sat <;> decide

section
variable {mode : Rnd} {sat neg sig : Bool} {a m : Nat} {e : Int}

theorem fRcp_nan (h : decodeFloat fp32 a = .nan sig) : fRcp mode sat a = nanFn (stickyIf sig .invalid) := by
  rw [fRcp, h]
theorem fRcp_inf (h : decodeFloat fp32 a = .inf neg) : fRcp mode sat a = (zeroCode neg, 0) := by
  rw [fRcp, h, ← signed_fp32_zero]
theorem fRcp_zero (h : decodeFloat fp32 a = .fin neg 0 e) : fRcp mode sat a = fp32.cap sat (infCode neg, .divzero) := by
  rw [fRcp, h, ← infFn_eq_cap]; rfl

theorem fRsq_nan (h : decodeFloat fp32 a = .nan sig) : fRsq mode sat a = nanFn (stickyIf sig .invalid) := by
  rw [fRsq, h]
theorem fRsq_inf (h : decodeFloat fp32 a = .inf neg) : fRsq mode sat a = if neg then nanFn .invalid else (0, 0) := by
  rw [fRsq, h]
theorem fRsq_zero (h : decodeFloat fp32 a = .fin neg 0 e) : fRsq mode sat a = fp32.cap sat (infCode neg, .divzero) := by
  rw [fRsq, h, ← infFn_eq_cap]; rfl
theorem fRsq_negative (h : decodeFloat fp32 a = .fin true m e) (hm : m ≠ 0) : fRsq mode sat a = nanFn .invalid := by
  rw [fRsq, h]; exact if_neg hm

theorem fSqrt_nan (h : decodeFloat fp32 a = .nan sig) : fSqrt mode sat a = nanFn (stickyIf sig .invalid) := by
  rw [fSqrt, h]
theorem fSqrt_inf (h : decodeFloat fp32 a = .inf neg) :
    fSqrt mode sat a = if neg then nanFn .invalid else fp32.cap sat (infCode false, 0) := by
  rw [fSqrt, h, ← infFn_eq_cap]
theorem fSqrt_zero (h : decodeFloat fp32 a = .fin neg 0 e) : fSqrt mode sat a = (zeroCode neg, 0) := by
  rw [fSqrt, h, ← signed_fp32_zero]; rfl
theorem fSqrt_negative (h : decodeFloat fp32 a = .fin true m e) (hm : m ≠ 0) : fSqrt mode sat a = nanFn .invalid := by
  rw [fSqrt, h]; exact if_neg hm

theorem fExp2_nan (h : decodeFloat fp32 a = .nan sig) : fExp2 mode sat a = nanFn (stickyIf sig .invalid) := by
  rw [fExp2, h]
theorem fExp2_inf (h : decodeFloat fp32 a = .inf neg) :
    fExp2 mode sat a = if neg then (0, 0) else fp32.cap sat (infCode false, 0) := by
  rw [fExp2, h, ← infFn_eq_cap]
theorem fExp2_zero (h : decodeFloat fp32 a = .fin neg 0 e) : fExp2 mode sat a = (0x3F800000, 0) := by
  rw [fExp2, h, ← finishFn_one mode sat]; rfl

theorem fLog2_nan (h : decodeFloat fp32 a = .nan sig) : fLog2 mode sat a = nanFn (stickyIf sig .invalid) := by
  rw [fLog2, h]
theorem fLog2_inf (h : decodeFloat fp32 a = .inf neg) :
    fLog2 mode sat a = if neg then nanFn .invalid else fp32.cap sat (infCode false, 0) := by
  rw [fLog2, h, ← infFn_eq_cap]
theorem fLog2_zero (h : decodeFloat fp32 a = .fin neg 0 e) : fLog2 mode sat a = fp32.cap sat (infCode true, .divzero) := by
  rw [fLog2, h, ← infFn_eq_cap]; rfl
theorem fLog2_negative (h : decodeFloat fp32 a = .fin true m e) (hm : m ≠ 0) : fLog2 mode sat a = nanFn .invalid := by
  rw [fLog2, h]; exact if_neg hm
/-- The significand of 1 is the power of two itself, so that no series is computed. -/
theorem fLog2_one (h : decodeFloat fp32 a = .fin false (2 ^ 23) (-23)) : fLog2 mode sat a = (0, 0) := by
  have hb : bitLen (2 ^ 23) - 1 = 23 := by decide
  rw [fLog2, h, ← finishFn_zero mode sat]
  dsimp only
  rw [hb]
  rfl

theorem fSinCos_nan {cos : Bool} (h : decodeFloat fp32 a = .nan sig) :
    fSinCos cos mode sat a = nanFn (stickyIf sig .invalid) := by rw [fSinCos, h]
theorem fSinCos_inf {cos : Bool} (h : decodeFloat fp32 a = .inf neg) : fSinCos cos mode sat a = nanFn .invalid := by
  rw [fSinCos, h]
/-- A zero is no part of a turn. -/
theorem fSinCos_zero {cos : Bool} (h : decodeFloat fp32 a = .fin neg 0 e) :
    fSinCos cos mode sat a = (if cos then 0x3F800000 else zeroCode neg, 0) := by
  rw [fSinCos, h]
  dsimp only
  rw [Nat.zero_mod, finishFn_one, signed_fp32_zero, decide_eq_true rfl, Bool.or_true, if_pos rfl]
  cases cos <;> simp

end
end Sys2Proof.Machine

open Sys2Proof.Machine in
/-- Settles O20: each of the six runs by its plan as a long-latency instruction, and each special input meets its own case. -/
theorem transcendentals : Obligations.Transcendentals := by
  refine ⟨⟨fun _ => .of_exec fun _ => rfl, fun _ => .of_exec fun _ => rfl, fun _ => .of_exec fun _ => rfl,
    fun _ => .of_exec fun _ => rfl, fun _ => .of_exec fun _ => rfl, fun _ => .of_exec fun _ => rfl⟩, ?_⟩
  intro f b c
  refine ⟨fun neg => ?_, fLog2_one (by decide), fun a ha => ⟨fun v e hd hv => ?_, fun sig hd => ?_⟩⟩
  · have hz := decodeFloat_zeroCode neg
    have hi := decodeFloat_infCode neg
    refine ⟨fRcp_zero hz, fRcp_inf hi, fRsq_zero hz, fRsq_inf hi, fSqrt_zero hz, (fSqrt_inf hi).trans ?_, fExp2_zero hz,
      (fExp2_inf hi).trans ?_, fLog2_zero hz, (fLog2_inf hi).trans ?_,
      (fSinCos_zero hz).trans (congrArg (·, 0) (ite_congr (propext beq_iff_eq) (fun _ => rfl) fun _ => rfl)), fSinCos_inf hi⟩
    · cases neg <;> rfl
    · cases neg <;> rfl
    · cases neg <;> rfl
  · rw [← Nat.mod_eq_of_lt ha] at hd
    exact ⟨fRsq_negative hd hv, fSqrt_negative hd hv, fLog2_negative hd hv⟩
  · rw [← Nat.mod_eq_of_lt ha] at hd
    simp only [List.forall_mem_cons]
    exact ⟨fRcp_nan hd, fRsq_nan hd, fSqrt_nan hd, fExp2_nan hd, fLog2_nan hd, fSinCos_nan hd, fun _ h => nomatch h⟩
end

section
/-! PROOFS. The end of a wave (spec/01 R17): the wave is gone, and no wave has come. -/

namespace Sys2Proof.Machine

/-! What the end of a wave does to the waves. -/

theorem State.foldl_waves {α : Type} {f : State → α → State} (h : ∀ (s : State) a, (f s a).waves = s.waves) (l : List α) (s : State) :
    (l.foldl f s).waves = s.waves := by
  induction l generalizing s with
  | nil => rfl
  | cons a l ih => exact (ih _).trans (h s a)

@[simp] theorem State.perform_waves (s : State) (c k : Nat) (p : NarrowByte → Bool) : (s.perform c k p).waves = s.waves :=
  State.dataOnly_waves (s.dataOnly_perform c k p)

@[simp] theorem State.sendReturn_waves (s : State) (core : Nat) (e : PoolEntry) : (s.sendReturn core e).waves = s.waves := rfl

@[simp] theorem State.flushPool_waves (s : State) (core : Nat) : (s.flushPool core).waves = s.waves := by
  unfold State.flushPool
  dsimp only
  split
  · rfl
  · exact State.foldl_waves (fun t e => t.sendReturn_waves core e) _ _

@[simp] theorem State.giveBack_waves (s : State) (core : Nat) (w : Option Weight) (abort : Bool) :
    (s.giveBack core w abort).waves = s.waves := by
  cases w with
  | none => rfl
  | some w =>
    unfold State.giveBack
    rw [State.flushPool_waves, State.setCore_waves]
    split
    · rfl
    · split <;> rfl

@[simp] theorem State.releaseRecord_waves (s : State) (core k : Nat) : (s.releaseRecord core k).waves = s.waves := by
  unfold State.releaseRecord
  split
  · rfl
  · split <;> rfl

@[simp] theorem State.endTiles_waves (s : State) (u core : Nat) : (s.endTiles u core).waves = s.waves := by
  unfold State.endTiles
  split
  · rfl
  · exact State.foldl_waves (fun s o => s.giveBack_waves ..) _ _

/-- The end of a workgroup leaves the waves. -/
@[simp] theorem State.endWg_waves (s : State) (u : Nat) : (s.endWg u).waves = s.waves := by
  unfold State.endWg
  split
  · rfl
  · rename_i g _
    have passed (t : State) : (match t.launch? g.launch with
        | some l => if !g.task && l.ticket == g.wgid then t.passTicket g.launch g.killed else t
        | none => t).waves = t.waves := by
      split
      · split
        · exact State.updLaunch_waves ..
        · rfl
      · rfl
    have spawned (t : State) : (match g.spawnOp with
        | some o => t.updOp o fun x => { x with ready := true, killed := x.killed || g.killed }
        | none => t).waves = t.waves := by
      split
      · exact State.updOp_waves ..
      · rfl
    exact (State.endTiles_waves ..).trans ((passed _).trans ((State.updLaunch_waves ..).trans ((spawned _).trans
      ((State.perform_waves ..).trans (State.foldl_waves (fun t k => t.releaseRecord_waves g.core k) _ _)))))

/-- No wave has come. -/
def State.noNewWave (s t : State) : Prop := ∀ w, s.wave? w = none → t.wave? w = none

theorem State.noNewWave_refl (s : State) : s.noNewWave s := fun _ => id
theorem State.noNewWave_trans {s t u : State} (h : s.noNewWave t) (k : t.noNewWave u) : s.noNewWave u := fun w e => k w (h w e)
theorem State.noNewWave_of_waves {s t : State} (h : t.waves = s.waves) : s.noNewWave t :=
  fun w e => (State.wave_congr h w).trans e
theorem State.noNewWave_foldl {α : Type} {f : State → α → State} (h : ∀ (s : State) a, s.noNewWave (f s a)) (l : List α) (s : State) :
    s.noNewWave (l.foldl f s) := by
  induction l generalizing s with
  | nil => exact s.noNewWave_refl
  | cons a l ih => exact State.noNewWave_trans (h s a) (ih _)

theorem State.noNewWave_updWave (s : State) (v : Nat) (f : Wave → Wave) : s.noNewWave (s.updWave v f) := by
  intro w e
  by_cases h : w = v
  · subst h
    simp [State.updWave, e]
  · rw [State.wave_updWave_other _ _ h, e]

theorem State.noNewWave_releaseBarrier (s : State) (key result : Nat) : s.noNewWave (s.releaseBarrier key result) := by
  unfold State.releaseBarrier
  split
  · exact s.noNewWave_refl
  · split
    · exact s.noNewWave_refl
    · exact State.noNewWave_trans (State.noNewWave_of_waves (State.perform_waves ..)) (State.noNewWave_updWave _ _ _)

theorem State.noNewWave_tryBar (s : State) (u : Nat) : s.noNewWave (s.tryBar u) := by
  unfold State.tryBar
  split
  · exact s.noNewWave_refl
  · split
    · exact s.noNewWave_refl
    · refine State.noNewWave_trans (State.noNewWave_of_waves (State.setWg_waves ..)) (State.noNewWave_foldl (fun t id => ?_) _ _)
      split
      · exact State.noNewWave_releaseBarrier _ _ _
      · exact t.noNewWave_refl

theorem State.noNewWave_tryBarc (s : State) (u : Nat) : s.noNewWave (s.tryBarc u) := by
  unfold State.tryBarc
  split
  · exact s.noNewWave_refl
  · dsimp only
    split
    · exact s.noNewWave_refl
    · refine State.noNewWave_trans (State.noNewWave_of_waves (State.foldl_waves (fun _ _ => State.updWg_waves ..) _ _))
        (State.noNewWave_foldl (fun t a => ?_) _ _)
      split
      · exact State.noNewWave_releaseBarrier _ _ _
      · exact t.noNewWave_refl

theorem State.moved_leavePools (s : State) (w : Nat) : s.moved (s.leavePools w) := by
  have leave (s : State) (f : RegFile) (p : Pool) (c : Prop) [Decidable c] :
      s.moved (if c then s else (s.updCore (coreOfWave w) fun k => k.setPool f p).serve (coreOfWave w) f) := by
    split
    · exact s.moved_refl
    · exact State.moved_trans (s.moved_updPool ..) (State.moved_serve ..)
  exact State.moved_trans (leave s .vec _ _) (leave _ .scl _ _)

/-- A wave that ends is gone (R17). -/
theorem State.endWave_gone {s : State} {w : Nat} {x : Wave} (hx : s.wave? w = some x) (killed : Bool) :
    (s.endWave w killed).wave? w = none := by
  unfold State.endWave
  rw [hx]
  dsimp only
  generalize hl : State.leavePools _ w = t
  have ht : t.wave? w = none := by
    rw [← hl]
    exact ((State.moved_leavePools _ w).2.2.2 w).1 (tget_terase_same _ w)
  generalize hg : State.updWg t x.wg _ = u
  have hu : u.wave? w = none := by
    rw [← hg, State.wave_congr (State.updWg_waves ..)]
    exact ht
  have out : ∀ v, u.noNewWave v → v.wave? w = none := fun v h => h w hu
  apply out
  have back (b : Bool) : u.noNewWave (u.giveBack (coreOfWave w) x.weight b) := State.noNewWave_of_waves (State.giveBack_waves ..)
  split
  · exact back killed
  · split
    · refine State.noNewWave_trans (State.noNewWave_trans (t := State.endWg _ x.wg) ?_
        (State.noNewWave_foldl (fun (t : State) (p : Nat × Wg) => t.noNewWave_tryBarc p.1) _ _)) (State.noNewWave_of_waves (State.flushPool_waves ..))
      refine State.noNewWave_trans ?_ (State.noNewWave_of_waves (State.endWg_waves ..))
      split
      · split
        · exact State.noNewWave_of_waves rfl
        · exact u.noNewWave_refl
      · exact back killed
    · exact State.noNewWave_trans (back killed) (State.noNewWave_trans (State.noNewWave_tryBar _ _)
        (State.noNewWave_trans (State.noNewWave_tryBarc _ _) (State.noNewWave_of_waves (State.flushPool_waves ..))))

end Sys2Proof.Machine
end

section
/-! PROOFS. O27 ExitAndYield: the lanes of a frontier, what an exit of lanes leaves (spec/02 R51), EXIT and YIELD (spec/06 R185, R186). -/

namespace Sys2Proof.Machine

/-! The lanes of a frontier. -/

theorem lanesWhere_get (p : Entry → Bool) (l : List Entry) (a : Mask) (k : Nat) :
    (l.foldl (fun a e => if p e then a ||| e.mask else a) a).getLsbD k = (a.getLsbD k || l.any fun e => p e && e.mask.getLsbD k) := by
  induction l generalizing a with
  | nil => simp
  | cons e l ih =>
    rw [List.foldl_cons, ih, List.any_cons]
    cases p e <;> simp [Bool.or_assoc]

theorem lanesOfEntries_get (l : List Entry) (k : Nat) : (lanesOfEntries l).getLsbD k = l.any fun e => e.mask.getLsbD k := by
  have h := lanesWhere_get (fun _ => true) l 0 k
  simpa [lanesOfEntries] using h

/-- Lanes that reach a PC are lanes of the frontier (R24). -/
theorem lanesOfEntries_joinReady (l : List Entry) (pc : Nat) (prio : Option Nat) (m : Mask) :
    lanesOfEntries (joinReady l pc prio m) = lanesOfEntries l ||| m := by
  unfold joinReady
  split
  · rename_i h; subst h; simp
  · apply BitVec.eq_of_getLsbD_eq
    intro k _
    rw [BitVec.getLsbD_or, lanesOfEntries_get, lanesOfEntries_get]
    split
    · rename_i hany
      rw [List.any_map, Bool.eq_iff_iff]
      simp only [List.any_eq_true, Bool.or_eq_true, Function.comp_apply] at hany ⊢
      constructor
      · rintro ⟨e, he, hk⟩
        split at hk
        · rw [BitVec.getLsbD_or, Bool.or_eq_true] at hk
          exact hk.imp_left fun h => ⟨e, he, h⟩
        · exact .inl ⟨e, he, hk⟩
      · rintro (⟨e, he, hk⟩ | hk)
        · refine ⟨e, he, ?_⟩
          split <;> simp [hk]
        · obtain ⟨e, he, hc⟩ := hany
          exact ⟨e, he, by simp [hc, hk]⟩
    · simp [List.any_append]

/-- The lanes of the entries after a clause has ended with some moves (R24). -/
theorem lanesOfEntries_movedEntries (s : State) (x : Issue) (moves : List (Nat × Mask)) :
    lanesOfEntries (s.movedEntries x moves) =
      moves.foldl (fun a m => a ||| m.2) (lanesOfEntries (x.wave.entries x.cl.handler)) := by
  unfold State.movedEntries
  generalize x.wave.entries x.cl.handler = l
  induction moves generalizing l with
  | nil => rfl
  | cons m moves ih => rw [List.foldl_cons, List.foldl_cons, ih, lanesOfEntries_joinReady]

/-- A JOIN that completes keeps the lanes of the frontier (R183). -/
theorem lanesOfEntries_completeJoin (s : State) (core ctx : Nat) (live : Mask) (l : List Entry) (e : Entry) :
    lanesOfEntries (completeJoin s core ctx live l e) = lanesOfEntries l := by
  unfold completeJoin
  dsimp only
  split
  · apply BitVec.eq_of_getLsbD_eq
    intro k _
    rw [lanesOfEntries_joinReady, BitVec.getLsbD_or, lanesOfEntries_get, lanesOfEntries_get, lanesWhere_get,
      List.any_filter, Bool.eq_iff_iff]
    simp only [BitVec.ofNat_eq_ofNat, BitVec.getLsbD_zero, Bool.false_or, Bool.or_eq_true, List.any_eq_true, Bool.and_eq_true, Bool.not_eq_true']
    constructor
    · rintro (⟨a, ha, -, hk⟩ | ⟨a, ha, -, hk⟩) <;> exact ⟨a, ha, hk⟩
    · rintro ⟨a, ha, hk⟩
      cases h : a.st == .joined && a.pc == e.pc with
      | true => exact .inr ⟨a, ha, by simpa using h, hk⟩
      | false => exact .inl ⟨a, ha, h, hk⟩
  · rfl

/-- The check at a wave's JOINs moves entries of its frontier and keeps their lanes. -/
theorem State.checkJoins_wave {s : State} {w : Nat} {x : Wave} (hx : s.wave? w = some x) :
    ∃ l, (s.checkJoins w).wave? w = some { x with frontier := l } ∧ lanesOfEntries l = lanesOfEntries x.frontier := by
  unfold State.checkJoins
  rw [hx]
  dsimp only
  split
  · exact ⟨_, hx, rfl⟩
  · rename_i g _
    refine ⟨_, State.wave_setWave_same .., ?_⟩
    have keeps (es l : List Entry) :
        lanesOfEntries (es.foldl (fun l e => completeJoin s (coreOfWave w) g.ctx x.live l e) l) = lanesOfEntries l := by
      induction es generalizing l with
      | nil => rfl
      | cons e es ih => rw [List.foldl_cons, ih, lanesOfEntries_completeJoin]
    exact keeps _ _

/-! Lanes that exit. -/

/-- What a release leaves released of a register: what was, and its own lanes where it names the register. -/
theorem Wave.released_release (x : Wave) (f g : RegFile) (n m : Nat) (k : Mask) {l : Nat} (hl : l < 32) :
    ((x.release f n k).released g m).getLsbD l =
      ((x.released g m).getLsbD l || (g == f && m == n && k.getLsbD l)) := by
  by_cases hm : g = f ∧ m = n
  · obtain ⟨rfl, rfl⟩ := hm
    rcases Option.eq_none_or_eq_some (x.reg? g m) with h | ⟨r, h⟩
    · simp [Wave.release, Wave.released, h, hl]
    · have hr : x.released g m = r.released := by simp [Wave.released, h]
      by_cases hall : r.released ||| k = allLanes
      · have := allLanes_get hl
        rw [← hall, BitVec.getLsbD_or] at this
        simpa [Wave.release, Wave.released, h, hall, Wave.reg_unmap, hl] using this
      · simp [Wave.release, Wave.released, h, hall]
  · have hb : (g == f && m == n) = false := by simpa using hm
    unfold Wave.released
    rw [Wave.sameReg_release x k hm, hb]
    simp

/-- After its lanes are released in every vector register that a wave maps, every vector register reads as released there (R51). -/
theorem Wave.released_exit (x : Wave) (m : Mask) (ns : List Nat) (hns : ∀ n, x.reg? .vec n ≠ none → n ∈ ns) (n k : Nat)
    (hk : m.getLsbD k = true) :
    ((ns.foldl (fun y n => (y.release .vec n m).prune .vec n m) x).released .vec n).getLsbD k = true := by
  have hlt : k < 32 := BitVec.lt_of_getLsbD hk
  have step (y : Wave) (a : Nat) : ((((y.release .vec a m).prune .vec a m).released .vec n).getLsbD k =
      ((y.released .vec n).getLsbD k || n == a)) := by
    have := y.released_release .vec .vec a n m hlt
    simpa [Wave.released, Wave.reg_prune, hk] using this
  have all (ns : List Nat) (y : Wave) : ((ns.foldl (fun y n => (y.release .vec n m).prune .vec n m) y).released .vec n).getLsbD k =
      ((y.released .vec n).getLsbD k || ns.contains n) := by
    induction ns generalizing y with
    | nil => simp
    | cons a ns ih => rw [List.foldl_cons, ih, step, List.contains_cons, Bool.or_assoc]
  rw [all, Bool.or_eq_true]
  rcases Option.eq_none_or_eq_some (x.reg? .vec n) with h | ⟨r, h⟩
  · left
    simp [Wave.released, h, hlt]
  · right
    simpa using hns n (by simp [h])

theorem mem_tkeys_of_tget {α : Type} {t : Table α} {n : Nat} (h : tget t n ≠ none) : n ∈ tkeys t := by
  induction t with
  | nil => exact absurd rfl h
  | cons p t ih =>
    unfold tget at h
    split at h
    · rename_i e
      exact List.mem_cons.2 (.inl e.symm)
    · exact List.mem_cons.2 (.inr (ih h))

/-- The lanes that have not exited, of a wave without a clause. -/
theorem Wave.live_idle {x : Wave} (h : x.clause = none) : x.live = lanesOfEntries x.frontier := by
  simp only [Wave.live, h]
  rfl

/-- An exit that leaves no lane ends the wave. -/
theorem State.exitLanes_last {s : State} {w : Nat} {x : Wave} (hx : s.wave? w = some x) (hl : x.live = 0) (m : Mask) :
    (s.exitLanes w m).wave? w = none := by
  unfold State.exitLanes
  rw [hx]
  dsimp only
  rw [if_pos hl]
  exact State.endWave_gone hx false

/-- An exit that leaves lanes releases its own in every vector register, and the wave keeps its place. -/
theorem State.exitLanes_some {s : State} {w : Nat} {x : Wave} (hx : s.wave? w = some x) (hl : x.live ≠ 0) (m : Mask) :
    ∃ y, (s.exitLanes w m).wave? w = some y ∧ y.clause = x.clause ∧ y.retired = x.retired ∧
      lanesOfEntries y.frontier = lanesOfEntries x.frontier ∧
      ∀ n k, m.getLsbD k = true → (y.released .vec n).getLsbD k = true := by
  have hrel := x.released_exit m (tkeys x.v) fun n h => mem_tkeys_of_tget h
  have hsame := (x.releaseAll ((tkeys x.v).map fun n => ⟨.vec, n, m⟩)).1
  rw [List.foldl_map] at hsame
  unfold State.exitLanes
  rw [hx]
  dsimp only
  rw [if_neg hl]
  generalize (tkeys x.v).foldl (fun y n => (y.release .vec n m).prune .vec n m) x = y at hrel hsame
  obtain ⟨l, hw, hlanes⟩ := State.checkJoins_wave (State.wave_setWave_same s w _)
  refine ⟨_, hw, ?_, ?_, hlanes.trans ?_, hrel⟩
  · exact (congrArg Wave.clause hsame).trans rfl
  · exact (congrArg Wave.retired hsame).trans rfl
  · exact congrArg lanesOfEntries ((congrArg Wave.frontier hsame).trans rfl)

/-! EXIT. -/

/-- An instruction without operands that performs, and can leave its window, has its effect. -/
theorem State.run_gated {s : State} {i : Instr} {g : Guard} {x : Issue} {body : Issue → Mask → Sticky → State}
    (h : s.performs i g x) (hr : s.readable x [] []) :
    s.run i g (fun x e => s.gated x [] [] (body x e)) = .next (body x (x.exec g) 0) := by
  rw [State.run_performs h hr.2.2, State.gated_readable hr]

theorem State.positionOk_exit {s : State} {x : Issue} {f : B} (h : s.positionOk x (.exit f) = true) : x.cl.handler = false := by
  unfold State.positionOk at h
  cases hh : x.cl.handler with
  | false => rfl
  | true => simp [hh, barredInHandler] at h

/-- After EXIT's retirement the wave stands between clauses, its lanes outside EXEC at the next clause (R185). -/
theorem State.move_exit {s : State} {x : Issue} (h : s.issue? = some x) (hh : x.cl.handler = false) (e : Mask) (rels : List Rel) :
    ∃ y, (s.move x e [] rels [] 0 []).wave? x.w = some y ∧ y.clause = none ∧ y.retired = x.wave.retired + 1 ∧
      lanesOfEntries y.frontier = lanesOfEntries (s.movedEntries x [(x.cl.nextPc, x.cl.lanes &&& ~~~e)]) := by
  obtain ⟨hw, hcl, hg⟩ := State.issue_spec h
  obtain ⟨z, hz⟩ := State.retire_spec hw hg [] rels [] 0
  obtain ⟨g, hi⟩ := State.midway_issue hcl hz
  obtain ⟨-, -, hsame, -⟩ := hz
  obtain ⟨hend, -⟩ := State.endClause_spec hi ([] ++ [(x.cl.nextPc, x.rest e)])
  refine ⟨_, hend, rfl, ?_, ?_⟩
  · simp only [Wave.setEntries, hh]
    exact congrArg Wave.retired hsame
  · simp only [Wave.setEntries, hh, Bool.false_eq_true, if_false]
    rw [lanesOfEntries_movedEntries, lanesOfEntries_movedEntries]
    simp only [Wave.entries, hh, Bool.false_eq_true, if_false]
    rw [hsame]
    rfl

/-- EXIT moves the lanes outside EXEC to the next clause, and those in it exit (R185). -/
theorem exec_exit {f : B} {s : State} {x : Issue} (h : s.performs (.exit f) f.g x) (hr : s.readable x [] []) :
    exec (.exit f) s =
      .next ((s.move x (x.exec f.g) [] (x.wave.exitRels (x.exec f.g)) [] 0 []).exitLanes x.w (x.exec f.g)) := by
  change execExit f s = _
  exact State.run_gated h hr

/-! YIELD. -/

/-- A core of which only the pools differ, in a package whose time stands, has the same clock. -/
theorem State.coreClock_kept {s t : State} (h : s.unitsKept t) (c : Nat) : t.coreClock c = s.coreClock c := by
  obtain ⟨-, -, -, -, -, -, -, htick, hclocks, -, -, hcore⟩ := h
  have h0 : (t.core c).clock0 = (s.core c).clock0 := by
    rw [hcore c]
  simp only [State.coreClock, State.unitClock, htick, hclocks, h0]

/-- The waves that YIELD lets go first (R186). -/
def State.yieldsTo (s : State) (w : Nat) : List Nat :=
  (s.waves.filter fun p => p.1 != w && seqOfWave p.1 == seqOfWave w && s.ready p.1).map (·.1)

theorem State.mem_yieldsTo (s : State) (w v : Nat) :
    v ∈ s.yieldsTo w ↔ v ≠ w ∧ v / 8 = w / 8 ∧ v ∈ s.waves.map (·.1) ∧ s.ready v = true := by
  simp only [State.yieldsTo, seqOfWave, List.mem_map, List.mem_filter, Bool.and_eq_true, bne_iff_ne, beq_iff_eq]
  constructor
  · rintro ⟨p, ⟨hp, ⟨hne, hq⟩, hr⟩, rfl⟩
    exact ⟨hne, hq, ⟨p, hp, rfl⟩, hr⟩
  · rintro ⟨hne, hq, ⟨p, hp, rfl⟩, hr⟩
    exact ⟨p, ⟨hp, ⟨hne, hq⟩, hr⟩, rfl⟩

/-- YIELD is a NOP behind which, outside handlers and deterministic mode, the wave lets others pass and pauses. -/
theorem exec_yield {f : B} {s : State} {x : Issue} (h : s.performs (.yield f) f.g x) (hr : s.readable x [] []) :
    exec (.yield f) s = .next (if x.cl.handler || x.wg.det then s.finish x [] [] [] 0
      else (s.finish x [] [] [] 0).updWave x.w fun y => { y with
        passing := (s.finish x [] [] [] 0).yieldsTo x.w
        pause := if f.off == 0 then none else some ((s.finish x [] [] [] 0).coreClock x.core + f.off.zeroExtend 64) }) := by
  change execYield f s = _
  exact State.run_gated h hr

end Sys2Proof.Machine

open Sys2Proof.Machine in
/-- Settles O27: EXIT is a move of the lanes outside EXEC and an exit of those in it; YIELD is a NOP with a list of waves and a pause. -/
theorem exitAndYield : Obligations.ExitAndYield := by
  refine ⟨fun f s x h hr => ?_, fun f s x h hr => ?_⟩
  · obtain ⟨y, hy, hclause, hretired, hlanes⟩ := State.move_exit h.1 (State.positionOk_exit h.2.1) (x.exec f.g)
      (x.wave.exitRels (x.exec f.g))
    have hlive := (Wave.live_idle hclause).trans hlanes
    refine ⟨_, exec_exit h hr, fun h0 => State.exitLanes_last hy (hlive.trans h0) (x.exec f.g), fun h0 => ?_⟩
    obtain ⟨z, hz, hzclause, hzretired, hzlanes, hreleased⟩ :=
      State.exitLanes_some hy (fun e => h0 (hlive.symm.trans e)) (x.exec f.g)
    exact ⟨z, hz, hzclause.trans hclause, hzretired.trans hretired, hzlanes.trans hlanes, hreleased⟩
  · obtain ⟨hret, hon⟩ := State.finish_issue h [] [] [] 0
    refine ⟨_, _, hret, hon, exec_yield h hr, fun hc => if_pos (by simpa using hc), fun hh hd => ?_⟩
    obtain ⟨⟨y, hy, -⟩, hkept, -⟩ := hret
    refine ⟨y, _, hy, ?_, State.mem_yieldsTo _ x.w⟩
    rw [if_neg (by simp [hh, hd]), State.updWave_eq _ _ hy, State.coreClock_kept hkept]
    simp only [beq_iff_eq]
end

section
/-! PROOFS. O5 StepRunsDecoded: what every step does to time, the fetch of a word that a line holds, and the next word of a sequencer. -/

namespace Sys2Proof.Machine

/-! Time: what a step does last lets the tick and the clocks stand until they are counted. -/

/-- No tick and no clock has passed. -/
def State.sameTime (s t : State) : Prop := t.tick = s.tick ∧ t.clocks = s.clocks

theorem State.sameTime_refl (s : State) : s.sameTime s := ⟨rfl, rfl⟩
theorem State.sameTime_trans {s t u : State} (h : s.sameTime t) (k : t.sameTime u) : s.sameTime u :=
  ⟨k.1.trans h.1, k.2.trans h.2⟩
theorem State.sameTime_ite {s a b : State} {c : Prop} [Decidable c] (h : s.sameTime a) (k : s.sameTime b) :
    s.sameTime (if c then a else b) := by split <;> assumption
theorem State.sameTime_foldl {α : Type} {f : State → α → State} (h : ∀ (s : State) a, s.sameTime (f s a)) (l : List α) (s : State) :
    s.sameTime (l.foldl f s) := by
  induction l generalizing s with
  | nil => exact s.sameTime_refl
  | cons a l ih => exact State.sameTime_trans (h s a) (ih _)

theorem State.sameTime_markGranule (s : State) (g : Nat) : s.sameTime (s.markGranule g) := by
  unfold State.markGranule
  split
  · exact State.sameTime_ite s.sameTime_refl ⟨rfl, rfl⟩
  · exact s.sameTime_refl

theorem State.sameTime_softErrors (s : State) : s.sameTime s.softErrors := by
  unfold State.softErrors
  split
  · exact State.sameTime_trans (t := s.setHost _) ⟨rfl, rfl⟩ (State.sameTime_markGranule ..)
  · exact ⟨State.updWave_tick .., State.updWave_clocks ..⟩
  · exact s.sameTime_refl

theorem State.sameTime_dramMisses (s : State) (n : Nat) (r : Requester) : s.sameTime (s.dramMisses n r) :=
  State.sameTime_foldl (f := fun s k =>
    if Config.writesBack s.tick n k then
      (s.dramArrive (Config.channelOf s.tick n k % 384) r.1 r.2).dramArrive (Config.channelOf s.tick n k % 384) 594 (0, 4095)
    else s.dramArrive (Config.channelOf s.tick n k % 384) r.1 r.2) (fun _ _ => State.sameTime_ite ⟨rfl, rfl⟩ ⟨rfl, rfl⟩) _ s

theorem State.sameTime_dramArrivals (s : State) (r : List Requester) : s.sameTime (s.dramArrivals r) :=
  State.sameTime_foldl (f := fun s (p : Nat × Requester) => s.dramMisses p.1 p.2) (fun s p => s.sameTime_dramMisses p.1 p.2) _ s

theorem State.sameTime_wakeWatches (s : State) : s.sameTime s.wakeWatches :=
  State.sameTime_ite s.sameTime_refl ⟨rfl, rfl⟩

theorem State.sameTime_reapPackets (s : State) : s.sameTime s.reapPackets := by
  unfold State.reapPackets
  refine State.sameTime_foldl (fun s q => ?_) _ s
  exact State.sameTime_ite s.sameTime_refl ⟨rfl, rfl⟩

theorem State.sameTime_prunePassing (s : State) : s.sameTime s.prunePassing :=
  State.sameTime_ite s.sameTime_refl ⟨rfl, rfl⟩

theorem State.sameTime_countStalls (s : State) : s.sameTime s.countStalls :=
  State.sameTime_ite s.sameTime_refl ⟨rfl, rfl⟩

theorem State.sameTime_noteTops (s : State) : s.sameTime s.noteTops :=
  State.sameTime_ite (State.sameTime_ite s.sameTime_refl ⟨rfl, rfl⟩) ⟨rfl, rfl⟩

/-- A step ends with one tick more, its clocks passed, and nothing in focus. -/
theorem State.settled_time (s : State) (r : List Requester) :
    (s.settled r).tick = s.tick + 1 ∧ (s.settled r).focus = none ∧
    (s.settled r).clocks = s.clocks + BitVec.ofNat 64 (1 + Config.clocks s.tick) := by
  have h : s.sameTime ((s.softErrors.dramArrivals r).wakeWatches.reapPackets.prunePassing).countStalls.noteTops :=
    State.sameTime_trans s.sameTime_softErrors (State.sameTime_trans (State.sameTime_dramArrivals _ r)
      (State.sameTime_trans (State.sameTime_wakeWatches _) (State.sameTime_trans (State.sameTime_reapPackets _)
        (State.sameTime_trans (State.sameTime_prunePassing _)
          (State.sameTime_trans (State.sameTime_countStalls _) (State.sameTime_noteTops _))))))
  obtain ⟨htick, hclocks⟩ := h
  simp only [State.settled, State.clocksNow, htick, hclocks, and_self]

/-! Fetches. -/

/-- A line that holds a word serves its fetch (R29). -/
theorem State.fetch_holdsWord {s : State} {w ctx va : Nat} {word : DWord} (hf : (s.seq (seqOfWave w)).fetchFail ≠ some va)
    (h : s.holdsWord (coreOfWave w) ctx va word) : ∃ l, s.lineAt (clusterOfCore (coreOfWave w)) ctx va = some l ∧
      s.fetch w ctx va = .word (s.takeWord (seqOfWave w) va l) word := by
  obtain ⟨l, ws, hl, hwalked, hws, hgood, rfl⟩ := h
  refine ⟨l, hl, ?_⟩
  simp only [State.fetch, hf, hl, hwalked, State.serveFetch, hws, hgood, if_false, if_true, Bool.false_eq_true]

theorem State.endFetch_frame (s : State) (p va : Nat) : (s.endFetch p va).waves = s.waves ∧ (s.endFetch p va).wgs = s.wgs ∧
    ∀ q, ((s.endFetch p va).seq q).active = (s.seq q).active := by
  unfold State.endFetch
  split
  · refine ⟨rfl, rfl, fun q => ?_⟩
    by_cases h : q = p
    · subst h; rw [State.seq_updSeq_same]
    · rw [State.seq_updSeq_other _ _ h]
  · exact ⟨rfl, rfl, fun _ => rfl⟩

/-- A served fetch leaves waves, workgroups and what each sequencer issues. -/
theorem State.takeWord_frame (s : State) (p va : Nat) (l : ILine) : (s.takeWord p va l).waves = s.waves ∧
    (s.takeWord p va l).wgs = s.wgs ∧ ∀ q, ((s.takeWord p va l).seq q).active = (s.seq q).active := by
  obtain ⟨hw, hg, hq⟩ := s.endFetch_frame p va
  unfold State.takeWord
  dsimp only
  split
  · exact ⟨hw, hg, fun q => (congrArg Seq.active (State.seq_congr (State.setMem_seqs ..) q)).trans (hq q)⟩
  · exact ⟨hw, hg, hq⟩

theorem State.keepBody_frame (s : State) (w : Nat) (l : List DWord) : (s.keepBody w l).waves = s.waves ∧
    (s.keepBody w l).wgs = s.wgs ∧ ∀ q, ((s.keepBody w l).seq q).active = (s.seq q).active := by
  unfold State.keepBody
  split
  · exact ⟨rfl, rfl, fun _ => rfl⟩
  · refine ⟨rfl, rfl, fun q => ?_⟩
    by_cases h : q = seqOfWave w
    · subst h; rw [State.seq_updSeq_same]
    · rw [State.seq_updSeq_other _ _ h]

theorem State.served_frame (s : State) (q : Nat) (x : Issue) : (s.served q x).waves = s.waves ∧ (s.served q x).wgs = s.wgs ∧
    ∀ p, ((s.served q x).seq p).active = (s.seq p).active := by
  unfold State.served
  split
  · split
    · exact s.takeWord_frame ..
    · exact ⟨rfl, rfl, fun _ => rfl⟩
  · exact ⟨rfl, rfl, fun _ => rfl⟩

/-- The state in which an instruction runs has its sequencer in focus, and differs from the state before by its fetch. -/
theorem State.runs_frame (s : State) (q : Nat) (x : Issue) (i : Instr) : (s.runs q x i).waves = s.waves ∧
    (s.runs q x i).wgs = s.wgs ∧ ((s.runs q x i).seq q).active = (s.seq q).active ∧ (s.runs q x i).focus = some q := by
  obtain ⟨hw, hg, hq⟩ := s.served_frame q x
  unfold State.runs
  cases isHolding i with
  | true =>
    obtain ⟨kw, kg, kq⟩ := (s.served q x).keepBody_frame x.w []
    exact ⟨kw.trans hw, kg.trans hg, (kq q).trans (hq q), rfl⟩
  | false => exact ⟨hw, hg, hq q, rfl⟩

/-- Where a sequencer issues, the instruction in issue there is its wave's. -/
theorem State.issue_runs {s : State} {q : Nat} {x : Issue} (i : Instr) (ha : (s.seq q).active = some x.w)
    (hx : s.issueOf x.w = some x) : (s.runs q x i).issue? = some x := by
  obtain ⟨hw, hg, hq, hf⟩ := s.runs_frame q x i
  have e : (s.runs q x i).issueOf x.w = s.issueOf x.w := by simp only [State.issueOf, State.wave?, State.wg?, hw, hg]
  unfold State.issue?
  rw [hf]
  dsimp only
  rw [hq, ha]
  exact e.trans hx

/-! The next word. -/

/-- A sequencer's next word runs as the instruction that it decodes to, once its fetch is served (R22, R77, R190). -/
theorem State.nextWord_issues {s : State} {q : Nat} {x : Issue} {word : DWord} {i : Instr} (h : s.issues q x word)
    (hd : decode word = .ok i) : s.nextWord q = (s.served q x).runWord q x word i := by
  obtain ⟨-, ha, hx, hn⟩ := h
  unfold State.nextWord State.served
  unfold State.nextIs at hn
  rw [ha]
  dsimp only
  rw [hx]
  dsimp only
  cases hm : x.cl.mac with
  | some m =>
    rw [hm] at hn
    dsimp only at hn ⊢
    rw [hn, hd]
  | none =>
    rw [hm] at hn
    cases hb : (s.seq q).body with
    | cons k l =>
      rw [hb] at hn
      dsimp only at hn ⊢
      rw [hn, hd]
    | nil =>
      rw [hb] at hn
      dsimp only at hn ⊢
      obtain ⟨l, hl, hf⟩ := State.fetch_holdsWord hn.1 hn.2
      rw [Issue.wordVa] at hf
      rw [Issue.core, hl, hf]
      dsimp only
      rw [hd, Issue.wordVa]

/-- A chosen sequencer runs its next word, or waits or traps there. -/
theorem step_runs {s t : State} {q : Nat} {i : Instr} (hc : s.choice = some (.issue q)) (hn : s.nextWord q = .instr i t) :
    step s = settleOutcome (t.requestersOf (t.seq q).active i) (exec i t) := by simp only [step, hc, hn]
theorem step_waits {s t : State} {q : Nat} (hc : s.choice = some (.issue q)) (hn : s.nextWord q = .done t) :
    step s = settleOutcome (fetchWalks q) (.next t) := by simp only [step, hc, hn]

/-- The next word runs at once but where the clause's last word is awaited (log 76). -/
theorem State.runWord_runs {s : State} {q : Nat} {x : Issue} {i : Instr} (h : (s.served q x).awaitsLast x i = false) (word : DWord) :
    (s.served q x).runWord q x word i = .instr i (s.runs q x i) := by
  simp only [State.runWord, h, Bool.false_eq_true, if_false, State.runs]

end Sys2Proof.Machine

open Sys2Proof.Machine in
/-- Settles O5: the choice is the sequencer's issue, its next word is the one that is held, and a step adds its settling. -/
theorem stepRunsDecoded : Obligations.StepRunsDecoded := by
  intro s q x word i h hd
  have hn := State.nextWord_issues h hd
  obtain ⟨hc, ha, hx, -⟩ := h
  refine ⟨fun hl => ?_, fun hl => ?_⟩
  · have hr : ((s.runs q x i).seq q).active = some x.w := (s.runs_frame q x i).2.2.1.trans ha
    have hstep := step_runs hc (hn.trans (State.runWord_runs hl word))
    rw [hr] at hstep
    refine ⟨State.issue_runs i ha hx, hstep, fun u hu => ?_⟩
    rw [hu] at hstep
    exact ⟨hstep, (u.settled_time _).1, (u.settled_time _).2.1, (u.settled_time _).2.2⟩
  · simp only [State.runWord, hl, if_true] at hn
    cases hf : (s.served q x).fetch x.w x.wg.ctx x.lastVa with
    | word u v => rw [hf] at hn; exact step_runs hc hn
    | wait u => rw [hf] at hn; exact step_waits hc hn
    | trap u cause => rw [hf] at hn; exact step_waits hc hn
end

section
/-! PROOFS. O22 SpecialRegisters: SR_STATUS bit by bit (spec/01 R43), and the registers that name a lane's place and its trap (R42). -/

namespace Sys2Proof.Machine

variable (x : Issue)

/-- SR_STATUS holds the sticky bits below bit 16 and three flags from there on (R43). -/
theorem Issue.status_testBit (k : Nat) (h : k < 64) :
    x.status.getLsbD k = if k < 16 then x.wave.sticky.getLsbD k
      else (bit1 x.wave.inTrap + 2 * bit1 x.wg.det + 4 * bit1 x.wg.prot).testBit (k - 16) := by
  have hs : x.wave.sticky.toNat < 2 ^ 16 := by have := x.wave.sticky.isLt; omega
  have e : x.wave.sticky.toNat + bit1 x.wave.inTrap * 2 ^ 16 + bit1 x.wg.det * 2 ^ 17 + bit1 x.wg.prot * 2 ^ 18 =
      2 ^ 16 * (bit1 x.wave.inTrap + 2 * bit1 x.wg.det + 4 * bit1 x.wg.prot) + x.wave.sticky.toNat := by omega
  rw [Issue.status, BitVec.getLsbD_ofNat, e, Nat.testBit_two_pow_mul_add _ hs]
  simp only [h, decide_true, Bool.true_and]
  rfl

theorem Issue.status_sticky (k : Nat) (h : k < 9) : x.status.getLsbD k = x.wave.sticky.getLsbD k := by
  rw [x.status_testBit k (by omega), if_pos (by omega)]
theorem Issue.status_inTrap : x.status.getLsbD 16 = x.wave.inTrap := by
  rw [x.status_testBit 16 (by decide)]
  cases x.wave.inTrap <;> cases x.wg.det <;> cases x.wg.prot <;> rfl
theorem Issue.status_det : x.status.getLsbD 17 = x.wg.det := by
  rw [x.status_testBit 17 (by decide)]
  cases x.wave.inTrap <;> cases x.wg.det <;> cases x.wg.prot <;> rfl

/-- SR_TLSELn (R35, R42). -/
theorem State.srValue_tlsel (s : State) (k l : Nat) (h : k < 8) : s.srValue x (0x38 + k) l = (x.tlsel k).setWidth 64 := by
  have h1 : ¬ 0x38 + k ≤ 0x0F := by omega
  have h2 : ¬ 0x38 + k ≤ 0x17 := by omega
  have h3 : 0x38 + k ≤ 0x3F := by omega
  simp [State.srValue, h1, h2, h3]

end Sys2Proof.Machine

open Sys2Proof.Machine in
/-- Settles O22: the places divide the wave's number (R42), and the bits of SR_STATUS are its parts. -/
theorem specialRegisters : Obligations.SpecialRegisters := by
  intro s x l
  have cluster : s.srValue x 0x04 l = BitVec.ofNat 64 (x.w / 32 / 12) := rfl
  have die : s.srValue x 0x05 l = BitVec.ofNat 64 (x.w / 32 / 96) := rfl
  exact ⟨rfl, rfl, rfl, rfl, cluster, die, rfl, rfl, rfl, rfl, rfl, rfl, rfl, rfl, rfl,
    fun k hk => s.srValue_tlsel x k l hk, fun k hk => x.status_sticky k hk, x.status_inTrap, x.status_det⟩
end

section
/-! PROOFS. O52 SequencerEvents: a line that arrives can stall a wave. -/

namespace Sys2Proof.Machine

/-- A wave in its clause is frozen on the line that holds its next word, the line is on its way, and a switch is asked of the wave's
workgroup. -/
def frozenSwitching : State :=
  let s := State.reset.setMem { State.reset.mem with icache := [⟨0, 0, slotPc / 128, none, [], true, false⟩] }
  let s := (s.setWg 0 { slotWg with switching := true }).setWave 0 (slotWave 0 0)
  s.setSeq 0 { Seq.reset with active := some 0, missed := some (slotPc + 8), frozen := some (.line 0 (slotPc / 128)) }

theorem frozenSwitching_canArrive : frozenSwitching.canArrive 0 0 (slotPc / 128) = true := by decide +kernel

/-- The wave is not stalled before. -/
theorem frozenSwitching_unstalled : (frozenSwitching.wave? 0).map (·.stall) = some none := by decide +kernel

/-- When the line arrives the sequencer is thawed, and the wave, whose workgroup is to be switched out, waits at its safe point, stalled
(R319, R377). -/
theorem frozenSwitching_arrival {t : State} (h : exec (.icacheLineArrival 0 0 (slotPc / 128)) frozenSwitching = .next t) :
    (t.wave? 0).map (·.stall) = some (some (Stall.none frozenSwitching.tick)) := by
  have e : (match exec (.icacheLineArrival 0 0 (slotPc / 128)) frozenSwitching with
    | .next t => (t.wave? 0).map (·.stall)
    | _ => none) = some (some (Stall.none frozenSwitching.tick)) := by decide +kernel
  rw [h] at e
  exact e

end Sys2Proof.Machine

open Sys2Proof.Machine in
/-- Refutes O52: its second part says that a line that arrives leaves every wave as it was, but one that is frozen on the line in its
clause, and whose workgroup is to be switched out, stalls at its safe point (R377). -/
theorem not_sequencerEvents : ¬ Obligations.SequencerEvents := by
  rintro ⟨-, arrives, -⟩
  obtain ⟨t, ht, hwaves, -⟩ := arrives 0 0 (slotPc / 128) frozenSwitching frozenSwitching_canArrive
  have stalled := frozenSwitching_arrival ht
  rw [State.wave_congr hwaves, frozenSwitching_unstalled] at stalled
  exact nomatch stalled
end

section
/-! PROOFS. O53 RegisterEvents: spills (spec/02 R65), results that become visible (R39, R60), and holds that end (spec/07 R194, R225,
R226). -/

namespace Sys2Proof.Machine

/-! The pools. -/

theorem Core.pool_setPool_same (c : Core) (f : RegFile) (p : Pool) : (c.setPool f p).pool f = p := by cases f <;> rfl

/-- A register is being spilled where it still stands in the physical register that the spill write reads (R65). -/
theorem State.spilling_eq {s : State} {w n : Nat} {f : RegFile} {v : Spill} {x : Wave} {r : Reg} (hv : v.wave = w ∧ v.reg = n)
    (hs : ((s.core (coreOfWave w)).pool f).spill = some v) (hx : s.wave? w = some x) (hr : x.reg? f n = some r) :
    s.spilling w f n = (r.home == .bank v.phys) := by
  simp [State.spilling, Wave.chosen, hs, hx, hr, hv.1, hv.2]

/-- The end of a pool's spill write: the write is over, its register is SPILLED where it is still being spilled, and the pool serves on
(R65). -/
theorem State.endSpill_spec {s : State} {c : Nat} {f : RegFile} {v : Spill} (hs : ((s.core c).pool f).spill = some v) :
    ∃ u : State, s.endSpill c f = u.serve c f ∧ ((u.core c).pool f).spill = none ∧
      ∀ x k, coreOfWave v.wave = c → s.wave? v.wave = some x → x.reg? f v.reg = some k →
        ∃ y, u.wave? v.wave = some y ∧
          y.reg? f v.reg = some { k with home := if k.home = .bank v.phys then .spilled false else k.home } := by
  unfold State.endSpill
  rw [hs]
  dsimp only
  refine ⟨_, rfl, ?_, fun x k hc hx hk => ?_⟩
  · split
    · rw [State.core_congr (State.updWave_cores ..), State.core_updCore_same, Core.pool_setPool_same]
    · rw [State.core_updCore_same, Core.pool_setPool_same]
  · rw [State.spilling_eq ⟨rfl, rfl⟩ (hc ▸ hs) hx hk]
    by_cases hb : k.home = .bank v.phys
    · rw [if_pos (by simpa using hb), if_pos hb]
      refine ⟨_, State.wave_updWave_same _ _ (x := x) hx, ?_⟩
      rw [hk]
      exact Wave.reg_setReg_same ..
    · rw [if_neg (by simpa using hb), if_neg hb]
      exact ⟨x, hx, hk⟩

theorem exec_spillWriteComplete {s : State} {c : Nat} {f : RegFile} {v : Spill} (hs : ((s.core c).pool f).spill = some v) :
    exec (.spillWriteComplete c f) s = .next (s.endSpill c f) := by
  change execSpillWriteComplete c f s = _
  simp [execSpillWriteComplete, hs]

theorem exec_fillComplete {s : State} {c : Nat} {f : RegFile} (hf : ((s.core c).pool f).filling = true) :
    exec (.fillComplete c f) s = .next (State.serve (s.setCore c
      ((s.core c).setPool f { (s.core c).pool f with filling := false, queue := ((s.core c).pool f).queue.drop 1 })) c f) := by
  change execFillComplete c f s = _
  simp only [execFillComplete, hf, Bool.not_true, Bool.false_eq_true, if_false]
  rfl

/-! Results that become visible. -/

/-- A wave of which only the registers, the window and the count of spills may differ. -/
def Wave.regsOnly (x y : Wave) : Prop := y = { x with v := y.v, s := y.s, window := y.window, spills := y.spills }

theorem Wave.regsOnly_refl (x : Wave) : x.regsOnly x := rfl
theorem Wave.regsOnly_trans {x y z : Wave} (h : x.regsOnly y) (k : y.regsOnly z) : x.regsOnly z := by
  unfold Wave.regsOnly at *
  rw [k, h]
theorem Wave.regsOnly_of_kept {x y : Wave} (h : x.kept y) : x.regsOnly y := by
  unfold Wave.regsOnly
  rw [h.1]
theorem Wave.regsOnly_leaveSlot (x : Wave) (f : RegFile) (n : Nat) : x.regsOnly (x.leaveSlot f n) := rfl
theorem Wave.regsOnly_setReg (x : Wave) (f : RegFile) (n : Nat) (r : Reg) : x.regsOnly (x.setReg f n r) := by cases f <;> rfl

/-- A register reads as its rename entry says, or as a released one where it has none (R53, R54). -/
theorem Wave.readsAs_entry (x : Wave) (f : RegFile) (n : Nat) {d : Reg} (hd : d.released = allLanes) {l : Nat} (hl : l < 32) :
    x.readsAs f n l = if ((x.reg? f n).getD d).released.getLsbD l then 0 else laneOf ((x.reg? f n).getD d).lanes l := by
  unfold Wave.readsAs Wave.released Wave.lanes
  cases x.reg? f n with
  | none => simp [hd, hl]
  | some r => rfl

theorem Wave.readsAs_setReg_same (x : Wave) (f : RegFile) (n : Nat) (r : Reg) (l : Nat) :
    (x.setReg f n r).readsAs f n l = if r.released.getLsbD l then 0 else laneOf r.lanes l := by
  simp [Wave.readsAs, Wave.released, Wave.lanes]

/-- An entry with new lanes reads as these, and elsewhere as the entry before it. -/
theorem Wave.readsAs_mixed (x z : Wave) (f : RegFile) (n : Nat) {d r : Reg} (m : Mask) (v : Lanes) (hd : d.released = allLanes)
    (hr : r.released = ((x.reg? f n).getD d).released &&& ~~~m) (hv : r.lanes = mixLanes m ((x.reg? f n).getD d).lanes v)
    {l : Nat} (hl : l < 32) :
    (z.setReg f n r).readsAs f n l = if m.getLsbD l then laneOf v l else x.readsAs f n l := by
  rw [Wave.readsAs_setReg_same, x.readsAs_entry f n hd hl, hr, hv, mixLanes, laneOf_mkLanes _ hl]
  simp only [BitVec.getLsbD_and, BitVec.getLsbD_not, hl, decide_true, Bool.true_and]
  cases m.getLsbD l <;> simp

/-- The rename entry of a register after one register of a result has become visible (R60). -/
def Wave.shownReg (x : Wave) (lw : LLWrite) (now : Nat) : Reg :=
  let old := (x.reg? lw.file lw.reg).getD ⟨.window, allLanes, List.replicate 32 0, 0, now, 0⟩
  { home := match old.home with
      | .spilled _ => if (lw.mask ||| old.released) = allLanes then .window else old.home
      | h => h
    released := old.released &&& ~~~lw.mask
    lanes := if lw.file == .scl then lw.lanes else mixLanes lw.mask old.lanes lw.lanes
    poison := old.poison &&& ~~~lw.mask
    used := now
    pend := old.pend &&& ~~~lw.mask }

/-- The wave with that entry, whose slot is gone where no lane waits in it. -/
def Wave.withShown (x : Wave) (lw : LLWrite) (now : Nat) : Wave :=
  (if (x.shownReg lw now).pend = 0 then x.leaveSlot lw.file lw.reg else x).setReg lw.file lw.reg (x.shownReg lw now)

theorem Wave.regsOnly_withShown (x : Wave) (lw : LLWrite) (now : Nat) : x.regsOnly (x.withShown lw now) := by
  refine Wave.regsOnly_trans ?_ (Wave.regsOnly_setReg ..)
  split
  · exact x.regsOnly_leaveSlot ..
  · exact x.regsOnly_refl

/-- A register that is no trap register is written in its entry, and needs a physical register (R60). -/
theorem State.showWrite_entry {s : State} {w : Nat} {x : Wave} {lw : LLWrite} (hm : lw.mask ≠ 0)
    (ht : ¬(lw.file == .vec && lw.reg ≥ 256) = true) (hx : (s.awaitSpill w lw.file lw.reg).wave? w = some x) :
    s.showWrite w lw =
      let t := (s.awaitSpill w lw.file lw.reg).setWave w (x.withShown lw (s.awaitSpill w lw.file lw.reg).tick)
      if (x.shownReg lw (s.awaitSpill w lw.file lw.reg).tick).home.phys?.isSome then t else t.needReg w lw.file lw.reg .llVisible := by
  unfold State.showWrite
  rw [if_neg hm, if_neg ht]
  dsimp only
  rw [hx]
  rfl

/-- One register of a result becomes visible (R60): its wave differs in registers alone, and a vector register reads as the result. -/
theorem State.showWrite_wave {s : State} {w : Nat} {x : Wave} (hx : s.wave? w = some x) (lw : LLWrite) :
    ∃ y, (s.showWrite w lw).wave? w = some y ∧ x.regsOnly y ∧ (lw.file = .vec → lw.reg < 256 → ∀ l, l < 32 →
      y.readsAs .vec lw.reg l = if lw.mask.getLsbD l then laneOf lw.lanes l else x.readsAs .vec lw.reg l) := by
  by_cases hm : lw.mask = 0
  · exact ⟨x, by simpa [State.showWrite, hm] using hx, x.regsOnly_refl, fun _ _ l _ => by simp [hm]⟩
  by_cases ht : (lw.file == .vec && lw.reg ≥ 256) = true
  · refine ⟨x, ?_, x.regsOnly_refl, fun _ hr => ?_⟩
    · rw [State.showWrite, if_neg hm, if_pos ht]
      exact hx
    · simp only [Bool.and_eq_true, decide_eq_true_eq] at ht
      omega
  obtain ⟨z, hz, kz⟩ := ((s.moved_awaitSpill w lw.file lw.reg).2.2.2 w).2 x hx
  rw [State.showWrite_entry hm ht hz]
  generalize (s.awaitSpill w lw.file lw.reg).tick = now
  have hset : x.regsOnly (z.withShown lw now) := Wave.regsOnly_trans (Wave.regsOnly_of_kept kz) (z.regsOnly_withShown lw now)
  have hread (hf : lw.file = .vec) (l : Nat) (hl : l < 32) : (z.withShown lw now).readsAs .vec lw.reg l =
      if lw.mask.getLsbD l then laneOf lw.lanes l else x.readsAs .vec lw.reg l := by
    rw [← Wave.readsAs_sameRegs kz.2, Wave.withShown, hf]
    exact Wave.readsAs_mixed z _ .vec lw.reg (d := ⟨.window, allLanes, List.replicate 32 0, 0, now, 0⟩) lw.mask lw.lanes rfl
      (by simp only [Wave.shownReg, hf]) (by simp only [Wave.shownReg, hf]; rfl) hl
  dsimp only
  split
  · exact ⟨_, State.wave_setWave_same .., hset, fun hf _ => hread hf⟩
  · obtain ⟨y, hy, ky⟩ := ((State.moved_needReg _ w lw.file lw.reg .llVisible).2.2.2 w).2 _ (State.wave_setWave_same ..)
    refine ⟨y, hy, Wave.regsOnly_trans hset (Wave.regsOnly_of_kept ky), fun hf _ l hl => ?_⟩
    rw [Wave.readsAs_sameRegs ky.2]
    exact hread hf l hl

/-- The registers of a result become visible one after the other. -/
theorem State.showWrites_wave {s : State} {w : Nat} {x : Wave} (hx : s.wave? w = some x) (l : List LLWrite) :
    ∃ y, (l.foldl (fun s lw => s.showWrite w lw) s).wave? w = some y ∧ x.regsOnly y := by
  induction l generalizing s x with
  | nil => exact ⟨x, hx, x.regsOnly_refl⟩
  | cons lw l ih =>
    obtain ⟨y, hy, ky, -⟩ := State.showWrite_wave hx lw
    obtain ⟨z, hz, kz⟩ := ih hy
    exact ⟨z, hz, Wave.regsOnly_trans ky kz⟩

/-- A wave of which only the outstanding results may differ, and not in number. -/
def Wave.llOnly (x y : Wave) : Prop := y = { x with ll := y.ll } ∧ y.ll.length = x.ll.length

theorem Wave.llOnly_refl (x : Wave) : x.llOnly x := ⟨rfl, rfl⟩
theorem Wave.llOnly_trans {x y z : Wave} (h : x.llOnly y) (k : y.llOnly z) : x.llOnly z :=
  ⟨by rw [k.1, h.1], k.2.trans h.2⟩
theorem Wave.llOnly_prune (x : Wave) (f : RegFile) (n : Nat) (m : Mask) : x.llOnly (x.prune f n m) := ⟨rfl, List.length_map ..⟩
theorem Wave.llOnly_pruneGrp (x : Wave) (n : Nat) : x.llOnly (x.pruneGrp n) := ⟨rfl, List.length_map ..⟩
theorem Wave.llOnly_pruneAll (x : Wave) (l : List LLWrite) :
    x.llOnly (l.foldl (fun y lw => y.prune lw.file lw.reg lw.mask) x) := by
  induction l generalizing x with
  | nil => exact x.llOnly_refl
  | cons lw l ih => exact Wave.llOnly_trans (x.llOnly_prune ..) (ih _)

theorem Wave.readsAs_llOnly {x y : Wave} (h : x.llOnly y) (f : RegFile) (n l : Nat) : y.readsAs f n l = x.readsAs f n l := by
  refine Wave.readsAs_of_reg ?_ l
  rw [h.1]
  cases f <;> rfl

/-- Without an error that ECC cannot correct, a fill brings none (R67). -/
theorem State.mergeFaults_none {s : State} (h : s.host.upsets = []) (w : Nat) (o : LLOp) : s.mergeFaults w o = 0 := by
  simp [State.mergeFaults, h]

/-- The registers and the group register of a result, written (R34, R60). -/
def State.writeResult (s : State) (w : Nat) (o : LLOp) : State :=
  let t := (sortBy (·.reg) o.writes).foldl (fun s lw => s.showWrite w lw) s
  match o.grp, t.wave? w with
  | some (n, v), some x => t.updWg x.wg fun g => { g with grp := lsetD 0 g.grp n v }
  | _, _ => t

/-- A wave that has taken the sticky bits of a result, and whose other results have lost what it wrote (R40). -/
def Wave.afterResult (x : Wave) (o : LLOp) : Wave :=
  let y := o.writes.foldl (fun y lw => y.prune lw.file lw.reg lw.mask) { x with sticky := x.sticky ||| o.sticky }
  match o.grp with
  | some (n, _) => y.pruneGrp n
  | none => y

/-- A result becomes visible where no data is uncorrectable (R39). -/
theorem State.show_clean {s : State} {o : LLOp} (hu : s.host.upsets = []) (hp : o.poison = 0) (w : Nat) :
    s.show w o = (s.writeResult w o).updWave w fun y => y.afterResult o := by
  simp only [State.show, State.mergeFaults_none hu, hp, bne_self_eq_false, Bool.false_eq_true, if_false]
  rfl

theorem Wave.llOnly_afterResult (x : Wave) (o : LLOp) : { x with sticky := x.sticky ||| o.sticky }.llOnly (x.afterResult o) := by
  have h := Wave.llOnly_pruneAll { x with sticky := x.sticky ||| o.sticky } o.writes
  unfold Wave.afterResult
  dsimp only
  split
  · exact Wave.llOnly_trans h (Wave.llOnly_pruneGrp ..)
  · exact h

/-- The results of an operation leave everything of its wave but the registers, and one for one vector register is what that reads as. -/
theorem State.writeResult_wave {s : State} {w : Nat} {x : Wave} (hx : s.wave? w = some x) (o : LLOp) :
    ∃ y, (s.writeResult w o).wave? w = some y ∧ x.regsOnly y ∧ ∀ v l, o.writes = [v] → v.file = .vec → v.reg < 256 → l < 32 →
      y.readsAs .vec v.reg l = if v.mask.getLsbD l then laneOf v.lanes l else x.readsAs .vec v.reg l := by
  obtain ⟨y, hy, ky⟩ := State.showWrites_wave hx (sortBy (·.reg) o.writes)
  refine ⟨y, ?_, ky, fun v l hv hf hr hl => ?_⟩
  · unfold State.writeResult
    dsimp only
    split
    · exact (State.wave_congr (State.updWg_waves ..) w).trans hy
    · exact hy
  · obtain ⟨z, hz, -, hread⟩ := State.showWrite_wave hx v
    rw [hv] at hy
    rw [Option.some.inj (hy.symm.trans hz), hread hf hr l hl]

/-- A result without uncorrectable data becomes visible (R39): its wave takes its sticky bits, holds as many outstanding results, and a
result for one vector register is what that reads as. -/
theorem State.show_wave {s : State} {w : Nat} {x : Wave} (hx : s.wave? w = some x) (hu : s.host.upsets = []) {o : LLOp}
    (hp : o.poison = 0) :
    ∃ y, (s.show w o).wave? w = some y ∧ y.sticky = x.sticky ||| o.sticky ∧ y.ll.length = x.ll.length ∧ y.hold = x.hold ∧
      ∀ v l, o.writes = [v] → v.file = .vec → v.reg < 256 → l < 32 →
        y.readsAs .vec v.reg l = if v.mask.getLsbD l then laneOf v.lanes l else x.readsAs .vec v.reg l := by
  obtain ⟨z, hz, kz, hread⟩ := State.writeResult_wave hx o
  obtain ⟨hrest, hlen⟩ := z.llOnly_afterResult o
  rw [State.show_clean hu hp]
  refine ⟨_, State.wave_updWave_same _ _ hz, ?_, ?_, ?_, fun v l hv hf hr hl => ?_⟩
  · rw [hrest, kz]
  · rw [hlen, kz]
  · rw [hrest, kz]
  · rw [← hread v l hv hf hr hl]
    exact Wave.readsAs_llOnly (z.llOnly_afterResult o) .vec v.reg l

/-- Result `k` of a wave becomes visible and is outstanding no more (R39, R40). -/
theorem State.showAt_wave {s : State} {w k : Nat} {x : Wave} {o : LLOp} (hx : s.wave? w = some x) (hk : x.ll[k]? = some o)
    (hu : s.host.upsets = []) (hp : o.poison = 0) :
    ∃ y, (s.showAt w k).wave? w = some y ∧ y.sticky = x.sticky ||| o.sticky ∧ y.ll.length + 1 = x.ll.length ∧ y.hold = x.hold ∧
      ∀ v l, o.writes = [v] → v.file = .vec → v.reg < 256 → l < 32 →
        y.readsAs .vec v.reg l = if v.mask.getLsbD l then laneOf v.lanes l else x.readsAs .vec v.reg l := by
  obtain ⟨y, hy, hst, hlen, hhold, hread⟩ := State.show_wave (State.wave_setWave_same s w { x with ll := x.ll.take k }) hu hp
  have hlt : k < x.ll.length := (List.getElem?_eq_some_iff.1 hk).1
  unfold State.showAt
  rw [hx]
  dsimp only
  rw [hk]
  dsimp only
  refine ⟨_, State.wave_updWave_same _ _ hy, hst, ?_, hhold, hread⟩
  rw [List.length_append, hlen, List.length_take, List.length_drop]
  omega

/-- A wave that is not held arrives nowhere (R218). -/
theorem State.arrive_free {s : State} {w : Nat} {x : Wave} (hx : s.wave? w = some x) (hh : x.hold = none) : s.arrive w = s := by
  unfold State.arrive
  rw [hx]
  dsimp only
  rw [hh]

section
variable {s : State} {w k : Nat} {x : Wave} {o : LLOp}

/-- A result that counts on a flag is complete (R38). -/
theorem exec_longLatencyComplete_flagged (hx : s.wave? w = some x) (hk : x.ll[k]? = some o) (hd : o.done = false) (ho : o.op = none)
    (hh : x.hold = none) (hf : o.flags ≠ []) :
    exec (.longLatencyComplete w k) s = .next (s.setWave w { x with ll := lset x.ll k { o with done := true } }) := by
  change execLongLatencyComplete w k s = _
  simp only [execLongLatencyComplete, hx, hk, hd, ho]
  rw [if_neg (by simp), if_neg (by simpa using hf), ← ho]
  exact congrArg Host.Outcome.next (State.arrive_free (State.wave_setWave_same ..) hh)

/-- A result that counts on no flag becomes visible at once (R39). -/
theorem exec_longLatencyComplete_shown (hx : s.wave? w = some x) (hk : x.ll[k]? = some o) (hd : o.done = false) (ho : o.op = none)
    (hf : o.flags = []) : exec (.longLatencyComplete w k) s = .next ((s.showAt w k).arrive w) := by
  change execLongLatencyComplete w k s = _
  simp only [execLongLatencyComplete, hx, hk, hd, ho, hf]
  rfl

end

/-! The end of a hold. -/

theorem Sticky.zero_or (a : Sticky) : 0 ||| a = a := BitVec.zero_or

theorem tput_tput {α : Type} (t : Table α) (n : Nat) (a b : α) : tput (tput t n a) n b = tput t n b := by
  induction t with
  | nil => simp [tput]
  | cons p t ih =>
    obtain ⟨k, v⟩ := p
    by_cases h1 : n < k
    · simp [tput, h1]
    · by_cases h2 : n = k
      · simp [tput, h2]
      · simp [tput, h1, h2, ih]

theorem State.setWave_setWave (s : State) (w : Nat) (x y : Wave) : (s.setWave w x).setWave w y = s.setWave w y := by
  simp only [State.setWave, tput_tput]

/-- A wave without its hold (R194). -/
def Wave.unheld (y : Wave) : Wave := { y with hold := none }

section
variable {s u : State} {w : Nat} {x : Issue} {h : Hold}

/-- A hold that ends retires its instruction with the sticky bits of its reads, from the state in which the wave is held no more, and the
clause goes on (R194, R53). -/
theorem State.finishHold_spec {z : Wave} (hw : u.wave? x.w = some z) (hg : u.wg? x.wave.wg = some x.wg) (hc : z.clause = some x.cl)
    (hz : z.wg = x.wave.wg ∧ z.waveId = x.wave.waveId) (hh : x.wave.hold = some h) (hl : x.cl.lanes ≠ 0) (reads : List Read)
    (rels : List Rel) (puts : List Put) (st : Sticky) :
    (u.setWave x.w z.unheld).retired (u.finishHold x reads rels puts st) { x with wave := z.unheld } rels puts (st ||| h.sticky) ∧
      (u.finishHold x reads rels puts st).wentOn x := by
  have e : u.finishHold x reads rels puts st = (u.setWave x.w z.unheld).finish x reads rels puts (st ||| h.sticky) := by
    simp only [State.finishHold, hh, State.updWave_eq _ _ hw]
    rfl
  rw [e]
  exact State.finish_after (x := x) (y := { x with wave := z.unheld }) ⟨rfl, rfl, hz⟩ (State.wave_setWave_same ..) hg hc hl ..

/-- The same where work outside the waves and the workgroups went before. -/
theorem State.finishHold_data (hi : s.issueOf w = some x) (hd : s.dataOnly u) (hh : x.wave.hold = some h) (hl : x.cl.lanes ≠ 0)
    (reads : List Read) (rels : List Rel) (puts : List Put) (st : Sticky) :
    (u.setWave x.w x.wave.unheld).retired (u.finishHold x reads rels puts st) { x with wave := x.wave.unheld } rels puts
      (st ||| h.sticky) ∧ (u.finishHold x reads rels puts st).wentOn x := by
  obtain ⟨-, hw, hc, hg⟩ := State.issueOf_spec hi
  exact State.finishHold_spec ((State.dataOnly_wave hd _).trans hw) ((State.wg_congr (State.dataOnly_wgs hd) _).trans hg) hc ⟨rfl, rfl⟩
    hh hl ..

/-- The same where the end of the hold sets no sticky bit of its own. -/
theorem State.finishHold_bare (hi : s.issueOf w = some x) (hd : s.dataOnly u) (hh : x.wave.hold = some h) (hl : x.cl.lanes ≠ 0)
    (reads : List Read) (rels : List Rel) (puts : List Put) :
    (u.setWave x.w x.wave.unheld).retired (u.finishHold x reads rels puts 0) { x with wave := x.wave.unheld } rels puts h.sticky ∧
      (u.finishHold x reads rels puts 0).wentOn x := by
  rw [← Sticky.zero_or h.sticky]
  exact State.finishHold_data hi hd hh hl ..

/-- A read of the watched word moves data alone (R277). -/
theorem State.dataOnly_settleWatch (s : State) (x : Issue) : s.dataOnly (s.settleWatch x) := by
  unfold State.settleWatch
  split
  · unfold State.watchSettle
    split
    · exact s.dataOnly_settle ..
    · exact s.dataOnly_refl
  · exact s.dataOnly_refl

/-- A wave whose MWAIT has ended with a value watches its word with that value (R225). -/
def Wave.woken (y : Wave) (v : DWord) : Wave := { y with hold := none, watch := y.watch.map fun a => { a with last := v } }

/-- An MWAIT that ends with a value retires with it in sD (R225). -/
theorem State.endMwait_spec (hi : s.issueOf w = some x) (hd : s.dataOnly u) (hh : x.wave.hold = some h) (hl : x.cl.lanes ≠ 0)
    (e : Mask) (f : M) (v : DWord) (st : Sticky) :
    (u.setWave x.w (x.wave.woken v)).retired (u.endMwait x e f v st) { x with wave := x.wave.woken v }
      (x.addrRels (.mwait f) f e) (sclPuts f v.toNat) (st ||| h.sticky) ∧ (u.endMwait x e f v st).wentOn x := by
  obtain ⟨-, hw, hc, hg⟩ := State.issueOf_spec hi
  have huw : u.wave? x.w = some x.wave := (State.dataOnly_wave hd _).trans hw
  have hug : u.wg? x.wave.wg = some x.wg := (State.wg_congr (State.dataOnly_wgs hd) _).trans hg
  have hf := State.finishHold_spec (u := u.setWave x.w { x.wave with watch := x.wave.watch.map fun a => { a with last := v } })
    (State.wave_setWave_same ..) hug hc ⟨rfl, rfl⟩ hh hl (Issue.sclReads f 1 e ++ x.addrReads (.mwait f) f e)
    (x.addrRels (.mwait f) f e) (sclPuts f v.toNat) st
  rw [State.setWave_setWave] at hf
  unfold State.endMwait
  rw [State.updWave_eq _ _ huw]
  exact hf

/-! MWAIT's timeout (R225). -/

theorem State.mwaitTimeout_some {f : M} (hi : s.issueOf w = some x) (hh : x.wave.hold = some h) (hk : h.instr = .mwait f)
    (hd : h.done = false) (hn : s.opnd x .n32 f.index 0 ≠ 0) : s.mwaitTimeout? w = some (f, h.exec) := by
  simp [State.mwaitTimeout?, hi, hh, hk, hd, hn]

/-- Without a watched word sD receives its own value. -/
theorem exec_mwaitTimeout_unwatched {f : M} {e : Mask} (ht : s.mwaitTimeout? w = some (f, e)) (hi : s.issueOf w = some x)
    (ha : x.wave.watch = none) :
    exec (.mwaitTimeout w) s = .next ((s.settleWatch x).finishHold x (Issue.sclReads f 1 e ++ x.addrReads (.mwait f) f e)
      (x.addrRels (.mwait f) f e) (sclPuts f (s.sreg x f.data.toNat).toNat) 0) := by
  change execMwaitTimeout w s = _
  simp only [execMwaitTimeout, ht, hi, ha]
  rfl

theorem exec_mwaitTimeout_bad {f : M} {e : Mask} {a : Watch} (ht : s.mwaitTimeout? w = some (f, e)) (hi : s.issueOf w = some x)
    (ha : x.wave.watch = some a) (hb : (s.settleWatch x).watchBad x.core x.wg a = true) :
    exec (.mwaitTimeout w) s = .next ((s.settleWatch x).raiseTrap x 6 a.addr e 0) := by
  change execMwaitTimeout w s = _
  simp only [execMwaitTimeout, ht, hi, ha, hb, if_true]

theorem exec_mwaitTimeout_watched {f : M} {e : Mask} {a : Watch} (ht : s.mwaitTimeout? w = some (f, e)) (hi : s.issueOf w = some x)
    (ha : x.wave.watch = some a) (hb : (s.settleWatch x).watchBad x.core x.wg a = false) :
    exec (.mwaitTimeout w) s = .next ((s.settleWatch x).endMwait x e f ((s.settleWatch x).watchLook x.core x.wg a)
      (if (s.settleWatch x).watchLook x.core x.wg a = s.sreg x f.data.toNat then 0 else (s.settleWatch x).watchAcquire x a)) := by
  change execMwaitTimeout w s = _
  simp only [execMwaitTimeout, ht, hi, ha, hb, Bool.false_eq_true, if_false]
  rfl

/-! The ends of the other holds (R194). -/

section
variable (hi : s.issueOf w = some x) (hh : x.wave.hold = some h)
include hi hh

theorem exec_holdEnd_bar {f : M} (hk : h.instr = .bar f ∨ h.instr = .barc f) (hd : h.done = true) :
    exec (.holdEnd w) s = .next (s.finishHold x [] [] (sclPuts f h.arg.toNat) 0) := by
  change execHoldEnd w s = _
  rcases hk with hk | hk <;> simp [execHoldEnd, State.holdOver, hi, hh, hk, hd]

theorem exec_holdEnd_waitq {f : M} (hk : h.instr = .waitq f) (hd : h.done = true) :
    exec (.holdEnd w) s = .next (s.finishHold x (x.addrReads (.waitq f) f h.exec) (x.addrRels (.waitq f) f h.exec)
      (sclPuts f (h.arg.toNat % 256)) (stickyIf (h.arg.toNat ≥ 256) .scopemis)) := by
  change execHoldEnd w s = _
  simp [execHoldEnd, State.holdOver, hi, hh, hk, hd]

theorem exec_holdEnd_fence {f : M} (hk : h.instr = .fence f) (hq : x.wave.quiet = true) :
    exec (.holdEnd w) s = .next ((s.perform x.core f.scope.toNat fun _ => true).finishHold x [] [] [] 0) := by
  change execHoldEnd w s = _
  simp [execHoldEnd, State.holdOver, hi, hh, hk, hq]

theorem exec_holdEnd_mwait_bad {f : M} {a : Watch} (hk : h.instr = .mwait f) (hd : h.done = true) (hb : h.bad = true)
    (ha : x.wave.watch = some a) : exec (.holdEnd w) s = .next ((s.settleWatch x).raiseTrap x 6 a.addr h.exec 0) := by
  change execHoldEnd w s = _
  simp [execHoldEnd, State.holdOver, hi, hh, hk, hd, hb, ha]

theorem exec_holdEnd_mwait {f : M} (hk : h.instr = .mwait f) (hd : h.done = true) (hb : h.bad = false) :
    exec (.holdEnd w) s = .next ((s.settleWatch x).endMwait x h.exec f h.arg 0) := by
  change execHoldEnd w s = _
  simp [execHoldEnd, State.holdOver, hi, hh, hk, hd, hb]

/-! A held WAITTL by how its timeline stands (R226). -/

theorem exec_holdEnd_waittl_waits {f : M} (hk : h.instr = .waittl f)
    (ht : (s.timeline (x.waitLine f)).heldWait (s.waitNumber x f) = .waits) : exec (.holdEnd w) s = .fault .notEnabled := by
  change execHoldEnd w s = _
  simp [execHoldEnd, State.holdOver, hi, hh, hk, ht]

theorem exec_holdEnd_waittl_fault {f : M} {n : Nat} (hk : h.instr = .waittl f)
    (ht : (s.timeline (x.waitLine f)).heldWait (s.waitNumber x f) = .fault n) :
    exec (.holdEnd w) s = .next (s.raiseTrap x 0x0F (BitVec.ofNat 64 n) h.exec 0) := by
  change execHoldEnd w s = _
  simp [execHoldEnd, State.holdOver, hi, hh, hk, ht]

theorem exec_holdEnd_waittl_done {f : M} (hk : h.instr = .waittl f)
    (ht : (s.timeline (x.waitLine f)).heldWait (s.waitNumber x f) = .done) :
    exec (.holdEnd w) s = .next (s.finishHold x (x.addrReads (.waittl f) f h.exec) (x.addrRels (.waittl f) f h.exec) [] 0) := by
  change execHoldEnd w s = _
  simp [execHoldEnd, State.holdOver, hi, hh, hk, ht]

end

/-- Until the counter has reached its number, a held WAITTL looks at no fault record (R194). -/
theorem Timeline.heldWait_waits {l : Timeline} {n : Nat} (h : l.done < n) : l.heldWait n = .waits := if_neg (by omega)

theorem Timeline.heldWait_fault {l : Timeline} {n st k : Nat} {a : DWord} (hn : n ≤ l.done) (hf : l.fault = some (st, k, a))
    (hk : k ≤ n) : l.heldWait n = .fault k := by
  simp [Timeline.heldWait, Timeline.wait, hn, hf, hk]

theorem Timeline.heldWait_done {l : Timeline} {n : Nat} (hn : n ≤ l.done) (hf : ∀ st k a, l.fault = some (st, k, a) → n < k) :
    l.heldWait n = .done := by
  rw [Timeline.heldWait, if_pos hn, Timeline.wait]
  cases e : l.fault with
  | none => exact if_pos hn
  | some r => exact (if_neg (by have := hf _ _ _ e; omega)).trans (if_pos hn)

end

end Sys2Proof.Machine

open Sys2Proof.Machine in
/-- Settles O53: the end of a spill write, a result that becomes visible, and a hold that ends, each by its own lemma. -/
theorem registerEvents : Obligations.RegisterEvents := by
  refine ⟨fun c r s v hs => ?_, fun c r s => exec_fillComplete, fun w k s x o hx hk hd ho hh => ⟨?_, ?_⟩,
    fun w s x f h hi hh hk hd hl hn => ?_, fun w s x h hi hh hl => ⟨?_, ?_, ?_, ?_, ?_, fun f hk => ⟨?_, fun hn => ⟨?_, ?_⟩⟩⟩⟩
  · obtain ⟨u, hu, hpool, hreg⟩ := State.endSpill_spec hs
    exact ⟨u, by rw [exec_spillWriteComplete hs, hu], hpool, hreg⟩
  · exact exec_longLatencyComplete_flagged hx hk hd ho hh
  · intro hf hu hp
    obtain ⟨y, hy, hst, hlen, hhold, hread⟩ := State.showAt_wave hx hk hu hp
    refine ⟨_, y, exec_longLatencyComplete_shown hx hk hd ho hf, ?_, hst, hlen, hread⟩
    rw [State.arrive_free hy (hhold.trans hh)]
    exact hy
  · have ht := State.mwaitTimeout_some hi hh hk hd hn
    have hdata := s.dataOnly_settleWatch x
    refine ⟨fun ha => ⟨_, exec_mwaitTimeout_unwatched ht hi ha, State.finishHold_data hi hdata hh hl ..⟩,
      fun a ha => ⟨exec_mwaitTimeout_bad ht hi ha, fun hb => ⟨_, exec_mwaitTimeout_watched ht hi ha hb, ?_⟩⟩⟩
    have he := State.endMwait_spec hi hdata hh hl h.exec f ((s.settleWatch x).watchLook x.core x.wg a)
      (if (s.settleWatch x).watchLook x.core x.wg a = s.sreg x f.data.toNat then 0 else (s.settleWatch x).watchAcquire x a)
    rw [Wave.woken, ha] at he
    exact he
  · exact fun f hk hd => ⟨_, exec_holdEnd_bar hi hh hk hd, State.finishHold_bare hi s.dataOnly_refl hh hl ..⟩
  · exact fun f hk hd => ⟨_, exec_holdEnd_waitq hi hh hk hd, State.finishHold_data hi s.dataOnly_refl hh hl ..⟩
  · exact fun f hk hq => ⟨_, exec_holdEnd_fence hi hh hk hq, State.finishHold_bare hi (s.dataOnly_perform ..) hh hl ..⟩
  · exact fun f a hk hd hb ha => exec_holdEnd_mwait_bad hi hh hk hd hb ha
  · intro f hk hd hb
    have he := State.endMwait_spec hi (s.dataOnly_settleWatch x) hh hl h.exec f h.arg 0
    rw [Sticky.zero_or] at he
    exact ⟨_, exec_holdEnd_mwait hi hh hk hd hb, he⟩
  · exact fun ht => exec_holdEnd_waittl_waits hi hh hk (Timeline.heldWait_waits ht)
  · exact fun st k a hf hle => exec_holdEnd_waittl_fault hi hh hk (Timeline.heldWait_fault hn hf hle)
  · exact fun hf => ⟨_, exec_holdEnd_waittl_done hi hh hk (Timeline.heldWait_done hn hf),
      State.finishHold_bare hi s.dataOnly_refl hh hl ..⟩
end

section
/-! PROOFS. O1 to O3: the fields of a word side by side (spec/03 R78 to R85), each format's round trip, and the opcode in front. -/

namespace Sys2Proof
open Sys2Proof.Laws

/-! Neighbouring fields of a word. -/

/-- Two fields side by side are one field. -/
theorem bitsOf_join (w lo m n : Nat) :
    bitsOf w (lo + m) n * 2 ^ (lo + m) + bitsOf w lo m * 2 ^ lo = bitsOf w lo (m + n) * 2 ^ lo := by
  have h : w / 2 ^ lo % 2 ^ (m + n) = w / 2 ^ lo % 2 ^ m + 2 ^ m * (w / 2 ^ (lo + m) % 2 ^ n) := by
    rw [Nat.pow_add, Nat.mod_mul, Nat.pow_add, Nat.div_div_eq_div_mul]
  rw [bitsOf, bitsOf, bitsOf, h, Nat.add_mul, Nat.pow_add, Nat.add_comm, Nat.mul_comm (2 ^ m), Nat.mul_assoc, Nat.mul_comm (2 ^ m)]

/-- The lowest field completes a word. -/
theorem bitsOf_join_zero (w m n : Nat) : bitsOf w m n * 2 ^ m + bitsOf w 0 m = w % 2 ^ (m + n) := by
  have h := bitsOf_join w 0 m n
  simpa [bitsOf] using h

theorem bitsOf_lt (w lo n : Nat) : bitsOf w lo n < 2 ^ n := Nat.mod_lt _ (Nat.two_pow_pos n)

theorem bitsOf_two_cases (w lo : Nat) : bitsOf w lo 2 = 0 ∨ bitsOf w lo 2 = 1 ∨ bitsOf w lo 2 = 2 ∨ bitsOf w lo 2 = 3 := by
  have := bitsOf_lt w lo 2
  omega

@[simp] theorem toNat_fld (w lo n : Nat) : (fld w lo n).toNat = bitsOf w lo n := rfl

@[simp] theorem bit1_bitOf (w k : Nat) : bit1 (bitOf w k) = bitsOf w k 1 := by
  rcases Nat.mod_two_eq_zero_or_one (w / 2 ^ k) with h | h <;> simp [bit1, bitOf, bitsOf, h]

theorem bit1_inj {a b : Bool} : bit1 a = bit1 b ↔ a = b := by cases a <;> cases b <;> decide

/-! The parts that formats share: the number that each is in a word. -/

/-- The guard nibble (R78). -/
def Guard.code (g : Guard) : Nat := bit1 g.neg * 2 ^ 3 + g.p.toNat

/-- The kind of a source field in its two bits (R85). -/
def SrcKind.code : SrcKind → Nat | .vec => 0 | .scl => 1 | .grp => 2 | .con => 3

/-- The eleven bits of a source field (R85). -/
def Src.code (x : Src) : Nat := x.kind.code * 2 ^ 9 + bit1 x.last * 2 ^ 8 + x.num.toNat

/-- The kind of a VR destination in its two bits (R79). -/
def DstKind.code : DstKind → Nat | .vec => 0 | .scl => 1 | .grp => 2 | .pred => 3

theorem encGuard_code (g : Guard) : encGuard g = g.code * 2 ^ 52 := by
  unfold encGuard Guard.code
  omega

theorem encSrc_fields (x : Src) (lo : Nat) :
    encSrc x lo = x.kind.code * 2 ^ (lo + 9) + bit1 x.last * 2 ^ (lo + 8) + x.num.toNat * 2 ^ lo := rfl

theorem encSrc_code (x : Src) (lo : Nat) : encSrc x lo = x.code * 2 ^ lo := by
  simp only [encSrc_fields, Src.code, Nat.pow_add, Nat.add_mul, Nat.mul_assoc, Nat.mul_comm (2 ^ lo)]

theorem encVR_code (f : VR) : encVR f = f.g.code * 2 ^ 52 + f.dk.code * 2 ^ 50 + f.dst.toNat * 2 ^ 42 + f.a.code * 2 ^ 31 +
    f.b.code * 2 ^ 20 + f.c.code * 2 ^ 9 + tyCode f.ty * 2 ^ 5 + rndCode f.rnd * 2 ^ 3 + bit1 f.sat * 2 ^ 2 + f.sub.toNat := by
  simp only [← encGuard_code, ← encSrc_code]
  rfl

/-! Different parts have different codes, of the size of their places. -/

theorem SrcKind.code_inj {k l : SrcKind} : k.code = l.code ↔ k = l := by cases k <;> cases l <;> decide
theorem DstKind.code_inj {k l : DstKind} : k.code = l.code ↔ k = l := by cases k <;> cases l <;> decide
theorem DstKind.code_lt (k : DstKind) : k.code < 4 := by cases k <;> decide
theorem rndCode_inj {a b : Rnd} : rndCode a = rndCode b ↔ a = b := by cases a <;> cases b <;> decide
theorem tyOfNat_tyCode (t : Ty) : tyOfNat (tyCode t) = t := by cases t <;> rfl
theorem tyCode_inj {a b : Ty} : tyCode a = tyCode b ↔ a = b := (Function.LeftInverse.injective tyOfNat_tyCode).eq_iff

theorem Guard.code_inj {g h : Guard} : g.code = h.code ↔ g = h := by
  refine ⟨fun e => ?_, congrArg _⟩
  cases g
  cases h
  simp only [code] at e
  simp only [Guard.mk.injEq, ← bit1_inj, ← BitVec.toNat_inj]
  omega

theorem Src.code_lt (x : Src) : x.code < 2 ^ 11 := by
  have h := encSrc_lt x 0
  rw [encSrc_code] at h
  omega

theorem Src.code_inj {x y : Src} : x.code = y.code ↔ x = y := by
  refine ⟨fun e => ?_, congrArg _⟩
  have hx := bit1_le x.last
  have hy := bit1_le y.last
  cases x
  cases y
  simp only [code] at e hx hy
  simp only [Src.mk.injEq, ← SrcKind.code_inj, ← bit1_inj, ← BitVec.toNat_inj]
  omega

/-! The code of a decoded part is what stands in its place. -/

@[simp] theorem code_decGuard (w : Nat) : (decGuard w).code = bitsOf w 52 4 := by
  have h : bitsOf w 55 1 * 2 ^ 55 + bitsOf w 52 3 * 2 ^ 52 = bitsOf w 52 4 * 2 ^ 52 := bitsOf_join w 52 3 1
  simp only [Guard.code, decGuard, toNat_fld, bit1_bitOf]
  omega

theorem code_kind_decSrc (w lo : Nat) : (decSrc w lo).kind.code = bitsOf w (lo + 9) 2 := by
  unfold decSrc
  rcases bitsOf_two_cases w (lo + 9) with h | h | h | h <;> rw [h] <;> rfl

@[simp] theorem code_decSrc (w lo : Nat) : (decSrc w lo).code = bitsOf w lo 11 := by
  refine Nat.eq_of_mul_eq_mul_right (Nat.two_pow_pos lo) ?_
  rw [← bitsOf_join w lo 8 3, ← bitsOf_join w (lo + 8) 1 2, ← encSrc_code, encSrc_fields, code_kind_decSrc]
  simp only [decSrc, toNat_fld, bit1_bitOf]

@[simp] theorem code_dk_decVR (w : Nat) : (decVR w).dk.code = bitsOf w 50 2 := by
  unfold decVR
  rcases bitsOf_two_cases w 50 with h | h | h | h <;> simp only [h] <;> rfl

@[simp] theorem rndCode_rndOfNat (w lo : Nat) : rndCode (rndOfNat (bitsOf w lo 2)) = bitsOf w lo 2 := by
  rcases bitsOf_two_cases w lo with h | h | h | h <;> rw [h] <;> rfl

theorem tyCode_tyOfNat : ∀ n < 16, tyCode (tyOfNat n) = n := by decide

/-! Each format: its decoded fields, joined from the highest on, are the word below the opcode. -/

theorem encB_decB (w : Nat) : encB (decB w) = w % 2 ^ 56 := by
  have h := bitsOf_join w
  simp only [encB, encGuard_code, decB, code_decGuard, toNat_fld, bit1_bitOf]
  rw [h 44 8 4, h 43 1 12, h 32 11 13, bitsOf_join_zero]

theorem encS_decS (w : Nat) : encS (decS w) = w % 2 ^ 56 := by
  have h := bitsOf_join w
  simp only [encS, encGuard_code, encSrc_code, decS, code_decGuard, code_decSrc, toNat_fld]
  rw [h 44 8 4, h 33 11 12, h 20 13 23, bitsOf_join_zero]

theorem encVI_decVI (w : Nat) : encVI (decVI w) = w % 2 ^ 56 := by
  have h := bitsOf_join w
  simp only [encVI, encGuard_code, decVI, code_decGuard, toNat_fld]
  rw [h 44 8 4, h 33 11 12, h 32 1 23, bitsOf_join_zero]

theorem encE_decE (w : Nat) : encE (decE w) = w % 2 ^ 56 := by
  have h := bitsOf_join w
  simp only [encE, encGuard_code, decE, code_decGuard, toNat_fld, bit1_bitOf]
  rw [h 46 6 4, h 45 1 10, h 42 3 11, h 30 12 14, h 16 14 26, bitsOf_join_zero]

theorem encM_decM (w : Nat) : encM (decM w) = w % 2 ^ 56 := by
  have h := bitsOf_join w
  simp only [encM, encGuard_code, encSrc_code, decM, code_decGuard, code_decSrc, toNat_fld, bit1_bitOf]
  rw [h 44 8 4, h 43 1 12, h 32 11 13, h 21 11 24, h 17 4 35, h 14 3 39, h 12 2 42, h 10 2 44, bitsOf_join_zero]

theorem encVR_decVR (w : Nat) : encVR (decVR w) = w % 2 ^ 56 := by
  have h := bitsOf_join w
  rw [encVR_code, code_dk_decVR]
  simp only [decVR, code_decGuard, code_decSrc, toNat_fld, bit1_bitOf, rndCode_rndOfNat, tyCode_tyOfNat _ (bitsOf_lt w 5 4)]
  rw [h 50 2 4, h 42 8 6, h 31 11 14, h 20 11 25, h 9 11 36, h 5 4 47, h 3 2 51, h 2 1 53, bitsOf_join_zero]

/-! Each format: no field reaches into another's place, so that different fields are encoded differently. -/

theorem encB_injective : Function.Injective encB := by
  intro f f' h
  have := bit1_le f.last
  have := bit1_le f'.last
  cases f
  cases f'
  simp only [encB, encGuard_code, B.mk.injEq, ← Guard.code_inj, ← bit1_inj, ← BitVec.toNat_inj] at *
  omega

theorem encS_injective : Function.Injective encS := by
  intro f f' h
  have := f.a.code_lt
  have := f'.a.code_lt
  cases f
  cases f'
  simp only [encS, encGuard_code, encSrc_code, S.mk.injEq, ← Guard.code_inj, ← Src.code_inj, ← BitVec.toNat_inj] at *
  omega

theorem encVI_injective : Function.Injective encVI := by
  intro f f' h
  cases f
  cases f'
  simp only [encVI, encGuard_code, VI.mk.injEq, ← Guard.code_inj, ← BitVec.toNat_inj] at *
  omega

theorem encE_injective : Function.Injective encE := by
  intro f f' h
  have := bit1_le f.last
  have := bit1_le f'.last
  cases f
  cases f'
  simp only [encE, encGuard_code, E.mk.injEq, ← Guard.code_inj, ← bit1_inj, ← BitVec.toNat_inj] at *
  omega

theorem encM_injective : Function.Injective encM := by
  intro f f' h
  have lt (f : M) : bit1 f.last ≤ 1 ∧ f.base.code < 2 ^ 11 ∧ f.index.code < 2 ^ 11 :=
    ⟨bit1_le _, f.base.code_lt, f.index.code_lt⟩
  have := lt f
  have := lt f'
  cases f
  cases f'
  simp only [encM, encGuard_code, encSrc_code, M.mk.injEq, ← Guard.code_inj, ← Src.code_inj, ← bit1_inj,
    ← BitVec.toNat_inj] at *
  omega

theorem encVR_injective : Function.Injective encVR := by
  intro f f' h
  have lt (f : VR) : f.dk.code < 4 ∧ f.a.code < 2 ^ 11 ∧ f.b.code < 2 ^ 11 ∧ f.c.code < 2 ^ 11 ∧ tyCode f.ty < 16 ∧
      rndCode f.rnd < 4 ∧ bit1 f.sat ≤ 1 :=
    ⟨f.dk.code_lt, f.a.code_lt, f.b.code_lt, f.c.code_lt, tyCode_lt _, rndCode_lt _, bit1_le _⟩
  have := lt f
  have := lt f'
  cases f
  cases f'
  simp only [encVR_code, VR.mk.injEq, ← Guard.code_inj, ← Src.code_inj, ← DstKind.code_inj, ← tyCode_inj, ← rndCode_inj,
    ← bit1_inj, ← BitVec.toNat_inj] at *
  omega

/-! Each format: the fields of a word are those that encode to its low 56 bits. -/

/-- An injective encoder that gives back the low 56 bits of every word decides its decoder. -/
theorem dec_eq_iff {α : Type} {enc : α → Nat} {dec : Nat → α} (hi : Function.Injective enc)
    (hd : ∀ w, enc (dec w) = w % 2 ^ 56) {w : Nat} {f : α} : dec w = f ↔ enc f = w % 2 ^ 56 := by
  rw [← hi.eq_iff, hd, eq_comm]

theorem decB_eq_iff {w : Nat} {f : B} : decB w = f ↔ encB f = w % 2 ^ 56 := dec_eq_iff encB_injective encB_decB
theorem decS_eq_iff {w : Nat} {f : S} : decS w = f ↔ encS f = w % 2 ^ 56 := dec_eq_iff encS_injective encS_decS
theorem decVI_eq_iff {w : Nat} {f : VI} : decVI w = f ↔ encVI f = w % 2 ^ 56 := dec_eq_iff encVI_injective encVI_decVI
theorem decE_eq_iff {w : Nat} {f : E} : decE w = f ↔ encE f = w % 2 ^ 56 := dec_eq_iff encE_injective encE_decE
theorem decM_eq_iff {w : Nat} {f : M} : decM w = f ↔ encM f = w % 2 ^ 56 := dec_eq_iff encM_injective encM_decM
theorem decVR_eq_iff {w : Nat} {f : VR} : decVR w = f ↔ encVR f = w % 2 ^ 56 := dec_eq_iff encVR_injective encVR_decVR

/-! The opcode fixes the format (R78, R89). -/

/-- Over the opcodes of the table: what an opcode decodes to has that opcode. -/
theorem encodeParts_of_decodeOp {op w : Nat} {i : Instr} (h : decodeOp op w = some i) :
    encodeParts i = some (op, w % 2 ^ 56) := by
  unfold decodeOp at h
  split at h
  all_goals cases h
  all_goals simp only [encodeParts, encB_decB, encS_decS, encVI_decVI, encM_decM, encE_decE, encVR_decVR]

/-- Over the instructions, since an event has no word: an instruction is what its opcode decodes to. -/
theorem decodeOp_of_encodeParts {op w : Nat} {i : Instr} (h : encodeParts i = some (op, w % 2 ^ 56)) :
    decodeOp op w = some i := by
  cases i
  all_goals simp only [encodeParts, Option.some.injEq, Prod.mk.injEq, reduceCtorEq] at h
  all_goals
    obtain ⟨rfl, hf⟩ := h
    change some _ = _
    simp [decB_eq_iff, decS_eq_iff, decVI_eq_iff, decM_eq_iff, decE_eq_iff, decVR_eq_iff, hf]

theorem encodeParts_lt {i : Instr} {op r : Nat} (h : encodeParts i = some (op, r)) : op < 256 ∧ r < 2 ^ 56 := by
  cases i
  all_goals cases h
  all_goals simp only [encB_lt, encS_lt, encVI_lt, encM_lt, encE_lt, encVR_lt, Nat.reduceLT, and_self]

/-! Words. -/

/-- A word decodes to the instruction of its bits [63:56] and [55:0]. -/
theorem decode_eq_ok_iff {w : DWord} {i : Instr} :
    decode w = .ok i ↔ encodeParts i = some (w.toNat / 2 ^ 56, w.toNat % 2 ^ 56) := by
  refine Iff.trans ?_ ⟨encodeParts_of_decodeOp, decodeOp_of_encodeParts⟩
  unfold decode
  cases decodeOp (w.toNat / 2 ^ 56) w.toNat <;> simp

/-- A word encodes the instruction of its bits [63:56] and [55:0]. -/
theorem encode_eq_iff {w : DWord} {i : Instr} :
    encode i = [w] ↔ encodeParts i = some (w.toNat / 2 ^ 56, w.toNat % 2 ^ 56) := by
  unfold encode
  cases h : encodeParts i with
  | none => simp
  | some p =>
    obtain ⟨op, r⟩ := p
    obtain ⟨hop, hr⟩ := encodeParts_lt h
    simp only [List.cons.injEq, and_true, Option.some.injEq, Prod.mk.injEq, ← BitVec.toNat_inj, BitVec.toNat_ofNat]
    omega

/-- The decoder and the encoder are inverse to each other. -/
theorem decode_iff_encode {w : DWord} {i : Instr} : decode w = .ok i ↔ encode i = [w] :=
  decode_eq_ok_iff.trans encode_eq_iff.symm

end Sys2Proof

open Sys2Proof in
/-- Settles O2: the encoding's word has the instruction's opcode and, below it, its fields. -/
theorem decodeEncode : Obligations.DecodeEncode := fun _ _ h => decode_iff_encode.2 h

open Sys2Proof in
/-- Settles O3: the fields that a word decodes to take up all its bits. -/
theorem encodeDecode : Obligations.EncodeDecode := fun _ _ h => decode_iff_encode.1 h

/-- Settles O1: each word decodes by computation. -/
theorem specWordsDecode : Obligations.SpecWordsDecode := ⟨rfl, rfl, rfl, rfl, rfl, rfl, rfl, rfl⟩
end

section
/-! PROOFS. O4 UnassignedOpcodes: the words that do not decode and where they are reached, and a header's tag in a clause of another
class (spec/03 R90). -/

namespace Sys2Proof.Machine

/-! Unassigned opcodes. -/

/-- Whether an opcode decodes does not rest on the rest of the word. -/
theorem isNone_decodeOp (op w : Nat) : (decodeOp op w).isNone = (decodeOp op 0).isNone := by
  unfold decodeOp
  split <;> rfl

/-- The ranges of R90 are the opcodes that do not decode. -/
theorem unassigned_eq_isNone {op : Nat} (h : op < 256) (w : Nat) : unassigned op = (decodeOp op w).isNone := by
  have table : ∀ op < 256, unassigned op = (decodeOp op 0).isNone := by decide +kernel
  rw [isNone_decodeOp, table op h]

theorem decode_error_iff {w : DWord} : (∃ e, decode w = .error e) ↔ (decodeOp (w.toNat / 2 ^ 56) w.toNat).isNone = true := by
  unfold decode
  cases decodeOp (w.toNat / 2 ^ 56) w.toNat <;> simp

theorem unassigned_iff_error (w : DWord) : unassigned (w.toNat / 2 ^ 56) = true ↔ ∃ e, decode w = .error e := by
  rw [decode_error_iff, unassigned_eq_isNone (by omega)]

/-- A next word that does not decode raises ILLEGAL_OP once its fetch is served, be it kept, fetched or of an expansion (R22, R77,
R90, R190). -/
theorem State.nextWord_undecoded {s : State} {q : Nat} {x : Issue} {word : DWord} {e : DecodeError} (h : s.issues q x word)
    (hd : decode word = .error e) : s.nextWord q = .done ((s.served q x).raiseTrap x 1 0 x.cl.lanes 0) := by
  obtain ⟨-, ha, hx, hn⟩ := h
  unfold State.nextIs at hn
  simp only [State.nextWord, State.served, ha, hx]
  cases hm : x.cl.mac with
  | some m =>
    simp only [hm] at hn
    simp only [hn, hd]
  | none =>
    simp only [hm] at hn
    cases hb : (s.seq q).body with
    | cons k l =>
      simp only [hb] at hn
      simp only [hn, hd]
    | nil =>
      simp only [hb] at hn
      obtain ⟨l, hl, hf⟩ := State.fetch_holdsWord hn.1 hn.2
      simp only [Issue.wordVa] at hl hf
      simp only [Issue.core, Issue.wordVa, hl, hf, hd]

/-! A header's tag in an instruction's place. -/

theorem opcodeOf_decode {w : DWord} {i : Instr} (h : decode w = .ok i) : opcodeOf i = w.toNat / 2 ^ 56 := by
  rw [opcodeOf, decode_eq_ok_iff.1 h]

theorem opcode_of_hdrTagOk {w : DWord} (h : hdrTagOk w = true) : 0xA0 ≤ w.toNat / 2 ^ 56 ∧ w.toNat / 2 ^ 56 ≤ 0xAF := by
  simp only [hdrTagOk, DWord.fld, bitsOf, beq_iff_eq] at h
  omega

theorem opClass_sync {op : Nat} (hlo : 0xA0 ≤ op) (hhi : op ≤ 0xAF) : opClass op = 1 := by
  rw [opClass, if_neg (by omega), if_neg (by omega), if_pos hhi]

/-- An instruction in the wrong place raises ILLEGAL_OP, whatever it does elsewhere (R76 step 4). -/
theorem State.run_misplaced {s : State} {i : Instr} {x : Issue} (h : s.issue? = some x) (hp : s.positionOk x i = false)
    (g : Guard) (body : Issue → Mask → State) : s.run i g body = .next (s.raiseTrap x 1 0 x.cl.lanes 0) := by
  simp [State.run, h, hp]

/-- Outside an expansion only a control instruction stands in a clause of another class (R75). -/
theorem State.positionOk_otherClass {s : State} {x : Issue} {i : Instr} (hm : x.cl.mac = none) (h3 : opClass (opcodeOf i) ≠ 3)
    (hc : opClass (opcodeOf i) ≠ x.cl.cls) : s.positionOk x i = false := by
  simp [State.positionOk, hm, h3, hc]

/-- The opcodes 0xA0 to 0xAF are instructions that a wave issues, or unassigned. -/
theorem exec_sync_run {op w : Nat} {i : Instr} (h : decodeOp op w = some i) (hlo : 0xA0 ≤ op) (hhi : op ≤ 0xAF) (s : State) :
    ∃ g body, exec i s = s.run i g body := by
  have hop : op = 0xA0 ∨ op = 0xA1 ∨ op = 0xA2 ∨ op = 0xA3 ∨ op = 0xA4 ∨ op = 0xA5 ∨ op = 0xA6 ∨ op = 0xA7 ∨ op = 0xA8 ∨
      op = 0xA9 ∨ op = 0xAA ∨ op = 0xAB ∨ op = 0xAC ∨ op = 0xAD ∨ op = 0xAE ∨ op = 0xAF := by omega
  rcases hop with rfl | rfl | rfl | rfl | rfl | rfl | rfl | rfl | rfl | rfl | rfl | rfl | rfl | rfl | rfl | rfl
  all_goals cases h
  all_goals
    simp only [exec, execBar, execBarc, execFence, execSyacq, execSyrel, execSybind, execMwatch, execMwait, execWaittl, execOrdw,
      execOrda, execWaitq, execQopen, execQclose]
    exact ⟨_, _, rfl⟩

end Sys2Proof.Machine

open Sys2Proof Sys2Proof.Machine in
/-- Settles O4: a step of a sequencer whose next word does not decode ends with its trap; a header's tag is an opcode of class 1. -/
theorem unassignedOpcodes : Obligations.UnassignedOpcodes := by
  refine ⟨unassigned_iff_error, fun s q x word h hu => ?_, fun s x w i hx hm ht hd => ?_⟩
  · obtain ⟨e, he⟩ := (unassigned_iff_error word).1 hu
    exact step_waits h.1 (State.nextWord_undecoded h he)
  · obtain ⟨hlo, hhi⟩ := opcode_of_hdrTagOk ht
    have hop := opcodeOf_decode hd
    refine ⟨hop ▸ hlo, hop ▸ hhi, fun hc => ?_⟩
    have hk : opClass (opcodeOf i) = 1 := hop ▸ opClass_sync hlo hhi
    obtain ⟨g, body, hrun⟩ := exec_sync_run (decodeOp_of_encodeParts (decode_eq_ok_iff.1 hd)) hlo hhi s
    rw [hrun, State.run_misplaced hx (State.positionOk_otherClass hm (by omega) (by omega))]
end

section
/-! PROOFS. O13 FloatArithmetic: a VR-format instruction that retires by its plan, the bits of the elements of a lane (spec/04 R107),
the sign operations (spec/05 R143), and the classes (R145). -/

namespace Sys2Proof.Machine

/-- An instruction that runs as a VR-format instruction by a plan retires by it (R127). -/
theorem VrRetires.of_exec {i : Instr} {f : VR} {plan : State → Issue → Mask → Plan}
    (he : ∀ s, exec i s = s.vr i f false plan) : VrRetires i f plan := fun s _ h hc =>
  ⟨_, (he s).trans (State.vr_retires h hc), State.finish_issue h _ _ _ _⟩

/-! The elements of a lane (R107). -/

theorem bitsOf_zero (x n : Nat) : bitsOf x 0 n = x % 2 ^ n := by rw [bitsOf, Nat.pow_zero, Nat.div_one]

theorem testBit_bitsOf (x lo n k : Nat) : (bitsOf x lo n).testBit k = (decide (k < n) && x.testBit (k + lo)) := by
  rw [bitsOf, Nat.testBit_mod_two_pow, Nat.testBit_div_two_pow]

section
variable {t : Ty} {m : Fmt}

/-- A type that is not packed holds one element, in its low bits. -/
theorem perElem3_single (hf : fmtOf t = some m) (hp : isPacked t = false) (fn : Fmt → Nat → Nat → Nat → Nat × Sticky)
    (a b c : Nat) :
    let w := 1 + m.eb + m.fb
    perElem3 t fn a b c = fn m (bitsOf a 0 w) (bitsOf b 0 w) (bitsOf c 0 w) := by
  simp only [perElem3, hf, hp, Bool.false_eq_true, if_false]

theorem width_of_packed (hf : fmtOf t = some m) (hp : isPacked t = true) : m.eb + m.fb = 15 := by
  have ht : t = .f16x2 ∨ t = .bf16x2 := by simpa [isPacked] using hp
  rcases ht with rfl | rfl <;> cases hf <;> rfl

/-- An operation on the elements of its first operand that sets no bit sets none in any type. -/
theorem perElem3_quiet (t : Ty) (g : Fmt → Nat → Nat) (a b c : Nat) : (perElem3 t (fun m x _ _ => (g m x, 0)) a b c).2 = 0 := by
  cases hf : fmtOf t with
  | none => simp only [perElem3, hf]
  | some m => cases hp : isPacked t <;> simp [perElem3, hf, hp]

/-- Bit k of a packed result is bit k mod 16 of the operation on half k / 16. -/
theorem testBit_perElem3_packed (hf : fmtOf t = some m) (hp : isPacked t = true) {g : Fmt → Nat → Nat}
    (hg : ∀ x < 2 ^ 16, g m x < 2 ^ 16) (a b c : Nat) {k : Nat} (hk : k < 32) :
    (perElem3 t (fun m x _ _ => (g m x, 0)) a b c).1.testBit k = (g m (bitsOf a (k / 16 * 16) 16)).testBit (k % 16) := by
  have hw : 1 + m.eb + m.fb = 16 := by have := width_of_packed hf hp; omega
  have hv : (perElem3 t (fun m x _ _ => (g m x, 0)) a b c).1 = 2 ^ 16 * g m (bitsOf a 16 16) + g m (bitsOf a 0 16) := by
    simp [perElem3, hf, hp, hw, Nat.mul_comm]
  rw [hv, Nat.testBit_two_pow_mul_add _ (hg _ (bitsOf_lt a 0 16))]
  split
  next h => rw [Nat.div_eq_of_lt h, Nat.mod_eq_of_lt h, Nat.zero_mul]
  next h => rw [show k / 16 = 1 by omega, show k % 16 = k - 16 by omega, Nat.one_mul]

/-- Each bit of a lane is a bit of the half in which it stands. -/
theorem testBit_bitsOf_half (a k : Nat) : (bitsOf a (k / 16 * 16) 16).testBit (k % 16) = a.testBit k := by
  rw [testBit_bitsOf, decide_eq_true (Nat.mod_lt k (by decide)), Bool.true_and, Nat.mod_add_div']

end

/-! FABS and FNEG: the sign is the top bit of an element (R143). -/

theorem testBit_clearSign (m : Fmt) (x k : Nat) : (x % m.signBit).testBit k = (decide (k < m.eb + m.fb) && x.testBit k) := by
  rw [Fmt.signBit, Nat.testBit_mod_two_pow]

theorem testBit_flipSign (m : Fmt) (x k : Nat) : (x ^^^ m.signBit).testBit k = ((k == m.eb + m.fb) != x.testBit k) := by
  have hk : decide (m.eb + m.fb = k) = (k == m.eb + m.fb) := by rw [BEq.comm, Bool.beq_eq_decide_eq]
  calc (x ^^^ m.signBit).testBit k
    _ = (x.testBit k ^^ decide (m.eb + m.fb = k)) := by rw [Nat.testBit_xor, Fmt.signBit, Nat.testBit_two_pow]
    _ = (decide (m.eb + m.fb = k) ^^ x.testBit k) := Bool.xor_comm ..
    _ = ((k == m.eb + m.fb) != x.testBit k) := congrArg (· != x.testBit k) hk

section
variable {f : VR} {m : Fmt}

theorem testBit_aluFabs_single (hf : fmtOf f.ty = some m) (hp : isPacked f.ty = false) (a b c k : Nat) :
    (aluFabs f a b c).1.testBit k = (decide (k < m.eb + m.fb) && a.testBit k) := by
  rw [aluFabs, perElem3_single hf hp, testBit_clearSign, testBit_bitsOf]
  by_cases hk : k < m.eb + m.fb
  · simp [hk, show k < 1 + m.eb + m.fb by omega]
  · simp [hk]

theorem testBit_aluFneg_single (hf : fmtOf f.ty = some m) (hp : isPacked f.ty = false) (a b c k : Nat) :
    (aluFneg f a b c).1.testBit k = (decide (k < 1 + m.eb + m.fb) && ((k == m.eb + m.fb) != a.testBit k)) := by
  rw [aluFneg, perElem3_single hf hp, testBit_flipSign, testBit_bitsOf]
  by_cases hk : k < 1 + m.eb + m.fb
  · simp [hk]
  · simp [hk, show k ≠ m.eb + m.fb by omega]

theorem testBit_aluFabs_packed (hf : fmtOf f.ty = some m) (hp : isPacked f.ty = true) (a b c : Nat) {k : Nat} (hk : k < 32) :
    (aluFabs f a b c).1.testBit k = (k % 16 != 15 && a.testBit k) := by
  have hw := width_of_packed hf hp
  have hlt (x : Nat) (hx : x < 2 ^ 16) : x % m.signBit < 2 ^ 16 := Nat.lt_of_le_of_lt (Nat.mod_le ..) hx
  have htop : decide (k % 16 < 15) = (k % 16 != 15) := by rw [Bool.eq_iff_iff]; simp; omega
  rw [aluFabs, testBit_perElem3_packed (g := fun m x => x % m.signBit) hf hp hlt a b c hk, testBit_clearSign, hw,
    testBit_bitsOf_half, htop]

theorem testBit_aluFneg_packed (hf : fmtOf f.ty = some m) (hp : isPacked f.ty = true) (a b c : Nat) {k : Nat} (hk : k < 32) :
    (aluFneg f a b c).1.testBit k = ((k % 16 == 15) != a.testBit k) := by
  have hw := width_of_packed hf hp
  have hlt (x : Nat) (hx : x < 2 ^ 16) : x ^^^ m.signBit < 2 ^ 16 :=
    Nat.xor_lt_two_pow hx (by rw [Fmt.signBit, hw]; decide)
  rw [aluFneg, testBit_perElem3_packed (g := fun m x => x ^^^ m.signBit) hf hp hlt a b c hk, testBit_flipSign, hw,
    testBit_bitsOf_half]

/-! FCLASS by the class of its element (R145). -/

variable {x : Nat} {neg : Bool}

theorem fClass_nan {sig : Bool} (h : decodeFloat m x = .nan sig) : fClass m x = if sig then 1 else 2 := by
  rw [fClass, h]; cases sig <;> rfl
theorem fClass_inf (h : decodeFloat m x = .inf neg) : fClass m x = if neg then 4 else 512 := by
  rw [fClass, h]; cases neg <;> rfl
/-- A number other than zero is subnormal where its exponent field is 0. -/
theorem fClass_fin {v : Nat} {e : Int} (h : decodeFloat m x = .fin neg v e) :
    fClass m x = if v = 0 then (if neg then 32 else 64)
      else if x / 2 ^ m.fb % 2 ^ m.eb = 0 then (if neg then 16 else 128) else (if neg then 8 else 256) := by
  rw [fClass, h]; cases neg <;> simp [bitsOf]

theorem aluFclass_single (hf : fmtOf f.ty = some m) (hp : isPacked f.ty = false) (a b c : Nat) :
    (aluFclass f a b c).1 = fClass m (a % 2 ^ (1 + m.eb + m.fb)) := by
  rw [aluFclass, perElem3_single hf hp, bitsOf_zero]

end
end Sys2Proof.Machine

open Sys2Proof Sys2Proof.Machine in
/-- Settles O13: each of the thirteen runs by its plan, and the sign operations and the classes are read off element by element. -/
theorem floatArithmetic : Obligations.FloatArithmetic := by
  refine ⟨⟨fun _ => .of_exec fun _ => rfl, fun _ => .of_exec fun _ => rfl, fun _ => .of_exec fun _ => rfl,
    fun _ => .of_exec fun _ => rfl, fun _ => .of_exec fun _ => rfl, fun _ => .of_exec fun _ => rfl,
    fun _ => .of_exec fun _ => rfl, fun _ => .of_exec fun _ => rfl, fun _ => .of_exec fun _ => rfl,
    fun _ => .of_exec fun _ => rfl, fun _ => .of_exec fun _ => rfl, fun _ => .of_exec fun _ => rfl,
    fun _ => .of_exec fun _ => rfl⟩, fun f a b c => ⟨fun ht _ => ?_, fun ht k => ?_, fun m ht hf => ?_, fun ht _ k hk => ?_,
    perElem3_quiet .., perElem3_quiet .., perElem3_quiet ..⟩⟩
  · have hf : fmtOf f.ty = some fp32 := by rw [ht]; rfl
    have hp : isPacked f.ty = false := by rw [ht]; rfl
    simp only [testBit_aluFabs_single hf hp, testBit_aluFneg_single hf hp, fp32]
    refine ⟨fun k hk => ?_, rfl, Bool.true_xor _⟩
    simp [hk, beq_false_of_ne (Nat.ne_of_lt hk), Nat.lt_trans hk (Nat.lt_succ_self 31)]
  · obtain ⟨m, hf, hw⟩ : ∃ m, fmtOf f.ty = some m ∧ m.eb + m.fb = 15 := by
      rcases ht with ht | ht <;> rw [ht] <;> exact ⟨_, rfl, rfl⟩
    have hp : isPacked f.ty = false := by rcases ht with ht | ht <;> rw [ht] <;> rfl
    rw [testBit_aluFabs_single hf hp, testBit_aluFneg_single hf hp, Nat.add_assoc, hw]
    exact ⟨rfl, rfl⟩
  · have hp : isPacked f.ty = false := by
      simp only [List.mem_cons, List.not_mem_nil, or_false] at ht
      rcases ht with ht | ht | ht <;> rw [ht] <;> rfl
    dsimp only
    rw [aluFclass_single hf hp]
    cases h : decodeFloat m (a % 2 ^ (1 + m.eb + m.fb)) with
    | nan sig => exact fClass_nan h
    | inf neg => exact fClass_inf h
    | fin neg v e => exact fClass_fin h
  · obtain ⟨m, hf⟩ : ∃ m, fmtOf f.ty = some m := by rcases ht with ht | ht <;> rw [ht] <;> exact ⟨_, rfl⟩
    have hp : isPacked f.ty = true := by rcases ht with ht | ht <;> rw [ht] <;> rfl
    exact ⟨testBit_aluFabs_packed hf hp a b c hk, testBit_aluFneg_packed hf hp a b c hk⟩
end
